-- ==== Sys2Proof/Word.lean ====
section
/-! DEFINITION. The word types of the machine and the two operand sizes (spec/00_scope.md R5, R6; spec/30_encoding.md R74). -/

namespace Sys2Proof

/-- A byte, the smallest addressable unit (R38). -/
abbrev Byte := BitVec 8
/-- A selector, or a 16-bit register part (R5 `SEL_BITS`). -/
abbrev Word16 := BitVec 16
/-- A general register, a linear address or a physical address (R5 `XLEN_GPR`, `LINADDR_BITS`, `PHYSADDR_BITS`). -/
abbrev Word32 := BitVec 32

/-- The operand size in force for one instruction (R74). -/
inductive OpSize where
  | s16
  | s32
  deriving DecidableEq, Repr

/-- Bytes of an operand of this size. -/
def OpSize.bytes : OpSize → Nat
  | .s16 => 2
  | .s32 => 4

/-- Bits of an operand of this size, the `n` of the spec's pseudocode. -/
def OpSize.bits : OpSize → Nat
  | .s16 => 16
  | .s32 => 32

end Sys2Proof
end

