-- ==== Sys2Proof/Syntax.lean ====
section
/-! DEFINITION. The instructions of spec/opcode_table.json, one constructor a row, with their operands (spec/30_encoding.md R72, R75, R76). -/

namespace Sys2Proof

/-- The eight general registers, in the order of their numbers (R20, R75). -/
inductive Reg where
  | eax | ecx | edx | ebx | esp | ebp | esi | edi
  deriving DecidableEq, Repr

/-- The six segment registers (R24). -/
inductive SegReg where
  | es | cs | ss | ds | fs | gs
  deriving DecidableEq, Repr

/-- The control registers a MOV names (R75: n = 0, 2, 3). -/
inductive CtlReg where
  | cr0 | cr2 | cr3
  deriving DecidableEq, Repr

/-- The register parts of a 16-bit effective address (R72). -/
inductive Base16 where
  | bxsi | bxdi | bpsi | bpdi | si | di | bp | bx
  deriving DecidableEq, Repr

/-- The displacement of a 16-bit address: none (mod 00), a byte (mod 01), a word (mod 10). -/
inductive Disp16 where
  | none
  | d8 (b : Byte)
  | d16 (w : Word16)
  deriving DecidableEq, Repr

/-- The displacement of a 32-bit address: none (mod 00), a byte (mod 01), a doubleword (mod 10). -/
inductive Disp32 where
  | none
  | d8 (b : Byte)
  | d32 (w : Word32)
  deriving DecidableEq, Repr

/-- An effective address as the ModRM and SIB bytes spell it (R72). The constructor tells the address size in force. -/
inductive EA where
  | a16 (base : Base16) (d : Disp16)
  | direct16 (w : Word16)
  | a32 (base : Reg) (d : Disp32)
  | direct32 (w : Word32)
  /-- A SIB byte with a base register; `index = esp` is the encoding's "no index". -/
  | sib (scale : BitVec 2) (index base : Reg) (d : Disp32)
  /-- A SIB byte with no base (base 101, mod 00). -/
  | sibDirect (scale : BitVec 2) (index : Reg) (w : Word32)
  deriving DecidableEq, Repr

/-- A memory operand: an address and the segment override in force, if any (R72, R73). -/
structure MemOp where
  ovr : Option SegReg
  ea   : EA
  deriving DecidableEq, Repr

/-- A register or memory operand (R72). A register is held by its number: with 8-bit operands number 4 is AH (R75). -/
inductive RM where
  | reg (r : Reg)
  | mem (m : MemOp)
  deriving DecidableEq, Repr

/-- An immediate, displacement or pointer offset of operand-size bytes (`iv`, `cv`, R75); it tells the operand size. -/
inductive ImmV where
  | i16 (w : Word16)
  | i32 (w : Word32)
  deriving DecidableEq, Repr

/-- The operand size an immediate tells. -/
def ImmV.size : ImmV → OpSize
  | .i16 _ => .s16
  | .i32 _ => .s32

/-- The instructions: one constructor for each row of spec/opcode_table.json, in the table's order (R75, R83). `sz` is the
operand size in force (R74). An operand form the spec faults on (R78) is still an instruction here; its meaning takes the fault. -/
inductive Instr where
  | divRm8 (rm : RM)
  | divRmv (sz : OpSize) (rm : RM)
  | idivRm8 (rm : RM)
  | idivRmv (sz : OpSize) (rm : RM)
  | int3
  | intImm (n : Byte)
  | into
  | bound (sz : OpSize) (r : Reg) (rm : RM)
  | esc (op reg : BitVec 3) (rm : RM)
  | wait
  | jmpRel8 (sz : OpSize) (disp : Byte)
  | jmpRelv (disp : ImmV)
  | jmpRmv (sz : OpSize) (rm : RM)
  | jmpPtr (off : ImmV) (sel : Word16)
  | jmpMem (sz : OpSize) (rm : RM)
  | callRelv (disp : ImmV)
  | callRmv (sz : OpSize) (rm : RM)
  | callPtr (off : ImmV) (sel : Word16)
  | callMem (sz : OpSize) (rm : RM)
  | retf (sz : OpSize)
  | retfImm (sz : OpSize) (n : Word16)
  | iret (sz : OpSize)
  | lds (sz : OpSize) (r : Reg) (rm : RM)
  | les (sz : OpSize) (r : Reg) (rm : RM)
  | lss (sz : OpSize) (r : Reg) (rm : RM)
  | lfs (sz : OpSize) (r : Reg) (rm : RM)
  | lgs (sz : OpSize) (r : Reg) (rm : RM)
  | lldt (rm : RM)
  | movSregRm (sreg : BitVec 3) (rm : RM)
  | movRmSreg (rm : RM) (sreg : BitVec 3)
  | popEs (sz : OpSize)
  | popSs (sz : OpSize)
  | popDs (sz : OpSize)
  | popFs (sz : OpSize)
  | popGs (sz : OpSize)
  | pushEs (sz : OpSize)
  | pushCs (sz : OpSize)
  | pushSs (sz : OpSize)
  | pushDs (sz : OpSize)
  | pushFs (sz : OpSize)
  | pushGs (sz : OpSize)
  | movCrR (cr : CtlReg) (r : Reg)
  | movRCr (r : Reg) (cr : CtlReg)
  | pushReg (sz : OpSize) (r : Reg)
  | pushRm (sz : OpSize) (rm : RM)
  | pushImm8 (sz : OpSize) (i : Byte)
  | pushImmv (i : ImmV)
  | popReg (sz : OpSize) (r : Reg)
  | popRm (sz : OpSize) (rm : RM)
  | enter (sz : OpSize) (size : Word16) (level : Byte)
  | leave (sz : OpSize)
  | movRRm (sz : OpSize) (r : Reg) (rm : RM)
  deriving DecidableEq, Repr

end Sys2Proof
end

