-- ==== Sys2Proof/Config.lean ====
section
/-! DEFINITION. What is fixed for the machine (spec/00_scope.md R5), and the open values: constants with no body, which no proof can see into. -/

namespace Sys2Proof

/-- `MAX_INSTR_LEN`: the longest instruction that does not fault (R5, R70, R73). -/
def Config.maxInstrLen : Nat := 15

/-- `TSS_MIN_LIMIT`: the smallest valid limit of a TSS descriptor (R5, R153 row 1). -/
def Config.tssMinLimit : Nat := 103

/-- How far ahead of EIP a store may meet bytes already fetched ahead (R63: `MAX_INSTR_LEN` + 16). -/
def Config.codeWindow : Nat := Config.maxInstrLen + 16

/-- A word the source does not determine, `UNSPEC` (R11); drawn at the counter `State.freeCtr`. Log entry 1. -/
opaque Config.freeWord : Nat → Word32

/-- A choice the source does not determine, `UNSPEC` (R11); drawn at the counter `State.freeCtr`. Log entry 1. -/
opaque Config.freeBit : Nat → Bool

/-- `ChecksError` (R100): whether an ESC instruction, by the low three bits of its first byte, its ModRM `reg` field and its operand, tests the
ERROR# pin. The source says "certain ESC instructions" and not which (spec/91_not_in_source.md N4). Log entry 2. -/
opaque Config.checksError : BitVec 3 → BitVec 3 → RM → Bool

/-- The width in bytes of the portions in which the coprocessor's interface moves an operand of so many bytes: the source gives none (R52, N4).
Log entry 12. -/
opaque Config.portionBytes : Nat → Nat

end Sys2Proof
end

