-- ==== Sys2Proof/WellFormed.lean ====
section
/-! DEFINITION. Which instruction terms an encoding exists for: the address forms that ModRM and SIB can spell (spec/30_encoding.md R72). -/

namespace Sys2Proof

/-- Whether ModRM and SIB spell this address: [BP] and [EBP] need a displacement (mod 00 with that register means a displacement alone),
and a 32-bit base ESP needs a SIB byte (rm 100 announces one). -/
def EA.wf : EA → Bool
  | .a16 .bp .none => false
  | .a32 .esp _ => false
  | .a32 .ebp .none => false
  | .sib _ _ .ebp .none => false
  | _ => true

/-- A register or memory operand that ModRM and SIB spell. -/
def RM.wf : RM → Bool
  | .reg _ => true
  | .mem m => m.ea.wf

/-- The register or memory operand of an instruction, if its encoding has a ModRM byte that spells one. -/
def Instr.rm? : Instr → Option RM
  | .divRm8 rm | .divRmv _ rm | .idivRm8 rm | .idivRmv _ rm | .bound _ _ rm | .esc _ _ rm => some rm
  | .jmpRmv _ rm | .jmpMem _ rm | .callRmv _ rm | .callMem _ rm => some rm
  | .lds _ _ rm | .les _ _ rm | .lss _ _ rm | .lfs _ _ rm | .lgs _ _ rm => some rm
  | .lldt rm | .movSregRm _ rm | .movRmSreg rm _ | .pushRm _ rm | .popRm _ rm | .movRRm _ _ rm => some rm
  | .int3 | .intImm _ | .into | .wait | .jmpRel8 _ _ | .jmpRelv _ | .jmpPtr _ _ | .callRelv _ | .callPtr _ _ => none
  | .retf _ | .retfImm _ _ | .iret _ => none
  | .popEs _ | .popSs _ | .popDs _ | .popFs _ | .popGs _ => none
  | .pushEs _ | .pushCs _ | .pushSs _ | .pushDs _ | .pushFs _ | .pushGs _ => none
  | .movCrR _ _ | .movRCr _ _ | .pushReg _ _ | .pushImm8 _ _ | .pushImmv _ | .popReg _ _ | .enter _ _ _ | .leave _ => none

/-- An instruction is well formed when its operand can be encoded. Every other field is of a type that holds only encodable values. -/
def Instr.wf (i : Instr) : Bool :=
  match i.rm? with
  | some rm => rm.wf
  | none => true

end Sys2Proof
end

