-- ==== Sys2Proof/Decode.lean ====
section
/-! DEFINITION. The decoder, total on any bytes, and the encoder (spec/30_encoding.md R70 to R76, R83). Every bit pattern is the spec's own
general knowledge (its G10). -/

namespace Sys2Proof

/-! ## Numbers of registers in encodings (R75, R83) -/

def Reg.ofBits (n : BitVec 3) : Reg :=
  match n.toNat with
  | 0 => .eax
  | 1 => .ecx
  | 2 => .edx
  | 3 => .ebx
  | 4 => .esp
  | 5 => .ebp
  | 6 => .esi
  | _ => .edi

def Reg.toBits : Reg → BitVec 3
  | .eax => 0
  | .ecx => 1
  | .edx => 2
  | .ebx => 3
  | .esp => 4
  | .ebp => 5
  | .esi => 6
  | .edi => 7

/-- The segment register a ModRM `reg` field names; 6 and 7 name none (R75, R78). -/
def SegReg.ofBits (n : BitVec 3) : Option SegReg :=
  match n.toNat with
  | 0 => some .es
  | 1 => some .cs
  | 2 => some .ss
  | 3 => some .ds
  | 4 => some .fs
  | 5 => some .gs
  | _ => none

/-- The control register a ModRM `reg` field names; others are outside the opcode map (R75). -/
def CtlReg.ofBits (n : BitVec 3) : Option CtlReg :=
  match n.toNat with
  | 0 => some .cr0
  | 2 => some .cr2
  | 3 => some .cr3
  | _ => none

def CtlReg.toBits : CtlReg → BitVec 3
  | .cr0 => 0
  | .cr2 => 2
  | .cr3 => 3

def Base16.ofBits (n : BitVec 3) : Base16 :=
  match n.toNat with
  | 0 => .bxsi
  | 1 => .bxdi
  | 2 => .bpsi
  | 3 => .bpdi
  | 4 => .si
  | 5 => .di
  | 6 => .bp
  | _ => .bx

def Base16.toBits : Base16 → BitVec 3
  | .bxsi => 0
  | .bxdi => 1
  | .bpsi => 2
  | .bpdi => 3
  | .si => 4
  | .di => 5
  | .bp => 6
  | .bx => 7

/-! ## Reading bytes -/

/-- Why the decoder gives no instruction. -/
inductive DecodeError where
  /-- The bytes end before the instruction does. -/
  | more
  /-- A first byte, a byte after 0F, a digit or a control-register number outside the opcode map of R75 (R77). -/
  | unlisted
  deriving DecidableEq, Repr

/-- A reader of instruction bytes. -/
abbrev Reader := StateT (List Byte) (Except DecodeError)

def Reader.fail {α : Type} (e : DecodeError) : Reader α := fun _ => .error e

def nextByte : Reader Byte
  | [] => .error .more
  | b :: r => .ok (b, r)

/-- A 16-bit field, low byte first (R76). -/
def nextWord : Reader Word16 := do
  let lo ← nextByte
  let hi ← nextByte
  pure (hi ++ lo)

/-- A 32-bit field, low byte first (R76). -/
def nextDword : Reader Word32 := do
  let lo ← nextWord
  let hi ← nextWord
  pure (hi ++ lo)

def nextImmV : OpSize → Reader ImmV
  | .s16 => do
    let w ← nextWord
    pure (.i16 w)
  | .s32 => do
    let w ← nextDword
    pure (.i32 w)

/-! ## The bytes before the opcode (R73) -/

/-- What the bytes before the opcode have asked for. -/
structure Lead where
  op66 : Bool := false
  ad67 : Bool := false
  ovr : Option SegReg := none
  deriving DecidableEq, Repr

/-- One byte before the opcode, or `none` where the opcode begins. Repeating one has no effect but on the length (R73); of two
segment overrides the later one is in force (log entry 3); LOCK, REP and REPNE change nothing here (R62, R71; log entry 3). -/
def leadByte (l : Lead) (b : Byte) : Option Lead :=
  if b = 0x66#8 then some { l with op66 := true }
  else if b = 0x67#8 then some { l with ad67 := true }
  else if b = 0x26#8 then some { l with ovr := some .es }
  else if b = 0x2E#8 then some { l with ovr := some .cs }
  else if b = 0x36#8 then some { l with ovr := some .ss }
  else if b = 0x3E#8 then some { l with ovr := some .ds }
  else if b = 0x64#8 then some { l with ovr := some .fs }
  else if b = 0x65#8 then some { l with ovr := some .gs }
  else if b = 0xF0#8 ∨ b = 0xF2#8 ∨ b = 0xF3#8 then some l
  else none

def splitLead (l : Lead) : List Byte → Lead × List Byte
  | [] => (l, [])
  | b :: r =>
    match leadByte l b with
    | some l' => splitLead l' r
    | none => (l, b :: r)

/-- The operand size in force: the segment's default, switched by 66 (R74). `d32` is the default size of the code segment. -/
def Lead.opSize (l : Lead) (d32 : Bool) : OpSize := if l.op66 != d32 then .s32 else .s16

/-- Whether 32-bit addressing is in force: the segment's default, switched by 67 (R74). -/
def Lead.addr32 (l : Lead) (d32 : Bool) : Bool := l.ad67 != d32

/-! ## ModRM and SIB (R72) -/

def modOf (b : Byte) : BitVec 2 := b.extractLsb' 6 2
def regOf (b : Byte) : BitVec 3 := b.extractLsb' 3 3
def rmOf (b : Byte) : BitVec 3 := b.extractLsb' 0 3

def nextDisp16 (md : BitVec 2) : Reader Disp16 :=
  if md = 1#2 then do
    let b ← nextByte
    pure (.d8 b)
  else if md = 2#2 then do
    let w ← nextWord
    pure (.d16 w)
  else pure .none

def nextDisp32 (md : BitVec 2) : Reader Disp32 :=
  if md = 1#2 then do
    let b ← nextByte
    pure (.d8 b)
  else if md = 2#2 then do
    let w ← nextDword
    pure (.d32 w)
  else pure .none

def nextEA16 (md : BitVec 2) (rm : BitVec 3) : Reader EA :=
  if md = 0#2 ∧ rm = 6#3 then do
    let w ← nextWord
    pure (.direct16 w)
  else do
    let d ← nextDisp16 md
    pure (.a16 (Base16.ofBits rm) d)

def nextSib (md : BitVec 2) : Reader EA := do
  let b ← nextByte
  if md = 0#2 ∧ rmOf b = 5#3 then do
    let w ← nextDword
    pure (.sibDirect (modOf b) (Reg.ofBits (regOf b)) w)
  else do
    let d ← nextDisp32 md
    pure (.sib (modOf b) (Reg.ofBits (regOf b)) (Reg.ofBits (rmOf b)) d)

def nextEA32 (md : BitVec 2) (rm : BitVec 3) : Reader EA :=
  if rm = 4#3 then nextSib md
  else if md = 0#2 ∧ rm = 5#3 then do
    let w ← nextDword
    pure (.direct32 w)
  else do
    let d ← nextDisp32 md
    pure (.a32 (Reg.ofBits rm) d)

/-- The operand a ModRM byte names, with what follows it in the bytes. -/
def nextRM (a32 : Bool) (ovr : Option SegReg) (modrm : Byte) : Reader RM :=
  if modOf modrm = 3#2 then pure (.reg (Reg.ofBits (rmOf modrm)))
  else do
    let ea ← if a32 then nextEA32 (modOf modrm) (rmOf modrm) else nextEA16 (modOf modrm) (rmOf modrm)
    pure (.mem { ovr := ovr, ea := ea })

/-- A ModRM byte with its tail: the `reg` field and the operand. -/
def nextModRM (a32 : Bool) (ovr : Option SegReg) : Reader (BitVec 3 × RM) := do
  let b ← nextByte
  let rm ← nextRM a32 ovr b
  pure (regOf b, rm)

/-! ## The opcode map (R75) -/

/-- The opcodes whose ModRM `reg` field is a digit of the opcode. -/
def groupInstr (op : Nat) (sz : OpSize) (digit : BitVec 3) (rm : RM) : Option Instr :=
  match op, digit.toNat with
  | 0xF6, 6 => some (.divRm8 rm)
  | 0xF6, 7 => some (.idivRm8 rm)
  | 0xF7, 6 => some (.divRmv sz rm)
  | 0xF7, 7 => some (.idivRmv sz rm)
  | 0xFF, 2 => some (.callRmv sz rm)
  | 0xFF, 3 => some (.callMem sz rm)
  | 0xFF, 4 => some (.jmpRmv sz rm)
  | 0xFF, 5 => some (.jmpMem sz rm)
  | 0xFF, 6 => some (.pushRm sz rm)
  | 0x8F, 0 => some (.popRm sz rm)
  | 0x00, 2 => some (.lldt rm)
  | _, _ => none

/-- An instruction picked by its ModRM digit. The whole ModRM tail is read before the digit is judged (log entry 38). -/
def nextGroup (op : Nat) (sz : OpSize) (a32 : Bool) (ovr : Option SegReg) : Reader Instr := do
  let (digit, rm) ← nextModRM a32 ovr
  match groupInstr op sz digit rm with
  | some i => pure i
  | none => Reader.fail .unlisted

/-- The opcodes after 0F. -/
def nextTwoByte (sz : OpSize) (a32 : Bool) (ovr : Option SegReg) : Reader Instr := do
  let op ← nextByte
  match op.toNat with
  | 0x00 => nextGroup 0x00 sz a32 ovr
  | 0x20 => do
    let b ← nextByte
    match CtlReg.ofBits (regOf b) with
    | some c => pure (.movRCr (Reg.ofBits (rmOf b)) c)
    | none => Reader.fail .unlisted
  | 0x22 => do
    let b ← nextByte
    match CtlReg.ofBits (regOf b) with
    | some c => pure (.movCrR c (Reg.ofBits (rmOf b)))
    | none => Reader.fail .unlisted
  | 0xA0 => pure (.pushFs sz)
  | 0xA1 => pure (.popFs sz)
  | 0xA8 => pure (.pushGs sz)
  | 0xA9 => pure (.popGs sz)
  | 0xB2 => do
    let (r, rm) ← nextModRM a32 ovr
    pure (.lss sz (Reg.ofBits r) rm)
  | 0xB4 => do
    let (r, rm) ← nextModRM a32 ovr
    pure (.lfs sz (Reg.ofBits r) rm)
  | 0xB5 => do
    let (r, rm) ← nextModRM a32 ovr
    pure (.lgs sz (Reg.ofBits r) rm)
  | _ => Reader.fail .unlisted

/-- The one-byte opcodes with no number in their low bits. -/
def nextOneByte (op : Nat) (sz : OpSize) (a32 : Bool) (ovr : Option SegReg) : Reader Instr :=
  match op with
  | 0x06 => pure (.pushEs sz)
  | 0x07 => pure (.popEs sz)
  | 0x0E => pure (.pushCs sz)
  | 0x0F => nextTwoByte sz a32 ovr
  | 0x16 => pure (.pushSs sz)
  | 0x17 => pure (.popSs sz)
  | 0x1E => pure (.pushDs sz)
  | 0x1F => pure (.popDs sz)
  | 0x62 => do
    let (r, rm) ← nextModRM a32 ovr
    pure (.bound sz (Reg.ofBits r) rm)
  | 0x68 => do
    let i ← nextImmV sz
    pure (.pushImmv i)
  | 0x6A => do
    let i ← nextByte
    pure (.pushImm8 sz i)
  | 0x8B => do
    let (r, rm) ← nextModRM a32 ovr
    pure (.movRRm sz (Reg.ofBits r) rm)
  | 0x8C => do
    let (r, rm) ← nextModRM a32 ovr
    pure (.movRmSreg rm r)
  | 0x8E => do
    let (r, rm) ← nextModRM a32 ovr
    pure (.movSregRm r rm)
  | 0x8F => nextGroup 0x8F sz a32 ovr
  | 0x9A => do
    let off ← nextImmV sz
    let sel ← nextWord
    pure (.callPtr off sel)
  | 0x9B => pure .wait
  | 0xC4 => do
    let (r, rm) ← nextModRM a32 ovr
    pure (.les sz (Reg.ofBits r) rm)
  | 0xC5 => do
    let (r, rm) ← nextModRM a32 ovr
    pure (.lds sz (Reg.ofBits r) rm)
  | 0xC8 => do
    let size ← nextWord
    let level ← nextByte
    pure (.enter sz size level)
  | 0xC9 => pure (.leave sz)
  | 0xCA => do
    let n ← nextWord
    pure (.retfImm sz n)
  | 0xCB => pure (.retf sz)
  | 0xCC => pure .int3
  | 0xCD => do
    let n ← nextByte
    pure (.intImm n)
  | 0xCE => pure .into
  | 0xCF => pure (.iret sz)
  | 0xE8 => do
    let d ← nextImmV sz
    pure (.callRelv d)
  | 0xE9 => do
    let d ← nextImmV sz
    pure (.jmpRelv d)
  | 0xEA => do
    let off ← nextImmV sz
    let sel ← nextWord
    pure (.jmpPtr off sel)
  | 0xEB => do
    let d ← nextByte
    pure (.jmpRel8 sz d)
  | 0xF6 => nextGroup 0xF6 sz a32 ovr
  | 0xF7 => nextGroup 0xF7 sz a32 ovr
  | 0xFF => nextGroup 0xFF sz a32 ovr
  | _ => Reader.fail .unlisted

def nextInstr (sz : OpSize) (a32 : Bool) (ovr : Option SegReg) : Reader Instr := do
  let op ← nextByte
  if op &&& 0xF8#8 = 0x50#8 then pure (.pushReg sz (Reg.ofBits (rmOf op)))
  else if op &&& 0xF8#8 = 0x58#8 then pure (.popReg sz (Reg.ofBits (rmOf op)))
  else if op &&& 0xF8#8 = 0xD8#8 then do
    let (r, rm) ← nextModRM a32 ovr
    pure (.esc (rmOf op) r rm)
  else nextOneByte op.toNat sz a32 ovr

/-- The instruction at the head of `bs`, with the bytes after it, in a code segment of default size `d32` (R70, R71). -/
def decode (d32 : Bool) (bs : List Byte) : Except DecodeError (Instr × List Byte) :=
  let l := (splitLead {} bs).1
  nextInstr (l.opSize d32) (l.addr32 d32) l.ovr (splitLead {} bs).2

/-! ## The encoder -/

def wordBytes (w : Word16) : List Byte := [w.extractLsb' 0 8, w.extractLsb' 8 8]

def dwordBytes (w : Word32) : List Byte := wordBytes (w.extractLsb' 0 16) ++ wordBytes (w.extractLsb' 16 16)

def ImmV.toBytes : ImmV → List Byte
  | .i16 w => wordBytes w
  | .i32 w => dwordBytes w

/-- A ModRM byte, or a SIB byte (R72). -/
def modrm (md : BitVec 2) (reg rm : BitVec 3) : Byte := md ++ reg ++ rm

def Disp16.md : Disp16 → BitVec 2
  | .none => 0
  | .d8 _ => 1
  | .d16 _ => 2

def Disp16.toBytes : Disp16 → List Byte
  | .none => []
  | .d8 b => [b]
  | .d16 w => wordBytes w

def Disp32.md : Disp32 → BitVec 2
  | .none => 0
  | .d8 _ => 1
  | .d32 _ => 2

def Disp32.toBytes : Disp32 → List Byte
  | .none => []
  | .d8 b => [b]
  | .d32 w => dwordBytes w

/-- The ModRM byte with `reg` in its middle field, and its tail. -/
def EA.toBytes (reg : BitVec 3) : EA → List Byte
  | .a16 b d => modrm d.md reg b.toBits :: d.toBytes
  | .direct16 w => modrm 0 reg 6 :: wordBytes w
  | .a32 b d => modrm d.md reg b.toBits :: d.toBytes
  | .direct32 w => modrm 0 reg 5 :: dwordBytes w
  | .sib s i b d => modrm d.md reg 4 :: modrm s i.toBits b.toBits :: d.toBytes
  | .sibDirect s i w => modrm 0 reg 4 :: modrm s i.toBits 5 :: dwordBytes w

def RM.toBytes (reg : BitVec 3) : RM → List Byte
  | .reg r => [modrm 3 reg r.toBits]
  | .mem m => m.ea.toBytes reg

def EA.is32 : EA → Bool
  | .a16 _ _ | .direct16 _ => false
  | .a32 _ _ | .direct32 _ | .sib _ _ _ _ | .sibDirect _ _ _ => true

/-- The operand size an instruction's encoding depends on, if it depends on one (R74, R75). -/
def Instr.opSize? : Instr → Option OpSize
  | .divRmv sz _ | .idivRmv sz _ | .bound sz _ _ => some sz
  | .jmpRel8 sz _ | .jmpRmv sz _ | .jmpMem sz _ | .callRmv sz _ | .callMem sz _ => some sz
  | .jmpRelv d | .callRelv d => some d.size
  | .jmpPtr o _ | .callPtr o _ => some o.size
  | .retf sz | .retfImm sz _ | .iret sz => some sz
  | .lds sz _ _ | .les sz _ _ | .lss sz _ _ | .lfs sz _ _ | .lgs sz _ _ => some sz
  | .popEs sz | .popSs sz | .popDs sz | .popFs sz | .popGs sz => some sz
  | .pushEs sz | .pushCs sz | .pushSs sz | .pushDs sz | .pushFs sz | .pushGs sz => some sz
  | .pushReg sz _ | .pushRm sz _ | .pushImm8 sz _ | .popReg sz _ | .popRm sz _ => some sz
  | .pushImmv i => some i.size
  | .enter sz _ _ | .leave sz | .movRRm sz _ _ => some sz
  | .divRm8 _ | .idivRm8 _ | .int3 | .intImm _ | .into | .esc _ _ _ | .wait => none
  | .lldt _ | .movSregRm _ _ | .movRmSreg _ _ | .movCrR _ _ | .movRCr _ _ => none

/-- The bytes before the opcode that an instruction needs in a segment of default size `d32` (R73, R74). -/
def opLead (d32 : Bool) : Option OpSize → List Byte
  | some .s16 => if d32 then [0x66] else []
  | some .s32 => if d32 then [] else [0x66]
  | none => []

def segLead : Option SegReg → List Byte
  | none => []
  | some .es => [0x26]
  | some .cs => [0x2E]
  | some .ss => [0x36]
  | some .ds => [0x3E]
  | some .fs => [0x64]
  | some .gs => [0x65]

def rmLead (d32 : Bool) : Option RM → List Byte
  | some (.mem m) => (if m.ea.is32 != d32 then [0x67] else []) ++ segLead m.ovr
  | _ => []

/-- The opcode and what follows it (R75, R76). -/
def Instr.body : Instr → List Byte
  | .divRm8 rm => 0xF6 :: rm.toBytes 6
  | .divRmv _ rm => 0xF7 :: rm.toBytes 6
  | .idivRm8 rm => 0xF6 :: rm.toBytes 7
  | .idivRmv _ rm => 0xF7 :: rm.toBytes 7
  | .int3 => [0xCC]
  | .intImm n => [0xCD, n]
  | .into => [0xCE]
  | .bound _ r rm => 0x62 :: rm.toBytes r.toBits
  | .esc op reg rm => ((0x1B#5 ++ op : BitVec 8)) :: rm.toBytes reg
  | .wait => [0x9B]
  | .jmpRel8 _ d => [0xEB, d]
  | .jmpRelv d => 0xE9 :: d.toBytes
  | .jmpRmv _ rm => 0xFF :: rm.toBytes 4
  | .jmpPtr o s => 0xEA :: (o.toBytes ++ wordBytes s)
  | .jmpMem _ rm => 0xFF :: rm.toBytes 5
  | .callRelv d => 0xE8 :: d.toBytes
  | .callRmv _ rm => 0xFF :: rm.toBytes 2
  | .callPtr o s => 0x9A :: (o.toBytes ++ wordBytes s)
  | .callMem _ rm => 0xFF :: rm.toBytes 3
  | .retf _ => [0xCB]
  | .retfImm _ n => 0xCA :: wordBytes n
  | .iret _ => [0xCF]
  | .lds _ r rm => 0xC5 :: rm.toBytes r.toBits
  | .les _ r rm => 0xC4 :: rm.toBytes r.toBits
  | .lss _ r rm => 0x0F :: 0xB2 :: rm.toBytes r.toBits
  | .lfs _ r rm => 0x0F :: 0xB4 :: rm.toBytes r.toBits
  | .lgs _ r rm => 0x0F :: 0xB5 :: rm.toBytes r.toBits
  | .lldt rm => 0x0F :: 0x00 :: rm.toBytes 2
  | .movSregRm s rm => 0x8E :: rm.toBytes s
  | .movRmSreg rm s => 0x8C :: rm.toBytes s
  | .popEs _ => [0x07]
  | .popSs _ => [0x17]
  | .popDs _ => [0x1F]
  | .popFs _ => [0x0F, 0xA1]
  | .popGs _ => [0x0F, 0xA9]
  | .pushEs _ => [0x06]
  | .pushCs _ => [0x0E]
  | .pushSs _ => [0x16]
  | .pushDs _ => [0x1E]
  | .pushFs _ => [0x0F, 0xA0]
  | .pushGs _ => [0x0F, 0xA8]
  | .movCrR c r => [0x0F, 0x22, modrm 3 c.toBits r.toBits]
  | .movRCr r c => [0x0F, 0x20, modrm 3 c.toBits r.toBits]
  | .pushReg _ r => [(0x0A#5 ++ r.toBits : BitVec 8)]
  | .pushRm _ rm => 0xFF :: rm.toBytes 6
  | .pushImm8 _ i => [0x6A, i]
  | .pushImmv i => 0x68 :: i.toBytes
  | .popReg _ r => [(0x0B#5 ++ r.toBits : BitVec 8)]
  | .popRm _ rm => 0x8F :: rm.toBytes 0
  | .enter _ size level => 0xC8 :: (wordBytes size ++ [level])
  | .leave _ => [0xC9]
  | .movRRm _ r rm => 0x8B :: rm.toBytes r.toBits

/-- The bytes of a well-formed instruction in a code segment of default size `d32`, with no redundant byte before the opcode. -/
def encode (d32 : Bool) (i : Instr) : List Byte := opLead d32 i.opSize? ++ rmLead d32 i.rm? ++ i.body

/-! ## Words as spec/opcode_table.json numbers their bits -/

/-- The low `n` bytes of `w`, most significant byte first. -/
def bytesDown : Nat → Nat → List Byte
  | 0, _ => []
  | n + 1, w => BitVec.ofNat 8 (w / 256 ^ n) :: bytesDown n w

/-- The low `n` bytes of `w`, least significant byte first. -/
def bytesUp : Nat → Nat → List Byte
  | 0, _ => []
  | n + 1, w => BitVec.ofNat 8 w :: bytesUp n (w / 256)

/-- Bytes filled up with zeros to the longest instruction (R70). -/
def padInstr (bs : List Byte) : List Byte := bs ++ List.replicate (Config.maxInstrLen - bs.length) 0

/-- The default size of the code segment that the machine has after reset: 16 bits (log entry 4). -/
def resetDefault32 : Bool := false

/-- A table word laid out as instruction bytes, with zeros after it. The table's rows number a word's bits with the FIRST byte most
significant (its `fixed` gives DIV's F6 at bits 15 to 8), so that order is taken; where no instruction of the map reads so, the
first byte is taken as the least significant one (log entry 5). -/
def tableBytes (nbits w : Nat) : List Byte :=
  match decode resetDefault32 (padInstr (bytesDown (nbits / 8) w)) with
  | .ok _ => padInstr (bytesDown (nbits / 8) w)
  | .error _ => padInstr (bytesUp (nbits / 8) w)

/-- The instruction the decoder reads from a table word, in the code segment the machine has after reset. -/
def decodeTableWord (nbits w : Nat) : Option Instr :=
  match decode resetDefault32 (tableBytes nbits w) with
  | .ok (i, _) => some i
  | .error _ => none

end Sys2Proof
end

