-- ==== Sys2Proof/Machine/State.lean ====
section
/-! DEFINITION. The state of the machine, plain data, and the state right after reset (spec/10_state.md; INVENTORY.md lists every piece). -/

namespace Sys2Proof.Machine

/-- Why the machine stops with no next state. -/
inductive Fault where
  /-- `step`, in a state whose processor has shut down: "a stuck state that is never final: no instruction step is enabled" (R187). Safe. -/
  | shutdown
  deriving DecidableEq, Repr

/-- Why the model gives no meaning. Each one is safe: the model stops where the hardware goes on. -/
inductive Refusal where
  /-- `exec`: an instruction that has no meaning yet. No arm raises it. Safe. -/
  | notModelled (mnemonic : String)
  /-- Every step and meaning, in a state with CR0.PE = 0: real-address mode is outside the spec (R201, R208). Safe. -/
  | realMode
  /-- A step or meaning in a state with VM = 1, a delivery from V86 mode to level 0, a task or a return that enters V86 mode (R200, R208). Safe. -/
  | v86Mode
  /-- The fetch: an opcode outside the opcode map (R77: "refused", not faulted). Safe. -/
  | unlistedOpcode
  /-- The fetch: instruction bytes that pass the top of the offset space inside the limit (spec/91_not_in_source.md N12). Safe. -/
  | eipWrap
  /-- The fetch: a byte stored so near ahead that the old byte may have been fetched before (R63). Safe. -/
  | staleCode
  /-- A translation through a page-table entry stored to since CR3 was loaded (R64). Safe. -/
  | staleTranslation
  /-- A read of the accessed and dirty bits of a page-directory or page-table entry that translation may have used: "programs reading those bits
  are refuse" (spec/93_implementation_defined.md U21, R57). Safe. -/
  | accessedBits
  /-- The delivery of exception 10 through a trap or interrupt gate (R157). Safe. -/
  | invalidTssNotTask
  /-- IRET from the handler of an abort (spec/93_implementation_defined.md U1). Safe. -/
  | abortReturn
  /-- An ESC instruction that passes its tests with no coprocessor attached (R100, R208). Safe. -/
  | noCoprocessor
  deriving DecidableEq, Repr

/-- The eight general registers (R20). -/
structure Gpr where
  eax : Word32
  ecx : Word32
  edx : Word32
  ebx : Word32
  esp : Word32
  ebp : Word32
  esi : Word32
  edi : Word32
  deriving DecidableEq, Repr

/-- What kind of segment a code or data descriptor describes (R32). -/
inductive SegKind where
  | code (conforming readable : Bool)
  | data (writable expandDown : Bool)
  deriving DecidableEq, Repr

/-- The attributes of a code or data descriptor (R32). `limit` is the last valid offset in bytes (for an expand-down segment the last invalid
one); `big` is the D or B bit (R74, R125). -/
structure SegDesc where
  base  : Word32
  limit : Word32
  kind  : SegKind
  dpl   : BitVec 2
  big   : Bool
  deriving DecidableEq, Repr

/-- A segment register: the selector, the attributes obtained when the load was checked, and the flag `checked` (R24). -/
structure SegState where
  sel     : Word16
  desc    : SegDesc
  checked : Bool
  deriving DecidableEq, Repr

/-- The six segment registers (R24). -/
structure SegRegs where
  es : SegState
  cs : SegState
  ss : SegState
  ds : SegState
  fs : SegState
  gs : SegState
  deriving DecidableEq, Repr

/-- GDTR or IDTR: where a descriptor table lies (R30). -/
structure TableReg where
  base  : Word32
  limit : Word16
  deriving DecidableEq, Repr

/-- The LDT register and the table it names; `usable` is false when there is no LDT (R30, R111). -/
structure LdtReg where
  sel    : Word16
  base   : Word32
  limit  : Word32
  usable : Bool
  deriving DecidableEq, Repr

/-- TR: the current task's TSS (R30, R33). -/
structure TaskReg where
  sel   : Word16
  base  : Word32
  limit : Word32
  deriving DecidableEq, Repr

/-- The debug registers (R29). -/
structure DebugRegs where
  dr0 : Word32
  dr1 : Word32
  dr2 : Word32
  dr3 : Word32
  dr6 : Word32
  dr7 : Word32
  deriving DecidableEq, Repr

/-- The set `DebugCondition` answers (R29, R138). A breakpoint condition is four bits, one for each of DR0 to DR3. -/
structure DebugConds where
  instrBp       : BitVec 4 := 0
  dataBp        : BitVec 4 := 0
  generalDetect : Bool := false
  singleStep    : Bool := false
  taskSwitch    : Bool := false
  deriving DecidableEq, Repr

/-- The coprocessor attached: the parameter `COPROC` (R5). -/
inductive Coproc where
  | none
  | i80287
  | i80387
  deriving DecidableEq, Repr

/-- What the coprocessor does with an ESC instruction's memory operand (R36, R100): nothing, take `n` bytes, or give bytes. -/
inductive NpxTransfer where
  | none
  | load (n : Nat)
  | store (data : List Byte)
  deriving DecidableEq, Repr

/-- The environment's answer for the coprocessor (R13, R100 `OPEN(InsnSemantics)`): the operand transfer, and a value it puts in AX, if any. -/
structure NpxAnswer where
  transfer : NpxTransfer := .none
  ax       : Option Word16 := none
  deriving DecidableEq, Repr

/-- What the environment presents before one step (R13, R195, R196, R37, R138). -/
structure Input where
  nmi      : Bool := false
  intr     : Option Byte := none
  errorPin : Bool := false
  debug    : DebugConds := {}
  npx      : NpxAnswer := {}
  deriving DecidableEq, Repr

/-- What the processor is trying to invoke a handler for (R37 `delivering`). -/
inductive Delivering where
  | vector (v : Byte)
  | doubleFault
  deriving DecidableEq, Repr

/-- How far a task switch has gone (R37 "task-switch progress", R155, R156). -/
inductive SwitchProgress where
  | idle
  | located
  | committed
  deriving DecidableEq, Repr

/-- How the present step has ended so far: the step looks at it to know which debug traps may follow (R132, R134). -/
inductive StepKind where
  /-- an instruction that completed, by invoking a handler too where that is its own effect (INT n, INT 3, INTO) -/
  | plain
  /-- an instruction that switched tasks -/
  | switched
  /-- a fault, an abort, a debug exception or an external interrupt was delivered -/
  | faulted
  deriving DecidableEq, Repr

/-- Where a handler was given control: a stack frame whose EIP image lies at a linear address, or a task (U1, R195; log entries 13 and 21). -/
inductive HandlerFrame where
  | stack (lin : Word32)
  | task (sel : Word16)
  deriving DecidableEq, Repr

/-- The state of the machine. -/
structure State where
  gpr         : Gpr
  eip         : Word32
  /-- The offset part of `next_pc` during an instruction: the offset of the byte after it (R22). -/
  nextEip     : Word32
  eflags      : Word32
  cpl         : BitVec 2
  segs        : SegRegs
  cr0         : Word32
  cr2         : Word32
  cr3         : Word32
  dbg         : DebugRegs
  gdtr        : TableReg
  idtr        : TableReg
  ldtr        : LdtReg
  tr          : TaskReg
  /-- Physical memory, in the canonical form of `Memory.wf`. -/
  mem         : List Host.Cell
  delivering  : Option Delivering
  shutdown    : Bool
  nmiPending  : Bool
  /-- Where the handler of an NMI was entered that has not returned yet: further NMIs are held off (R195). -/
  nmiFrame    : Option HandlerFrame
  /-- The external interrupt requested now, by its vector (R196). -/
  intr        : Option Byte
  /-- The level of the ERROR# pin: true is asserted (R37). -/
  errorPin    : Bool
  coproc      : Coproc
  npx         : NpxAnswer
  /-- The answer of `DebugCondition` for the coming step (R29, R138). -/
  debugIn     : DebugConds
  /-- Debug traps held off by a load of SS (R112). -/
  heldTraps   : DebugConds
  /-- What the environment will present before each later step; nothing new once the list ends. -/
  inputs      : List Input
  /-- The last instruction loaded SS with MOV or POP (R112). -/
  ssShadow    : Bool
  /-- A task whose TSS has its debug trap bit set was entered, and its trap is not reported yet (R138). -/
  taskTrap    : Bool
  switching   : SwitchProgress
  stepKind    : StepKind
  abortFrames : List HandlerFrame
  /-- The stores of the present instruction or delivery, in their indivisible parts (R52), newest first (R51). -/
  journal     : List (List Host.Cell)
  /-- The bytes stored since the last control transfer, each with EIP at the store (R63). -/
  codeStores  : List (Nat × Word32)
  /-- Paging has been on since CR3 was loaded, and is off now: translations may be held (R64). -/
  paged       : Bool
  /-- The bytes stored since CR3 was loaded, once paging has been on (R64). -/
  ptStores    : List Nat
  /-- The bytes of page-table entries that were in use before the last change of CR0, CR3 or the page directory, and that nothing has stored to since (U21). -/
  entryDoubts : List Nat
  /-- How many open values have been drawn (R11 `UNSPEC`). -/
  freeCtr     : Nat
  deriving DecidableEq, Repr

/-- A segment register right after reset: base 0, limit 0xFFFF (R39), a writable 16-bit data segment of level 0 (log entry 6). -/
def resetSeg : SegState :=
  { sel := 0, desc := { base := 0, limit := 0xFFFF, kind := .data true false, dpl := 0, big := false }, checked := true }

/-- CS right after reset: 0xF000 with base 0xFFFF0000, limit 0xFFFF (R39), a readable 16-bit code segment of level 0 (log entry 6). -/
def resetCs : SegState :=
  { sel := 0xF000, desc := { base := 0xFFFF0000, limit := 0xFFFF, kind := .code false true, dpl := 0, big := false }, checked := true }

/-- The machine right after reset: the values of R39, and for what R39 leaves unstated the values of log entry 6. -/
def State.reset : State where
  gpr := { eax := 0, ecx := 0, edx := 0x308, ebx := 0, esp := 0, ebp := 0, esi := 0, edi := 0 }
  eip := 0xFFF0
  nextEip := 0xFFF0
  eflags := 0x2
  cpl := 0
  segs := { es := resetSeg, cs := resetCs, ss := resetSeg, ds := resetSeg, fs := resetSeg, gs := resetSeg }
  cr0 := 0x10
  cr2 := 0
  cr3 := 0
  dbg := { dr0 := 0, dr1 := 0, dr2 := 0, dr3 := 0, dr6 := 0, dr7 := 0 }
  gdtr := { base := 0, limit := 0xFFFF }
  idtr := { base := 0, limit := 0x3FF }
  ldtr := { sel := 0, base := 0, limit := 0xFFFF, usable := false }
  tr := { sel := 0, base := 0, limit := 0xFFFF }
  mem := []
  delivering := none
  shutdown := false
  nmiPending := false
  nmiFrame := none
  intr := none
  errorPin := false
  coproc := .i80387
  npx := {}
  debugIn := {}
  heldTraps := {}
  inputs := []
  ssShadow := false
  taskTrap := false
  switching := .idle
  stepKind := .plain
  abortFrames := []
  journal := []
  codeStores := []
  paged := false
  ptStores := []
  entryDoubts := []
  freeCtr := 0

end Sys2Proof.Machine
end

