-- ==== Sys2Proof/Machine/Memory.lean ====
section
/-! DEFINITION. Physical memory: a sorted list of cells in one canonical form (spec/10_state.md R38, spec/20_memory.md R50, R53). -/

namespace Sys2Proof.Machine

/-- What an address that no cell lists reads as. The spec gives RAM no reset contents (R53; log entry 7). -/
def Memory.unlisted : Byte := 0

/-- One byte of memory. -/
def Memory.read : List Host.Cell → Nat → Byte
  | [], _ => Memory.unlisted
  | (k, v) :: r, a => if k = a then v else Memory.read r a

/-- `m` without a cell at `a`; `m` is sorted. -/
def Memory.erase : List Host.Cell → Nat → List Host.Cell
  | [], _ => []
  | (k, v) :: r, a => if a < k then (k, v) :: r else if k = a then r else (k, v) :: Memory.erase r a

/-- `m` with the cell `(a, b)`; `m` is sorted. -/
def Memory.insert : List Host.Cell → Nat → Byte → List Host.Cell
  | [], a, b => [(a, b)]
  | (k, v) :: r, a, b =>
    if a < k then (a, b) :: (k, v) :: r else if k = a then (a, b) :: r else (k, v) :: Memory.insert r a b

/-- Store one byte; a byte that an unlisted address reads as is not listed. -/
def Memory.write (m : List Host.Cell) (a : Nat) (b : Byte) : List Host.Cell :=
  if b = Memory.unlisted then Memory.erase m a else Memory.insert m a b

/-- Whether every cell of `m` lies above `a`, addresses rise strictly, and no cell holds what an unlisted address reads as. -/
def Memory.above : Nat → List Host.Cell → Bool
  | _, [] => true
  | a, (k, v) :: r => decide (a < k) && decide (v ≠ Memory.unlisted) && Memory.above k r

/-- The canonical form. -/
def Memory.wf : List Host.Cell → Bool
  | [] => true
  | (k, v) :: r => decide (v ≠ Memory.unlisted) && Memory.above k r

/-- Bytes assembled little-endian: the byte at the lowest address holds bits 7:0 (R50). -/
def leValue : List Byte → Word32
  | [] => 0
  | b :: r => (leValue r <<< 8) ||| b.setWidth 32

end Sys2Proof.Machine
end

