-- ==== Sys2Proof/Machine/Exceptions.lean ====
section
/-! DEFINITION. The exceptions, their classes, error codes and double-fault classes (spec/60_exceptions.md R130 to R187). -/

namespace Sys2Proof.Machine

/-- The exceptions (R9, R135). A selector error code is held with EXT as R181 sets it. -/
inductive Exc where
  | divideError
  | debug (c : DebugConds)
  | breakpoint
  | overflow
  | boundsCheck
  | invalidOpcode
  | coprocNotAvailable
  | doubleFault
  | coprocOverrun
  | invalidTss (ec : Word16)
  | notPresent (ec : Word16)
  | stackFault (ec : Word16)
  | generalProtection (ec : Word16)
  /-- `lin` is the linear address of the access; `prot`: an access-rights violation, not a missing page (R172, R173). -/
  | pageFault (lin : Word32) (prot write user : Bool)
  | coprocError
  deriving DecidableEq, Repr

/-- What a handler is invoked for: an exception, INT n, NMI or an external interrupt (R93, R195, R196, R197). -/
inductive Event where
  | exc (e : Exc)
  | soft (n : Byte)
  | nmi
  | external (v : Byte)
  deriving DecidableEq, Repr

/-- The interrupt number of an exception (R135). -/
def Exc.vector : Exc → Byte
  | .divideError => 0
  | .debug _ => 1
  | .breakpoint => 3
  | .overflow => 4
  | .boundsCheck => 5
  | .invalidOpcode => 6
  | .coprocNotAvailable => 7
  | .doubleFault => 8
  | .coprocOverrun => 9
  | .invalidTss _ => 10
  | .notPresent _ => 11
  | .stackFault _ => 12
  | .generalProtection _ => 13
  | .pageFault _ _ _ _ => 14
  | .coprocError => 16

def Event.vector : Event → Byte
  | .exc e => e.vector
  | .soft n => n
  | .nmi => 2
  | .external v => v

/-- Fault, trap or abort (R130 to R133). -/
inductive ExcClass where
  | fault
  | trap
  | abort
  deriving DecidableEq, Repr

/-- Whether a set of debug conditions holds one that is a fault: an instruction breakpoint or general detect (R138). -/
def DebugConds.hasFault (c : DebugConds) : Bool := c.instrBp != 0 || c.generalDetect

/-- Whether a set of debug conditions holds one that is a trap: a data breakpoint, single step or a task-switch breakpoint (R138). -/
def DebugConds.hasTrap (c : DebugConds) : Bool := c.dataBp != 0 || c.singleStep || c.taskSwitch

/-- The class of an exception (R135, R138). -/
def Exc.excClass : Exc → ExcClass
  | .debug c => if c.hasFault then .fault else .trap
  | .breakpoint | .overflow => .trap
  | .doubleFault | .coprocOverrun => .abort
  | .divideError | .boundsCheck | .invalidOpcode | .coprocNotAvailable | .invalidTss _ | .notPresent _ | .stackFault _
  | .generalProtection _ | .pageFault _ _ _ _ | .coprocError => .fault

/-- The double-fault detection classes (R185, Table 9-3). -/
inductive DfClass where
  | benign
  | contributory
  | pageFault
  deriving DecidableEq, Repr

/-- Table 9-3. Exception 8 is in none of its classes: `report` treats it by R187 before it asks. -/
def Exc.dfClass : Exc → DfClass
  | .divideError | .coprocOverrun | .invalidTss _ | .notPresent _ | .stackFault _ | .generalProtection _ => .contributory
  | .pageFault _ _ _ _ => .pageFault
  | .debug _ | .breakpoint | .overflow | .boundsCheck | .invalidOpcode | .coprocNotAvailable | .doubleFault | .coprocError => .benign

/-- Table 9-3 for any event; INT n and external interrupts are benign (R185). -/
def Event.dfClass : Event → DfClass
  | .exc e => e.dfClass
  | .soft _ | .nmi | .external _ => .benign

/-- What two exceptions in a row come to (R186, Table 9-4): `true` is DOUBLE, `false` is OK. -/
def isDouble (first second : DfClass) : Bool :=
  match first, second with
  | .contributory, .contributory => true
  | .pageFault, .contributory | .pageFault, .pageFault => true
  | _, _ => false

/-- Whether the processor's own instruction asked for the handler: then EXT stays 0 and a gate's DPL is checked (R181, R197). -/
def Event.software : Event → Bool
  | .soft _ | .exc .breakpoint | .exc .overflow => true
  | _ => false

def Event.isAbort : Event → Bool
  | .exc e => e.excClass == .abort
  | _ => false

/-- Whether an event's handler "must be a task invoked via a task gate": exception 10 (R157). -/
def Event.needsTask : Event → Bool
  | .exc (.invalidTss _) => true
  | _ => false

/-- How a step that delivered the event ends: the trap instructions complete (R132, R197), another event cuts an instruction off or comes before
one. -/
def Event.kind : Event → StepKind
  | .soft _ | .exc .breakpoint | .exc .overflow => .plain
  | _ => .faulted

/-- The error code an exception pushes, before the open bits are drawn (R179, R180, R173, R150). -/
inductive ErrCode where
  | none
  | zero
  | selector (ec : Word16)
  | page (prot write user : Bool)
  deriving DecidableEq, Repr

/-- R179: exceptions 8 and 10 to 14 push an error code; the others, INT n and interrupts push none. -/
def Exc.errCode : Exc → ErrCode
  | .doubleFault => .zero
  | .invalidTss ec | .notPresent ec | .stackFault ec | .generalProtection ec => .selector ec
  | .pageFault _ p w u => .page p w u
  | .divideError | .debug _ | .breakpoint | .overflow | .boundsCheck | .invalidOpcode | .coprocNotAvailable | .coprocOverrun
  | .coprocError => .none

def Event.errCode : Event → ErrCode
  | .exc e => e.errCode
  | .soft _ | .nmi | .external _ => .none

/-- The error code of an IDT entry: the vector as index, the I-bit set, EXT clear (R180, R182). -/
def idtError (v : Byte) : Word16 := (v.setWidth 16 <<< 3) ||| 2

/-- The low three bits of a page-fault error code (R173). -/
def pageCode (prot write user : Bool) : Word32 :=
  (if prot then 1 else 0) ||| (if write then 2 else 0) ||| (if user then 4 else 0)

/-- EXT set in a selector error code (R181). In a code that is otherwise null EXT is open (R180): `nullBit` is the draw. -/
def extCode (nullBit : Bool) (ec : Word16) : Word16 :=
  if ec = 0 then (if nullBit then 1 else 0) else ec ||| 1

/-- The exception with EXT set in its selector error code, if it has one (R181). -/
def Exc.withExt (nullBit : Bool) : Exc → Exc
  | .invalidTss ec => .invalidTss (extCode nullBit ec)
  | .notPresent ec => .notPresent (extCode nullBit ec)
  | .stackFault ec => .stackFault (extCode nullBit ec)
  | .generalProtection ec => .generalProtection (extCode nullBit ec)
  | e => e

/-- The DR6 status bits of a set of debug conditions: B0 to B3 = 3:0, BD = 13, BS = 14, BT = 15 (R29, R139). -/
def DebugConds.status (c : DebugConds) : Word32 :=
  (c.instrBp ||| c.dataBp).setWidth 32 ||| (if c.generalDetect then 0x2000 else 0) ||| (if c.singleStep then 0x4000 else 0)
    ||| (if c.taskSwitch then 0x8000 else 0)

/-- Both sets of debug conditions. -/
def DebugConds.join (a b : DebugConds) : DebugConds where
  instrBp := a.instrBp ||| b.instrBp
  dataBp := a.dataBp ||| b.dataBp
  generalDetect := a.generalDetect || b.generalDetect
  singleStep := a.singleStep || b.singleStep
  taskSwitch := a.taskSwitch || b.taskSwitch

end Sys2Proof.Machine
end

