-- ==== Sys2Proof/Machine/Registers.lean ====
section
/-! DEFINITION. The accessors of every register: general, segment, flags, control (spec/10_state.md R20 to R31). -/

namespace Sys2Proof.Machine

/-! ## General registers (R20) -/

def Gpr.get (g : Gpr) : Reg → Word32
  | .eax => g.eax
  | .ecx => g.ecx
  | .edx => g.edx
  | .ebx => g.ebx
  | .esp => g.esp
  | .ebp => g.ebp
  | .esi => g.esi
  | .edi => g.edi

def Gpr.set (g : Gpr) (r : Reg) (v : Word32) : Gpr :=
  match r with
  | .eax => { g with eax := v }
  | .ecx => { g with ecx := v }
  | .edx => { g with edx := v }
  | .ebx => { g with ebx := v }
  | .esp => { g with esp := v }
  | .ebp => { g with ebp := v }
  | .esi => { g with esi := v }
  | .edi => { g with edi := v }

/-- `old` with its low 16 bits replaced: "leaves the other bits of the 32-bit register unchanged" (R20). -/
def setLow16 (old : Word32) (v : Word16) : Word32 := old.extractLsb' 16 16 ++ v

/-- `old` with bits 7:0 replaced (R20). -/
def setLow8 (old : Word32) (v : Byte) : Word32 := old.extractLsb' 8 24 ++ v

/-- `old` with bits 15:8 replaced (R20). -/
def setHigh8 (old : Word32) (v : Byte) : Word32 := old.extractLsb' 16 16 ++ v ++ old.extractLsb' 0 8

def State.setGpr (s : State) (r : Reg) (v : Word32) : State := { s with gpr := s.gpr.set r v }

/-- A register at the operand size, its value extended with zeros. -/
def State.reg (s : State) (sz : OpSize) (r : Reg) : Word32 :=
  match sz with
  | .s16 => (s.gpr.get r).setWidth 16 |>.setWidth 32
  | .s32 => s.gpr.get r

/-- Write a register at the operand size (R20). -/
def State.setReg (s : State) (sz : OpSize) (r : Reg) (v : Word32) : State :=
  match sz with
  | .s16 => s.setGpr r (setLow16 (s.gpr.get r) (v.setWidth 16))
  | .s32 => s.setGpr r v

/-- The 32-bit register an 8-bit register number lies in: numbers 4 to 7 are AH, CH, DH, BH (R75). -/
def host8 : Reg → Reg
  | .eax | .esp => .eax
  | .ecx | .ebp => .ecx
  | .edx | .esi => .edx
  | .ebx | .edi => .ebx

/-- Whether an 8-bit register number names a second byte. -/
def isHigh8 : Reg → Bool
  | .esp | .ebp | .esi | .edi => true
  | .eax | .ecx | .edx | .ebx => false

def State.reg8 (s : State) (r : Reg) : Byte :=
  if isHigh8 r then (s.gpr.get (host8 r)).extractLsb' 8 8 else (s.gpr.get (host8 r)).extractLsb' 0 8

/-! ## Segment registers (R24) -/

def SegRegs.get (g : SegRegs) : SegReg → SegState
  | .es => g.es
  | .cs => g.cs
  | .ss => g.ss
  | .ds => g.ds
  | .fs => g.fs
  | .gs => g.gs

def SegRegs.set (g : SegRegs) (r : SegReg) (v : SegState) : SegRegs :=
  match r with
  | .es => { g with es := v }
  | .cs => { g with cs := v }
  | .ss => { g with ss := v }
  | .ds => { g with ds := v }
  | .fs => { g with fs := v }
  | .gs => { g with gs := v }

/-- A selector's requested privilege level, bits 1:0 (R24). -/
def rpl (sel : Word16) : BitVec 2 := sel.extractLsb' 0 2

/-- Whether a selector picks from the LDT, bit 2 (R24). -/
def inLdt (sel : Word16) : Bool := sel.getLsbD 2

/-- A selector whose bits 15:2 are zero is null (R24). -/
def isNull (sel : Word16) : Bool := sel &&& 0xFFFC == 0

/-- A selector in an error code, EXT clear: `selector & 0xFFFC` (R180). -/
def selError (sel : Word16) : Word16 := sel &&& 0xFFFC

/-- A selector with another RPL. -/
def withRpl (sel : Word16) (p : BitVec 2) : Word16 := (sel &&& 0xFFFC) ||| p.setWidth 16

/-- A segment register's attributes while it holds the null selector: nothing may be accessed through them (R118). -/
def nullDesc : SegDesc := { base := 0, limit := 0, kind := .data false false, dpl := 0, big := false }

/-- A data segment register holding a null selector, "marked checked, unusable for access" (R118). -/
def nullSeg (sel : Word16) : SegState := { sel := sel, desc := nullDesc, checked := true }

/-! ## Flags (R23) -/

def flagTF : Nat := 8
def flagIF : Nat := 9
def flagOF : Nat := 11
def flagNT : Nat := 14
def flagVM : Nat := 17

def State.flag (s : State) (n : Nat) : Bool := s.eflags.getLsbD n

def State.iopl (s : State) : BitVec 2 := s.eflags.extractLsb' 12 2

/-- `old` with the bits of `mask` taken from `new`. -/
def maskMerge (mask old new : Word32) : Word32 := (old &&& ~~~mask) ||| (new &&& mask)

/-! ## Control registers (R25, R27, R28) -/

def State.pe (s : State) : Bool := s.cr0.getLsbD 0
def State.mp (s : State) : Bool := s.cr0.getLsbD 1
def State.em (s : State) : Bool := s.cr0.getLsbD 2
def State.ts (s : State) : Bool := s.cr0.getLsbD 3
def State.pg (s : State) : Bool := s.cr0.getLsbD 31

def State.ctl (s : State) : CtlReg → Word32
  | .cr0 => s.cr0
  | .cr2 => s.cr2
  | .cr3 => s.cr3

/-! ## The program counter (R21, R22) -/

/-- `pc <- next_pc`: go on with the instruction that follows. -/
def State.advance (s : State) : State := { s with eip := s.nextEip }

/-- Set the offset part of the program counter to a target. A transfer of control ends every doubt about bytes fetched ahead (R63). -/
def State.jump (s : State) (t : Word32) : State := { s with eip := t, codeStores := [] }

/-- Load CS; the current privilege level is the RPL of CS (R31). -/
def State.setCs (s : State) (v : SegState) : State := { s with segs := { s.segs with cs := v }, cpl := rpl v.sel }

/-- Whether the current procedure runs at user level: level 3 (R31, R199). -/
def State.user (s : State) : Bool := s.cpl == 3

/-- The mode the model covers: protected mode, not V86 (R200, R201). -/
def State.modeRefusal (s : State) : Option Refusal :=
  if !s.pe then some .realMode else if s.flag flagVM then some .v86Mode else none

end Sys2Proof.Machine
end

