-- ==== Sys2Proof/Machine/Paging.lean ====
section
/-! DEFINITION. Page tables: the layout of their entries, which tables are in use, which of their bytes a program may not read, and the load of a
control register (spec/10_state.md R25 to R28, R35; spec/20_memory.md R57, R64). -/

namespace Sys2Proof.Machine

/-! ## Entries (log entry 8: the family's layout; the spec gives none, spec/91_not_in_source.md N10) -/

/-- A doubleword of physical memory. -/
def Memory.dword (m : List Host.Cell) (pa : Nat) : Word32 := leValue ((List.range 4).map (fun k => Memory.read m (pa + k)))

/-- Present, writable and user bits of a page-directory or page-table entry. -/
def entryPresent (e : Word32) : Bool := e.getLsbD 0
def entryWritable (e : Word32) : Bool := e.getLsbD 1
def entryUser (e : Word32) : Bool := e.getLsbD 2

/-- The physical address of the table or page an entry points to, or of the page directory that CR3 names: bits 31:12, whatever bits 11:0 hold
(log entry 8). -/
def entryBase (e : Word32) : Nat := (e &&& 0xFFFFF000).toNat

/-- Whether a byte of the entry at this address was stored to since CR3 was loaded, once paging had been on: the entry may not be used (R64). -/
def State.staleEntry (s : State) (pa : Nat) : Bool := s.ptStores.any (fun x => decide (pa ≤ x) && decide (x < pa + 4))

/-- The bytes stored to since CR3 was loaded, once paging has been on, after a store to one more (R64). -/
def State.ptStoresPast (s : State) (pa : Nat) : List Nat := if s.pg || s.paged then pa :: s.ptStores else s.ptStores

/-- The state as to which entries may be used after a store to a byte. -/
def State.touch (s : State) (pa : Nat) : State := { s with ptStores := s.ptStoresPast pa }

/-! ## The bits that translation may write on the hardware (R57, U21; log entry 18) -/

/-- The page frames of the page directory and of the page tables in use: none without paging. A directory entry stored to since CR3 was loaded puts no table
in use, whole or half stored, since no translation goes through it before CR3 is loaded (R64). An entry that memory does not list reads as zero, not
present (log entry 7), so that the listed ones are all. -/
def State.tables (s : State) : List Nat :=
  let dir := entryBase s.cr3 / 4096
  let entries := s.mem.filterMap (fun c => if c.1 / 4096 = dir ∧ c.1 % 4 = 0 ∧ !s.staleEntry c.1 then some (Memory.dword s.mem c.1) else none)
  if s.pg then dir :: (entries.filter entryPresent).map (fun e => entryBase e / 4096) else []

/-- Whether a byte is the one of a present entry, in a table in use, that would hold accessed and dirty bits; not once a store has put its own value
there, since the entry may not be used before CR3 is loaded (R64). -/
def State.usedEntry (s : State) (pa : Nat) : Bool :=
  decide (pa % 4 = 0) && (Memory.read s.mem pa).getLsbD 0 && !s.ptStores.contains pa && s.tables.contains (pa / 4096)

/-- Whether what a byte reads as depends on accessed and dirty bits: it belongs to an entry in use, or to one that was. -/
def State.entryBits (s : State) (pa : Nat) : Bool := s.usedEntry pa || s.entryDoubts.contains pa

/-- The bytes in doubt once the tables in use change: those of the entries in use now, and those of entries that were. -/
def State.doubts (s : State) : List Nat :=
  (s.mem.map Prod.fst).filter (fun pa => s.usedEntry pa && !s.entryDoubts.contains pa) ++ s.entryDoubts

/-- The tables in use change: what their entries hold stays in doubt until a store. -/
def State.leaveTables (s : State) : State := { s with entryDoubts := s.doubts }

/-- The bytes in doubt after a store to a byte. A store to the page directory in use may put a table out of use, whose entries stay in doubt; the byte
itself then holds what was stored. -/
def State.doubtsPast (s : State) (pa : Nat) : List Nat :=
  (if s.pg && decide (pa / 4096 = entryBase s.cr3 / 4096) then s.doubts else s.entryDoubts).filter (fun x => x != pa)

/-! ## Control registers (R25 to R28) -/

/-- Write a control register. Loading CR3 ends every doubt about translations held from before (R64). -/
def State.setCtl (s : State) (c : CtlReg) (v : Word32) : State :=
  match c with
  | .cr0 => { s.leaveTables with cr0 := v, paged := s.paged || s.pg }
  | .cr2 => { s with cr2 := v }
  | .cr3 => { s.leaveTables with cr3 := v, paged := false, ptStores := [] }

end Sys2Proof.Machine
end

