-- ==== Sys2Proof/Machine/Access.lean ====
section
/-! DEFINITION. The form of an operation, the draw of open values, page translation and access by linear address
(spec/00_scope.md R8, R9, R11; spec/20_memory.md R50 to R60). -/

namespace Sys2Proof.Machine

/-- How an operation ends early: an exception is raised (R9), or the model gives no meaning. -/
inductive Stop where
  | exc (e : Exc)
  | refuse (r : Refusal)
  deriving DecidableEq, Repr

/-- An operation of the machine: it answers a value and a state, or ends early, with the state as it is then. -/
abbrev M := EStateM Stop State

/-- `raise V(ec)` (R9). -/
def raise {α : Type} (e : Exc) : M α := fun s => .error (.exc e) s

def refuse {α : Type} (r : Refusal) : M α := fun s => .error (.refuse r) s

/-- Go on if `c` holds, else raise `e`. -/
def require (c : Bool) (e : Exc) : M Unit := fun s => if c then .ok () s else .error (.exc e) s

/-- Go on if `c` holds, else the model gives no meaning. -/
def covered (c : Bool) (r : Refusal) : M Unit := fun s => if c then .ok () s else .error (.refuse r) s

/-- Do `m` if `c` holds, else nothing. -/
def onlyIf (c : Bool) (m : M Unit) : M Unit := if c then m else pure ()

/-- A value already worked out, or the reason there is none. -/
def liftStop {α : Type} (x : Except Stop α) : M α := fun s =>
  match x with
  | .ok a => .ok a s
  | .error e => .error e s

/-- A function of the state. -/
def look {α : Type} (f : State → α) : M α := fun s => .ok (f s) s

/-- A change of the state. -/
def change (f : State → State) : M Unit := fun s => .ok () (f s)

/-! ## Open values (R11 `UNSPEC`) -/

def State.drawn (s : State) : State := { s with freeCtr := s.freeCtr + 1 }

def drawBit : M Bool := fun s => .ok (Config.freeBit s.freeCtr) s.drawn

def drawWord : M Word32 := fun s => .ok (Config.freeWord s.freeCtr) s.drawn

/-! ## Storing (R60: a store takes effect before the next instruction begins) -/

/-- Store one byte at a physical address, noted where a later fetch, translation or read of a page-table entry must know of it. -/
def State.storeByte (s : State) (pa : Nat) (b : Byte) : State :=
  { s with
    mem := Memory.write s.mem pa b
    codeStores := (pa, s.eip) :: s.codeStores
    ptStores := s.ptStoresPast pa
    entryDoubts := s.doubtsPast pa }

/-- Store these bytes, the first first. -/
def State.storeCells (s : State) : List Host.Cell → State
  | [] => s
  | (pa, b) :: r => (s.storeByte pa b).storeCells r

/-- The bytes of `v`, low byte first, at these physical addresses (R50). -/
def cells : List Nat → Word32 → List Host.Cell
  | [], _ => []
  | pa :: r, v => (pa, v.setWidth 8) :: cells r (v >>> 8)

/-- Whether `n` bytes at an address are accessed indivisibly: 1, 2 or 4 of them, aligned (R52). -/
def indivisible (n a : Nat) : Bool := (n == 1 || n == 2 || n == 4) && a % n == 0

/-- The indivisible parts of a store: an aligned one of 1, 2 or 4 bytes is one part (R52), another is made byte by byte (R51). -/
def parts (c : List Host.Cell) : List (List Host.Cell) := if indivisible c.length (c.headD (0, 0)).1 then [c] else c.map (fun x => [x])

/-- Remember a store in its indivisible parts, for a fault that may still come (R51, U20). -/
def State.note (s : State) (c : List Host.Cell) : State := { s with journal := (parts c).reverse ++ s.journal }

/-- Store the bytes of `v`, low byte first, at these physical addresses. -/
def State.storeBytes (s : State) (l : List Nat) (v : Word32) : State := (s.storeCells (cells l v)).note (cells l v)

/-! ## Page translation (R54, R57, R58; the entries' layout is log entry 8) -/

/-- A page-directory or page-table entry, at a physical address (log entry 8); one stored to since CR3 was loaded gives no meaning (R64). -/
def pageEntry (s : State) (pa : Nat) : Except Stop Word32 :=
  if s.staleEntry pa then .error (.refuse .staleTranslation)
  else .ok (Memory.dword s.mem pa)

/-- Whether the privilege in force may make this access (R57): at supervisor level every access, at user level what both entries allow. -/
def pageAllows (write user : Bool) (pde pte : Word32) : Bool :=
  !user || (entryUser pde && entryUser pte && (!write || (entryWritable pde && entryWritable pte)))

/-- The page stage: the physical address of one byte, or the page fault (R57, R58). `user` is the level of the access; the fault tells the level the
processor was executing at (R31, R172, R173). The page directory lies at the physical address in CR3's bits 31:12 (log entry 8). -/
def pageWalk (s : State) (write user : Bool) (lin : Word32) : Except Stop Nat :=
  if s.pg then
    match pageEntry s (entryBase s.cr3 + 4 * (lin >>> 22).toNat) with
    | .error e => .error e
    | .ok pde =>
      if entryPresent pde then
        match pageEntry s (entryBase pde + 4 * ((lin >>> 12) &&& 0x3FF).toNat) with
        | .error e => .error e
        | .ok pte =>
          if entryPresent pte then
            if pageAllows write user pde pte then .ok (entryBase pte + (lin &&& 0xFFF).toNat)
            else .error (.exc (.pageFault lin true write s.user))
          else .error (.exc (.pageFault lin false write s.user))
      else .error (.exc (.pageFault lin false write s.user))
  else .ok lin.toNat

/-- The physical address of one byte that an access may use: a read of a byte that depends on accessed and dirty bits is refused, as R57 and U21 say. -/
def translate (s : State) (write user : Bool) (lin : Word32) : Except Stop Nat :=
  match pageWalk s write user lin with
  | .error e => .error e
  | .ok pa => if !write && s.entryBits pa then .error (.refuse .accessedBits) else .ok pa

/-- The physical addresses of `n` bytes from `lin` up, each byte checked in turn (R51), as far as they translate, and why they end. -/
def translateAll (s : State) (write user : Bool) : Nat → Word32 → List Nat × Option Stop
  | 0, _ => ([], none)
  | n + 1, lin =>
    match translate s write user lin with
    | .error e => ([], some e)
    | .ok pa => (pa :: (translateAll s write user n (lin + 1)).1, (translateAll s write user n (lin + 1)).2)

/-- The same for a write that is made byte by byte: each byte is stored before the next is translated, which may then go through no entry that holds it
(R51, R64). -/
def translateEach (user : Bool) : Nat → State → Word32 → List Nat × Option Stop
  | 0, _, _ => ([], none)
  | n + 1, s, lin =>
    match translate s true user lin with
    | .error e => ([], some e)
    | .ok pa => (pa :: (translateEach user n (s.touch pa) (lin + 1)).1, (translateEach user n (s.touch pa) (lin + 1)).2)

/-- The same for a write: one that is not indivisible is made byte by byte (R51, R52). -/
def translateWrite (s : State) (user : Bool) (n : Nat) (lin : Word32) : List Nat × Option Stop :=
  if indivisible n lin.toNat then translateAll s true user n lin else translateEach user n s lin

/-- The value that lies at `n` bytes from `lin` up, little-endian, where they translate. -/
def State.valueAt (s : State) (user : Bool) (n : Nat) (lin : Word32) : Word32 :=
  leValue ((translateAll s false user n lin).1.map (Memory.read s.mem))

/-- `LinRead`: `n` bytes from `lin` up (R8). `user` is the level of the access. -/
def readLin (user : Bool) (n : Nat) (lin : Word32) : M Word32 := fun s =>
  match (translateAll s false user n lin).2 with
  | none => .ok (s.valueAt user n lin) s
  | some e => .error e s

/-- Store some of these bytes, which of them is open: what a write that faults further on leaves (R51, U20). It crosses a page, so that no part of it
but a byte is indivisible. -/
def State.storeSome (s : State) : List Host.Cell → State
  | [] => s
  | (pa, b) :: r => (if Config.freeBit s.freeCtr then (s.drawn.storeByte pa b).note [(pa, b)] else s.drawn).storeSome r

/-- `LinWrite`: the low `n` bytes of `v` from `lin` up (R8). Where a later byte faults, which of the earlier ones are stored is open (R51). -/
def writeLin (user : Bool) (n : Nat) (lin v : Word32) : M Unit := fun s =>
  match (translateWrite s user n lin).2 with
  | none => .ok () (s.storeBytes (translateWrite s user n lin).1 v)
  | some e => .error e (s.storeSome (cells (translateWrite s user n lin).1 v))

end Sys2Proof.Machine
end

