-- ==== Sys2Proof/Machine/Flags.lean ====
section
/-! DEFINITION. What the modelled instructions do to the arithmetic flags (spec/10_state.md R23): none computes one; DIV, IDIV and a load of a
control register leave all six open (spec/40_divide_int_bound.md R90, R91; spec/93_implementation_defined.md U12). -/

namespace Sys2Proof.Machine

/-- The six arithmetic flags: CF, PF, AF, ZF, SF, OF at bits 0, 2, 4, 6, 7, 11 (R23). -/
def arithFlags : Word32 := 0x8D5

/-- Leave the six arithmetic flags open and every other bit of EFLAGS as it is (U12). -/
def openFlags : M Unit := do
  let w ← drawWord
  change (fun s => { s with eflags := maskMerge arithFlags s.eflags w })

end Sys2Proof.Machine
end

