-- ==== Sys2Proof/Machine/Descriptor.lean ====
section
/-! DEFINITION. Descriptors and gates: their layout and their reading from the tables (spec/10_state.md R30, R32 to R34; spec/20_memory.md R56). -/

namespace Sys2Proof.Machine

/-- A descriptor, by its kind, with the attributes of R32, R33 and R34. -/
inductive Desc where
  | seg (present : Bool) (d : SegDesc)
  | ldt (present : Bool) (base limit : Word32)
  | tss (busy present : Bool) (dpl : BitVec 2) (base limit : Word32)
  | callGate (present : Bool) (dpl : BitVec 2) (size : OpSize) (count : BitVec 5) (sel : Word16) (off : Word32)
  | taskGate (present : Bool) (dpl : BitVec 2) (sel : Word16)
  /-- An interrupt gate, or a trap gate. -/
  | intGate (present : Bool) (dpl : BitVec 2) (size : OpSize) (trap : Bool) (sel : Word16) (off : Word32)
  | reserved
  deriving DecidableEq, Repr

/-! ## Layout (log entry 8: the family's; the spec gives none, spec/91_not_in_source.md N7 to N9) -/

def descBase (lo hi : Word32) : Word32 := hi.extractLsb' 24 8 ++ hi.extractLsb' 0 8 ++ lo.extractLsb' 16 16

def descLimit (lo hi : Word32) : Word32 :=
  let raw : Word32 := (hi.extractLsb' 16 4 ++ lo.extractLsb' 0 16 : BitVec 20).setWidth 32
  if hi.getLsbD 23 then (raw <<< 12) ||| 0xFFF else raw

def descPresent (hi : Word32) : Bool := hi.getLsbD 15
def descDpl (hi : Word32) : BitVec 2 := hi.extractLsb' 13 2

def gateSel (lo : Word32) : Word16 := lo.extractLsb' 16 16

def gateOff (size : OpSize) (lo hi : Word32) : Word32 :=
  match size with
  | .s16 => (lo.extractLsb' 0 16).setWidth 32
  | .s32 => hi.extractLsb' 16 16 ++ lo.extractLsb' 0 16

/-- A code or data descriptor's attributes. -/
def segDescOf (lo hi : Word32) : SegDesc where
  base := descBase lo hi
  limit := descLimit lo hi
  kind := if hi.getLsbD 11 then .code (hi.getLsbD 10) (hi.getLsbD 9) else .data (hi.getLsbD 9) (hi.getLsbD 10)
  dpl := descDpl hi
  big := hi.getLsbD 22

/-- A system descriptor or gate, by its type field, bits 11:8. Types 1 and 3 too describe a TSS, of which the spec knows one kind (R33; log
entry 10). -/
def systemDescOf (lo hi : Word32) : Desc :=
  match (hi.extractLsb' 8 4).toNat with
  | 2 => .ldt (descPresent hi) (descBase lo hi) (descLimit lo hi)
  | 4 => .callGate (descPresent hi) (descDpl hi) .s16 (hi.extractLsb' 0 5) (gateSel lo) (gateOff .s16 lo hi)
  | 5 => .taskGate (descPresent hi) (descDpl hi) (gateSel lo)
  | 6 => .intGate (descPresent hi) (descDpl hi) .s16 false (gateSel lo) (gateOff .s16 lo hi)
  | 7 => .intGate (descPresent hi) (descDpl hi) .s16 true (gateSel lo) (gateOff .s16 lo hi)
  | 1 | 9 => .tss false (descPresent hi) (descDpl hi) (descBase lo hi) (descLimit lo hi)
  | 3 | 11 => .tss true (descPresent hi) (descDpl hi) (descBase lo hi) (descLimit lo hi)
  | 12 => .callGate (descPresent hi) (descDpl hi) .s32 (hi.extractLsb' 0 5) (gateSel lo) (gateOff .s32 lo hi)
  | 14 => .intGate (descPresent hi) (descDpl hi) .s32 false (gateSel lo) (gateOff .s32 lo hi)
  | 15 => .intGate (descPresent hi) (descDpl hi) .s32 true (gateSel lo) (gateOff .s32 lo hi)
  | _ => .reserved

/-- The descriptor that two doublewords of a table spell. -/
def parseDesc (lo hi : Word32) : Desc :=
  if hi.getLsbD 12 then .seg (descPresent hi) (segDescOf lo hi) else systemDescOf lo hi

/-! ## Reading the tables (R56) -/

/-- Read the eight bytes of a descriptor, on the processor's own account (R59). -/
def readDescAt (lin : Word32) : M Desc := do
  let lo ← readLin false 4 lin
  let hi ← readLin false 4 (lin + 4)
  pure (parseDesc lo hi)

/-- Where the table entry a selector picks lies, or `none` where the selector is outside its table's limit or there is no LDT (R24, R56). -/
def descAddr (s : State) (sel : Word16) : Option Word32 :=
  if inLdt sel then
    if s.ldtr.usable && decide ((sel &&& 0xFFF8).toNat + 7 ≤ s.ldtr.limit.toNat) then some (s.ldtr.base + (sel &&& 0xFFF8).setWidth 32)
    else none
  else if decide ((sel &&& 0xFFF8).toNat + 7 ≤ s.gdtr.limit.toNat) then some (s.gdtr.base + (sel &&& 0xFFF8).setWidth 32)
  else none

/-- The descriptor picked by `sel`; outside the table's limit, `outside` is raised (R56). -/
def readDesc (outside : Exc) (sel : Word16) : M Desc := fun s =>
  match descAddr s sel with
  | none => .error (.exc outside) s
  | some a => readDescAt a s

/-! ## The tests of a segment-register load (R118) and of CS (R119, R153) -/

/-- Why a descriptor may not be loaded. -/
inductive LoadFail where
  | protection
  | notPresent
  deriving DecidableEq, Repr

/-- `max(CPL, RPL(sel)) > DPL(d)` does not hold (R118). -/
def dataPrivilege (cpl : BitVec 2) (sel : Word16) (dpl : BitVec 2) : Bool := decide (cpl ≤ dpl) && decide (rpl sel ≤ dpl)

/-- The tests for SS: a writable data segment with RPL = CPL and DPL = CPL; the present bit last (R118, R164). -/
def stackTest (cpl : BitVec 2) (sel : Word16) : Desc → Except LoadFail SegDesc
  | .seg present d =>
    match d.kind with
    | .data true _ =>
      if rpl sel == cpl && d.dpl == cpl then
        if present then .ok d else .error .notPresent
      else .error .protection
    | _ => .error .protection
  | _ => .error .protection

/-- The tests for DS, ES, FS and GS: data or readable code; for data and non-conforming code `max(CPL, RPL) ≤ DPL`; the present bit last
(R118, R158). -/
def dataTest (cpl : BitVec 2) (sel : Word16) : Desc → Except LoadFail SegDesc
  | .seg present d =>
    match d.kind with
    | .code _ false => .error .protection
    | .code true true => if present then .ok d else .error .notPresent
    | .code false true | .data _ _ =>
      if dataPrivilege cpl sel d.dpl then
        if present then .ok d else .error .notPresent
      else .error .protection
  | _ => .error .protection

/-- The tests for CS at a level already fixed: a code segment, non-conforming with DPL = CPL or conforming with DPL ≤ CPL (R153 rows 8 to 10). -/
def codeTest (cpl : BitVec 2) : Desc → Except LoadFail SegDesc
  | .seg present d =>
    match d.kind with
    | .code conforming _ =>
      if if conforming then decide (d.dpl ≤ cpl) else d.dpl == cpl then
        if present then .ok d else .error .notPresent
      else .error .protection
    | .data _ _ => .error .protection
  | _ => .error .protection

/-- The tests for one segment register. -/
def segTest (seg : SegReg) (cpl : BitVec 2) (sel : Word16) (d : Desc) : Except LoadFail SegDesc :=
  match seg with
  | .ss => stackTest cpl sel d
  | .cs => codeTest cpl d
  | .ds | .es | .fs | .gs => dataTest cpl sel d

/-- The exception of a not-present segment: 12 for SS, 11 for the others (R158, R164). -/
def absentExc (seg : SegReg) (sel : Word16) : Exc :=
  match seg with
  | .ss => .stackFault (selError sel)
  | .cs | .ds | .es | .fs | .gs => .notPresent (selError sel)

/-- What a segment register would hold after loading `sel`, with every test of R118; a failed test other than the present bit is reported
through `wrong`: exception 13, or exception 10 in a task switch (R118). -/
def checkSelector (wrong : Word16 → Exc) (seg : SegReg) (sel : Word16) : M SegState :=
  if isNull sel then
    match seg with
    | .ss | .cs => raise (wrong 0)
    | .ds | .es | .fs | .gs => pure (nullSeg sel)
  else do
    let d ← readDesc (wrong (selError sel)) sel
    let cpl ← look State.cpl
    match segTest seg cpl sel d with
    | .ok sd => pure { sel := sel, desc := sd, checked := true }
    | .error .protection => raise (wrong (selError sel))
    | .error .notPresent => raise (absentExc seg sel)

end Sys2Proof.Machine
end

