-- ==== Sys2Proof/Machine/Segment.lean ====
section
/-! DEFINITION. The segment stage of an access, `MemRead` and `MemWrite`, and the stack (spec/20_memory.md R54, R55; spec/43_stack.md R125). -/

namespace Sys2Proof.Machine

/-- What an access does (R54). -/
inductive Access where
  | read
  | write
  deriving DecidableEq, Repr

/-- Whether `n` bytes from `off` lie inside the segment's limit: every byte must (R51, R55). An expand-down segment holds the offsets above its
limit (log entry 8). -/
def SegDesc.inLimit (d : SegDesc) (off : Word32) (n : Nat) : Bool :=
  match d.kind with
  | .data _ true => decide (d.limit.toNat < off.toNat) && decide (off.toNat + n ≤ (if d.big then 0x100000000 else 0x10000))
  | _ => decide (off.toNat + n ≤ d.limit.toNat + 1)

/-- Whether the segment's type allows the access: not a write to code or read-only data, not a read of execute-only code (R55). -/
def SegDesc.allows (d : SegDesc) : Access → Bool
  | .write =>
    match d.kind with
    | .data w _ => w
    | .code _ _ => false
  | .read =>
    match d.kind with
    | .data _ _ => true
    | .code _ r => r

/-- The exception of an access outside the limit: 12 through SS, 13 through the others (R55). -/
def limitExc (seg : SegReg) : Exc := if seg = .ss then .stackFault 0 else .generalProtection 0

/-- An access through a segment register that a faulted task switch left unchecked: the exception its selector's descriptor deserves or, where it
deserves none, either an exception of the access or the access (R55, R160, D7; log entry 9). -/
def uncheckedView (seg : SegReg) (sel : Word16) : M SegDesc := do
  let st ← checkSelector .generalProtection seg sel
  let usable ← drawBit
  require usable (limitExc seg)
  pure st.desc

/-- The attributes through which a segment register is used. -/
def segView (seg : SegReg) : M SegDesc := fun s =>
  if (s.segs.get seg).checked then .ok (s.segs.get seg).desc s else uncheckedView seg (s.segs.get seg).sel s

/-- Whether using this register with a null selector raises exception 13: DS, ES, FS and GS (R55). -/
def nullMatters : SegReg → Bool
  | .ds | .es | .fs | .gs => true
  | .cs | .ss => false

/-- The segment stage (R55): the linear address of `n` bytes at `off`, or the exception. Where an access through SS fails both the limit test and
the type test, which of the two is reported is open (D6). The whole access is tested before its first byte is made (log entry 33). -/
def segLin (seg : SegReg) (off : Word32) (n : Nat) (kind : Access) : M Word32 := do
  let sel ← look (fun s => (s.segs.get seg).sel)
  require (!(nullMatters seg && isNull sel)) (.generalProtection 0)
  let d ← segView seg
  match d.inLimit off n, d.allows kind with
  | true, true => pure (d.base + off)
  | true, false => raise (.generalProtection 0)
  | false, true => raise (limitExc seg)
  | false, false => do
    let limitFirst ← drawBit
    raise (if limitFirst then limitExc seg else .generalProtection 0)

/-- `MemRead(seg, off, n)` (R8, R54), at the current level. -/
def memRead (seg : SegReg) (off : Word32) (n : Nat) : M Word32 := do
  let lin ← segLin seg off n .read
  let user ← look State.user
  readLin user n lin

/-- `MemWrite(seg, off, n, v)` (R8, R54), at the current level. -/
def memWrite (seg : SegReg) (off : Word32) (n : Nat) (v : Word32) : M Unit := do
  let lin ← segLin seg off n .write
  let user ← look State.user
  writeLin user n lin v

/-! ## The stack (R120, R121, R125) -/

/-- Whether the stack is a 32-bit one: the B bit of the stack segment (R125). -/
def stackBig : M Bool := do
  let d ← segView .ss
  pure d.big

/-- The size of a stack pointer. -/
def stackSize (big : Bool) : OpSize := if big then .s32 else .s16

/-- An offset on the stack, modulo 2^16 or 2^32 (R125). -/
def stackWrap (big : Bool) (a : Word32) : Word32 := if big then a else a.setWidth 16 |>.setWidth 32

/-- SP or ESP (R125). -/
def getSp : M Word32 := do
  let big ← stackBig
  look (fun s => s.reg (stackSize big) .esp)

/-- Write SP or ESP; a 16-bit stack leaves the upper half of ESP unchanged (R125). -/
def setSp (v : Word32) : M Unit := do
  let big ← stackBig
  change (fun s => s.setReg (stackSize big) .esp v)

/-- `n` bytes at an offset of the stack segment, the offset taken modulo the stack's size. -/
def stackRead (off : Word32) (n : Nat) : M Word32 := do
  let big ← stackBig
  memRead .ss (stackWrap big off) n

/-- Push an operand-size value (R120): the write comes before the pointer moves. -/
def push (sz : OpSize) (v : Word32) : M Unit := do
  let sp ← getSp
  let big ← stackBig
  memWrite .ss (stackWrap big (sp - BitVec.ofNat 32 sz.bytes)) sz.bytes v
  setSp (sp - BitVec.ofNat 32 sz.bytes)

/-- Push several values, the first first. -/
def pushAll (sz : OpSize) : List Word32 → M Unit
  | [] => pure ()
  | v :: r => do
    push sz v
    pushAll sz r

/-- Pop an operand-size value (R121): the read comes before the pointer moves. -/
def pop (sz : OpSize) : M Word32 := do
  let sp ← getSp
  let v ← stackRead sp sz.bytes
  setSp (sp + BitVec.ofNat 32 sz.bytes)
  pure v

/-- A selector as it is pushed: with a 32-bit size its upper 16 bits are open (R115, R189). -/
def selImage (sz : OpSize) (sel : Word16) : M Word32 :=
  match sz with
  | .s16 => pure (sel.setWidth 32)
  | .s32 => do
    let w ← drawWord
    pure (w.extractLsb' 16 16 ++ sel)

end Sys2Proof.Machine
end

