-- ==== Sys2Proof/Machine/Operands.lean ====
section
/-! DEFINITION. Every operand form: effective addresses, register and memory operands, immediates, far pointers (spec/30_encoding.md R72, R76). -/

namespace Sys2Proof.Machine

/-! ## Effective addresses (R72) -/

/-- The register part of a 16-bit address. -/
def base16 (s : State) : Base16 → Word16
  | .bxsi => s.gpr.ebx.setWidth 16 + s.gpr.esi.setWidth 16
  | .bxdi => s.gpr.ebx.setWidth 16 + s.gpr.edi.setWidth 16
  | .bpsi => s.gpr.ebp.setWidth 16 + s.gpr.esi.setWidth 16
  | .bpdi => s.gpr.ebp.setWidth 16 + s.gpr.edi.setWidth 16
  | .si => s.gpr.esi.setWidth 16
  | .di => s.gpr.edi.setWidth 16
  | .bp => s.gpr.ebp.setWidth 16
  | .bx => s.gpr.ebx.setWidth 16

def disp16 : Disp16 → Word16
  | .none => 0
  | .d8 b => b.signExtend 16
  | .d16 w => w

def disp32 : Disp32 → Word32
  | .none => 0
  | .d8 b => b.signExtend 32
  | .d32 w => w

/-- The scaled index of a SIB byte; index 100 means none. -/
def sibIndex (s : State) (scale : BitVec 2) (index : Reg) : Word32 :=
  match index with
  | .esp => 0
  | r => s.gpr.get r <<< scale.toNat

/-- The offset an effective address names: the sum modulo 2^16 with 16-bit addressing, modulo 2^32 with 32-bit addressing. -/
def eaOffset (s : State) : EA → Word32
  | .a16 b d => (base16 s b + disp16 d).setWidth 32
  | .direct16 w => w.setWidth 32
  | .a32 b d => s.gpr.get b + disp32 d
  | .direct32 w => w
  | .sib sc i b d => s.gpr.get b + sibIndex s sc i + disp32 d
  | .sibDirect sc i w => sibIndex s sc i + w

/-- Whether a base register makes SS the default segment: EBP or ESP (R72). -/
def stackBase : Reg → Bool
  | .ebp | .esp => true
  | _ => false

/-- The default segment of an addressing form (R72). -/
def eaDefaultSeg : EA → SegReg
  | .a16 .bpsi _ | .a16 .bpdi _ | .a16 .bp _ => .ss
  | .a16 _ _ | .direct16 _ | .direct32 _ | .sibDirect _ _ _ => .ds
  | .a32 b _ | .sib _ _ b _ => if stackBase b then .ss else .ds

/-- The segment of a memory operand: the override if any, else the default of the form (R124). -/
def opSeg (m : MemOp) : SegReg := m.ovr.getD (eaDefaultSeg m.ea)

/-! ## Operands -/

/-- `n` bytes at `disp` above a memory operand's offset; the sum wraps at 2^32 and not at 2^16 (log entry 27). -/
def opRead (m : MemOp) (disp : Word32) (n : Nat) : M Word32 := do
  let off ← look (fun s => eaOffset s m.ea)
  memRead (opSeg m) (off + disp) n

/-- The value of an r/m16 or r/m32 operand. -/
def readRM (sz : OpSize) : RM → M Word32
  | .reg r => look (fun s => s.reg sz r)
  | .mem m => opRead m 0 sz.bytes

/-- The value of an r/m8 operand, extended with zeros. -/
def readRM8 : RM → M Word32
  | .reg r => look (fun s => (s.reg8 r).setWidth 32)
  | .mem m => opRead m 0 1

/-- Write an r/m16 or r/m32 operand. -/
def writeRM (sz : OpSize) (v : Word32) : RM → M Unit
  | .reg r => change (fun s => s.setReg sz r v)
  | .mem m => do
    let off ← look (fun s => eaOffset s m.ea)
    memWrite (opSeg m) off sz.bytes v

/-- The memory operand of an instruction that allows no register there: a register raises exception 6 (R78, R146). -/
def memOnly : RM → M MemOp
  | .reg _ => raise .invalidOpcode
  | .mem m => pure m

/-- A far pointer in memory: the offset at the lower address, the selector after it (R76). -/
def readFar (sz : OpSize) (m : MemOp) : M (Word32 × Word16) := do
  let off ← opRead m 0 sz.bytes
  let sel ← opRead m (BitVec.ofNat 32 sz.bytes) 2
  pure (off, sel.setWidth 16)

/-- An operand-size immediate, extended with zeros. -/
def immValue : ImmV → Word32
  | .i16 w => w.setWidth 32
  | .i32 w => w

/-- An operand-size displacement, extended with its sign (R76). -/
def immSigned : ImmV → Word32
  | .i16 w => w.signExtend 32
  | .i32 w => w

/-- An offset masked to the operand size (R76). -/
def sizeMask (sz : OpSize) (v : Word32) : Word32 :=
  match sz with
  | .s16 => v.setWidth 16 |>.setWidth 32
  | .s32 => v

/-- A relative target: the displacement added to the EIP of the next instruction, masked with a 16-bit operand size (R76, R105). -/
def relTarget (sz : OpSize) (next disp : Word32) : Word32 := sizeMask sz (next + disp)

end Sys2Proof.Machine
end

