-- ==== Sys2Proof/Machine/Task.lean ====
section
/-! DEFINITION. The task switch (spec/60_exceptions.md R152 to R156, R160, R166, R167, R176). The TSS layout and the busy mark are log entry 10. -/

namespace Sys2Proof.Machine

/-- What causes a task switch: it decides the backlink, the nested-task flag and the busy mark expected (R156, R193). -/
inductive SwitchCause where
  | jmp
  | call
  | int
  | iret
  deriving DecidableEq, Repr

/-- Whether the new task is nested in the old one: "if the switch is due to a CALL or interrupt" (R156). -/
def SwitchCause.nests : SwitchCause → Bool
  | .call | .int => true
  | .jmp | .iret => false

/-! ## Step 1: locate and verify the new TSS (R156) -/

/-- Base and limit of the TSS a selector picks, with the tests made in the old task's context: exception 13 where it picks no TSS this switch may
enter, 11 where that is absent, 10 where it is too short (R56, R106, R153 row 1, R155, R168 item 11). A null selector is not told apart from another
(log entry 10). -/
def locateTss (cause : SwitchCause) (sel : Word16) : M (Word32 × Word32) := do
  require (!inLdt sel) (.generalProtection (selError sel))
  let d ← readDesc (.generalProtection (selError sel)) sel
  match d with
  | .tss busy present _ base limit => do
    require (busy == (cause == .iret)) (.generalProtection (selError sel))
    require present (.notPresent (selError sel))
    require (decide (Config.tssMinLimit ≤ limit.toNat)) (.invalidTss (selError sel))
    pure (base, limit)
  | _ => raise (.generalProtection (selError sel))

/-! ## Step 2: write the state of the original task into its TSS (R156, R176 access 1) -/

/-- Write fields of the current TSS, each given by its offset, its size in bytes and its value. -/
def writeTssFields (base : Word32) : List (Nat × Nat × Word32) → M Unit
  | [] => pure ()
  | (off, n, v) :: r => do
    writeLin false n (base + BitVec.ofNat 32 off) v
    writeTssFields base r

/-- The fields a task saves: EIP, EFLAGS, the general registers, the segment selectors, but neither CR3 nor the LDT selector. A selector is
written as 16 bits (log entry 10). -/
def taskFields (s : State) (pc : Word16 × Word32) (flags : Word32) : List (Nat × Nat × Word32) :=
  [(0x20, 4, pc.2), (0x24, 4, flags), (0x28, 4, s.gpr.eax), (0x2C, 4, s.gpr.ecx), (0x30, 4, s.gpr.edx), (0x34, 4, s.gpr.ebx),
    (0x38, 4, s.gpr.esp), (0x3C, 4, s.gpr.ebp), (0x40, 4, s.gpr.esi), (0x44, 4, s.gpr.edi),
    (0x48, 2, s.segs.es.sel.setWidth 32), (0x4C, 2, pc.1.setWidth 32), (0x50, 2, s.segs.ss.sel.setWidth 32),
    (0x54, 2, s.segs.ds.sel.setWidth 32), (0x58, 2, s.segs.fs.sel.setWidth 32), (0x5C, 2, s.segs.gs.sel.setWidth 32)]

/-- EFLAGS with the nested-task flag set or cleared. -/
def withNt (nested : Bool) (f : Word32) : Word32 := maskMerge 0x4000 f (if nested then 0x4000 else 0)

/-- Save the original task; a return saves it with NT clear. `pc` is the CS:EIP to save. Where the limit in TR does not cover the fields, exception 13
(R168; log entry 10). -/
def saveTask (cause : SwitchCause) (pc : Word16 × Word32) : M Unit := do
  let s ← look id
  require (decide (Config.tssMinLimit ≤ s.tr.limit.toNat)) (.generalProtection 0)
  writeTssFields s.tr.base (taskFields s pc (if cause = .iret then withNt false s.eflags else s.eflags))

/-- Set or clear the busy mark of a TSS descriptor in the GDT; outside the table's limit exception 13 (R56, R168 item 2). -/
def markBusy (busy : Bool) (sel : Word16) : M Unit := fun s =>
  match descAddr s sel with
  | none => .error (.exc (.generalProtection (selError sel))) s
  | some a =>
    (do
      let b ← readLin false 1 (a + 5)
      writeLin false 1 (a + 5) (if busy then b ||| 2 else b &&& 0xFD)) s

/-- The busy marks: a task left by JMP or a return is no longer busy, one entered but by a return becomes so. There is no task to leave where TR holds
the null selector (log entry 10). -/
def markTasks (cause : SwitchCause) (sel : Word16) : M Unit := do
  let old ← look (fun s => s.tr.sel)
  onlyIf (!cause.nests && !isNull old) (markBusy false old)
  onlyIf (cause != .iret) (markBusy true sel)

/-! ## Steps 3 and 4: commit, and load the new task's registers (R156) -/

/-- "TR is updated": from here on errors belong to the new task (R155, R156). TS is set (R25). -/
def State.commitTask (s : State) (sel : Word16) (base limit : Word32) : State :=
  { s with
    tr := { sel := sel, base := base, limit := limit }
    cr0 := s.cr0 ||| 8
    switching := .committed
    stepKind := .switched }

/-- An operation's value or the exception it raises. -/
def attempt {α : Type} (m : M α) : M (Except Exc α) := fun s =>
  match m s with
  | .ok a t => .ok (.ok a) t
  | .error (.exc e) t => .ok (.error e) t
  | .error (.refuse r) t => .error (.refuse r) t

/-- The exception an attempt raised. -/
def raised {α : Type} : Except Exc α → Option Exc
  | .ok _ => none
  | .error e => some e

/-- Raise an exception, if there is one. -/
def raiseSome : Option Exc → M Unit
  | none => pure ()
  | some e => raise e

/-- The backlink of a nested task: the selector of the task it nests in (R156), written as 16 bits (log entry 10). -/
def linkBack (cause : SwitchCause) (base : Word32) (old : Word16) : M Unit := onlyIf cause.nests (writeLin false 2 base (old.setWidth 32))

/-- The value of an attempt, or an open word where it raised an exception. -/
def valueOrDraw : Except Exc Word32 → M Word32
  | .ok v => pure v
  | .error _ => drawWord

/-- Doublewords of the new TSS, each read by itself: one whose read faults is open, and the first such exception is told (R176 access 3). -/
def readTss : Nat → Word32 → M (List Word32 × Option Exc)
  | 0, _ => pure ([], none)
  | n + 1, lin => do
    let v ← attempt (readLin false 4 lin)
    let w ← valueOrDraw v
    let (r, e) ← readTss n (lin + 4)
    pure (w :: r, (raised v).or e)

/-- The `i`-th doubleword of a TSS. -/
def tssWord (w : List Word32) (i : Nat) : Word32 := w.getD i 0

/-- A segment register holding a selector whose descriptor has not been checked (R24, R160). -/
def uncheckedSeg (v : Word32) : SegState := { sel := v.setWidth 16, desc := nullDesc, checked := false }

/-- The general registers a TSS holds. -/
def taskGpr (w : List Word32) : Gpr where
  eax := tssWord w 10
  ecx := tssWord w 11
  edx := tssWord w 12
  ebx := tssWord w 13
  esp := tssWord w 14
  ebp := tssWord w 15
  esi := tssWord w 16
  edi := tssWord w 17

/-- The segment registers a TSS holds, none of them checked yet. -/
def taskSegs (w : List Word32) : SegRegs where
  es := uncheckedSeg (tssWord w 18)
  cs := uncheckedSeg (tssWord w 19)
  ss := uncheckedSeg (tssWord w 20)
  ds := uncheckedSeg (tssWord w 21)
  fs := uncheckedSeg (tssWord w 22)
  gs := uncheckedSeg (tssWord w 23)

/-- Load every register from the words of the new TSS: "first loads all the segment registers" (R160); CPL is the RPL of CS (R153). The LDT register holds
the new selector with no LDT until its check (log entry 10). -/
def State.loadTask (s : State) (nested : Bool) (w : List Word32) : State :=
  State.jump
    { s with
      gpr := taskGpr w
      eflags := if nested then withNt true (tssWord w 9) else tssWord w 9
      segs := taskSegs w
      cpl := rpl (taskSegs w).cs.sel
      ldtr := { sel := (tssWord w 24).setWidth 16, base := 0, limit := 0, usable := false }
      taskTrap := (tssWord w 25).getLsbD 0 }
    (tssWord w 8)

/-! ## Step 5: check the loaded selectors (R153, R154, R160) -/

/-- Row 2 of Table 9-5: the LDT the new TSS names must be a present LDT in the GDT, or the selector null. -/
def checkLdt (sel : Word16) : M LdtReg :=
  if isNull sel then pure { sel := sel, base := 0, limit := 0, usable := false }
  else do
    require (!inLdt sel) (.invalidTss (selError sel))
    let d ← readDesc (.invalidTss (selError sel)) sel
    match d with
    | .ldt true base limit => pure { sel := sel, base := base, limit := limit, usable := true }
    | _ => raise (.invalidTss (selError sel))

/-- Rows 3 to 12 for the segment registers given, in the state that holds the new selectors; where the LDT failed, a selector that picks from it
is left unchecked. A register's place in the list says nothing of the order of the checks, which is open (R154). -/
def checkSegs (ldtOk : Bool) : List SegReg → M (List (SegReg × Except Exc SegState))
  | [] => pure []
  | seg :: r => do
    let sel ← look (fun s => (s.segs.get seg).sel)
    if !ldtOk && inLdt sel then checkSegs ldtOk r
    else do
      let c ← attempt (checkSelector .invalidTss seg sel)
      let cs ← checkSegs ldtOk r
      pure ((seg, c) :: cs)

/-- The exceptions among the checks. -/
def failures : List (SegReg × Except Exc SegState) → List Exc
  | [] => []
  | (_, .error e) :: r => e :: failures r
  | (_, .ok _) :: r => failures r

/-- Whether a check that passes is made: each one where all pass, else it is open (R160). -/
def madeBefore (all : Bool) : M Bool := if all then pure true else drawBit

/-- Mark the registers that passed as checked. Where the checks failed somewhere, which of them were made before is open (R160). -/
def markChecked (all : Bool) : List (SegReg × Except Exc SegState) → M Unit
  | [] => pure ()
  | (_, .error _) :: r => markChecked all r
  | (seg, .ok v) :: r => do
    let made ← madeBefore all
    onlyIf made (change (fun s => { s with segs := s.segs.set seg v }))
    markChecked all r

/-- Report one of the failing checks: any of them, where several fail (R154, D19). -/
def reportOne : List Exc → M Unit
  | [] => pure ()
  | [e] => raise e
  | e :: r => do
    let w ← drawWord
    raise ((e :: r).getD (w.toNat % (r.length + 1)) e)

/-- Load the LDT register with what its check gave; the exception it gave instead. -/
def takeLdt : Except Exc LdtReg → M (List Exc)
  | .ok l => do
    change (fun s => { s with ldtr := l })
    pure []
  | .error e => pure [e]

/-- Step 5, for the LDT and then the six segment registers. The LDT's check is always made, and where it passes the LDT register is loaded, whatever fails
after it (log entry 10). -/
def checkTask : M Unit := do
  let sel ← look (fun s => s.ldtr.sel)
  let ldt ← attempt (checkLdt sel)
  let ldtExc ← takeLdt ldt
  let cs ← checkSegs ldtExc.isEmpty [.ss, .cs, .ds, .es, .fs, .gs]
  let bad := ldtExc ++ failures cs
  markChecked bad.isEmpty cs
  reportOne bad

/-- Steps 3 and 4: TR is updated, then the backlink is set, then the registers are loaded. An exception of the backlink or of a read is raised once the
registers are those of the new task, in whose context it is reported (R155, R156, R176); a page fault among them tells the level of the old task, at which
the access was made (log entry 41). -/
def commitSwitch (cause : SwitchCause) (sel : Word16) (base limit : Word32) : M (List Word32) := do
  let old ← look (fun s => s.tr.sel)
  change (fun s => s.commitTask sel base limit)
  let link ← attempt (linkBack cause base old)
  let (w, err) ← readTss 26 base
  change (fun s => s.loadTask cause.nests w)
  raiseSome ((raised link).or err)
  pure w

/-- The task switch: the five steps of R156 in their order. `pc` is the CS:EIP saved for the original task. `switching` stays `committed` until
`State.settle`: what fails later in the same step fails in the new task. -/
def taskSwitch (cause : SwitchCause) (sel : Word16) (pc : Word16 × Word32) : M Unit := do
  let (base, limit) ← locateTss cause sel
  change (fun s => { s with switching := .located })
  saveTask cause pc
  markTasks cause sel
  let w ← commitSwitch cause sel base limit
  covered (!(tssWord w 9).getLsbD flagVM) .v86Mode
  change (fun s => s.setCtl .cr3 (tssWord w 7))
  checkTask

end Sys2Proof.Machine
end

