-- ==== Sys2Proof/Machine/Ops.lean ====
section
/-! DEFINITION. The shared operations: segment loads, transfers of control, taking an exception and returning from one, and how a meaning runs
(spec/42_segment_and_control.md R106 to R119; spec/60_exceptions.md R131 to R134, R184 to R194). -/

namespace Sys2Proof.Machine

/-! ## Loading segment registers (R118) -/

/-- `LoadSegReg(seg, sel)` (R118), for SS, DS, ES, FS and GS. -/
def loadSegReg (seg : SegReg) (sel : Word16) : M Unit := do
  let v ← checkSelector .generalProtection seg sel
  change (fun s => { s with segs := s.segs.set seg v })

/-! ## Transfers of control (R105 to R108, R119) -/

/-- Go on at an offset of the present code segment; outside its limit exception 13 (R105). -/
def jumpNear (t : Word32) : M Unit := do
  let d ← segView .cs
  require (decide (t.toNat ≤ d.limit.toNat)) (.generalProtection 0)
  change (fun s => s.jump t)

/-- The last tests of `LoadCS`: the present bit, then the offset in the limit (R119). -/
def codeReady (sel : Word16) (present : Bool) (d : SegDesc) (off : Word32) : M Unit := do
  require present (.notPresent (selError sel))
  require (decide (off.toNat ≤ d.limit.toNat)) (.generalProtection 0)

/-- The load of `LoadCS` but for EIP: CS takes the selector with the level as its RPL (R119). -/
def loadCs (sel : Word16) (d : SegDesc) (level : BitVec 2) : M Unit :=
  change (fun s => s.setCs { sel := withRpl sel level, desc := d, checked := true })

/-- The stack of a more privileged level, from the current TSS: SS and ESP (R108, R190; log entry 10). Where the limit in TR does not cover them,
exception 13 (R168; log entry 10). -/
def innerStack (level : BitVec 2) : M (Word16 × Word32) := do
  let tr ← look State.tr
  require (decide (8 * level.toNat + 9 ≤ tr.limit.toNat)) (.generalProtection 0)
  let esp ← readLin false 4 (tr.base + BitVec.ofNat 32 (8 * level.toNat + 4))
  let ss ← readLin false 2 (tr.base + BitVec.ofNat 32 (8 * level.toNat + 8))
  pure (ss.setWidth 16, esp)

/-- "A stack switch to a well defined stack" (R190): load SS:ESP with the stack of the present level, which CS has just fixed. -/
def switchStack (ss : Word16) (esp : Word32) : M Unit := do
  loadSegReg .ss ss
  setSp esp

/-- Report a limit violation on the new stack of an interlevel CALL with that stack's selector (R108, R165). -/
def onNewStack {α : Type} (ss : Word16) (m : M α) : M α := fun s =>
  match m s with
  | .error (.exc (.stackFault _)) t => .error (.exc (.stackFault (selError ss))) t
  | r => r

/-- The parameters a call gate copies, nearest first, read from the caller's stack in items of the gate's size `sz` (R108; log entry 43). -/
def readParams (sz : OpSize) (sp : Word32) : Nat → M (List Word32)
  | 0 => pure []
  | n + 1 => do
    let v ← stackRead sp sz.bytes
    let r ← readParams sz (sp + BitVec.ofNat 32 sz.bytes) n
    pure (v :: r)

/-- A CALL through a gate to a more privileged level: the stack switch, and the frame on the new stack, all in items of the gate's size `sz` (R108; log
entry 43). -/
def callInner (sz : OpSize) (count : BitVec 5) (sel : Word16) (present : Bool) (d : SegDesc) (off : Word32) : M Unit := do
  codeReady sel present d off
  let old ← look id
  let sp ← getSp
  let params ← readParams sz sp count.toNat
  let (ss, esp) ← innerStack d.dpl
  loadCs sel d d.dpl
  switchStack ss esp
  let ssImage ← selImage sz old.segs.ss.sel
  let csImage ← selImage sz old.segs.cs.sel
  onNewStack ss (pushAll sz ([ssImage, old.gpr.esp] ++ params.reverse ++ [csImage, old.nextEip]))
  change (fun s => s.jump off)

/-- A transfer to a code segment at the same level; a CALL pushes CS and the EIP of the next instruction first (R106, R108). -/
def enterSame (call : Bool) (sz : OpSize) (sel : Word16) (present : Bool) (d : SegDesc) (off : Word32) : M Unit := do
  codeReady sel present d off
  let old ← look id
  onlyIf call (do
    let csImage ← selImage sz old.segs.cs.sel
    pushAll sz [csImage, old.nextEip])
  loadCs sel d old.cpl
  change (fun s => s.jump off)

/-- Follow a call gate to its code segment (R106, R108, R119); the RPL of the gate's own selector is not tested (log entry 31). -/
def throughCallGate (call : Bool) (sz : OpSize) (count : BitVec 5) (sel : Word16) (off : Word32) : M Unit := do
  require (!isNull sel) (.generalProtection 0)
  let d ← readDesc (.generalProtection (selError sel)) sel
  let cpl ← look State.cpl
  match d with
  | .seg present sd =>
    match sd.kind with
    | .code conforming _ => do
      require (decide (sd.dpl ≤ cpl)) (.generalProtection (selError sel))
      if conforming || sd.dpl == cpl then enterSame call sz sel present sd off
      else do
        require call (.generalProtection (selError sel))
        callInner sz count sel present sd off
    | .data _ _ => raise (.generalProtection (selError sel))
  | _ => raise (.generalProtection (selError sel))

/-- An intersegment JMP or CALL to a far pointer (R106, R108): by the kind of descriptor the selector picks. An interrupt or trap gate is none that may
be named here, whatever its present bit (log entry 43). A task switch saves the offset of the next instruction for the old task, which N8 leaves open (log
entry 10, PRESUMED). -/
def farTransfer (call : Bool) (sz : OpSize) (sel : Word16) (off : Word32) : M Unit := do
  require (!isNull sel) (.generalProtection 0)
  let d ← readDesc (.generalProtection (selError sel)) sel
  let cpl ← look State.cpl
  let pc ← look (fun s => (s.segs.cs.sel, s.nextEip))
  let cause : SwitchCause := if call then .call else .jmp
  match d with
  | .seg present sd =>
    match sd.kind with
    | .code conforming _ => do
      require (if conforming then decide (sd.dpl ≤ cpl) else sd.dpl == cpl && decide (rpl sel ≤ cpl)) (.generalProtection (selError sel))
      enterSame call sz sel present sd off
    | .data _ _ => raise (.generalProtection (selError sel))
  | .callGate present dpl size count gsel goff => do
    require (dataPrivilege cpl sel dpl) (.generalProtection (selError sel))
    require present (.notPresent (selError sel))
    throughCallGate call size count gsel goff
  | .taskGate present dpl tsel => do
    require (dataPrivilege cpl sel dpl) (.generalProtection (selError sel))
    require present (.notPresent (selError sel))
    taskSwitch cause tsel pc
  | .tss _ _ dpl _ _ => do
    require (dataPrivilege cpl sel dpl) (.generalProtection (selError sel))
    taskSwitch cause sel pc
  | .ldt _ _ _ | .intGate _ _ _ _ _ _ | .reserved => raise (.generalProtection (selError sel))

/-! ## Taking an exception: one attempt at invoking a handler (R188 to R191) -/

/-- The CS:EIP an event saves: the state's own, which the caller has set by the event's class (R131, R132); open for an abort (R133). -/
def savedPc (ev : Event) : M (Word16 × Word32) :=
  if ev.isAbort then do
    let c ← drawWord
    let e ← drawWord
    pure (c.setWidth 16, e)
  else look (fun s => (s.segs.cs.sel, s.eip))

/-- The bits of EFLAGS that are open after an abort: every flag but VM (U1; log entry 13). -/
def abortFlags : Word32 := 0x17FD5

/-- After an abort every register the handler sees is open, but for those that delivery itself needs: CS, SS and ESP, VM, and the control and table
registers (U1; log entry 13). A data segment register holds an open selector that is not checked. -/
def State.regsOpened (s : State) : State :=
  let w := fun k => Config.freeWord (s.freeCtr + k)
  { s with
    gpr := { eax := w 0, ecx := w 1, edx := w 2, ebx := w 3, esp := s.gpr.esp, ebp := w 4, esi := w 5, edi := w 6 }
    eflags := maskMerge abortFlags s.eflags (w 7)
    segs := { s.segs with es := uncheckedSeg (w 8), ds := uncheckedSeg (w 9), fs := uncheckedSeg (w 10), gs := uncheckedSeg (w 11) }
    freeCtr := s.freeCtr + 12 }

/-- Present bit and DPL of a gate an IDT entry may hold: a task, trap or interrupt gate (R34, R188). -/
def handlerGate : Desc → Option (Bool × BitVec 2)
  | .taskGate p d _ => some (p, d)
  | .intGate p d _ _ _ _ => some (p, d)
  | _ => none

/-- The IDT entry of an event, with the tests of R188: the limit, the kind, the DPL for a software interrupt (R197), the present bit. -/
def readGate (ev : Event) : M Desc := do
  let idtr ← look State.idtr
  require (decide (8 * ev.vector.toNat + 7 ≤ idtr.limit.toNat)) (.generalProtection (idtError ev.vector))
  let g ← readDescAt (idtr.base + BitVec.ofNat 32 (8 * ev.vector.toNat))
  match handlerGate g with
  | none => raise (.generalProtection (idtError ev.vector))
  | some (present, dpl) => do
    let cpl ← look State.cpl
    require (!ev.software || decide (cpl ≤ dpl)) (.generalProtection (idtError ev.vector))
    require present (.notPresent (idtError ev.vector))
    pure g

/-- The error code as pushed at a size; bits the source does not name are open (R173, R180, U11). -/
def errImage : ErrCode → M (List Word32)
  | .none => pure []
  | .zero => pure [0]
  | .selector ec => do
    let w ← drawWord
    pure [w.extractLsb' 16 16 ++ ec]
  | .page p wr us => do
    let w ← drawWord
    pure [maskMerge 7 w (pageCode p wr us)]

/-- Remember where the handler of an abort or of an NMI is entered, and forget an older abort's entry at the same place (U1, R195; log entries 13
and 21). -/
def State.noted (s : State) (ev : Event) (f : HandlerFrame) : State :=
  let others := s.abortFrames.filter (fun x => x != f)
  { s with
    abortFrames := if ev.isAbort then f :: others else others
    nmiFrame := if ev = .nmi then some f else s.nmiFrame }

def noteFrame (ev : Event) (f : HandlerFrame) : M Unit := change (fun s => s.noted ev f)

/-- What invocation does to the flags: TF, NT and VM cleared, and IF by an interrupt gate (R188, R189). -/
def handlerFlags (trap : Bool) (f : Word32) : Word32 := f &&& ~~~(if trap then 0x24100 else 0x24300)

/-- The frame pushed for a handler reached through a trap or interrupt gate: on a stack switch the old SS and ESP, then EFLAGS, CS and EIP
(R188, R189). `old` is the state before the invocation. -/
def pushFrame (size : OpSize) (switched : Bool) (old : State) (pc : Word16 × Word32) : M Unit := do
  let ssImage ← selImage size old.segs.ss.sel
  let csImage ← selImage size pc.1
  pushAll size ((if switched then [ssImage, old.gpr.esp] else []) ++ [old.eflags, csImage, pc.2])

/-- Load CS at the handler's level and, if that is a more privileged one, its stack, which the TSS names (R188, R190). -/
def enterLevel (sel : Word16) (d : SegDesc) (level : BitVec 2) : M Unit := do
  let cpl ← look State.cpl
  if level == cpl then loadCs sel d level
  else do
    let (ss, esp) ← innerStack level
    loadCs sel d level
    switchStack ss esp

/-- Enter a handler at its level: CS, the stack switch if the handler is more privileged, the frame, the error code, the flags, EIP
(R188 to R190). -/
def enterHandler (ev : Event) (size : OpSize) (trap : Bool) (sel : Word16) (d : SegDesc) (level : BitVec 2) (off : Word32)
    (pc : Word16 × Word32) : M Unit := do
  let old ← look id
  enterLevel sel d level
  pushFrame size (level != old.cpl) old pc
  let sp ← getSp
  let stack ← segView .ss
  noteFrame ev (.stack (stack.base + sp))
  let ec ← errImage ev.errCode
  pushAll size ec
  change (fun s => { s with eflags := handlerFlags trap s.eflags })
  change (fun s => s.jump off)

/-- Invoke a handler through a trap or interrupt gate: the tests of `LoadCS` on the gate's selector (R119, R188), the rule for V86 mode (R200),
and the entry. A conforming code segment keeps the level and the stack (log entry 31). Exception 10 may not be handled this way (R157). -/
def gateHandler (ev : Event) (size : OpSize) (trap : Bool) (sel : Word16) (off : Word32) (pc : Word16 × Word32) : M Unit := do
  require (!isNull sel) (.generalProtection 0)
  let d ← readDesc (.generalProtection (selError sel)) sel
  let cpl ← look State.cpl
  let vm ← look (fun s => s.flag flagVM)
  match d with
  | .seg present sd =>
    match sd.kind with
    | .code conforming _ => do
      require (decide (sd.dpl ≤ cpl)) (.generalProtection (selError sel))
      codeReady sel present sd off
      let level := if conforming then cpl else sd.dpl
      require (!vm || level == 0) (.generalProtection (selError sel))
      covered (!vm) .v86Mode
      enterHandler ev size trap sel sd level off pc
      covered (!ev.needsTask) .invalidTssNotTask
    | .data _ _ => raise (.generalProtection (selError sel))
  | _ => raise (.generalProtection (selError sel))

/-- Invoke a handler that is a task of its own: the task switch, then the error code on the new task's stack (R188). The entry is noted first, so that
it stands wherever the switch commits. -/
def taskHandler (ev : Event) (sel : Word16) (pc : Word16 × Word32) : M Unit := do
  noteFrame ev (.task sel)
  taskSwitch .int sel pc
  let ec ← errImage ev.errCode
  pushAll .s32 ec

/-- `Deliver`: one attempt at invoking the handler of an event, from a state whose CS:EIP is what the event saves (R188). -/
def invoke (ev : Event) : M Unit := do
  onlyIf ev.isAbort (change State.regsOpened)
  let pc ← savedPc ev
  let g ← readGate ev
  match g with
  | .taskGate _ _ sel => taskHandler ev sel pc
  | .intGate _ _ size trap sel off => gateHandler ev size trap sel off pc
  | _ => raise (.generalProtection (idtError ev.vector))

/-! ## Reporting an event: serial handling, the double fault, shutdown (R184 to R187) -/

/-- The state as an instruction or a delivery begins. -/
def State.begin (s : State) : State :=
  { s with journal := [], switching := .idle, delivering := none, stepKind := .plain, taskTrap := false }

/-- The state as it stands between steps: nothing in progress. -/
def State.settle (s : State) : State := { s with journal := [], switching := .idle, delivering := none }

/-- Store again, oldest first, those parts of a journal that the draws keep: each part whole or not at all (R52, U20). -/
def State.redo (s : State) : List (List Host.Cell) → State
  | [] => s
  | c :: r => (if Config.freeBit s.freeCtr then s.drawn.storeCells c else s.drawn).redo r

/-- The state `old` again after an attempt that was cut off in `t`: every register as in `old`, and of the parts the attempt stored any (R131, R51,
R52, D17): D2 and U20 leave open which parts stay, also of pushes that were complete (test vector V13: the word that a faulted ENTER has pushed "may or may
not have been written (D2)"). -/
def rollback (old t : State) : State := (State.redo { old with freeCtr := t.freeCtr } t.journal.reverse).settle

/-- Where an attempt cut off in `t` leaves the machine: in the new task if a task switch has committed (R155, R156), else back in `old`. -/
def cutOff (old t : State) : State := if t.switching = .committed then t.settle else rollback old t

/-- What the processor records of an exception in its registers: CR2 (R174), the status bits of DR6 (R139). -/
def State.record (s : State) : Exc → State
  | .pageFault lin _ _ _ => { s with cr2 := lin }
  | .debug c => { s with dbg := { s.dbg with dr6 := s.dbg.dr6 ||| c.status } }
  | _ => s

def State.recordEvent (s : State) : Event → State
  | .exc e => s.record e
  | .soft _ | .nmi | .external _ => s

/-- `delivering` during an attempt (R37, R187). -/
def Event.delivering : Event → Delivering
  | .exc .doubleFault => .doubleFault
  | ev => .vector ev.vector

/-- The stuck state after shutdown (R187). -/
def State.shutDown (s : State) : State := { s with shutdown := true, delivering := some .doubleFault, stepKind := .faulted }

/-- A second exception with EXT as R181 sets it: set when the first event came from outside the instruction. -/
def secondExc (first : Event) (s : State) (e : Exc) : Exc := if first.software then e else e.withExt (Config.freeBit s.freeCtr)

/-- The outcome of a step or meaning. -/
abbrev Result := Host.Outcome State Fault Refusal

/-- Report an event. `src` is the state whose CS:EIP is saved; `old` is the state to which an attempt that raises a second exception falls back, so
that the second is reported at the instruction that raised the first (R184). Two exceptions are handled serially or come to a double fault (R186); an
exception while the double-fault handler is being invoked shuts the processor down (R187). A chain is at most benign, contributory, page fault,
double fault, so `reportFuel` attempts always suffice. Each attempt begins anew: the debug trap bit of a task that an abandoned one entered is forgotten
(log entry 20). -/
def report : Nat → State → State → Event → Result
  | 0, old, _, _ => .next old.shutDown
  | n + 1, old, src, ev =>
    match invoke ev { (src.recordEvent ev).begin with delivering := some ev.delivering } with
    | .ok _ t => .next { t.settle with stepKind := if ev.kind = .plain ∧ t.stepKind = .switched then .switched else ev.kind }
    | .error (.refuse r) _ => .refused r
    | .error (.exc e) t =>
      let s := (cutOff (old.recordEvent ev) t).record e
      if ev = .exc .doubleFault then .next s.shutDown
      else if isDouble ev.dfClass e.dfClass then report n s s (.exc .doubleFault)
      else report n s.drawn s.drawn (.exc (secondExc ev s e))

def reportFuel : Nat := 5

/-- `raise` as a fault or abort: report it from the state it leaves (R131, R133). -/
def reportFault (s : State) (e : Exc) : Result := report reportFuel s s (.exc e)

/-! ## How a meaning runs -/

/-- Run an instruction's own effect: it completes, or the exception it raises is reported as a fault at the instruction (R131) - or, after a task
switch has committed, in the new task (R155). -/
def runInstr (body : M Unit) (s : State) : Result :=
  match s.modeRefusal with
  | some r => .refused r
  | none =>
    match body s.begin with
    | .ok _ t => .next t.settle
    | .error (.refuse r) _ => .refused r
    | .error (.exc e) t => reportFault (cutOff s.begin t) e

/-- Run an instruction whose effect is to invoke a handler: it completes, `pc <- next_pc`, and then the trap is reported (R132, R197). -/
def runTrap (ev : Event) (s : State) : Result :=
  match s.modeRefusal with
  | some r => .refused r
  | none => report reportFuel s.begin s.begin.advance ev

/-! ## Returning (R109, R193) -/

/-- The EFLAGS bits an IRET may change: at level 0 all but VM; elsewhere not IOPL, and IF only at a level IOPL allows; with 16-bit size the low half
(log entry 11). -/
def iretMask (sz : OpSize) (cpl iopl : BitVec 2) : Word32 :=
  (match sz with
    | .s16 => 0xFFFF
    | .s32 => 0xFFFDFFFF) &&& (if cpl = 0 then 0xFFFFFFFF else 0xFFFFCFFF) &&& (if cpl ≤ iopl then 0xFFFFFFFF else 0xFFFFFDFF)

/-- Whether the outer level may keep a data segment register: a null one, conforming code, or DPL not below the new level (R109; log entry 11). -/
def keepsSeg (cpl : BitVec 2) (v : SegState) : Bool :=
  !v.checked || isNull v.sel || decide (cpl ≤ v.desc.dpl) ||
    (match v.desc.kind with
      | .code conforming _ => conforming
      | .data _ _ => false)

/-- A data segment register as the outer level has it: made null, it holds selector 0 (log entry 42). -/
def outerSeg (cpl : BitVec 2) (v : SegState) : SegState := if keepsSeg cpl v then v else nullSeg 0

/-- "DS, ES, FS, GS that the outer level may not keep are made null" (R109). -/
def State.nullOuter (s : State) : State :=
  { s with
    segs :=
      { s.segs with
        es := outerSeg s.cpl s.segs.es
        ds := outerSeg s.cpl s.segs.ds
        fs := outerSeg s.cpl s.segs.fs
        gs := outerSeg s.cpl s.segs.gs } }

/-- The descriptor a return's CS image picks, with the tests of `LoadCS` at the level its RPL names, not below the current one (R109, R119). -/
def returnCode (sel : Word16) : M SegDesc := do
  require (!isNull sel) (.generalProtection 0)
  let cpl ← look State.cpl
  require (decide (cpl ≤ rpl sel)) (.generalProtection (selError sel))
  let d ← readDesc (.generalProtection (selError sel)) sel
  match codeTest (rpl sel) d with
  | .ok sd => pure sd
  | .error .protection => raise (.generalProtection (selError sel))
  | .error .notPresent => raise (.notPresent (selError sel))

/-- A return at the same level: the stack pointer past what was popped, and CS. -/
def returnSame (top : Word32) (sel : Word16) (d : SegDesc) : M Unit := do
  setSp top
  change (fun s => s.setCs { sel := sel, desc := d, checked := true })

/-- A return to an outer level: ESP, extended with zeros, and SS popped too, at the inner level, before CS is loaded, the parameters released from the
outer stack (log entry 42), and the data segments the outer level may not keep made null (R109). -/
def returnOuter (sz : OpSize) (top release : Word32) (sel : Word16) (d : SegDesc) : M Unit := do
  let esp ← stackRead top sz.bytes
  let ssImage ← stackRead (top + BitVec.ofNat 32 sz.bytes) sz.bytes
  change (fun s => s.setCs { sel := sel, desc := d, checked := true })
  loadSegReg .ss (ssImage.setWidth 16)
  setSp (esp + release)
  change State.nullOuter

/-- A return at the same level, or to an outer one. -/
def returnLevel (same : Bool) (sz : OpSize) (top release : Word32) (sel : Word16) (d : SegDesc) : M Unit :=
  if same then returnSame top sel d else returnOuter sz top release sel d

/-- The flags image an IRET pops, third on the stack; another return pops none. -/
def popFlags (iret : Bool) (off : Word32) (sz : OpSize) : M Word32 := if iret then stackRead off sz.bytes else pure 0

/-- The far return: RETF with `release` bytes of parameters (log entry 42), or IRET, which pops EFLAGS too (R109). -/
def returnFar (sz : OpSize) (release : Word32) (iret : Bool) : M Unit := do
  let n := BitVec.ofNat 32 sz.bytes
  let sp ← getSp
  let eip ← stackRead sp sz.bytes
  let csImage ← stackRead (sp + n) sz.bytes
  let flags ← popFlags iret (sp + n + n) sz
  let top := (if iret then sp + n + n + n else sp + n + n) + release
  let sel : Word16 := csImage.setWidth 16
  let cpl ← look State.cpl
  let iopl ← look State.iopl
  covered (!(iret && sz == .s32 && cpl == 0 && flags.getLsbD flagVM)) .v86Mode
  let d ← returnCode sel
  require (decide (eip.toNat ≤ d.limit.toNat)) (.generalProtection 0)
  returnLevel (rpl sel == cpl) sz top release sel d
  onlyIf iret (change (fun s => { s with eflags := maskMerge (iretMask sz cpl iopl) s.eflags flags }))
  change (fun s => s.jump eip)

/-- The entry from which an IRET returns: the current task in a nested task, else the place on the stack of the EIP image it pops. -/
def returnFrame (nested : Bool) : M HandlerFrame := do
  if nested then look (fun s => .task s.tr.sel)
  else do
    let sp ← getSp
    let stack ← segView .ss
    pure (.stack (stack.base + sp))

/-- IRET in a nested task: back to the task the backlink names (R109, R193). Where the limit in TR does not cover the backlink, exception 13 (R168; log
entry 10). The offset of the next instruction is saved for the task that is left, which N8 leaves open (log entry 10, PRESUMED). -/
def returnTask : M Unit := do
  let tr ← look State.tr
  require (decide (1 ≤ tr.limit.toNat)) (.generalProtection 0)
  let link ← readLin false 2 tr.base
  let pc ← look (fun s => (s.segs.cs.sel, s.nextEip))
  taskSwitch .iret (link.setWidth 16) pc

/-- IRET by the nested-task flag (R109, R193). -/
def returnKind (nested : Bool) (sz : OpSize) : M Unit := if nested then returnTask else returnFar sz 0 true

/-- The end of the handler entered at `f`: NMI is held off until its own handler returns (R195). -/
def State.endNmi (s : State) (f : HandlerFrame) : State := { s with nmiFrame := if s.nmiFrame = some f then none else s.nmiFrame }

/-- Return from a handler (R193); not from the handler of an abort (U1). The end of an NMI's handler is noted first, so that it stands wherever the
return commits. -/
def returnHandler (sz : OpSize) : M Unit := do
  let nested ← look (fun s => s.flag flagNT)
  let f ← returnFrame nested
  let aborts ← look State.abortFrames
  covered (!aborts.contains f) .abortReturn
  change (fun s => s.endNmi f)
  returnKind nested sz

end Sys2Proof.Machine
end

