-- ==== Sys2Proof/Machine/Control.lean ====
section
/-! DEFINITION. JMP, CALL, RETF and IRET (spec/42_segment_and_control.md R105 to R109). -/

namespace Sys2Proof.Machine

/-- JMP rel8 (R105). -/
def execJmpRel8 (sz : OpSize) (disp : Byte) (s : State) : Result :=
  runInstr (jumpNear (relTarget sz s.nextEip (disp.signExtend 32))) s

/-- JMP rel16, rel32 (R105). -/
def execJmpRelv (disp : ImmV) (s : State) : Result :=
  runInstr (jumpNear (relTarget disp.size s.nextEip (immSigned disp))) s

/-- JMP r/m16, r/m32 (R105): the offset is the operand. -/
def execJmpRmv (sz : OpSize) (rm : RM) (s : State) : Result :=
  runInstr (do
    let t ← readRM sz rm
    jumpNear t) s

/-- JMP ptr16:16, ptr16:32 (R106). -/
def execJmpPtr (off : ImmV) (sel : Word16) (s : State) : Result :=
  runInstr (farTransfer false off.size sel (immValue off)) s

/-- JMP m16:16, m16:32 (R106); a register operand raises exception 6. -/
def execJmpMem (sz : OpSize) (rm : RM) (s : State) : Result :=
  runInstr (do
    let m ← memOnly rm
    let (off, sel) ← readFar sz m
    farTransfer false sz sel off) s

/-- CALL within the segment (R107): the target's limit test, then the push of the EIP of the next instruction, then the transfer. -/
def callNear (sz : OpSize) (t : Word32) : M Unit := do
  let d ← segView .cs
  require (decide (t.toNat ≤ d.limit.toNat)) (.generalProtection 0)
  let next ← look State.nextEip
  push sz next
  change (fun s => s.jump t)

/-- CALL rel16, rel32 (R107). -/
def execCallRelv (disp : ImmV) (s : State) : Result :=
  runInstr (callNear disp.size (relTarget disp.size s.nextEip (immSigned disp))) s

/-- CALL r/m16, r/m32 (R107). -/
def execCallRmv (sz : OpSize) (rm : RM) (s : State) : Result :=
  runInstr (do
    let t ← readRM sz rm
    callNear sz t) s

/-- CALL ptr16:16, ptr16:32 (R108). -/
def execCallPtr (off : ImmV) (sel : Word16) (s : State) : Result :=
  runInstr (farTransfer true off.size sel (immValue off)) s

/-- CALL m16:16, m16:32 (R108); a register operand raises exception 6. -/
def execCallMem (sz : OpSize) (rm : RM) (s : State) : Result :=
  runInstr (do
    let m ← memOnly rm
    let (off, sel) ← readFar sz m
    farTransfer true sz sel off) s

/-- RETF (R109). -/
def execRetf (sz : OpSize) (s : State) : Result := runInstr (returnFar sz 0 false) s

/-- RETF imm16 (R109): with `n` bytes of parameters released. -/
def execRetfImm (sz : OpSize) (n : Word16) (s : State) : Result := runInstr (returnFar sz (n.setWidth 32) false) s

/-- IRET, IRETD (R109, R193). -/
def execIret (sz : OpSize) (s : State) : Result := runInstr (returnHandler sz) s

end Sys2Proof.Machine
end

