-- ==== Sys2Proof/Machine/ControlRegs.lean ====
section
/-! DEFINITION. MOV to and from control registers (spec/42_segment_and_control.md R116, R117). -/

namespace Sys2Proof.Machine

/-- A value with PG = 1 and PE = 0, which CR0 may not be loaded with (R25, R117). -/
def pagingUnprotected (v : Word32) : Bool := v.getLsbD 31 && !v.getLsbD 0

/-- MOV CRn, r32 (R117): privileged; the arithmetic flags are left open. -/
def execMovCrR (cr : CtlReg) (r : Reg) (s : State) : Result :=
  runInstr (do
    let s ← look id
    require (s.cpl == 0) (.generalProtection 0)
    require (!(cr == .cr0 && pagingUnprotected (s.gpr.get r))) (.generalProtection 0)
    change (fun t => t.setCtl cr (s.gpr.get r))
    openFlags
    change State.advance) s

/-- MOV r32, CRn (R116): privileged. -/
def execMovRCr (r : Reg) (cr : CtlReg) (s : State) : Result :=
  runInstr (do
    let s ← look id
    require (s.cpl == 0) (.generalProtection 0)
    change (fun t => (t.setGpr r (s.ctl cr)).advance)) s

end Sys2Proof.Machine
end

