-- ==== Sys2Proof/Machine/Coprocessor.lean ====
section
/-! DEFINITION. ESC and WAIT (spec/41_coprocessor.md R100 to R102). The coprocessor itself is the environment's (R13): `State.npx` answers for it. -/

namespace Sys2Proof.Machine

/-- Bytes of one portion of an operand of `n` bytes: what the coprocessor's interface makes it, but at most 4, and so few that an operand of 3 bytes or
more has three portions at least (R52; log entry 12); one of two bytes moves in one portion or two. -/
def portion (n : Nat) : Nat := max 1 (min (Config.portionBytes n) (min 4 (if n < 3 then n else (n - 1) / 2)))

/-- The exception of an access that failed in a portion after the first: exception 9 in a middle one, the ordinary one in the last (R52, R100, R151,
U13). -/
def portionExc (last : Bool) (e : Exc) : Exc := if last then e else .coprocOverrun

/-- An operation of a later portion: its exception becomes that of R151. -/
def laterPortion {α : Type} (last : Bool) (m : M α) : M α := fun s =>
  match m s with
  | .error (.exc e) t => .error (.exc (portionExc last e)) t
  | r => r

/-- Move the portions after the first. `moves` holds what is left to move, one operation a portion. -/
def movePortions : List (M Unit) → M Unit
  | [] => pure ()
  | m :: r => do
    laterPortion r.isEmpty m
    movePortions r

/-- Move an operand portion by portion: a violation in the first is the ordinary exception, in a later one R151's (R100). -/
def moveOperand : List (M Unit) → M Unit
  | [] => pure ()
  | m :: r => do
    m
    movePortions r

/-- Read one portion for the coprocessor. -/
def takePortion (seg : SegReg) (off : Word32) (n : Nat) : M Unit := do
  let _ ← memRead seg off n
  pure ()

/-- The portions of `n` bytes from `off` up, `p` bytes each, as offset and size; their offsets wrap at 2^32 and not at 2^16 (log entry 12). `k`
bounds the count. -/
def portions (p : Nat) : Nat → Word32 → Nat → List (Word32 × Nat)
  | 0, _, _ => []
  | k + 1, off, n => if n = 0 then [] else (off, min p n) :: portions p k (off + BitVec.ofNat 32 p) (n - min p n)

/-- Store one portion given by the coprocessor. -/
def givePortion (seg : SegReg) (off : Word32) (data : List Byte) : M Unit := memWrite seg off data.length (leValue data)

/-- The bytes an operand of the coprocessor gives, cut into portions of `p` at offsets that wrap at 2^32 only (log entry 12). -/
def dataPortions (p : Nat) : Nat → Word32 → List Byte → List (Word32 × List Byte)
  | 0, _, _ => []
  | k + 1, off, data =>
    if data.isEmpty then [] else (off, data.take p) :: dataPortions p k (off + BitVec.ofNat 32 p) (data.drop p)

/-- The operand transfer of an ESC with a memory operand (R100). -/
def transferOperand (m : MemOp) : M Unit := do
  let off ← look (fun s => eaOffset s m.ea)
  let npx ← look State.npx
  match npx.transfer with
  | .none => pure ()
  | .load n => moveOperand ((portions (portion n) n off n).map (fun q => takePortion (opSeg m) q.1 q.2))
  | .store data => moveOperand ((dataPortions (portion data.length) data.length off data).map (fun q => givePortion (opSeg m) q.1 q.2))

/-- The tests of R100 and R102 for exception 7: EM, or MP and TS; with TS alone the outcome is open (D12, U18). -/
def escAvailable : M Unit := do
  let s ← look id
  require (!s.em) .coprocNotAvailable
  require (!(s.mp && s.ts)) .coprocNotAvailable
  onlyIf s.ts (do
    let runs ← drawBit
    require runs .coprocNotAvailable)

/-- The test of the ERROR# pin (R100, R178). -/
def escErrorPin (op reg : BitVec 3) (rm : RM) : M Unit := do
  let s ← look id
  require (!(s.errorPin && Config.checksError op reg rm)) .coprocError

/-- The operand transfer of an ESC, if it has a memory operand. -/
def escTransfer : RM → M Unit
  | .reg _ => pure ()
  | .mem m => transferOperand m

/-- The state with the value, if any, that the coprocessor puts in AX. -/
def State.takeNpxAx (s : State) : State :=
  match s.npx.ax with
  | some v => s.setReg .s16 .eax (v.setWidth 32)
  | none => s

/-- ESC (R100). -/
def execEsc (op reg : BitVec 3) (rm : RM) (s : State) : Result :=
  runInstr (do
    escAvailable
    escErrorPin op reg rm
    let c ← look State.coproc
    covered (c != .none) .noCoprocessor
    escTransfer rm
    change State.takeNpxAx
    change State.advance) s

/-- WAIT (R101): the wait itself returns at once (D12). -/
def execWait (s : State) : Result :=
  runInstr (do
    let s ← look id
    require (!(s.mp && s.ts)) .coprocNotAvailable
    require (!(!s.em && s.errorPin)) .coprocError
    change State.advance) s

end Sys2Proof.Machine
end

