-- ==== Sys2Proof/Machine/Divide.lean ====
section
/-! DEFINITION. DIV and IDIV (spec/40_divide_int_bound.md R90, R91). -/

namespace Sys2Proof.Machine

/-- The width of a division (R90): 8, 16 or 32 bits. -/
inductive DivWidth where
  | b8
  | b16
  | b32
  deriving DecidableEq, Repr

def DivWidth.bits : DivWidth → Nat
  | .b8 => 8
  | .b16 => 16
  | .b32 => 32

def divWidth : OpSize → DivWidth
  | .s16 => .b16
  | .s32 => .b32

/-- The dividend, twice as wide as the operation: AX, DX:AX or EDX:EAX (R90). -/
def dividend (s : State) : DivWidth → Nat
  | .b8 => (s.gpr.eax.extractLsb' 0 16).toNat
  | .b16 => (s.gpr.edx.extractLsb' 0 16 ++ s.gpr.eax.extractLsb' 0 16).toNat
  | .b32 => (s.gpr.edx ++ s.gpr.eax).toNat

/-- A number of `n` bits read as signed, two's complement (R6). -/
def signed (n v : Nat) : Int := if v < 2 ^ (n - 1) then (v : Int) else (v : Int) - 2 ^ n

/-- Write the quotient and the remainder: AL and AH, AX and DX, or EAX and EDX (R90). -/
def State.setQuotRem (s : State) (w : DivWidth) (q r : Word32) : State :=
  match w with
  | .b8 => s.setGpr .eax (setLow16 s.gpr.eax (r.extractLsb' 0 8 ++ q.extractLsb' 0 8))
  | .b16 =>
    { s with gpr := { s.gpr with eax := setLow16 s.gpr.eax (q.extractLsb' 0 16), edx := setLow16 s.gpr.edx (r.extractLsb' 0 16) } }
  | .b32 => { s with gpr := { s.gpr with eax := q, edx := r } }

/-- The quotient and remainder of an unsigned division, or `none` where it raises exception 0: a zero divisor, or a quotient too large (R90, D11). -/
def divUnsigned (w : DivWidth) (n d : Nat) : Option (Word32 × Word32) :=
  if d = 0 then none
  else if n / d < 2 ^ w.bits then some (BitVec.ofNat 32 (n / d), BitVec.ofNat 32 (n % d))
  else none

/-- How a signed division ends: exception 0, a result, or - for a quotient of exactly -2^(n-1) - either of them (R91, D11). -/
inductive SignedDiv where
  | fault
  | result (q r : Word32)
  | either (q r : Word32)
  deriving DecidableEq, Repr

/-- A signed division, truncating toward zero; the remainder takes the dividend's sign (R91). -/
def divSigned (w : DivWidth) (n d : Int) : SignedDiv :=
  if d = 0 then .fault
  else
    let q := n.tdiv d
    let r := n.tmod d
    if 2 ^ (w.bits - 1) ≤ q ∨ q < -(2 ^ (w.bits - 1)) then .fault
    else if q = -(2 ^ (w.bits - 1)) then .either (BitVec.ofInt 32 q) (BitVec.ofInt 32 r)
    else .result (BitVec.ofInt 32 q) (BitVec.ofInt 32 r)

/-- Write the results; the flags are left open (R90). -/
def finishDiv (w : DivWidth) (q r : Word32) : M Unit := do
  change (fun s => s.setQuotRem w q r)
  openFlags
  change State.advance

/-- Unsigned division by a value already read (R90). -/
def divideBy (w : DivWidth) (d : Word32) : M Unit := do
  let n ← look (fun s => dividend s w)
  match divUnsigned w n d.toNat with
  | none => raise .divideError
  | some (q, r) => finishDiv w q r

/-- Signed division by a value already read (R91). -/
def idivideBy (w : DivWidth) (d : Word32) : M Unit := do
  let n ← look (fun s => dividend s w)
  match divSigned w (signed (2 * w.bits) n) (signed w.bits d.toNat) with
  | .fault => raise .divideError
  | .result q r => finishDiv w q r
  | .either q r => do
    let delivered ← drawBit
    require delivered .divideError
    finishDiv w q r

/-- DIV r/m8 (R90). -/
def execDivRm8 (rm : RM) (s : State) : Result :=
  runInstr (do
    let d ← readRM8 rm
    divideBy .b8 d) s

/-- DIV r/m16, r/m32 (R90). -/
def execDivRmv (sz : OpSize) (rm : RM) (s : State) : Result :=
  runInstr (do
    let d ← readRM sz rm
    divideBy (divWidth sz) d) s

/-- IDIV r/m8 (R91). -/
def execIdivRm8 (rm : RM) (s : State) : Result :=
  runInstr (do
    let d ← readRM8 rm
    idivideBy .b8 d) s

/-- IDIV r/m16, r/m32 (R91). -/
def execIdivRmv (sz : OpSize) (rm : RM) (s : State) : Result :=
  runInstr (do
    let d ← readRM sz rm
    idivideBy (divWidth sz) d) s

end Sys2Proof.Machine
end

