-- ==== Sys2Proof/Machine/Interrupt.lean ====
section
/-! DEFINITION. INT 3, INT n, INTO and BOUND (spec/40_divide_int_bound.md R92 to R95). -/

namespace Sys2Proof.Machine

/-- INT 3 (R92): exception 3, a trap. -/
def execInt3 (s : State) : Result := runTrap (.exc .breakpoint) s

/-- INT n (R93): the handler of vector `n`, with no error code. -/
def execIntImm (n : Byte) (s : State) : Result := runTrap (.soft n) s

/-- INTO (R94): exception 4, a trap, if OF is set; else nothing but the next instruction. -/
def execInto (s : State) : Result :=
  if s.flag flagOF then runTrap (.exc .overflow) s else runInstr (change State.advance) s

/-- An operand-size value read as signed. -/
def signedOf (sz : OpSize) (v : Word32) : Int :=
  match sz with
  | .s16 => (v.setWidth 16).toInt
  | .s32 => v.toInt

/-- BOUND (R95): exception 5 unless lower ≤ index ≤ upper, signed. -/
def execBound (sz : OpSize) (r : Reg) (rm : RM) (s : State) : Result :=
  runInstr (do
    let m ← memOnly rm
    let idx ← look (fun s => s.reg sz r)
    let lower ← opRead m 0 sz.bytes
    let upper ← opRead m (BitVec.ofNat 32 sz.bytes) sz.bytes
    require (decide (signedOf sz lower ≤ signedOf sz idx) && decide (signedOf sz idx ≤ signedOf sz upper)) .boundsCheck
    change State.advance) s

end Sys2Proof.Machine
end

