-- ==== Sys2Proof/Machine/SegmentMoves.lean ====
section
/-! DEFINITION. Loads and stores of segment registers and of the LDT register (spec/42_segment_and_control.md R110 to R115). -/

namespace Sys2Proof.Machine

/-- Load a segment register and a general register from a far pointer in memory: both or neither (R110). -/
def loadFar (seg : SegReg) (sz : OpSize) (r : Reg) (rm : RM) : M Unit := do
  let m ← memOnly rm
  let (off, sel) ← readFar sz m
  loadSegReg seg sel
  change (fun s => (s.setReg sz r off).advance)

/-- LDS (R110). -/
def execLds (sz : OpSize) (r : Reg) (rm : RM) (s : State) : Result := runInstr (loadFar .ds sz r rm) s

/-- LES (R110). -/
def execLes (sz : OpSize) (r : Reg) (rm : RM) (s : State) : Result := runInstr (loadFar .es sz r rm) s

/-- LSS (R110). -/
def execLss (sz : OpSize) (r : Reg) (rm : RM) (s : State) : Result := runInstr (loadFar .ss sz r rm) s

/-- LFS (R110). -/
def execLfs (sz : OpSize) (r : Reg) (rm : RM) (s : State) : Result := runInstr (loadFar .fs sz r rm) s

/-- LGS (R110). -/
def execLgs (sz : OpSize) (r : Reg) (rm : RM) (s : State) : Result := runInstr (loadFar .gs sz r rm) s

/-- The LDT register's new contents (R111): a null selector leaves no LDT; else a present LDT descriptor in the GDT. -/
def ldtLoad (sel : Word16) : M LdtReg :=
  if isNull sel then pure { sel := sel, base := 0, limit := 0, usable := false }
  else do
    require (!inLdt sel) (.generalProtection (selError sel))
    let d ← readDesc (.generalProtection (selError sel)) sel
    match d with
    | .ldt present base limit => do
      require present (.notPresent (selError sel))
      pure { sel := sel, base := base, limit := limit, usable := true }
    | _ => raise (.generalProtection (selError sel))

/-- LLDT (R111): privileged; the level is tested before the operand is read (log entry 24). -/
def execLldt (rm : RM) (s : State) : Result :=
  runInstr (do
    let cpl ← look State.cpl
    require (cpl == 0) (.generalProtection 0)
    let v ← readRM .s16 rm
    let l ← ldtLoad (v.setWidth 16)
    change (fun s => { s with ldtr := l }.advance)) s

/-- MOV Sreg, r/m16 (R112): CS and the numbers 6 and 7 raise exception 6. A load of SS holds debug traps and interrupts off for one instruction. -/
def execMovSregRm (sreg : BitVec 3) (rm : RM) (s : State) : Result :=
  runInstr (do
    match SegReg.ofBits sreg with
    | none | some .cs => raise .invalidOpcode
    | some seg => do
      let v ← readRM .s16 rm
      loadSegReg seg (v.setWidth 16)
      change (fun s => { s with ssShadow := s.ssShadow || decide (seg = SegReg.ss) }.advance)) s

/-- MOV r/m16, Sreg (R113): the numbers 6 and 7 raise exception 6. -/
def execMovRmSreg (rm : RM) (sreg : BitVec 3) (s : State) : Result :=
  runInstr (do
    match SegReg.ofBits sreg with
    | none => raise .invalidOpcode
    | some seg => do
      let v ← look (fun s => (s.segs.get seg).sel)
      writeRM .s16 (v.setWidth 32) rm
      change State.advance) s

/-- POP to a segment register (R114): the stack pointer moves only if the load did not fault. For POP SS the old SS says
which stack pointer (log entry 28). -/
def popSeg (seg : SegReg) (sz : OpSize) : M Unit := do
  let sp ← getSp
  let v ← stackRead sp sz.bytes
  let big ← stackBig
  loadSegReg seg (v.setWidth 16)
  change (fun s => s.setReg (stackSize big) .esp (sp + BitVec.ofNat 32 sz.bytes))
  change State.advance

/-- POP ES (R114). -/
def execPopEs (sz : OpSize) (s : State) : Result := runInstr (popSeg .es sz) s

/-- POP SS (R114): debug traps and interrupts are held off for one instruction, as after MOV to SS (R112). -/
def execPopSs (sz : OpSize) (s : State) : Result :=
  runInstr (do
    popSeg .ss sz
    change (fun s => { s with ssShadow := true })) s

/-- POP DS (R114). -/
def execPopDs (sz : OpSize) (s : State) : Result := runInstr (popSeg .ds sz) s

/-- POP FS (R114). -/
def execPopFs (sz : OpSize) (s : State) : Result := runInstr (popSeg .fs sz) s

/-- POP GS (R114). -/
def execPopGs (sz : OpSize) (s : State) : Result := runInstr (popSeg .gs sz) s

/-- PUSH of a segment register (R115): with a 32-bit operand the upper 16 bits written are open. -/
def pushSeg (seg : SegReg) (sz : OpSize) : M Unit := do
  let sel ← look (fun s => (s.segs.get seg).sel)
  let v ← selImage sz sel
  push sz v
  change State.advance

/-- PUSH ES (R115). -/
def execPushEs (sz : OpSize) (s : State) : Result := runInstr (pushSeg .es sz) s

/-- PUSH CS (R115). -/
def execPushCs (sz : OpSize) (s : State) : Result := runInstr (pushSeg .cs sz) s

/-- PUSH SS (R115). -/
def execPushSs (sz : OpSize) (s : State) : Result := runInstr (pushSeg .ss sz) s

/-- PUSH DS (R115). -/
def execPushDs (sz : OpSize) (s : State) : Result := runInstr (pushSeg .ds sz) s

/-- PUSH FS (R115). -/
def execPushFs (sz : OpSize) (s : State) : Result := runInstr (pushSeg .fs sz) s

/-- PUSH GS (R115). -/
def execPushGs (sz : OpSize) (s : State) : Result := runInstr (pushSeg .gs sz) s

end Sys2Proof.Machine
end

