-- ==== Sys2Proof/Machine/Stack.lean ====
section
/-! DEFINITION. PUSH, POP, ENTER, LEAVE and MOV r, r/m (spec/43_stack.md R120 to R125). -/

namespace Sys2Proof.Machine

/-- PUSH r16, r32 (R120): the operand is read before the stack pointer changes. -/
def execPushReg (sz : OpSize) (r : Reg) (s : State) : Result :=
  runInstr (do
    let v ← look (fun s => s.reg sz r)
    push sz v
    change State.advance) s

/-- PUSH r/m16, r/m32 (R120). -/
def execPushRm (sz : OpSize) (rm : RM) (s : State) : Result :=
  runInstr (do
    let v ← readRM sz rm
    push sz v
    change State.advance) s

/-- PUSH imm8 (R120), extended with its sign. -/
def execPushImm8 (sz : OpSize) (i : Byte) (s : State) : Result :=
  runInstr (do
    push sz (i.signExtend 32)
    change State.advance) s

/-- PUSH imm16, imm32 (R120). -/
def execPushImmv (i : ImmV) (s : State) : Result :=
  runInstr (do
    push i.size (immValue i)
    change State.advance) s

/-- POP r16, r32 (R121): POP ESP loads the popped value, the increment is lost. POP SP on a 32-bit stack replaces the
low half of the pointer moved (log entry 28). -/
def execPopReg (sz : OpSize) (r : Reg) (s : State) : Result :=
  runInstr (do
    let v ← pop sz
    change (fun s => (s.setReg sz r v).advance)) s

/-- POP m16, m32 (R121): an address through ESP is computed after the increment. -/
def execPopRm (sz : OpSize) (rm : RM) (s : State) : Result :=
  runInstr (do
    let v ← pop sz
    writeRM sz v rm
    change State.advance) s

/-- The copies of outer frame pointers that ENTER pushes (R122): `bp <- bp - n/8; push MemRead(SS, bp, n/8)`, so many times. -/
def copyFrames (sz : OpSize) : Nat → Word32 → M Unit
  | 0, _ => pure ()
  | k + 1, bp => do
    let v ← stackRead (bp - BitVec.ofNat 32 sz.bytes) sz.bytes
    push sz v
    copyFrames sz k (bp - BitVec.ofNat 32 sz.bytes)

/-- The nested part of ENTER: nothing at level 0, else the copies and the new frame pointer (R122), extended with
zeros where it is SP's and the operand size is 32 bits (log entry 25). -/
def nestFrames (sz : OpSize) (level : Nat) (bp frame : Word32) : M Unit :=
  match level with
  | 0 => pure ()
  | k + 1 => do
    copyFrames sz k bp
    push sz frame

/-- ENTER (R122): the frame must fit the stack segment, tested on the final stack pointer (D14). A 32-bit ENTER stores EBP
whole, on a 16-bit stack too (log entry 25). -/
def execEnter (sz : OpSize) (size : Word16) (level : Byte) (s : State) : Result :=
  runInstr (do
    let big ← stackBig
    let bp ← look (fun s => s.reg (stackSize big) .ebp)
    let image ← look (fun s => s.reg sz .ebp)
    push sz image
    let frame ← getSp
    nestFrames sz (level.toNat % 32) bp frame
    let sp ← getSp
    let top := stackWrap big (sp - size.setWidth 32)
    let d ← segView .ss
    require (d.inLimit top 1) (.stackFault 0)
    change (fun s => ((s.setReg (stackSize big) .ebp frame).setReg (stackSize big) .esp top).advance)) s

/-- LEAVE (R123): the read comes before either register changes. -/
def execLeave (sz : OpSize) (s : State) : Result :=
  runInstr (do
    let big ← stackBig
    let bp ← look (fun s => s.reg (stackSize big) .ebp)
    let v ← stackRead bp sz.bytes
    change (fun s => ((s.setReg (stackSize big) .esp (bp + BitVec.ofNat 32 sz.bytes)).setReg sz .ebp v).advance)) s

/-- MOV r16, r/m16 and r32, r/m32 (R124). -/
def execMovRRm (sz : OpSize) (r : Reg) (rm : RM) (s : State) : Result :=
  runInstr (do
    let v ← readRM sz rm
    change (fun s => (s.setReg sz r v).advance)) s

end Sys2Proof.Machine
end

