-- ==== Sys2Proof/Machine/Dispatch.lean ====
section
/-! DEFINITION. One arm for each instruction of spec/opcode_table.json. -/

namespace Sys2Proof.Machine

def exec (i : Instr) (s : State) : Host.Outcome State Fault Refusal :=
  match i with
  | .divRm8 rm => Sys2Proof.Machine.execDivRm8 rm s
  | .divRmv sz rm => Sys2Proof.Machine.execDivRmv sz rm s
  | .idivRm8 rm => Sys2Proof.Machine.execIdivRm8 rm s
  | .idivRmv sz rm => Sys2Proof.Machine.execIdivRmv sz rm s
  | .int3 => Sys2Proof.Machine.execInt3 s
  | .intImm n => Sys2Proof.Machine.execIntImm n s
  | .into => Sys2Proof.Machine.execInto s
  | .bound sz r rm => Sys2Proof.Machine.execBound sz r rm s
  | .esc op reg rm => Sys2Proof.Machine.execEsc op reg rm s
  | .wait => Sys2Proof.Machine.execWait s
  | .jmpRel8 sz disp => Sys2Proof.Machine.execJmpRel8 sz disp s
  | .jmpRelv disp => Sys2Proof.Machine.execJmpRelv disp s
  | .jmpRmv sz rm => Sys2Proof.Machine.execJmpRmv sz rm s
  | .jmpPtr off sel => Sys2Proof.Machine.execJmpPtr off sel s
  | .jmpMem sz rm => Sys2Proof.Machine.execJmpMem sz rm s
  | .callRelv disp => Sys2Proof.Machine.execCallRelv disp s
  | .callRmv sz rm => Sys2Proof.Machine.execCallRmv sz rm s
  | .callPtr off sel => Sys2Proof.Machine.execCallPtr off sel s
  | .callMem sz rm => Sys2Proof.Machine.execCallMem sz rm s
  | .retf sz => Sys2Proof.Machine.execRetf sz s
  | .retfImm sz n => Sys2Proof.Machine.execRetfImm sz n s
  | .iret sz => Sys2Proof.Machine.execIret sz s
  | .lds sz r rm => Sys2Proof.Machine.execLds sz r rm s
  | .les sz r rm => Sys2Proof.Machine.execLes sz r rm s
  | .lss sz r rm => Sys2Proof.Machine.execLss sz r rm s
  | .lfs sz r rm => Sys2Proof.Machine.execLfs sz r rm s
  | .lgs sz r rm => Sys2Proof.Machine.execLgs sz r rm s
  | .lldt rm => Sys2Proof.Machine.execLldt rm s
  | .movSregRm sreg rm => Sys2Proof.Machine.execMovSregRm sreg rm s
  | .movRmSreg rm sreg => Sys2Proof.Machine.execMovRmSreg rm sreg s
  | .popEs sz => Sys2Proof.Machine.execPopEs sz s
  | .popSs sz => Sys2Proof.Machine.execPopSs sz s
  | .popDs sz => Sys2Proof.Machine.execPopDs sz s
  | .popFs sz => Sys2Proof.Machine.execPopFs sz s
  | .popGs sz => Sys2Proof.Machine.execPopGs sz s
  | .pushEs sz => Sys2Proof.Machine.execPushEs sz s
  | .pushCs sz => Sys2Proof.Machine.execPushCs sz s
  | .pushSs sz => Sys2Proof.Machine.execPushSs sz s
  | .pushDs sz => Sys2Proof.Machine.execPushDs sz s
  | .pushFs sz => Sys2Proof.Machine.execPushFs sz s
  | .pushGs sz => Sys2Proof.Machine.execPushGs sz s
  | .movCrR cr r => Sys2Proof.Machine.execMovCrR cr r s
  | .movRCr r cr => Sys2Proof.Machine.execMovRCr r cr s
  | .pushReg sz r => Sys2Proof.Machine.execPushReg sz r s
  | .pushRm sz rm => Sys2Proof.Machine.execPushRm sz rm s
  | .pushImm8 sz v => Sys2Proof.Machine.execPushImm8 sz v s
  | .pushImmv v => Sys2Proof.Machine.execPushImmv v s
  | .popReg sz r => Sys2Proof.Machine.execPopReg sz r s
  | .popRm sz rm => Sys2Proof.Machine.execPopRm sz rm s
  | .enter sz size level => Sys2Proof.Machine.execEnter sz size level s
  | .leave sz => Sys2Proof.Machine.execLeave sz s
  | .movRRm sz r rm => Sys2Proof.Machine.execMovRRm sz r rm s

end Sys2Proof.Machine
end

