-- ==== Sys2Proof/Machine/Fetch.lean ====
section
/-! DEFINITION. Fetching an instruction's bytes, the events at an instruction boundary and the debug traps after it
(spec/20_memory.md R63; spec/30_encoding.md R70, R73, R77; spec/60_exceptions.md R134, R138, R195, R196, R198). -/

namespace Sys2Proof.Machine

/-! ## The instruction's bytes -/

/-- The top of the offset space of a code segment: 2^16 or 2^32 (spec/91_not_in_source.md N12). -/
def offsetTop (d : SegDesc) : Nat := if d.big then 0x100000000 else 0x10000

/-- Whether a byte may have been fetched before a store to it: the store fell less than `codeWindow` bytes ahead of EIP, and no transfer of control
has come since (R63). -/
def staleByte (s : State) (pa off : Nat) : Bool :=
  s.codeStores.any (fun x => decide (x.1 = pa) && decide (x.2.toNat ≤ off) && decide (off < x.2.toNat + Config.codeWindow))

/-- The instruction byte `k` bytes after EIP, or why it cannot be fetched (R21, R55, R63, N12). -/
def fetchByte (s : State) (d : SegDesc) (k : Nat) : Except Stop Byte :=
  if d.limit.toNat < s.eip.toNat + k ∧ s.eip.toNat + k < 0x100000000 then .error (.exc (.generalProtection 0))
  else if offsetTop d ≤ s.eip.toNat + k then .error (.refuse .eipWrap)
  else
    match translate s false s.user (d.base + s.eip + BitVec.ofNat 32 k) with
    | .error e => .error e
    | .ok pa => if staleByte s pa (s.eip.toNat + k) then .error (.refuse .staleCode) else .ok (Memory.read s.mem pa)

/-- Up to `n` instruction bytes from the `k`-th on, each one an access of its own (log entry 38), as far as they can be fetched, and why they end. -/
def fetchBytes (s : State) (d : SegDesc) : Nat → Nat → List Byte × Option Stop
  | 0, _ => ([], none)
  | n + 1, k =>
    match fetchByte s d k with
    | .error e => ([], some e)
    | .ok b => (b :: (fetchBytes s d n (k + 1)).1, (fetchBytes s d n (k + 1)).2)

/-- The offset of the byte after an instruction. Where that is the top of the offset space, or past it, it is open (N12; log entry 15). -/
def State.setNext (s : State) (top len : Nat) : State :=
  if s.eip.toNat + len < top then { s with nextEip := s.eip + BitVec.ofNat 32 len }
  else { s.drawn with nextEip := Config.freeWord s.freeCtr }

/-- Fetch and decode (R70, R73, R145): bytes that are not part of the instruction raise nothing. An instruction of more than 15 bytes raises
exception 13, one outside the opcode map has no meaning here (R77). -/
def fetchDecode : M Instr := do
  let d ← segView .cs
  let s ← look id
  let (bs, stop) := fetchBytes s d Config.maxInstrLen 0
  match decode d.big bs with
  | .ok (i, rest) => do
    change (fun s => s.setNext (offsetTop d) (bs.length - rest.length))
    pure i
  | .error .more =>
    match stop with
    | some e => liftStop (.error e)
    | none => raise (.generalProtection 0)
  | .error .unlisted => refuse .unlistedOpcode

/-! ## A step's parts -/

/-- Apply a function to a next state. -/
def mapNext (f : State → State) : Result → Result
  | .next s => .next (f s)
  | .fault r => .fault r
  | .refused r => .refused r

/-- Go on from a next state. -/
def andThen (r : Result) (f : State → Result) : Result :=
  match r with
  | .next s => f s
  | .fault e => .fault e
  | .refused e => .refused e

/-- Fetch, decode and execute one instruction. -/
def stepInstr (s : State) : Result :=
  match fetchDecode s with
  | .ok i t => exec i t
  | .error (.refuse r) _ => .refused r
  | .error (.exc e) t => reportFault (cutOff s t) e

/-- What happens at an instruction boundary, in the order of R198: the debug faults of the next instruction, NMI, an external interrupt, else the
instruction. A load of SS holds interrupts off (R112). -/
def stepEvent (s : State) : Result :=
  let q : State := { s with ssShadow := false }
  if s.debugIn.hasFault then
    reportFault q (.debug { instrBp := s.debugIn.instrBp, generalDetect := s.debugIn.generalDetect })
  else if s.nmiPending && s.nmiFrame.isNone && !s.ssShadow then
    let t : State := { q with nmiPending := false }
    report reportFuel t t .nmi
  else
    match s.intr, s.flag flagIF && !s.ssShadow with
    | some v, true =>
      let t : State := { q with intr := none }
      report reportFuel t t (.external v)
    | _, _ => if s.flag flagVM then .refused .v86Mode else stepInstr q

/-- The debug traps an instruction that went from `s` to `t` causes (R138): single step by TF as it began. -/
def trapsDue (s t : State) : DebugConds where
  dataBp := s.debugIn.dataBp
  singleStep := s.flag flagTF || s.debugIn.singleStep
  taskSwitch := t.taskTrap || s.debugIn.taskSwitch

/-- Report debug traps at `src`, unless the instruction has left protected mode (R201, R208). -/
def reportTraps (old src : State) (c : DebugConds) : Result :=
  if src.pe then report reportFuel old src (.exc (.debug c)) else .refused .realMode

/-- Report the debug traps of a step that went from `s` to `t`, or hold them while a load of SS does (R112). A step that ended in a fault causes none
(R134) but a task's debug trap bit. Where the delivery itself switches to a task with its debug trap bit set, `taskTrap` says so to the next step (R138).
A second exception is reported at the instruction that trapped, which is then restarted (R184), unless a task switch
or a delivered fault has put it out of reach; so is one raised by the delivery of a held trap, which is then dropped (log entry 22). After shutdown nothing is reported (R187). -/
def afterEvent (s t : State) : Result :=
  if t.shutdown then .next t
  else if t.stepKind = .faulted then
    if t.taskTrap then reportTraps t t { taskSwitch := true } else .next t
  else
    let due := t.heldTraps.join (trapsDue s t)
    if !due.hasTrap then .next t
    else if t.ssShadow then .next { t with heldTraps := due, taskTrap := false }
    else
      let src : State := { t with heldTraps := {} }
      reportTraps (if t.stepKind = .switched then src else { s with heldTraps := {}, ssShadow := false }) src due

/-- What comes first in a step: the trap of a task entered by the step before, whose own delivery entered it ("before the new task's first
instruction", R138), else the event or instruction at the boundary with the debug traps that follow. -/
def stepBody (s : State) : Result :=
  if s.taskTrap then reportTraps s s { taskSwitch := true } else andThen (stepEvent s.begin) (afterEvent s.begin)

/-- Take what the environment presents before the next step (R13), and forget how this step went, but for a task's debug trap not yet reported. -/
def State.latch (s : State) : State :=
  match s.inputs with
  | [] => { s with debugIn := {}, stepKind := .plain }
  | i :: r =>
    { s with
      nmiPending := s.nmiPending || i.nmi
      intr := i.intr
      errorPin := i.errorPin
      debugIn := i.debug
      npx := i.npx
      inputs := r
      stepKind := .plain }

/-! ## Placing an instruction (log entry 4) -/

/-- The launch state: protected mode with nothing pending. After reset this sets PE and no more. -/
def State.launch (s : State) : State :=
  { s with
    cr0 := s.cr0 ||| 1
    eflags := s.eflags &&& 0xFFFDFFFF
    shutdown := false
    nmiPending := false
    intr := none
    debugIn := {}
    heldTraps := {}
    taskTrap := false
    codeStores := [] }

/-- Put bytes where the instruction at CS:EIP is fetched from. -/
def State.placeFrom (s : State) (k : Nat) : List Byte → State
  | [] => s
  | b :: r =>
    let lin := s.segs.cs.desc.base + s.eip + BitVec.ofNat 32 k
    let pa := match pageWalk s false false lin with
      | .ok pa => pa
      | .error _ => lin.toNat
    State.placeFrom { s with mem := Memory.write s.mem pa b } (k + 1) r

def State.placeCode (s : State) (bs : List Byte) : State := s.placeFrom 0 bs

end Sys2Proof.Machine
end

