-- ==== Sys2Proof/Machine/Step.lean ====
section
/-! DEFINITION. One step (spec/00_scope.md R13; spec/60_exceptions.md R198), and how an instruction word is placed to be the next one. -/

namespace Sys2Proof.Machine

/-- One step: deliver one interrupt or debug exception, or fetch, decode and execute one instruction, and then the debug traps that follow (R13).
No step is enabled after shutdown (R187), and none in real-address mode (R201). -/
def step (s : State) : Host.Outcome State Fault Refusal :=
  if s.shutdown then .fault .shutdown
  else if !s.pe then .refused .realMode
  else mapNext State.latch (stepBody s)

/-- `s` with an instruction word of spec/opcode_table.json where `step` fetches its next instruction, in a state that runs it: protected mode with
nothing pending (R231, R232; log entry 4). -/
def State.withFetchWord (s : State) (nbits w : Nat) : State := s.launch.placeCode (tableBytes nbits w)

end Sys2Proof.Machine
end

