-- ==== Sys2Proof/Safety.lean ====
section
/-! DEFINITION. What statements are said in: the states that may run, the invariant, when an access, a push, a segment load or a handler's entry goes
through and what it then gives (spec/20_memory.md R54 to R57; spec/42_segment_and_control.md R118, R119; spec/60_exceptions.md R188 to R190). -/

namespace Sys2Proof.Machine

/-! ## States -/

/-- Protected mode, and not V86 mode: the states the model runs in (R200, R201). -/
def State.ready (s : State) : Prop := s.pe = true ∧ s.flag flagVM = false

/-- What every step keeps: memory in its canonical form, no paging without protection (R25), CPL the RPL of CS (R31), nothing half done between steps,
and `delivering` only in shutdown (R37, R187). -/
structure State.Inv (s : State) : Prop where
  mem : Memory.wf s.mem = true
  paging : s.pg = true → s.pe = true
  level : s.cpl = rpl s.segs.cs.sel
  journal : s.journal = []
  switching : s.switching = .idle
  delivering : s.delivering = if s.shutdown then some .doubleFault else none

/-- The debug and table registers and the coprocessor, which no rule lets an instruction write, but for the status bits of DR6 (R29, R30, R40, R139). -/
def State.fixedRegs (s : State) : Word32 × Word32 × Word32 × Word32 × Word32 × TableReg × TableReg × Coproc :=
  (s.dbg.dr0, s.dbg.dr1, s.dbg.dr2, s.dbg.dr3, s.dbg.dr7, s.gdtr, s.idtr, s.coproc)

/-! ## Accesses -/

/-- `n` bytes from a linear address up translate, each of them (R51, R57). -/
def State.mapped (s : State) (write user : Bool) (n : Nat) (lin : Word32) : Bool :=
  match write with
  | true => (translateWrite s user n lin).2 == none
  | false => (translateAll s false user n lin).2 == none

/-- The segment stage lets an access through (R55): the register checked, not null where that matters, inside the limit, of an allowed kind. -/
def State.segAllows (s : State) (seg : SegReg) (off : Word32) (n : Nat) (kind : Access) : Bool :=
  (s.segs.get seg).checked && !(nullMatters seg && isNull (s.segs.get seg).sel) &&
    (s.segs.get seg).desc.inLimit off n && (s.segs.get seg).desc.allows kind

/-- The linear address of an offset. -/
def State.lin (s : State) (seg : SegReg) (off : Word32) : Word32 := (s.segs.get seg).desc.base + off

/-- A read of `n` bytes goes through. -/
def State.readable (s : State) (seg : SegReg) (off : Word32) (n : Nat) : Bool :=
  s.segAllows seg off n .read && s.mapped false s.user n (s.lin seg off)

/-- A write of `n` bytes goes through. -/
def State.writable (s : State) (seg : SegReg) (off : Word32) (n : Nat) : Bool :=
  s.segAllows seg off n .write && s.mapped true s.user n (s.lin seg off)

/-- What a read that goes through gives. -/
def State.loaded (s : State) (seg : SegReg) (off : Word32) (n : Nat) : Word32 := s.valueAt s.user n (s.lin seg off)

/-- The physical addresses a write that goes through stores to. -/
def State.targets (s : State) (seg : SegReg) (off : Word32) (n : Nat) : List Nat := (translateWrite s s.user n (s.lin seg off)).1

/-- The state after a write that goes through. -/
def State.stored (s : State) (seg : SegReg) (off : Word32) (n : Nat) (v : Word32) : State := s.storeBytes (s.targets seg off n) v

/-! ## Operands -/

/-- A memory operand can be read, `disp` above its offset. -/
def State.memReadable (s : State) (m : MemOp) (disp : Word32) (n : Nat) : Bool := s.readable (opSeg m) (eaOffset s m.ea + disp) n

def State.memLoaded (s : State) (m : MemOp) (disp : Word32) (n : Nat) : Word32 := s.loaded (opSeg m) (eaOffset s m.ea + disp) n

/-- A register or memory operand can be read. -/
def State.rmReadable (s : State) (n : Nat) : RM → Bool
  | .reg _ => true
  | .mem m => s.memReadable m 0 n

/-- Its value at an operand size. -/
def State.rmValue (s : State) (sz : OpSize) : RM → Word32
  | .reg r => s.reg sz r
  | .mem m => s.memLoaded m 0 sz.bytes

/-- Its value as a byte. -/
def State.rmValue8 (s : State) : RM → Word32
  | .reg r => (s.reg8 r).setWidth 32
  | .mem m => s.memLoaded m 0 1

/-- A register or memory operand can be written. -/
def State.rmWritable (s : State) (n : Nat) : RM → Bool
  | .reg _ => true
  | .mem m => s.writable (opSeg m) (eaOffset s m.ea) n

/-- The state after it is written. -/
def State.rmStored (s : State) (sz : OpSize) (v : Word32) : RM → State
  | .reg r => s.setReg sz r v
  | .mem m => s.stored (opSeg m) (eaOffset s m.ea) sz.bytes v

/-- The physical addresses a write of it stores to: none for a register. -/
def State.rmTargets (s : State) (n : Nat) : RM → List Nat
  | .reg _ => []
  | .mem m => s.targets (opSeg m) (eaOffset s m.ea) n

/-- A far pointer can be read (R76). -/
def State.farReadable (s : State) (sz : OpSize) (m : MemOp) : Bool :=
  s.memReadable m 0 sz.bytes && s.memReadable m (BitVec.ofNat 32 sz.bytes) 2

/-- Its offset and its selector. -/
def State.farOff (s : State) (sz : OpSize) (m : MemOp) : Word32 := s.memLoaded m 0 sz.bytes

def State.farSel (s : State) (sz : OpSize) (m : MemOp) : Word16 := (s.memLoaded m (BitVec.ofNat 32 sz.bytes) 2).setWidth 16

/-! ## The stack -/

/-- The size of the stack pointer in force (R125). -/
def State.stackOp (s : State) : OpSize := stackSize s.segs.ss.desc.big

/-- SP or ESP. -/
def State.sp (s : State) : Word32 := s.reg s.stackOp .esp

/-- Where `d` above an offset of the stack lies, modulo the stack's size. -/
def State.stackAt (s : State) (off : Word32) : Word32 := stackWrap s.segs.ss.desc.big off

/-- The offset a push stores at (R120). -/
def State.pushAt (s : State) (sz : OpSize) : Word32 := s.stackAt (s.sp - BitVec.ofNat 32 sz.bytes)

/-- A push goes through. -/
def State.canPush (s : State) (sz : OpSize) : Bool := s.segs.ss.checked && s.writable .ss (s.pushAt sz) sz.bytes

/-- The physical addresses a push stores to. -/
def State.pushTargets (s : State) (sz : OpSize) : List Nat := s.targets .ss (s.pushAt sz) sz.bytes

/-- The state with another SP or ESP; a 16-bit stack leaves the upper half of ESP unchanged (R125). -/
def State.withSp (s : State) (v : Word32) : State := s.setReg s.stackOp .esp v

/-- The state after a push (R120). -/
def State.pushed (s : State) (sz : OpSize) (v : Word32) : State :=
  (s.stored .ss (s.pushAt sz) sz.bytes v).withSp (s.sp - BitVec.ofNat 32 sz.bytes)

/-- Pushes go through, one after the other. -/
def State.canPushAll (s : State) (sz : OpSize) : List Word32 → Bool
  | [] => true
  | v :: r => s.canPush sz && (s.pushed sz v).canPushAll sz r

def State.pushedAll (s : State) (sz : OpSize) : List Word32 → State
  | [] => s
  | v :: r => (s.pushed sz v).pushedAll sz r

def State.pushAllTargets (s : State) (sz : OpSize) : List Word32 → List Nat
  | [] => []
  | v :: r => s.pushTargets sz ++ (s.pushed sz v).pushAllTargets sz r

/-- The stack can be read at an offset. -/
def State.canPop (s : State) (off : Word32) (n : Nat) : Bool := s.segs.ss.checked && s.readable .ss (s.stackAt off) n

/-- What lies on the stack at an offset. -/
def State.onStack (s : State) (off : Word32) (n : Nat) : Word32 := s.loaded .ss (s.stackAt off) n

/-- The copies of outer frame pointers that a nested ENTER pushes go through (R122). -/
def State.canCopy (s : State) (sz : OpSize) : Nat → Word32 → Bool
  | 0, _ => true
  | k + 1, bp =>
    let at' := bp - BitVec.ofNat 32 sz.bytes
    s.canPop at' sz.bytes && s.canPush sz && (s.pushed sz (s.onStack at' sz.bytes)).canCopy sz k at'

def State.copied (s : State) (sz : OpSize) : Nat → Word32 → State
  | 0, _ => s
  | k + 1, bp =>
    let at' := bp - BitVec.ofNat 32 sz.bytes
    (s.pushed sz (s.onStack at' sz.bytes)).copied sz k at'

def State.copyTargets (s : State) (sz : OpSize) : Nat → Word32 → List Nat
  | 0, _ => []
  | k + 1, bp =>
    let at' := bp - BitVec.ofNat 32 sz.bytes
    s.pushTargets sz ++ (s.pushed sz (s.onStack at' sz.bytes)).copyTargets sz k at'

/-- The nested part of ENTER: nothing at level 0, else the copies and the new frame pointer (R122). -/
def State.canNest (s : State) (sz : OpSize) (level : Nat) (bp : Word32) : Bool :=
  match level with
  | 0 => true
  | k + 1 => s.canCopy sz k bp && (s.copied sz k bp).canPush sz

def State.nested (s : State) (sz : OpSize) (level : Nat) (bp frame : Word32) : State :=
  match level with
  | 0 => s
  | k + 1 => (s.copied sz k bp).pushed sz frame

def State.nestTargets (s : State) (sz : OpSize) (level : Nat) (bp : Word32) : List Nat :=
  match level with
  | 0 => []
  | k + 1 => s.copyTargets sz k bp ++ (s.copied sz k bp).pushTargets sz

/-- Stores of the coprocessor's portions go through, one after the other (R100). -/
def State.canGive (s : State) (seg : SegReg) : List (Word32 × List Byte) → Bool
  | [] => true
  | (off, d) :: r => s.writable seg off d.length && (s.stored seg off d.length (leValue d)).canGive seg r

def State.given (s : State) (seg : SegReg) : List (Word32 × List Byte) → State
  | [] => s
  | (off, d) :: r => (s.stored seg off d.length (leValue d)).given seg r

def State.giveTargets (s : State) (seg : SegReg) : List (Word32 × List Byte) → List Nat
  | [] => []
  | (off, d) :: r => s.targets seg off d.length ++ (s.stored seg off d.length (leValue d)).giveTargets seg r

/-! ## Descriptors -/

/-- The descriptor a selector picks, where it lies inside its table and can be read (R56). -/
def State.descOf (s : State) (sel : Word16) : Option Desc :=
  match descAddr s sel with
  | none => none
  | some a =>
    if s.mapped false false 4 a && s.mapped false false 4 (a + 4) then
      some (parseDesc (s.valueAt false 4 a) (s.valueAt false 4 (a + 4)))
    else none

/-- What a segment register holds after a load of `sel` that passes the tests of R118, if it does. -/
def State.segLoad (s : State) (seg : SegReg) (sel : Word16) : Option SegState :=
  if isNull sel then
    match seg with
    | .ss | .cs => none
    | .ds | .es | .fs | .gs => some (nullSeg sel)
  else
    match s.descOf sel with
    | none => none
    | some d =>
      match segTest seg s.cpl sel d with
      | .ok sd => some { sel := sel, desc := sd, checked := true }
      | .error _ => none

/-- The code segment a selector picks for a transfer that keeps the level, if the tests of R119 pass for the target `off`: non-conforming with
DPL = CPL and, if the instruction names the selector itself, RPL ≤ CPL (log entry 31), or conforming with DPL ≤ CPL. -/
def State.levelCode (s : State) (named : Bool) (sel : Word16) (off : Word32) : Option SegDesc :=
  if isNull sel then none
  else
    match s.descOf sel with
    | some (.seg true d) =>
      match d.kind with
      | .code conforming _ =>
        if (if conforming then decide (d.dpl ≤ s.cpl) else d.dpl == s.cpl && (!named || decide (rpl sel ≤ s.cpl))) && decide (off.toNat ≤ d.limit.toNat)
        then some d else none
      | .data _ _ => none
    | _ => none

/-- The same for the selector of the instruction. -/
def State.sameLevelCode (s : State) (sel : Word16) (off : Word32) : Option SegDesc := s.levelCode true sel off

/-- The same for the selector in a call gate. -/
def State.gateCode (s : State) (sel : Word16) (off : Word32) : Option SegDesc := s.levelCode false sel off

/-- A far JMP or CALL to `sel:off` with operand size `sz` keeps the level and goes to `x:o` in the code segment `d`, the size of its pushes being `z`:
directly, or through a present call gate that the privilege rules let it use (R106, R108; log entries 31 and 43). -/
def State.FarSame (s : State) (sz : OpSize) (sel : Word16) (off : Word32) (z : OpSize) (x : Word16) (o : Word32) (d : SegDesc) : Prop :=
  (s.sameLevelCode sel off = some d ∧ z = sz ∧ x = sel ∧ o = off) ∨
    (isNull sel = false ∧ s.gateCode x o = some d ∧
      ∃ dpl count, s.descOf sel = some (.callGate true dpl z count x o) ∧ s.cpl ≤ dpl ∧ rpl sel ≤ dpl)

/-- The code segment a return's CS image picks, if the tests of R119 pass at the level its RPL names and the offset is inside its limit (R109). -/
def State.returnSeg (s : State) (sel : Word16) (off : Word32) : Option SegDesc :=
  if isNull sel || decide (rpl sel < s.cpl) then none
  else
    match s.descOf sel with
    | none => none
    | some d =>
      match codeTest (rpl sel) d with
      | .ok sd => if decide (off.toNat ≤ sd.limit.toNat) then some sd else none
      | .error _ => none

/-- What the LDT register holds after a load of `sel` that passes the tests of R111, if it does. -/
def State.ldtLoad (s : State) (sel : Word16) : Option LdtReg :=
  if isNull sel then some { sel := sel, base := 0, limit := 0, usable := false }
  else if inLdt sel then none
  else
    match s.descOf sel with
    | some (.ldt true base limit) => some { sel := sel, base := base, limit := limit, usable := true }
    | _ => none

/-- The state with a segment register loaded. -/
def State.withSeg (s : State) (seg : SegReg) (v : SegState) : State := { s with segs := s.segs.set seg v }

/-- CS as a transfer that keeps the level leaves it: the RPL is the level (R119). -/
def State.sameCs (s : State) (sel : Word16) (d : SegDesc) : State := s.setCs { sel := withRpl sel s.cpl, desc := d, checked := true }

/-- The six arithmetic flags left open (R90, U12). -/
def State.flagsOpened (s : State) : State := { s.drawn with eflags := maskMerge arithFlags s.eflags (Config.freeWord s.freeCtr) }

/-! ## Handlers -/

/-- The IDT entry of a vector, where it lies inside the IDT and can be read (R188). -/
def State.idtEntry (s : State) (v : Byte) : Option Desc :=
  let a := s.idtr.base + BitVec.ofNat 32 (8 * v.toNat)
  if decide (8 * v.toNat + 7 ≤ s.idtr.limit.toNat) && s.mapped false false 4 a && s.mapped false false 4 (a + 4) then
    some (parseDesc (s.valueAt false 4 a) (s.valueAt false 4 (a + 4)))
  else none

/-- A trap or interrupt gate's handler in the interrupted task: the gate's size and kind, the code segment, and where it begins. -/
structure Handler where
  size  : OpSize
  trap  : Bool
  sel   : Word16
  desc  : SegDesc
  off   : Word32
  deriving DecidableEq, Repr

/-- The level a handler runs at: its code segment's (R188, R190), but the present one for conforming code (log entry 31). -/
def Handler.level (h : Handler) (cpl : BitVec 2) : BitVec 2 :=
  match h.desc.kind with
  | .code true _ => cpl
  | _ => h.desc.dpl

/-- The handler a vector's IDT entry names, if every test of R119 and R188 passes: a present trap or interrupt gate (for a software interrupt with
DPL not below CPL, R197), a present code segment no less privileged than CPL, the offset inside its limit. -/
def State.handler (s : State) (software : Bool) (v : Byte) : Option Handler :=
  match s.idtEntry v with
  | some (.intGate true dpl size trap sel off) =>
    if (!software || decide (s.cpl ≤ dpl)) && !isNull sel then
      match s.descOf sel with
      | some (.seg true d) =>
        match d.kind with
        | .code _ _ =>
          if decide (d.dpl ≤ s.cpl) && decide (off.toNat ≤ d.limit.toNat) then some { size := size, trap := trap, sel := sel, desc := d, off := off }
          else none
        | .data _ _ => none
      | _ => none
    else none
  | _ => none

/-- The upper half of a pushed selector is open in a 32-bit frame (R189): the image pushed, drawn at the counter `k`. -/
def selDrawn (sz : OpSize) (k : Nat) (sel : Word16) : Word32 :=
  match sz with
  | .s16 => sel.setWidth 32
  | .s32 => (Config.freeWord k).extractLsb' 16 16 ++ sel

/-- The state after a selector's image is drawn. -/
def State.selCounted (s : State) (sz : OpSize) : State :=
  match sz with
  | .s16 => s
  | .s32 => s.drawn

/-- The stack of a more privileged level as the current TSS gives it, SS and ESP, where both can be read (R190; log entry 10). -/
def State.tssStack (s : State) (level : BitVec 2) : Option (Word16 × Word32) :=
  let a := s.tr.base + BitVec.ofNat 32 (8 * level.toNat + 4)
  let b := s.tr.base + BitVec.ofNat 32 (8 * level.toNat + 8)
  if decide (8 * level.toNat + 9 ≤ s.tr.limit.toNat) && s.mapped false false 4 a && s.mapped false false 2 b then
    some ((s.valueAt false 2 b).setWidth 16, s.valueAt false 4 a)
  else none

/-- The parameters a call gate copies, nearest first, where each can be read from the caller's stack (R108). -/
def State.params (s : State) (sz : OpSize) : Nat → Word32 → Option (List Word32)
  | 0, _ => some []
  | n + 1, at' =>
    if s.canPop at' sz.bytes then (s.params sz n (at' + BitVec.ofNat 32 sz.bytes)).map (fun r => s.onStack at' sz.bytes :: r) else none

/-- The state with CS loaded and, for a more privileged handler, the stack of its level (R188, R190). -/
def State.handlerStack (s : State) (h : Handler) : Option State :=
  let t := s.setCs { sel := withRpl h.sel (h.level s.cpl), desc := h.desc, checked := true }
  if h.level s.cpl = s.cpl then some t
  else
    match s.tssStack (h.level s.cpl) with
    | none => none
    | some (ss, esp) =>
      match t.segLoad .ss ss with
      | none => none
      | some v => some ((t.withSeg .ss v).withSp esp)

def State.based (s : State) (h : Handler) : State := (s.handlerStack h).getD s

/-- The state in which a handler's frame is pushed: on its stack, the selector images drawn (R189). -/
def State.framing (s : State) (h : Handler) : State := ((s.based h).selCounted h.size).selCounted h.size

/-- A handler's frame: on a stack switch the old SS and ESP, then EFLAGS, CS, EIP (R188, R189). `pc` is the CS:EIP the event saves. -/
def State.frame (s : State) (h : Handler) (pc : Word16 × Word32) : List Word32 :=
  (if h.level s.cpl != s.cpl then [selDrawn h.size (s.based h).freeCtr s.segs.ss.sel, s.gpr.esp] else []) ++
    [s.eflags, selDrawn h.size ((s.based h).selCounted h.size).freeCtr pc.1, pc.2]

/-- The error code's image, its open bits drawn at the counter `k` (R173, R180). -/
def errDrawn (k : Nat) : ErrCode → List Word32
  | .none => []
  | .zero => [0]
  | .selector ec => [(Config.freeWord k).extractLsb' 16 16 ++ ec]
  | .page p w u => [maskMerge 7 (Config.freeWord k) (pageCode p w u)]

def State.errCounted (s : State) : ErrCode → State
  | .none | .zero => s
  | .selector _ | .page _ _ _ => s.drawn

/-- The state with the frame pushed. -/
def State.framed (s : State) (h : Handler) (pc : Word16 × Word32) : State := (s.framing h).pushedAll h.size (s.frame h pc)

/-- The state with the frame pushed, its EIP image noted as the place where an abort's or NMI's handler is entered, and no longer as an older abort's
(log entries 13 and 21). -/
def State.entryNoted (s : State) (ev : Event) (h : Handler) (pc : Word16 × Word32) : State :=
  (s.framed h pc).noted ev (.stack ((s.framed h pc).segs.ss.desc.base + (s.framed h pc).sp))

/-- Then the error code's open bits drawn. -/
def State.coding (s : State) (ev : Event) (h : Handler) (pc : Word16 × Word32) : State := (s.entryNoted ev h pc).errCounted ev.errCode

/-- The state at the first instruction of a handler entered through a trap or interrupt gate: the frame, the error code, the flags (R188, R189). -/
def State.entered (s : State) (ev : Event) (h : Handler) (pc : Word16 × Word32) : State :=
  let t := (s.coding ev h pc).pushedAll h.size (errDrawn (s.framed h pc).freeCtr ev.errCode)
  { t with eflags := handlerFlags h.trap t.eflags }.jump h.off

/-- A handler's stack can be loaded, and its frame and error code can be pushed. -/
def State.canEnter (s : State) (ev : Event) (h : Handler) (pc : Word16 × Word32) : Bool :=
  (s.handlerStack h).isSome && (s.framing h).segs.ss.checked && (s.framing h).canPushAll h.size (s.frame h pc) &&
    (s.coding ev h pc).canPushAll h.size (errDrawn (s.framed h pc).freeCtr ev.errCode)

/-- The physical addresses the entry stores to. -/
def State.entryTargets (s : State) (ev : Event) (h : Handler) (pc : Word16 × Word32) : List Nat :=
  (s.framing h).pushAllTargets h.size (s.frame h pc) ++
    (s.coding ev h pc).pushAllTargets h.size (errDrawn (s.framed h pc).freeCtr ev.errCode)

/-- The state in which an attempt at invoking the handler of an event begins (R37, R188). -/
def State.attempt (s : State) (ev : Event) : State := { (s.recordEvent ev).begin with delivering := some ev.delivering }

/-- The state whose registers the handler of an event sees: for an abort with the registers and the saved CS:EIP drawn (R133, U1). -/
def State.faced (s : State) (ev : Event) : State := if ev.isAbort then s.regsOpened.drawn.drawn else s

/-- The CS:EIP an event saves: open for an abort (R131 to R133). -/
def State.eventPc (s : State) (ev : Event) : Word16 × Word32 :=
  if ev.isAbort then ((Config.freeWord (s.freeCtr + 12)).setWidth 16, Config.freeWord (s.freeCtr + 13)) else (s.segs.cs.sel, s.eip)

/-- The entry an IRET returns from, through a checked SS (R193, R195). -/
def State.irets (s : State) : HandlerFrame := if s.flag flagNT then .task s.tr.sel else .stack (s.segs.ss.desc.base + s.sp)

/-! ## Task switches (R156; the TSS's layout is log entry 10) -/

/-- Where the page tables of `s` put a byte that the processor itself accesses (R57, R59), if they do. -/
def State.place (s : State) (lin : Word32) : Option Nat :=
  match pageWalk s false false lin with
  | .ok pa => some pa
  | .error _ => none

/-- In the memory `m` the `n` bytes at a linear address, put where the page tables of `s` put them, are those of `v`, low byte first (R50). -/
def State.Finds (s : State) (m : List Host.Cell) (n : Nat) (lin v : Word32) : Prop :=
  ∀ k < n, ∃ pa, s.place (lin + BitVec.ofNat 32 k) = some pa ∧ Memory.read m pa = (v >>> (8 * k)).setWidth 8

/-- The fields of the old TSS that a switch writes, each by its offset, its size and its value: EIP, EFLAGS (by a return with NT clear), the general
registers, the selectors ES, CS, SS, DS, FS and GS. `pc` is the CS:EIP saved. -/
def State.savedFields (s : State) (cause : SwitchCause) (pc : Word16 × Word32) : List (Word32 × Nat × Word32) :=
  [(0x20, 4, pc.2), (0x24, 4, if cause = .iret then s.eflags &&& 0xFFFFBFFF else s.eflags), (0x28, 4, s.gpr.get .eax), (0x2C, 4, s.gpr.get .ecx),
    (0x30, 4, s.gpr.get .edx), (0x34, 4, s.gpr.get .ebx), (0x38, 4, s.gpr.get .esp), (0x3C, 4, s.gpr.get .ebp), (0x40, 4, s.gpr.get .esi),
    (0x44, 4, s.gpr.get .edi), (0x48, 2, (s.segs.get .es).sel.setWidth 32), (0x4C, 2, pc.1.setWidth 32), (0x50, 2, (s.segs.get .ss).sel.setWidth 32),
    (0x54, 2, (s.segs.get .ds).sel.setWidth 32), (0x58, 2, (s.segs.get .fs).sel.setWidth 32), (0x5C, 2, (s.segs.get .gs).sel.setWidth 32)]

/-- A byte that a switch writes after the old state: the type byte, at offset 5, of the descriptor of the task that a JMP or a return leaves, or of the
one that is entered but by a return, where the busy mark is; or, for a CALL or an interrupt, a byte of the new TSS's backlink. -/
def State.MarkedAt (s : State) (cause : SwitchCause) (sel : Word16) (base lin : Word32) : Prop :=
  (cause.nests = false ∧ isNull s.tr.sel = false ∧ ∃ a, descAddr s s.tr.sel = some a ∧ lin = a + 5) ∨
    (cause ≠ .iret ∧ ∃ a, descAddr s sel = some a ∧ lin = a + 5) ∨ (cause.nests = true ∧ (lin = base ∨ lin = base + 1))

/-- What a switch from `s` that has read the new TSS has stored, `t` being a state after it: the old state in the old TSS, each byte of it that no byte
written later lies on, then the busy marks and the backlink, and nothing else (R156). -/
structure State.TaskSaved (s t : State) (cause : SwitchCause) (sel : Word16) (pc : Word16 × Word32) : Prop where
  fields : ∀ x ∈ s.savedFields cause pc, ∀ k < x.2.1, ∃ pa, s.place (s.tr.base + x.1 + BitVec.ofNat 32 k) = some pa ∧
    ((∀ lin, s.MarkedAt cause sel t.tr.base lin → s.place lin ≠ some pa) → Memory.read t.mem pa = (x.2.2 >>> (8 * k)).setWidth 8)
  entered : cause ≠ .iret → ∃ a pa, descAddr s sel = some a ∧ s.place (a + 5) = some pa ∧
    ((cause.nests = true → s.place t.tr.base ≠ some pa ∧ s.place (t.tr.base + 1) ≠ some pa) → (Memory.read t.mem pa).getLsbD 1 = true)
  left : cause.nests = false → isNull s.tr.sel = false → ∃ a pa, descAddr s s.tr.sel = some a ∧ s.place (a + 5) = some pa ∧
    ((cause = .jmp → ∀ b, descAddr s sel = some b → s.place (b + 5) ≠ some pa) → (Memory.read t.mem pa).getLsbD 1 = false)
  backlink : cause.nests = true → s.Finds t.mem 2 t.tr.base (s.tr.sel.setWidth 32)
  others : ∀ pa, (∀ x ∈ s.savedFields cause pc, ∀ k < x.2.1, s.place (s.tr.base + x.1 + BitVec.ofNat 32 k) ≠ some pa) →
    (∀ lin, s.MarkedAt cause sel t.tr.base lin → s.place lin ≠ some pa) → Memory.read t.mem pa = Memory.read s.mem pa

/-- The registers of `t` are those of its TSS, read through the page tables of `s`: EIP, EFLAGS (with NT set for a nested task), the general registers,
the six selectors and that of the LDT, CR3, the debug trap bit; CPL is the RPL of CS (R153, R156, R160). -/
structure State.TaskLoaded (s t : State) (nested : Bool) : Prop where
  eip : s.Finds t.mem 4 (t.tr.base + 0x20) t.eip
  eflags : ∃ f, s.Finds t.mem 4 (t.tr.base + 0x24) f ∧ t.eflags = if nested then f ||| 0x4000 else f
  gpr : ∀ x ∈ ([(0x28, .eax), (0x2C, .ecx), (0x30, .edx), (0x34, .ebx), (0x38, .esp), (0x3C, .ebp), (0x40, .esi), (0x44, .edi)] : List (Word32 × Reg)),
    s.Finds t.mem 4 (t.tr.base + x.1) (t.gpr.get x.2)
  segs : ∀ x ∈ ([(0x48, .es), (0x4C, .cs), (0x50, .ss), (0x54, .ds), (0x58, .fs), (0x5C, .gs)] : List (Word32 × SegReg)),
    s.Finds t.mem 2 (t.tr.base + x.1) ((t.segs.get x.2).sel.setWidth 32)
  ldtr : s.Finds t.mem 2 (t.tr.base + 0x60) (t.ldtr.sel.setWidth 32)
  cr3 : s.Finds t.mem 4 (t.tr.base + 0x1C) t.cr3
  trap : ∃ v, s.Finds t.mem 1 (t.tr.base + 0x64) v ∧ t.taskTrap = v.getLsbD 0
  cpl : t.cpl = rpl (t.segs.get .cs).sel

/-- The check of the new task's LDT, named by `sel`, fails with the exception `e`: the selector picks from the LDT or lies outside the GDT, or it picks no
LDT or one that is not present (R153 row 2, R158). -/
def State.LdtFails (t : State) (sel : Word16) (e : Exc) : Prop :=
  isNull sel = false ∧ e = .invalidTss (selError sel) ∧
    (inLdt sel = true ∨ descAddr t sel = none ∨ ∃ d, t.descOf sel = some d ∧ ∀ b l, d ≠ .ldt true b l)

/-- A descriptor that a segment register may not have at the level `cpl`, present or not: for SS, any but a writable data segment with DPL and RPL equal to
CPL (R153 rows 4 to 6); for CS, any but a code segment whose DPL allows the level (rows 8 to 10); for DS, ES, FS and GS, one that cannot be read (row 12) or
is too privileged (R118). -/
def Unfit (seg : SegReg) (cpl : BitVec 2) (sel : Word16) (d : Desc) : Prop :=
  (∀ p x, d ≠ .seg p x) ∨ ∃ p x, d = .seg p x ∧
    ((seg = .ss ∧ ((∀ e, x.kind ≠ .data true e) ∨ x.dpl ≠ cpl ∨ rpl sel ≠ cpl)) ∨
      (seg = .cs ∧ ((∃ w e, x.kind = .data w e) ∨ (∃ r, x.kind = .code false r ∧ x.dpl ≠ cpl) ∨ ∃ r, x.kind = .code true r ∧ cpl < x.dpl)) ∨
      (seg ≠ .ss ∧ seg ≠ .cs ∧ ((∃ c, x.kind = .code c false) ∨ ((∀ r, x.kind ≠ .code true r) ∧ (x.dpl < cpl ∨ x.dpl < rpl sel)))))

/-- The check of a segment register of the new task, which holds `sel`, fails with the exception `e`: exception 10 where the selector is null in CS or SS
(log entry 10), outside its table (R153 rows 3, 7 and 11) or of a descriptor that does not fit (rows 4 to 6, 8 to 10 and 12); else exception 12 for an
absent stack segment (R164) and 11 for another absent one (R160). -/
def State.RowFails (t : State) (seg : SegReg) (sel : Word16) (e : Exc) : Prop :=
  (isNull sel = true ∧ (seg = .cs ∨ seg = .ss) ∧ e = .invalidTss 0) ∨
    (isNull sel = false ∧ descAddr t sel = none ∧ e = .invalidTss (selError sel)) ∨
    (isNull sel = false ∧ ∃ d, t.descOf sel = some d ∧
      ((Unfit seg t.cpl sel d ∧ e = .invalidTss (selError sel)) ∨
        (¬Unfit seg t.cpl sel d ∧ (∃ x, d = .seg false x) ∧ e = if seg = .ss then .stackFault (selError sel) else .notPresent (selError sel))))

/-- Some check of the new task's selectors fails with the exception `e`; where the LDT's does, a selector that picks from the LDT is not checked. -/
def State.TaskFails (t : State) (e : Exc) : Prop :=
  t.LdtFails t.ldtr.sel e ∨
    ∃ seg, t.RowFails seg (t.segs.get seg).sel e ∧ ((∃ x, t.LdtFails t.ldtr.sel x) → inLdt (t.segs.get seg).sel = false)

/-- The selectors of the new task have been checked, and none fails: each register is loaded from its descriptor (R153, R156 step 5). -/
structure State.TaskChecked (t : State) : Prop where
  ldt : ∀ e, ¬t.LdtFails t.ldtr.sel e
  rows : ∀ seg e, ¬t.RowFails seg (t.segs.get seg).sel e
  ldtr : if isNull t.ldtr.sel then t.ldtr.usable = false
    else t.ldtr.usable = true ∧ t.descOf t.ldtr.sel = some (.ldt true t.ldtr.base t.ldtr.limit)
  segs : ∀ seg, (t.segs.get seg).checked = true ∧
    if isNull (t.segs.get seg).sel then (t.segs.get seg).desc = nullDesc else t.descOf (t.segs.get seg).sel = some (.seg true (t.segs.get seg).desc)

/-! ## What a completed instruction leaves -/

/-- The meaning answers `t`, and every byte of memory outside the addresses `l` reads in `t` as it read in `s`. -/
def Completes (i : Instr) (s t : State) (l : List Nat) : Prop :=
  exec i s = .next t ∧ ∀ a, a ∉ l → Memory.read t.mem a = Memory.read s.mem a

/-- The meaning reports the fault `e` at the instruction: the saved CS:EIP is that of `s`, and every register is as in `s` (R131). -/
def Faults (i : Instr) (s : State) (e : Exc) : Prop := exec i s = reportFault s.begin e

end Sys2Proof.Machine
end

