-- ==== Sys2Proof/Certificates/Slice0/Obligations.lean ====
section
/-! DEFINITION. The statements for the provers. In each, `s` is the state an instruction begins in and `s.begin` the same state with the model's own
bookkeeping of a step cleared; a result is written as the whole next state, so that what it does not name is unchanged. -/

section
open Sys2Proof Sys2Proof.Machine

/-! ## Reset and invariants -/

/-- The reset values that R39 gives as general knowledge, taken by log entry 6; memory lists nothing (log entry 7); the bookkeeping state of the spec
itself starts clear (R230, D13). -/
def Obligations.ResetState : Prop :=
  State.reset.eip = 0xFFF0 ∧ State.reset.segs.cs.sel = 0xF000 ∧ State.reset.segs.cs.desc.base = 0xFFFF0000 ∧
    State.reset.segs.cs.desc.limit = 0xFFFF ∧
    (∀ seg, seg ≠ .cs → (State.reset.segs.get seg).sel = 0 ∧ (State.reset.segs.get seg).desc.base = 0 ∧ (State.reset.segs.get seg).desc.limit = 0xFFFF) ∧
    State.reset.eflags = 2 ∧ State.reset.pe = false ∧ State.reset.mp = false ∧ State.reset.em = false ∧ State.reset.ts = false ∧
    State.reset.pg = false ∧ State.reset.dbg.dr7 = 0 ∧ State.reset.tr.sel = 0 ∧ State.reset.ldtr.sel = 0 ∧
    State.reset.idtr = { base := 0, limit := 0x3FF } ∧ State.reset.cpl = 0 ∧ State.reset.mem = [] ∧
    State.reset.delivering = none ∧ State.reset.shutdown = false ∧ State.reset.nmiPending = false

/-- The invariant holds right after reset. -/
def Obligations.ResetMeetsInvariant : Prop := State.reset.Inv

/-- Every step keeps the invariant: memory canonical (log entry 7), no paging without protection (R25, R117), CPL the RPL of CS (R31), nothing half
done between steps, `delivering` only in shutdown (R37, R187). -/
def Obligations.StepKeepsInvariant : Prop := ∀ s t : State, s.Inv → step s = .next t → t.Inv

/-- No step changes the debug registers other than DR6, GDTR, IDTR or the coprocessor attached: no rule of the spec writes them (R29, R30, R40, R139). That
nothing else does, a task switch included, is the model's: log entry 20 (PRESUMED) for DR0 to DR3 and DR7, whose writers R40 leaves to a chapter not
supplied, and log entry 13 (DESIGN CHOICE) for the debug and table registers at an abort, which U1 leaves open. -/
def Obligations.StepKeepsFixedRegisters : Prop := ∀ s t : State, step s = .next t → t.fixedRegs = s.fixedRegs

/-- CR0 is written by MOV to CR0 (R40): any other instruction leaves it as it was, or as it was with TS set, as R25 has a task switch do. -/
def Obligations.OnlyMovWritesCr0 : Prop :=
  ∀ (i : Instr) (s t : State), (∀ r, i ≠ .movCrR .cr0 r) → exec i s = .next t → t.cr0 = s.cr0 ∨ t.cr0 = s.cr0 ||| 8

/-- With paging off no instruction but a MOV to a control register changes CR2: it is written only at a page fault (R27), which occurs when paging is
enabled (R171). -/
def Obligations.Cr2KeptWithoutPaging : Prop :=
  ∀ (i : Instr) (s t : State), (∀ c r, i ≠ .movCrR c r) → s.pg = false → exec i s = .next t → t.cr2 = s.cr2

/-- "Further NMIs are held off until the handler's IRET" (R195): no other instruction lets NMI in again, and neither does an IRET from another entry
than the NMI handler's. That an entry is known by its place on the stack, or by its task, is log entry 21. -/
def Obligations.NmiHeldUntilIret : Prop :=
  (∀ (i : Instr) (s t : State), (∀ sz, i ≠ .iret sz) → exec i s = .next t → t.nmiFrame = s.nmiFrame) ∧
    ∀ (sz : OpSize) (s t : State), s.segs.ss.checked = true → s.nmiFrame ≠ some s.irets → exec (.iret sz) s = .next t → t.nmiFrame = s.nmiFrame

/-! ## Encodings, and the step -/

/-- Every well-formed instruction, with every operand, is read back from its own bytes, whatever follows them (R70 to R76, R83). -/
def Obligations.DecodeReadsEncoded : Prop :=
  ∀ (d32 : Bool) (i : Instr) (rest : List Byte), i.wf = true → decode d32 (encode d32 i ++ rest) = .ok (i, rest)

/-- Bytes written out from the encodings of R75: 32-bit code unless the name says 16. -/
def Obligations.WordsDecodeAsTheTableSays : Prop :=
  decode true [0xF7, 0xF3] = .ok (.divRmv .s32 (.reg .ebx), []) ∧
    decode true [0xF6, 0xFB] = .ok (.idivRm8 (.reg .ebx), []) ∧
    decode true [0xCC] = .ok (.int3, []) ∧
    decode true [0xCD, 0x30] = .ok (.intImm 0x30, []) ∧
    decode false [0x62, 0x07] = .ok (.bound .s16 .eax (.mem { ovr := none, ea := .a16 .bx .none }), []) ∧
    decode true [0xD9, 0xD0] = .ok (.esc 1 2 (.reg .eax), []) ∧
    decode true [0xEB, 0x10] = .ok (.jmpRel8 .s32 0x10, []) ∧
    decode true [0x66, 0x9A, 0x34, 0x12, 0x08, 0x00] = .ok (.callPtr (.i16 0x1234) 8, []) ∧
    decode false [0x0F, 0xB2, 0x26, 0x00, 0x30] = .ok (.lss .s16 .esp (.mem { ovr := none, ea := .direct16 0x3000 }), []) ∧
    decode true [0x0F, 0x00, 0xD0] = .ok (.lldt (.reg .eax), []) ∧
    decode true [0x0F, 0x22, 0xC0] = .ok (.movCrR .cr0 .eax, []) ∧
    decode false [0x3E, 0x8B, 0x46, 0x06] = .ok (.movRRm .s16 .eax (.mem { ovr := some .ds, ea := .a16 .bp (.d8 6) }), []) ∧
    decode true [0x8B, 0x84, 0x24, 0x00, 0x01, 0x00, 0x00] =
      .ok (.movRRm .s32 .eax (.mem { ovr := none, ea := .sib 0 .esp .esp (.d32 0x100) }), []) ∧
    decode false [0xC8, 0x00, 0x10, 0x00] = .ok (.enter .s16 0x1000 0, [])

/-- A step runs the instruction that the bytes at CS:EIP decode to: exec of it in the state with the offset of the next instruction set (open at the top of
the offset space, N12, log entry 15) and the hold-off that a load of SS set over (R112), then the step's debug traps, then the next input. The debug trap of a
task that the delivery of another debug trap has just entered comes before (`taskTrap`, O19). -/
def Obligations.StepRunsDecodedInstruction : Prop :=
  ∀ (s : State) (i : Instr) (bs rest : List Byte) (stop : Option Stop), s.shutdown = false → s.ready → s.debugIn.hasFault = false →
    (s.nmiPending && s.nmiFrame.isNone && !s.ssShadow) = false → (s.intr = none ∨ (s.flag flagIF && !s.ssShadow) = false) →
    s.taskTrap = false → s.segs.cs.checked = true →
    let q : State := { s.begin with ssShadow := false }
    fetchBytes q s.segs.cs.desc Config.maxInstrLen 0 = (bs, stop) → decode s.segs.cs.desc.big bs = .ok (i, rest) →
    step s = mapNext State.latch (andThen (exec i (q.setNext (offsetTop s.segs.cs.desc) (bs.length - rest.length))) (afterEvent s.begin))

/-- R73: fifteen bytes that are no whole instruction raise exception 13 with error code 0, a fault at the first of them; fifteen bytes 66 are such. -/
def Obligations.LengthLimitFaults : Prop :=
  (∀ (s : State) (bs : List Byte), s.segs.cs.checked = true → fetchBytes s.begin s.segs.cs.desc Config.maxInstrLen 0 = (bs, none) →
      decode s.segs.cs.desc.big bs = .error .more → stepInstr s.begin = reportFault s.begin (.generalProtection 0)) ∧
    ∀ d32 : Bool, decode d32 (List.replicate 15 0x66) = .error .more

/-- R201: states with PE = 0 are refused. -/
def Obligations.RealModeRefused : Prop :=
  (∀ s : State, s.shutdown = false → s.pe = false → step s = .refused .realMode) ∧
    ∀ (i : Instr) (s : State), s.pe = false → exec i s = .refused .realMode

/-- R200: no instruction runs with VM = 1. -/
def Obligations.V86Refused : Prop :=
  ∀ (i : Instr) (s : State), s.pe = true → s.flag flagVM = true → exec i s = .refused .v86Mode

/-! ## Exceptions -/

/-- R135, R179, R185: number, class, error code and double-fault class of every exception. That 7, 14 and 16 are faults and 8 and 9 aborts is decision D18,
that 0, 3, 4, 5, 7, 9 and 16 push no error code decision D22, both of them the spec's general knowledge (log entry 40). -/
def Obligations.ExceptionTable : Prop :=
  ∀ (e : Exc),
    (match e with
      | .divideError => (e.vector, e.excClass, e.errCode, e.dfClass) = (0, .fault, .none, .contributory)
      | .debug c => (e.vector, e.errCode, e.dfClass) = (1, .none, .benign) ∧
          (e.excClass = .fault ↔ c.instrBp ≠ 0 ∨ c.generalDetect = true) ∧ e.excClass ≠ .abort
      | .breakpoint => (e.vector, e.excClass, e.errCode, e.dfClass) = (3, .trap, .none, .benign)
      | .overflow => (e.vector, e.excClass, e.errCode, e.dfClass) = (4, .trap, .none, .benign)
      | .boundsCheck => (e.vector, e.excClass, e.errCode, e.dfClass) = (5, .fault, .none, .benign)
      | .invalidOpcode => (e.vector, e.excClass, e.errCode, e.dfClass) = (6, .fault, .none, .benign)
      | .coprocNotAvailable => (e.vector, e.excClass, e.errCode, e.dfClass) = (7, .fault, .none, .benign)
      | .doubleFault => (e.vector, e.excClass, e.errCode) = (8, .abort, .zero)
      | .coprocOverrun => (e.vector, e.excClass, e.errCode, e.dfClass) = (9, .abort, .none, .contributory)
      | .invalidTss ec => (e.vector, e.excClass, e.errCode, e.dfClass) = (10, .fault, .selector ec, .contributory)
      | .notPresent ec => (e.vector, e.excClass, e.errCode, e.dfClass) = (11, .fault, .selector ec, .contributory)
      | .stackFault ec => (e.vector, e.excClass, e.errCode, e.dfClass) = (12, .fault, .selector ec, .contributory)
      | .generalProtection ec => (e.vector, e.excClass, e.errCode, e.dfClass) = (13, .fault, .selector ec, .contributory)
      | .pageFault _ p w u => (e.vector, e.excClass, e.errCode, e.dfClass) = (14, .fault, .page p w u, .pageFault)
      | .coprocError => (e.vector, e.excClass, e.errCode, e.dfClass) = (16, .fault, .none, .benign))

/-- R186: what comes of a second exception raised while the handler of a first is invoked: by the classes of the two, the double fault, with error code
zero and an open CS:EIP to save, or the second exception in the place of the first. `old` is the state of the instruction that raised the first. That
"handled serially" means reporting the second in the registers of `old` (R184), unless a task switch has committed, is the spec's decision D23. Its error
code has EXT clear where the first event is INT n, INT 3 or INTO, and set where it is another (R181, general knowledge, log entry 40), in the layout of
R180 (D28); whether EXT is set in a code that is otherwise null is open (R180, log entry 23). -/
def Obligations.SecondExceptionOutcome : Prop :=
  (∀ (n : Nat) (old src t : State) (ev : Event) (e : Exc), ev ≠ .exc .doubleFault → invoke ev (src.attempt ev) = .error (.exc e) t →
    let u := (cutOff (old.recordEvent ev) t).record e
    let double : Prop := (ev.dfClass = .contributory ∧ e.dfClass = .contributory) ∨
      (ev.dfClass = .pageFault ∧ (e.dfClass = .contributory ∨ e.dfClass = .pageFault))
    let asked : Prop := (∃ v, ev = .soft v) ∨ ev = .exc .breakpoint ∨ ev = .exc .overflow
    let withExt : Word16 → Word16 := fun ec => if ec ≠ 0 then ec ||| 1 else if Config.freeBit u.freeCtr = true then 1 else 0
    (double → report (n + 1) old src ev = report n u u (.exc .doubleFault)) ∧
      (¬double → asked → report (n + 1) old src ev = report n u.drawn u.drawn (.exc e)) ∧
      (¬double → ¬asked → report (n + 1) old src ev = report n u.drawn u.drawn (.exc (match e with
        | .invalidTss ec => .invalidTss (withExt ec)
        | .notPresent ec => .notPresent (withExt ec)
        | .stackFault ec => .stackFault (withExt ec)
        | .generalProtection ec => .generalProtection (withExt ec)
        | _ => e)))) ∧
    Exc.doubleFault.vector = 8 ∧ Exc.doubleFault.errCode = .zero ∧ (Event.exc .doubleFault).delivering = .doubleFault ∧
    ∀ s : State, savedPc (.exc .doubleFault) s =
      .ok ((Config.freeWord s.freeCtr).setWidth 16, Config.freeWord (s.freeCtr + 1)) s.drawn.drawn

/-- R187: any exception while the double-fault handler is being invoked shuts the processor down. That no step is enabled then is the spec's decision
D24 (log entry 36). -/
def Obligations.DoubleFaultShutsDown : Prop :=
  (∀ (n : Nat) (old src t : State) (e : Exc), invoke (.exc .doubleFault) (src.attempt (.exc .doubleFault)) = .error (.exc e) t →
      ∃ u, report (n + 1) old src (.exc .doubleFault) = .next u ∧ u.shutdown = true) ∧
    ∀ s : State, s.shutdown = true → step s = .fault .shutdown

/-- R131 to R133, R188 to R191, R195, R196: any event whose handler passes its tests enters it - a fault, a debug trap, an abort, a trap instruction, an
NMI, an external interrupt. Through a trap or interrupt gate: the frame with EFLAGS and the CS:EIP the event saves (open for an abort, with the registers
log entry 13 lists), the error code nearest the top, the flags changed, and but for an abort every general register but ESP as it was; exception 10 may not
be handled so (R157, log entry 37). Through a task gate: the task switch, then the error code on the new task's stack. A fault is reported so from the
state of its instruction (`reportFault`), a debug trap from that after it, an interrupt from that at the boundary. Exception 1 adds to DR6 the bits of the
conditions reported, B0 to B3, BD, BS and BT, and every other event leaves DR6 as it was (R29, R139; that no bit is cleared is log entry 20, PRESUMED). That
the RPL of CS becomes the level, and that conforming code keeps the level and the stack, is log entry 31, and what the sizes and the flags' images are log
entry 32 (both PRESUMED). -/
def Obligations.EventEntersHandler : Prop :=
  ∀ (n : Nat) (old src : State) (ev : Event), src.flag flagVM = false →
    let b := (src.attempt ev).faced ev
    let pc := (src.attempt ev).eventPc ev
    let told : Word32 → Prop := fun dr6 => ∀ k, dr6.getLsbD k = match ev with
      | .exc (.debug c) => src.dbg.dr6.getLsbD k || c.instrBp.getLsbD k || c.dataBp.getLsbD k || (k == 13 && c.generalDetect) ||
          (k == 14 && c.singleStep) || (k == 15 && c.taskSwitch)
      | _ => src.dbg.dr6.getLsbD k
    (∀ h, b.handler ev.software ev.vector = some h → b.canEnter ev h pc = true →
        (∀ ec, ev = .exc (.invalidTss ec) → report (n + 1) old src ev = .refused .invalidTssNotTask) ∧
          ((∀ ec, ev ≠ .exc (.invalidTss ec)) → report (n + 1) old src ev = .next { (b.entered ev h pc).settle with stepKind := ev.kind }) ∧
          (∀ a, a ∉ b.entryTargets ev h pc → Memory.read (b.entered ev h pc).mem a = Memory.read src.mem a) ∧
          (ev.isAbort = false → ∀ r, r ≠ .esp → (b.entered ev h pc).gpr.get r = src.gpr.get r) ∧ (b.entered ev h pc).eip = h.off ∧
          told (b.entered ev h pc).dbg.dr6) ∧
      ∀ dpl sel t, b.idtEntry ev.vector = some (.taskGate true dpl sel) → ev.software = false ∨ b.cpl ≤ dpl →
        taskSwitch .int sel pc (b.noted ev (.task sel)) = .ok () t →
        let c := t.errCounted ev.errCode
        let l := errDrawn t.freeCtr ev.errCode
        c.canPushAll .s32 l = true →
        report (n + 1) old src ev = .next { (c.pushedAll .s32 l).settle with stepKind := if ev.kind = .plain then .switched else ev.kind } ∧
          told (c.pushedAll .s32 l).dbg.dr6

/-- R174, R173: a page fault's handler finds the linear address in CR2, and on top of its stack the error code, whose low bits tell whether the page was
present, whether the access was a write and whether it came from user level. `t` is the state in which the handler is entered; the value on top of the
stack begins at the first address of the last push. -/
def Obligations.PageFaultRecorded : Prop :=
  ∀ (s : State) (lin : Word32) (p w u : Bool) (h : Handler), s.flag flagVM = false → Memory.wf s.mem = true →
    let ev : Event := .exc (.pageFault lin p w u)
    let b := s.attempt ev
    let pc := (s.segs.cs.sel, s.eip)
    b.handler false 14 = some h → b.canEnter ev h pc = true →
    let t : State := { (b.entered ev h pc).settle with stepKind := .faulted }
    reportFault s (.pageFault lin p w u) = .next t ∧ t.cr2 = lin ∧
      ∃ a rest, (b.coding ev h pc).pushTargets h.size = a :: rest ∧
        (Memory.read t.mem a).getLsbD 0 = p ∧ (Memory.read t.mem a).getLsbD 1 = w ∧ (Memory.read t.mem a).getLsbD 2 = u

/-- R134, R132: a step that ended in a delivered fault reports no trap; one that completed with TF set reports the single-step trap, in the state as the
instruction left it. The state that a second exception falls back to, that before the instruction with its memory, is the reading D23 of R184 (log entry
22). A step that has left protected mode is refused (R201, R208). R138: the trap of a task whose TSS has its debug trap bit set, where the delivery of
another debug trap entered that task, is reported in the next step, before the new task's first instruction; that it takes a step of its own is log entry
20. -/
def Obligations.TrapsFollowCompletion : Prop :=
  (∀ s t : State, t.stepKind = .faulted → t.taskTrap = false → afterEvent s t = .next t) ∧
    (∀ s t : State, t.shutdown = false → t.stepKind = .plain → t.ssShadow = false → t.taskTrap = false → t.heldTraps = {} → s.debugIn = {} →
      s.flag flagTF = true →
      (t.pe = true → afterEvent s t = report reportFuel { s with heldTraps := {}, ssShadow := false } t (.exc (.debug { singleStep := true }))) ∧
        (t.pe = false → afterEvent s t = .refused .realMode)) ∧
    ∀ s : State, s.shutdown = false → s.pe = true → s.taskTrap = true →
      step s = mapNext State.latch (report reportFuel s s (.exc (.debug { taskSwitch := true })))

/-- R195, R196, R198, R112: at an instruction boundary with no debug fault, an NMI that is not held off before an external interrupt; neither right after
a load of SS. That order is the spec's general knowledge G16, and that a load of SS holds off NMI too is log entry 21 (PRESUMED): R112 names external
interrupts and debug traps. -/
def Obligations.InterruptsAtBoundary : Prop :=
  (∀ s : State, s.debugIn.hasFault = false → s.nmiPending = true → s.nmiFrame = none → s.ssShadow = false →
      let t : State := { s with nmiPending := false }
      stepEvent s = report reportFuel t t .nmi) ∧
    (∀ (s : State) (v : Byte), s.debugIn.hasFault = false → s.nmiPending = false ∨ s.nmiFrame ≠ none → s.intr = some v → s.flag flagIF = true →
      s.ssShadow = false →
      let t : State := { s with intr := none }
      stepEvent s = report reportFuel t t (.external v)) ∧
    ∀ s : State, s.debugIn.hasFault = false → s.ssShadow = true → s.flag flagVM = false → stepEvent s = stepInstr { s with ssShadow := false }

/-! ## Accesses -/

/-- R55: the segment stage through a checked segment register. Where SS fails the limit and the type test, which of the two is reported is open (D6). -/
def Obligations.SegmentStage : Prop :=
  ∀ (s : State) (seg : SegReg) (off : Word32) (n : Nat) (kind : Access), (s.segs.get seg).checked = true →
    let d := (s.segs.get seg).desc
    let null : Prop := seg ≠ .cs ∧ seg ≠ .ss ∧ isNull (s.segs.get seg).sel = true
    let outside : Prop := d.inLimit off n = false
    let forbidden : Prop :=
      (kind = .write ∧ ((∃ x, d.kind = .data false x) ∨ ∃ c r, d.kind = .code c r)) ∨ (kind = .read ∧ ∃ c, d.kind = .code c false)
    (null → segLin seg off n kind s = .error (.exc (.generalProtection 0)) s) ∧
      (¬null → outside → ¬forbidden →
        segLin seg off n kind s = .error (.exc (if seg = .ss then .stackFault 0 else .generalProtection 0)) s) ∧
      (¬null → ¬outside → forbidden → segLin seg off n kind s = .error (.exc (.generalProtection 0)) s) ∧
      (¬null → outside → forbidden →
        segLin seg off n kind s = .error (.exc (if Config.freeBit s.freeCtr = true ∧ seg = .ss then .stackFault 0 else .generalProtection 0)) s.drawn) ∧
      (¬null → ¬outside → ¬forbidden → segLin seg off n kind s = .ok (d.base + off) s)

/-- R54, R57, R58, R171: the page stage, where neither entry was stored to since CR3 was loaded, in the entries' layout and at the physical addresses of
log entry 8. The rights rule (user and writable bits in both entries, a supervisor access never refused) is log entry 41 and the test of the present bits
before the rights log entry 24, both PRESUMED: R57 leaves the rule open. The fault tells the level of CPL (R31, R172). A read of a byte that depends on
accessed and dirty bits is refused (U21). -/
def Obligations.PageStage : Prop :=
  ∀ (s : State) (write user : Bool) (lin : Word32),
    let gives : Nat → Prop := fun pa =>
      Machine.translate s write user lin = if write = false ∧ s.entryBits pa = true then .error (.refuse .accessedBits) else .ok pa
    (s.pg = false → gives lin.toNat) ∧
      ∀ pde pte : Word32, s.pg = true → pageEntry s (entryBase s.cr3 + 4 * (lin >>> 22).toNat) = .ok pde →
        pageEntry s (entryBase pde + 4 * ((lin >>> 12) &&& 0x3FF).toNat) = .ok pte →
        let denied : Prop := user = true ∧ (entryUser pde = false ∨ entryUser pte = false ∨
          (write = true ∧ (entryWritable pde = false ∨ entryWritable pte = false)))
        (entryPresent pde = false ∨ entryPresent pte = false →
            Machine.translate s write user lin = .error (.exc (.pageFault lin false write (s.cpl == 3)))) ∧
          (entryPresent pde = true → entryPresent pte = true → denied →
            Machine.translate s write user lin = .error (.exc (.pageFault lin true write (s.cpl == 3)))) ∧
          (entryPresent pde = true → entryPresent pte = true → ¬denied → gives (entryBase pte + (lin &&& 0xFFF).toNat))

/-- R50, R120: a push stores its value little-endian: byte `k` of it at the `k`-th address the push stores to. -/
def Obligations.PushStoresLittleEndian : Prop :=
  ∀ (s : State) (sz : OpSize) (v : Word32), Memory.wf s.mem = true → s.canPush sz = true →
    (s.pushTargets sz).length = sz.bytes ∧
      ∀ k (hk : k < (s.pushTargets sz).length), Memory.read (s.pushed sz v).mem (s.pushTargets sz)[k] = (v >>> (8 * k)).setWidth 8

/-! ## Task switches -/

/-- R153 row 1, R155, R168 item 11 and vector V14: a JMP or CALL to a TSS of the GDT, by its selector or through a task gate, that is busy, absent or too
short faults at the instruction with the TSS's selector; an absent task gate with the gate's. That the busy mark is tested before presence and presence
before the limit, so that an absent and short TSS raises 11, is log entry 24's order. -/
def Obligations.TssVerifiedFirst : Prop :=
  ∀ (s : State) (i : Instr) (sel : Word16), s.ready →
    (∃ off, i = .jmpPtr off sel ∨ i = .callPtr off sel) ∨
      (∃ sz m, (i = .jmpMem sz (.mem m) ∨ i = .callMem sz (.mem m)) ∧ s.begin.farReadable sz m = true ∧ sel = s.begin.farSel sz m) →
    isNull sel = false →
    (∀ (tsel : Word16) (busy present : Bool) (dpl : BitVec 2) (base limit : Word32), inLdt tsel = false →
      s.begin.descOf tsel = some (.tss busy present dpl base limit) →
      (tsel = sel ∧ s.cpl ≤ dpl ∧ rpl sel ≤ dpl) ∨ (∃ gdpl, s.begin.descOf sel = some (.taskGate true gdpl tsel) ∧ s.cpl ≤ gdpl ∧ rpl sel ≤ gdpl) →
      (busy = true → Faults i s (.generalProtection (selError tsel))) ∧
        (busy = false → present = false → Faults i s (.notPresent (selError tsel))) ∧
        (busy = false → present = true → limit.toNat < 103 → Faults i s (.invalidTss (selError tsel)))) ∧
      ∀ gdpl tsel, s.begin.descOf sel = some (.taskGate false gdpl tsel) → s.cpl ≤ gdpl → rpl sel ≤ gdpl → Faults i s (.notPresent (selError sel))

/-- R25, R153 to R156, R158, R160, R164, R176: a task switch. One that completes has TR at the new TSS, TS set and for a CALL or an interrupt NT; has
stored the old state in the old TSS, the busy marks and the backlink (`TaskSaved`); has its registers from the new TSS (`TaskLoaded`); and every selector of
it passed its check (`TaskChecked`). One that raises an exception does so with TR and every other register as they were, or with TR at the new TSS: then it
is a page fault, or the registers are loaded and it is the exception of a row of Table 9-5 that fails or of an absent segment (`TaskFails`), any of them
where several fail (D19). The layout of the TSS, which state is saved, NT, the busy marks, the null CS and SS, the order of the steps and that presence is
tested last are log entry 10 (PRESUMED), and that presence is log entry 24's order too (DESIGN CHOICE). -/
def Obligations.TaskSwitchCommits : Prop :=
  ∀ (cause : SwitchCause) (sel : Word16) (pc : Word16 × Word32) (s : State), s.switching = .idle →
    (∀ t, taskSwitch cause sel pc s = .ok () t →
      t.tr.sel = sel ∧ t.ts = true ∧ (cause.nests = true → t.flag flagNT = true) ∧ (Memory.wf s.mem = true → s.TaskSaved t cause sel pc) ∧
        s.TaskLoaded t cause.nests ∧ t.TaskChecked) ∧
      ∀ e t, taskSwitch cause sel pc s = .error (.exc e) t →
        (t.switching = .committed ∧ t.tr.sel = sel ∧ t.ts = true ∧
          (e.dfClass = .pageFault ∨ (s.TaskLoaded t cause.nests ∧ t.TaskFails e))) ∨
          (t.switching ≠ .committed ∧ t.tr = s.tr ∧ t.gpr = s.gpr ∧ t.segs = s.segs ∧ t.ldtr = s.ldtr ∧ t.eip = s.eip ∧ t.eflags = s.eflags ∧
            t.cr0 = s.cr0 ∧ t.cr2 = s.cr2 ∧ t.cr3 = s.cr3 ∧ t.dbg = s.dbg ∧ t.gdtr = s.gdtr ∧ t.idtr = s.idtr ∧ t.cpl = s.cpl)

/-! ## DIV, IDIV, INT, INTO, BOUND -/

/-- R90: DIV with a divisor that is not zero and a quotient that fits writes the quotient and the remainder; that the six arithmetic flags
are open is the general knowledge of R90 and U12 (log entry 39). -/
def Obligations.DivCompletes : Prop :=
  ∀ (s : State) (rm : RM), s.ready →
    (s.begin.rmReadable 1 rm = true →
      let n := dividend s.begin .b8
      let d := (s.begin.rmValue8 rm).toNat
      d ≠ 0 → n / d < 2 ^ 8 →
      Completes (.divRm8 rm) s (s.begin.setQuotRem .b8 (BitVec.ofNat 32 (n / d)) (BitVec.ofNat 32 (n % d))).flagsOpened.advance.settle []) ∧
      ∀ sz, s.begin.rmReadable sz.bytes rm = true →
        let n := dividend s.begin (divWidth sz)
        let d := (s.begin.rmValue sz rm).toNat
        d ≠ 0 → n / d < 2 ^ sz.bits →
        Completes (.divRmv sz rm) s
          (s.begin.setQuotRem (divWidth sz) (BitVec.ofNat 32 (n / d)) (BitVec.ofNat 32 (n % d))).flagsOpened.advance.settle []

/-- R91: IDIV with a divisor that is not zero and a quotient that fits writes the quotient, truncated toward zero, and the remainder; at a quotient of
exactly the most negative value either that or exception 0 is the outcome, which is open (D11). That the six arithmetic flags are open is the general
knowledge of R91 and U12 (log entry 39). -/
def Obligations.IdivCompletes : Prop :=
  ∀ (s : State) (i : Instr) (w : DivWidth) (rm : RM) (v : Word32), s.ready →
    (i = .idivRm8 rm ∧ w = .b8 ∧ s.begin.rmReadable 1 rm = true ∧ v = s.begin.rmValue8 rm) ∨
      (∃ sz, i = .idivRmv sz rm ∧ w = divWidth sz ∧ s.begin.rmReadable sz.bytes rm = true ∧ v = s.begin.rmValue sz rm) →
    let n := signed (2 * w.bits) (dividend s.begin w)
    let d := signed w.bits v.toNat
    let q := n.tdiv d
    let r := n.tmod d
    (d ≠ 0 → -(2 ^ (w.bits - 1)) < q → q < 2 ^ (w.bits - 1) →
        Completes i s (s.begin.setQuotRem w (BitVec.ofInt 32 q) (BitVec.ofInt 32 r)).flagsOpened.advance.settle []) ∧
      (d ≠ 0 → q = -(2 ^ (w.bits - 1)) →
        if Config.freeBit s.freeCtr = true then
          Completes i s (s.begin.drawn.setQuotRem w (BitVec.ofInt 32 q) (BitVec.ofInt 32 r)).flagsOpened.advance.settle []
        else exec i s = reportFault s.begin.drawn .divideError)

/-- R137: a zero divisor, whatever the dividend, raises exception 0, a fault; every register is as at the instruction. That a quotient outside its
register does so too (D11), and that there is no error code (D22), are the spec's own general knowledge (log entries 39 and 40). -/
def Obligations.DivideErrorFaults : Prop :=
  (∀ (s : State) (i : Instr) (w : DivWidth) (rm : RM) (v : Word32), s.ready →
      (i = .divRm8 rm ∧ w = .b8 ∧ s.begin.rmReadable 1 rm = true ∧ v = s.begin.rmValue8 rm) ∨
        (∃ sz, i = .divRmv sz rm ∧ w = divWidth sz ∧ s.begin.rmReadable sz.bytes rm = true ∧ v = s.begin.rmValue sz rm) →
      v.toNat = 0 ∨ 2 ^ w.bits ≤ dividend s.begin w / v.toNat → Faults i s .divideError) ∧
    (∀ (s : State) (i : Instr) (w : DivWidth) (rm : RM) (v : Word32), s.ready →
      (i = .idivRm8 rm ∧ w = .b8 ∧ s.begin.rmReadable 1 rm = true ∧ v = s.begin.rmValue8 rm) ∨
        (∃ sz, i = .idivRmv sz rm ∧ w = divWidth sz ∧ s.begin.rmReadable sz.bytes rm = true ∧ v = s.begin.rmValue sz rm) →
      let q := (signed (2 * w.bits) (dividend s.begin w)).tdiv (signed w.bits v.toNat)
      signed w.bits v.toNat = 0 ∨ 2 ^ (w.bits - 1) ≤ q ∨ q < -(2 ^ (w.bits - 1)) → Faults i s .divideError) ∧
    Exc.divideError.vector = 0 ∧ Exc.divideError.excClass = .fault ∧ Exc.divideError.errCode = .none

/-- R92, R93, R94, R140 to R142, R197: INT 3, INT n and, with OF set, INTO enter the handler of vector 3, n and 4 in the state as the instruction left
it, with EIP past it. That there is no error code (decision D22, log entry 40), and that the gate's DPL is checked against CPL (R197), is general knowledge;
the RPL of CS as the level, and conforming code, are log entry 31 (PRESUMED). -/
def Obligations.IntEntersHandler : Prop :=
  ∀ (s : State) (i : Instr) (ev : Event) (h : Handler), s.ready →
    (i = .int3 ∧ ev = .exc .breakpoint) ∨ (∃ n, i = .intImm n ∧ ev = .soft n) ∨ (i = .into ∧ s.flag flagOF = true ∧ ev = .exc .overflow) →
    ev.errCode = .none ∧
      let b := s.begin.advance.attempt ev
      let pc := (s.segs.cs.sel, s.nextEip)
      (b.handler true ev.vector = some h → b.canEnter ev h pc = true →
        Completes i s { (b.entered ev h pc).settle with stepKind := .plain } (b.entryTargets ev h pc))

/-- R161, R182, R197 and vector V3: the tests of INT 3, INT n and INTO on their IDT entry. The second exception carries the entry's number, the I-bit
and EXT = 0, and is reported at the instruction itself. -/
def Obligations.IntGateTests : Prop :=
  ∀ (s : State) (i : Instr) (ev : Event), s.ready →
    (i = .int3 ∧ ev = .exc .breakpoint) ∨ (∃ n, i = .intImm n ∧ ev = .soft n) ∨ (i = .into ∧ s.flag flagOF = true ∧ ev = .exc .overflow) →
    let u := s.begin.drawn
    let ec : Word16 := BitVec.ofNat 16 (8 * ev.vector.toNat + 2)
    (s.idtr.limit.toNat < 8 * ev.vector.toNat + 7 → exec i s = report 4 u u (.exc (.generalProtection ec))) ∧
      (∀ present dpl size trap sel off, s.begin.idtEntry ev.vector = some (.intGate present dpl size trap sel off) → dpl < s.cpl →
        exec i s = report 4 u u (.exc (.generalProtection ec))) ∧
      ∀ dpl size trap sel off, s.begin.idtEntry ev.vector = some (.intGate false dpl size trap sel off) → s.cpl ≤ dpl →
        exec i s = report 4 u u (.exc (.notPresent ec))

/-- R94: INTO with OF clear does nothing but go on. -/
def Obligations.IntoGoesOn : Prop := ∀ s : State, s.ready → s.flag flagOF = false → Completes .into s s.begin.advance.settle []

/-- R95, R144: BOUND passes an index between its signed limits, both included, and raises exception 5, a fault, on any other. That it pushes no
error code is the general knowledge of R144 and R179, decision D22 (log entry 40). -/
def Obligations.BoundChecksIndex : Prop :=
  ∀ (s : State) (sz : OpSize) (r : Reg) (m : MemOp), s.ready → s.begin.memReadable m 0 sz.bytes = true →
    s.begin.memReadable m (BitVec.ofNat 32 sz.bytes) sz.bytes = true →
    let idx := signedOf sz (s.begin.reg sz r)
    let lower := signedOf sz (s.begin.memLoaded m 0 sz.bytes)
    let upper := signedOf sz (s.begin.memLoaded m (BitVec.ofNat 32 sz.bytes) sz.bytes)
    (lower ≤ idx → idx ≤ upper → Completes (.bound sz r (.mem m)) s s.begin.advance.settle []) ∧
      (idx < lower ∨ upper < idx → Faults (.bound sz r (.mem m)) s .boundsCheck) ∧
      Exc.boundsCheck.vector = 5 ∧ Exc.boundsCheck.excClass = .fault ∧ Exc.boundsCheck.errCode = .none

/-! ## ESC and WAIT -/

/-- R100, R102: an ESC with EM and TS clear that no error pin stops, with a coprocessor attached, moves its operand if it has one and goes on. What the
coprocessor moves and puts in AX is the environment's answer (log entry 12). With none attached the ESC is refused (R208). With TS alone set an ESC either
raises exception 7 or goes on, which is open (D12, U18); shown of one with no memory operand. -/
def Obligations.EscCompletes : Prop :=
  (∀ (s : State) (op reg : BitVec 3) (rm : RM), s.ready → s.em = false → s.ts = false → (s.errorPin && Config.checksError op reg rm) = false →
    (s.coproc = .none → exec (.esc op reg rm) s = .refused .noCoprocessor) ∧
    (s.coproc ≠ .none →
    ((∃ r, rm = .reg r) ∨ s.npx.transfer = .none → Completes (.esc op reg rm) s s.begin.takeNpxAx.advance.settle []) ∧
      (∀ m n, rm = .mem m → s.npx.transfer = .load n →
        (∀ q ∈ portions (portion n) n (eaOffset s.begin m.ea) n, s.begin.readable (opSeg m) q.1 q.2 = true) →
        Completes (.esc op reg rm) s s.begin.takeNpxAx.advance.settle []) ∧
      ∀ m data, rm = .mem m → s.npx.transfer = .store data →
        let ps := dataPortions (portion data.length) data.length (eaOffset s.begin m.ea) data
        s.begin.canGive (opSeg m) ps = true →
        Completes (.esc op reg rm) s (s.begin.given (opSeg m) ps).takeNpxAx.advance.settle (s.begin.giveTargets (opSeg m) ps))) ∧
    ∀ (s : State) (op reg : BitVec 3) (r : Reg), s.ready → s.em = false → s.mp = false → s.ts = true → s.errorPin = false → s.coproc ≠ .none →
      exec (.esc op reg (.reg r)) s =
        if Config.freeBit s.freeCtr = true then .next s.begin.drawn.takeNpxAx.advance.settle
        else reportFault s.begin.drawn .coprocNotAvailable

/-- R148: when ESC and WAIT raise exception 7. That it is reported at the instruction, as a fault, is R149's general knowledge (decision D18, log entry
40). -/
def Obligations.CoprocessorNotAvailable : Prop :=
  (∀ (s : State) (op reg : BitVec 3) (rm : RM), s.ready → s.em = true ∨ (s.mp = true ∧ s.ts = true) →
      Faults (.esc op reg rm) s .coprocNotAvailable) ∧
    (∀ s : State, s.ready → s.mp = true → s.ts = true → Faults .wait s .coprocNotAvailable) ∧ Exc.coprocNotAvailable.vector = 7

/-- R178, R100, R101: with ERROR# asserted, an ESC that tests the pin, and WAIT with EM clear, raise exception 16. Which ESC instructions test it the
spec leaves open (log entry 2); a register form that does not goes on. That exception 16 is a fault (D18) with no error code (D22) is general knowledge of
R178 (log entry 40). -/
def Obligations.CoprocessorErrorFaults : Prop :=
  (∀ (s : State) (op reg : BitVec 3) (rm : RM), s.ready → s.em = false → s.ts = false → s.errorPin = true →
      (Config.checksError op reg rm = true → Faults (.esc op reg rm) s .coprocError) ∧
        ∀ r, rm = .reg r → s.coproc ≠ .none →
          exec (.esc op reg rm) s =
            if Config.checksError op reg rm = true then reportFault s.begin .coprocError else .next s.begin.takeNpxAx.advance.settle) ∧
    (∀ s : State, s.ready → s.mp = false ∨ s.ts = false → s.em = false → s.errorPin = true → Faults .wait s .coprocError) ∧
    Exc.coprocError.vector = 16 ∧ Exc.coprocError.excClass = .fault ∧ Exc.coprocError.errCode = .none

/-- R52, R100, R151, U13: an operand of three bytes or more moves in three portions or more; a violation in the first or the last is the ordinary
exception, in a middle one, exception 9. How wide the portions are is open (log entry 12). -/
def Obligations.EscPortionFaults : Prop :=
  (∀ (n : Nat) (off : Word32), 3 ≤ n → 3 ≤ (portions (portion n) n off n).length) ∧
    ∀ (s t : State) (op reg : BitVec 3) (m : MemOp) (e : Exc), s.ready →
      s.em = false → s.ts = false → (s.errorPin && Config.checksError op reg (.mem m)) = false → s.coproc ≠ .none →
      (∀ (n : Nat) (front rest : List (Word32 × Nat)) (q : Word32 × Nat), s.npx.transfer = .load n →
        portions (portion n) n (eaOffset s.begin m.ea) n = front ++ q :: rest →
        (∀ x ∈ front, s.begin.readable (opSeg m) x.1 x.2 = true) → memRead (opSeg m) q.1 q.2 s.begin = .error (.exc e) t →
        exec (.esc op reg (.mem m)) s = reportFault (cutOff s.begin t) (if front = [] ∨ rest = [] then e else .coprocOverrun)) ∧
      ∀ (data : List Byte) (front rest : List (Word32 × List Byte)) (q : Word32 × List Byte), s.npx.transfer = .store data →
        dataPortions (portion data.length) data.length (eaOffset s.begin m.ea) data = front ++ q :: rest →
        s.begin.canGive (opSeg m) front = true →
        memWrite (opSeg m) q.1 q.2.length (leValue q.2) (s.begin.given (opSeg m) front) = .error (.exc e) t →
        exec (.esc op reg (.mem m)) s = reportFault (cutOff s.begin t) (if front = [] ∨ rest = [] then e else .coprocOverrun)

/-- R101: a WAIT that neither test stops goes on; the wait itself returns at once (D12). -/
def Obligations.WaitCompletes : Prop :=
  ∀ s : State, s.ready → s.mp = false ∨ s.ts = false → s.em = true ∨ s.errorPin = false → Completes .wait s s.begin.advance.settle []

/-! ## Transfers of control -/

/-- R105, R76: a near JMP goes to its target, or, where that lies outside the limit of CS, raises exception 13 with error code 0. -/
def Obligations.JmpNearGoesToTarget : Prop :=
  ∀ (s : State) (i : Instr) (t : Word32), s.ready → s.segs.cs.checked = true →
    (∃ sz d, i = .jmpRel8 sz d ∧ t = sizeMask sz (s.nextEip + d.signExtend 32)) ∨ (∃ w, i = .jmpRelv (.i16 w) ∧ t = sizeMask .s16 (s.nextEip + w.signExtend 32)) ∨
      (∃ w, i = .jmpRelv (.i32 w) ∧ t = s.nextEip + w) ∨
      (∃ sz rm, i = .jmpRmv sz rm ∧ s.begin.rmReadable sz.bytes rm = true ∧ t = s.begin.rmValue sz rm) →
    (t.toNat ≤ s.segs.cs.desc.limit.toNat → Completes i s (s.begin.jump t).settle []) ∧
      (s.segs.cs.desc.limit.toNat < t.toNat → Faults i s (.generalProtection 0))

/-- R107: a near CALL pushes the EIP of the next instruction and goes to its target. -/
def Obligations.CallNearPushesAndGoes : Prop :=
  ∀ (s : State) (i : Instr) (sz : OpSize) (t : Word32), s.ready → s.segs.cs.checked = true →
    (∃ w, i = .callRelv (.i16 w) ∧ sz = .s16 ∧ t = sizeMask .s16 (s.nextEip + w.signExtend 32)) ∨
      (∃ w, i = .callRelv (.i32 w) ∧ sz = .s32 ∧ t = s.nextEip + w) ∨
      (∃ rm, i = .callRmv sz rm ∧ s.begin.rmReadable sz.bytes rm = true ∧ t = s.begin.rmValue sz rm) →
    (t.toNat ≤ s.segs.cs.desc.limit.toNat → s.begin.canPush sz = true →
        Completes i s ((s.begin.pushed sz s.nextEip).jump t).settle (s.begin.pushTargets sz)) ∧
      (s.segs.cs.desc.limit.toNat < t.toNat → Faults i s (.generalProtection 0))

/-- R106, R119: a far JMP to a code segment at the same level, named by its selector or by a call gate, loads CS and EIP. That the RPL of CS becomes the
level, the privilege the gate needs, and that the RPL of the selector in it is not tested, are log entry 31 (PRESUMED). -/
def Obligations.JmpFarSameLevel : Prop :=
  ∀ (s : State) (i : Instr) (sz z : OpSize) (sel x : Word16) (off o : Word32) (d : SegDesc), s.ready →
    (∃ p, i = .jmpPtr p sel ∧ sz = p.size ∧ off = immValue p) ∨
      (∃ m, i = .jmpMem sz (.mem m) ∧ s.begin.farReadable sz m = true ∧ off = s.begin.farOff sz m ∧ sel = s.begin.farSel sz m) →
    s.begin.FarSame sz sel off z x o d → Completes i s ((s.begin.sameCs x d).jump o).settle []

/-- R108, R119: a far CALL to a code segment at the same level, named by its selector or by a call gate, pushes CS and the EIP of the next instruction, then
loads CS and EIP. The upper half of the pushed selector is open at 32 bits. That the RPL of CS becomes the level, the privilege the gate needs, and that the
RPL of the selector in it is not tested, are log entry 31, and that a gate's size is the size of the pushes log entry 43 (both PRESUMED). -/
def Obligations.CallFarSameLevel : Prop :=
  ∀ (s : State) (i : Instr) (sz z : OpSize) (sel x : Word16) (off o : Word32) (d : SegDesc), s.ready →
    (∃ p, i = .callPtr p sel ∧ sz = p.size ∧ off = immValue p) ∨
      (∃ m, i = .callMem sz (.mem m) ∧ s.begin.farReadable sz m = true ∧ off = s.begin.farOff sz m ∧ sel = s.begin.farSel sz m) →
    s.begin.FarSame sz sel off z x o d →
    let c := s.begin.selCounted z
    let l := [selDrawn z s.freeCtr s.segs.cs.sel, s.nextEip]
    c.canPushAll z l = true → Completes i s (((c.pushedAll z l).sameCs x d).jump o).settle (c.pushAllTargets z l)

/-- R108, R165: a CALL through a call gate to more privileged code takes the stack of that level from the TSS and pushes on it the old SS and ESP, the
parameters, CS and EIP. A stack segment that is valid but absent, and an overflow of the new stack, raise exception 12 with that stack's selector, at the
CALL. The upper halves of the pushed selectors are open at 32 bits. That all is pushed and counted in the gate's size is log entry 43
(PRESUMED), that the RPL of the gate's own selector is not tested, and that of CS becomes the level, log entry 31 (PRESUMED). -/
def Obligations.InterlevelCall : Prop :=
  ∀ (s : State) (i : Instr) (sz : OpSize) (count : BitVec 5) (gdpl : BitVec 2) (sel gsel ss : Word16) (off esp : Word32) (d : SegDesc) (readable : Bool)
    (ps : List Word32), s.ready → s.segs.ss.checked = true →
    (∃ o, i = .callPtr o sel) ∨ (∃ z m, i = .callMem z (.mem m) ∧ s.begin.farReadable z m = true ∧ sel = s.begin.farSel z m) →
    isNull sel = false → s.begin.descOf sel = some (.callGate true gdpl sz count gsel off) → s.cpl ≤ gdpl → rpl sel ≤ gdpl →
    isNull gsel = false → s.begin.descOf gsel = some (.seg true d) → d.kind = .code false readable → d.dpl < s.cpl → off.toNat ≤ d.limit.toNat →
    s.begin.params sz count.toNat s.begin.sp = some ps → s.begin.tssStack d.dpl = some (ss, esp) →
    let c := s.begin.setCs { sel := withRpl gsel d.dpl, desc := d, checked := true }
    (∀ v, c.segLoad .ss ss = some v →
        let k := (c.withSeg .ss v).withSp esp
        let k' := (k.selCounted sz).selCounted sz
        let l := [selDrawn sz s.freeCtr s.segs.ss.sel, s.gpr.esp] ++ ps.reverse ++ [selDrawn sz (k.selCounted sz).freeCtr s.segs.cs.sel, s.nextEip]
        (k'.canPushAll sz l = true → Completes i s ((k'.pushedAll sz l).jump off).settle (k'.pushAllTargets sz l)) ∧
          (v.desc.inLimit (k'.pushAt sz) sz.bytes = false →
            exec i s = reportFault ((s.begin.selCounted sz).selCounted sz) (.stackFault (selError ss)))) ∧
      ∀ x e, isNull ss = false → c.descOf ss = some (.seg false x) → x.kind = .data true e → rpl ss = d.dpl → x.dpl = d.dpl →
        Faults i s (.stackFault (selError ss))

/-- R109: RETF pops EIP and CS; to an outer level it pops ESP and SS too and makes null the data segments that level may not keep. That the immediate
counts bytes of parameters, released from the one stack or from both, and that a 16-bit image of ESP is extended with zeros, is log entry 42 (PRESUMED), and that
a segment made null holds selector 0; which segments are made null is log entry 11. -/
def Obligations.RetfReturns : Prop :=
  ∀ (s : State) (i : Instr) (sz : OpSize) (release : Word32) (d : SegDesc), s.ready →
    (i = .retf sz ∧ release = 0) ∨ (∃ n : Word16, i = .retfImm sz n ∧ release = n.setWidth 32) →
    let b := s.begin
    let n : Word32 := BitVec.ofNat 32 sz.bytes
    let eip := b.onStack b.sp sz.bytes
    let sel : Word16 := (b.onStack (b.sp + n) sz.bytes).setWidth 16
    let top := b.sp + n + n + release
    b.canPop b.sp sz.bytes = true → b.canPop (b.sp + n) sz.bytes = true → b.returnSeg sel eip = some d →
    let cs : SegState := { sel := sel, desc := d, checked := true }
    (rpl sel = s.cpl → Completes i s (((b.withSp top).setCs cs).jump eip).settle []) ∧
      (rpl sel ≠ s.cpl → b.canPop top sz.bytes = true → b.canPop (top + n) sz.bytes = true →
        ∀ v, (b.setCs cs).segLoad .ss ((b.onStack (top + n) sz.bytes).setWidth 16) = some v →
        Completes i s
          ((((b.setCs cs).withSeg .ss v).withSp (b.onStack top sz.bytes + release)).nullOuter.jump eip).settle [])

/-- R109, R193: IRET outside a nested task and not from an abort's frame pops EIP, CS and the flags the level may change (log entry 11); to an outer level
ESP and SS too, a 16-bit image of ESP extended with zeros and the segments that are made null holding selector 0 (log entry 42). Where the frame is the NMI
handler's, NMI is no longer held off (R195). IRET in a nested task switches tasks (O25). -/
def Obligations.IretReturns : Prop :=
  ∀ (s : State) (sz : OpSize) (d : SegDesc), s.ready → s.flag flagNT = false → s.abortFrames.contains s.irets = false →
    let b := s.begin.endNmi s.irets
    let n : Word32 := BitVec.ofNat 32 sz.bytes
    let eip := b.onStack b.sp sz.bytes
    let sel : Word16 := (b.onStack (b.sp + n) sz.bytes).setWidth 16
    let flags := b.onStack (b.sp + n + n) sz.bytes
    let top := b.sp + n + n + n
    let restored := maskMerge (iretMask sz s.cpl s.iopl) s.eflags flags
    b.canPop b.sp sz.bytes = true → b.canPop (b.sp + n) sz.bytes = true → b.canPop (b.sp + n + n) sz.bytes = true →
    (sz = .s32 → s.cpl = 0 → flags.getLsbD flagVM = false) → b.returnSeg sel eip = some d →
    let cs : SegState := { sel := sel, desc := d, checked := true }
    (rpl sel = s.cpl →
        Completes (.iret sz) s (({ ((b.withSp top).setCs cs) with eflags := restored } : State).jump eip).settle []) ∧
      (rpl sel ≠ s.cpl → b.canPop top sz.bytes = true → b.canPop (top + n) sz.bytes = true →
        ∀ v, (b.setCs cs).segLoad .ss ((b.onStack (top + n) sz.bytes).setWidth 16) = some v →
        Completes (.iret sz) s
          (({ (((b.setCs cs).withSeg .ss v).withSp (b.onStack top sz.bytes)).nullOuter with eflags := restored } : State).jump eip).settle [])

/-! ## Segment and control registers -/

/-- R110: a load of a far pointer writes the segment register and the general register, both. -/
def Obligations.LoadFarPointerCompletes : Prop :=
  ∀ (s : State) (i : Instr) (seg : SegReg) (sz : OpSize) (r : Reg) (m : MemOp) (v : SegState), s.ready →
    (i = .lds sz r (.mem m) ∧ seg = .ds) ∨ (i = .les sz r (.mem m) ∧ seg = .es) ∨ (i = .lss sz r (.mem m) ∧ seg = .ss) ∨
      (i = .lfs sz r (.mem m) ∧ seg = .fs) ∨ (i = .lgs sz r (.mem m) ∧ seg = .gs) →
    s.begin.farReadable sz m = true → s.begin.segLoad seg (s.begin.farSel sz m) = some v →
    Completes i s ((s.begin.withSeg seg v).setReg sz r (s.begin.farOff sz m)).advance.settle []

/-- R111, R158, R180: LLDT at level 0 loads the LDT register; a selector outside the GDT or of another descriptor than an LDT raises exception 13, an
absent LDT exception 11, with the selector, at the instruction; at another level it raises exception 13 with error code 0, before the operand is read (log
entry 24). That every selector of the LDT raises exception 13, whatever descriptor it picks there, is log entry 31 (PRESUMED). -/
def Obligations.LldtLoads : Prop :=
  ∀ (s : State) (rm : RM), s.ready →
    (s.cpl = 0 → s.begin.rmReadable 2 rm = true →
        let sel : Word16 := (s.begin.rmValue .s16 rm).setWidth 16
        (∀ l, s.begin.ldtLoad sel = some l → Completes (.lldt rm) s ({ s.begin with ldtr := l } : State).advance.settle []) ∧
          (isNull sel = false →
            (inLdt sel = true ∨ descAddr s sel = none → Faults (.lldt rm) s (.generalProtection (selError sel))) ∧
              ∀ d, inLdt sel = false → s.begin.descOf sel = some d →
                ((∀ p x y, d ≠ .ldt p x y) → Faults (.lldt rm) s (.generalProtection (selError sel))) ∧
                  ∀ x y, d = .ldt false x y → Faults (.lldt rm) s (.notPresent (selError sel)))) ∧
      (s.cpl ≠ 0 → Faults (.lldt rm) s (.generalProtection 0))

/-- R112: a MOV to ES, SS, DS, FS or GS loads it; a load of SS holds interrupts and debug traps off until after the next instruction. -/
def Obligations.MovToSegmentCompletes : Prop :=
  ∀ (s : State) (sreg : BitVec 3) (seg : SegReg) (rm : RM) (v : SegState), s.ready → SegReg.ofBits sreg = some seg → seg ≠ .cs →
    s.begin.rmReadable 2 rm = true → s.begin.segLoad seg ((s.begin.rmValue .s16 rm).setWidth 16) = some v →
    Completes (.movSregRm sreg rm) s
      ({ s.begin.withSeg seg v with ssShadow := s.ssShadow || decide (seg = .ss) } : State).advance.settle []

/-- R118, R180: what a load of a segment register by MOV raises, test by test, the present bit last; the error code is the selector without its RPL. -/
def Obligations.SegmentLoadTests : Prop :=
  ∀ (s : State) (sreg : BitVec 3) (seg : SegReg) (rm : RM), s.ready → SegReg.ofBits sreg = some seg → seg ≠ .cs → s.begin.rmReadable 2 rm = true →
    let sel : Word16 := (s.begin.rmValue .s16 rm).setWidth 16
    let i : Instr := .movSregRm sreg rm
    (isNull sel = true → seg = .ss → Faults i s (.generalProtection 0)) ∧
      (isNull sel = true → seg ≠ .ss → s.begin.segLoad seg sel = some { sel := sel, desc := nullDesc, checked := true }) ∧
      (isNull sel = false → descAddr s sel = none → Faults i s (.generalProtection (selError sel))) ∧
      (∀ d, isNull sel = false → s.begin.descOf sel = some d → (∀ p x, d ≠ .seg p x) → Faults i s (.generalProtection (selError sel))) ∧
      ∀ p x, isNull sel = false → s.begin.descOf sel = some (.seg p x) →
        (seg = .ss →
            ((∃ c r, x.kind = .code c r) ∨ (∃ e, x.kind = .data false e) ∨ rpl sel ≠ s.cpl ∨ x.dpl ≠ s.cpl →
                Faults i s (.generalProtection (selError sel))) ∧
              ((∃ e, x.kind = .data true e) → rpl sel = s.cpl → x.dpl = s.cpl →
                (p = false → Faults i s (.stackFault (selError sel))) ∧
                  (p = true → s.begin.segLoad seg sel = some { sel := sel, desc := x, checked := true }))) ∧
          (seg ≠ .ss →
            ((∃ c, x.kind = .code c false) ∨ ((∀ r, x.kind ≠ .code true r) ∧ (x.dpl < s.cpl ∨ x.dpl < rpl sel)) →
                Faults i s (.generalProtection (selError sel))) ∧
              ((∀ c, x.kind ≠ .code c false) → (∃ r, x.kind = .code true r) ∨ (s.cpl ≤ x.dpl ∧ rpl sel ≤ x.dpl) →
                (p = false → Faults i s (.notPresent (selError sel))) ∧
                  (p = true → s.begin.segLoad seg sel = some { sel := sel, desc := x, checked := true })))

/-- R113: a MOV from a segment register stores its selector; the register numbers 6 and 7 raise exception 6. -/
def Obligations.MovFromSegmentCompletes : Prop :=
  ∀ (s : State) (sreg : BitVec 3) (rm : RM), s.ready →
    (∀ seg, SegReg.ofBits sreg = some seg → s.begin.rmWritable 2 rm = true →
      Completes (.movRmSreg rm sreg) s (s.begin.rmStored .s16 ((s.segs.get seg).sel.setWidth 32) rm).advance.settle (s.begin.rmTargets 2 rm)) ∧
      (SegReg.ofBits sreg = none ↔ sreg = 6 ∨ sreg = 7) ∧ (sreg = 6 ∨ sreg = 7 → Faults (.movRmSreg rm sreg) s .invalidOpcode)

/-- R114: a POP to a segment register loads it and moves the stack pointer; a load of SS holds interrupts and debug traps off. That the old SS says whether
SP or ESP moves is log entry 28 (PRESUMED). -/
def Obligations.PopSegmentCompletes : Prop :=
  ∀ (s : State) (i : Instr) (seg : SegReg) (sz : OpSize) (v : SegState), s.ready →
    (i = .popEs sz ∧ seg = .es) ∨ (i = .popSs sz ∧ seg = .ss) ∨ (i = .popDs sz ∧ seg = .ds) ∨ (i = .popFs sz ∧ seg = .fs) ∨
      (i = .popGs sz ∧ seg = .gs) →
    let b := s.begin
    b.canPop b.sp sz.bytes = true → b.segLoad seg ((b.onStack b.sp sz.bytes).setWidth 16) = some v →
    Completes i s
      ({ ((b.withSeg seg v).setReg b.stackOp .esp (b.sp + BitVec.ofNat 32 sz.bytes)).advance with
          ssShadow := s.ssShadow || decide (seg = .ss) } : State).settle []

/-- R115: a PUSH of a segment register stores its selector; at 32 bits the upper half of what is stored is open. -/
def Obligations.PushSegmentCompletes : Prop :=
  ∀ (s : State) (i : Instr) (seg : SegReg) (sz : OpSize), s.ready →
    (i = .pushEs sz ∧ seg = .es) ∨ (i = .pushCs sz ∧ seg = .cs) ∨ (i = .pushSs sz ∧ seg = .ss) ∨ (i = .pushDs sz ∧ seg = .ds) ∨
      (i = .pushFs sz ∧ seg = .fs) ∨ (i = .pushGs sz ∧ seg = .gs) →
    let c := s.begin.selCounted sz
    c.canPush sz = true → Completes i s (c.pushed sz (selDrawn sz s.freeCtr (s.segs.get seg).sel)).advance.settle (c.pushTargets sz)

/-- R117: MOV to a control register is privileged; CR0 may not be loaded with PG = 1 and PE = 0; else the register takes the value. That it
leaves the six arithmetic flags open is log entry 26 (PRESUMED): R117 says 'Flags: none' and gives the open flags as general knowledge. -/
def Obligations.MovToControlRegister : Prop :=
  ∀ (s : State) (cr : CtlReg) (r : Reg), s.ready →
    let v := s.gpr.get r
    let bad : Prop := cr = .cr0 ∧ v.getLsbD 31 = true ∧ v.getLsbD 0 = false
    (s.cpl ≠ 0 → Faults (.movCrR cr r) s (.generalProtection 0)) ∧
      (s.cpl = 0 → bad → Faults (.movCrR cr r) s (.generalProtection 0)) ∧
      (s.cpl = 0 → ¬bad → Completes (.movCrR cr r) s (s.begin.setCtl cr v).flagsOpened.advance.settle [])

/-- R116: MOV from a control register is privileged, and copies it. -/
def Obligations.MovFromControlRegister : Prop :=
  ∀ (s : State) (cr : CtlReg) (r : Reg), s.ready →
    (s.cpl = 0 → Completes (.movRCr r cr) s (s.begin.setGpr r (s.ctl cr)).advance.settle []) ∧
      (s.cpl ≠ 0 → Faults (.movRCr r cr) s (.generalProtection 0))

/-- R146, R147: an operand of a type the opcode does not allow raises exception 6, a fault with no error code, whatever the registers hold: the two
examples of the source, and the other operands that R78 adds from the spec's general knowledge (log entry 38). -/
def Obligations.InvalidOperandFaults : Prop :=
  (∀ (s : State) (i : Instr), s.ready →
      (∃ sz r, i = .jmpMem sz (.reg r)) ∨ (∃ sz r, i = .callMem sz (.reg r)) ∨ (∃ sz d r, i = .les sz d (.reg r)) ∨
        (∃ sz d r, i = .lds sz d (.reg r)) ∨ (∃ sz d r, i = .lss sz d (.reg r)) ∨ (∃ sz d r, i = .lfs sz d (.reg r)) ∨
        (∃ sz d r, i = .lgs sz d (.reg r)) ∨ (∃ sz d r, i = .bound sz d (.reg r)) ∨
        (∃ rm, i = .movSregRm 1 rm ∨ i = .movSregRm 6 rm ∨ i = .movSregRm 7 rm) ∨ (∃ rm, i = .movRmSreg rm 6 ∨ i = .movRmSreg rm 7) →
      Faults i s .invalidOpcode) ∧
    Exc.invalidOpcode.vector = 6 ∧ Exc.invalidOpcode.excClass = .fault ∧ Exc.invalidOpcode.errCode = .none

/-! ## The stack, and MOV -/

/-- R120: a PUSH of a register, an operand or an immediate stores the value it had before the stack pointer changed. -/
def Obligations.PushCompletes : Prop :=
  ∀ (s : State) (i : Instr) (sz : OpSize) (v : Word32), s.ready →
    (∃ r, i = .pushReg sz r ∧ v = s.reg sz r) ∨ (∃ rm, i = .pushRm sz rm ∧ s.begin.rmReadable sz.bytes rm = true ∧ v = s.begin.rmValue sz rm) ∨
      (∃ x : Byte, i = .pushImm8 sz x ∧ v = x.signExtend 32) ∨ (∃ w : Word16, i = .pushImmv (.i16 w) ∧ sz = .s16 ∧ v = w.setWidth 32) ∨
      (i = .pushImmv (.i32 v) ∧ sz = .s32) →
    s.begin.canPush sz = true → Completes i s (s.begin.pushed sz v).advance.settle (s.begin.pushTargets sz)

/-- R121: a POP to a register writes it after the stack pointer has moved; one to memory takes its address after that too. That 8F /0 with a register in
its r/m pops into that register, and what POP SP leaves in the upper half of ESP, is log entry 28 (PRESUMED). -/
def Obligations.PopCompletes : Prop :=
  ∀ (s : State) (sz : OpSize), s.ready →
    let b := s.begin
    let v := b.onStack b.sp sz.bytes
    let t := b.withSp (b.sp + BitVec.ofNat 32 sz.bytes)
    b.canPop b.sp sz.bytes = true →
    (∀ r, Completes (.popReg sz r) s (t.setReg sz r v).advance.settle []) ∧
      ∀ rm, t.rmWritable sz.bytes rm = true → Completes (.popRm sz rm) s (t.rmStored sz v rm).advance.settle (t.rmTargets sz.bytes rm)

/-- R122, R163: ENTER pushes BP, and from level 1 up the outer frame pointers and its own, and makes room for the locals where the final stack pointer
lies in the stack segment (D14); where it does not, exception 12 with error code 0 is reported with every register as it was, and each word pushed may or may
not have been written (D2, test vector V13). The widths of BP and SP, the upper half of EBP in a 32-bit push on a 16-bit stack, and the zeros above a 16-bit
frame pointer pushed as 32 bits, are log entry 25 (PRESUMED). -/
def Obligations.EnterCompletes : Prop :=
  ∀ (s : State) (sz : OpSize) (size : Word16) (level : Byte), s.ready →
    let b := s.begin
    let k := level.toNat % 32
    let bp := b.reg b.stackOp .ebp
    let t := b.pushed sz (b.reg sz .ebp)
    let u := t.nested sz k bp t.sp
    let top := b.stackAt (u.sp - size.setWidth 32)
    b.canPush sz = true → t.canNest sz k bp = true →
    (b.segs.ss.desc.inLimit top 1 = true →
        Completes (.enter sz size level) s ((u.setReg b.stackOp .ebp t.sp).setReg b.stackOp .esp top).advance.settle
          (b.pushTargets sz ++ t.nestTargets sz k bp)) ∧
      (b.segs.ss.desc.inLimit top 1 = false →
        exec (.enter sz size level) s = reportFault (cutOff b u) (.stackFault 0) ∧
          (cutOff b u).gpr = s.gpr ∧ (cutOff b u).segs = s.segs ∧ (cutOff b u).eip = s.eip ∧ (cutOff b u).eflags = s.eflags)

/-- R123: LEAVE reads the saved BP and releases the frame. That BP is written at the operand size, and read and added to at the stack's, is log entry 25
(PRESUMED). -/
def Obligations.LeaveCompletes : Prop :=
  ∀ (s : State) (sz : OpSize), s.ready →
    let b := s.begin
    let bp := b.reg b.stackOp .ebp
    b.canPop bp sz.bytes = true →
    Completes (.leave sz) s
      ((b.setReg b.stackOp .esp (bp + BitVec.ofNat 32 sz.bytes)).setReg sz .ebp (b.onStack bp sz.bytes)).advance.settle []

/-- R124: MOV to a register from a register or memory operand; a limit violation raises exception 12 with error code 0 through SS, and exception 13
with error code 0 through another segment register. -/
def Obligations.MovRegisterCompletes : Prop :=
  ∀ (s : State) (sz : OpSize) (r : Reg) (rm : RM), s.ready →
    (s.begin.rmReadable sz.bytes rm = true → Completes (.movRRm sz r rm) s (s.begin.setReg sz r (s.begin.rmValue sz rm)).advance.settle []) ∧
      ∀ m, rm = .mem m → (s.segs.get (opSeg m)).checked = true → (s.segs.get (opSeg m)).desc.allows .read = true →
        (s.segs.get (opSeg m)).desc.inLimit (eaOffset s.begin m.ea) sz.bytes = false →
        Faults (.movRRm sz r rm) s (if opSeg m = .ss then .stackFault 0 else .generalProtection 0)

/-- R163, R165, R120, R121, R123, R124: a limit violation on the stack by PUSH, POP, LEAVE or a MOV through SS raises exception 12 with error code 0, a
fault with every register as it was. -/
def Obligations.StackLimitFaults : Prop :=
  ∀ (s : State) (sz : OpSize) (r : Reg), s.ready → s.segs.ss.checked = true →
    let b := s.begin
    let d := s.segs.ss.desc
    (d.allows .write = true → d.inLimit (b.pushAt sz) sz.bytes = false → Faults (.pushReg sz r) s (.stackFault 0)) ∧
      (d.allows .read = true → d.inLimit (b.stackAt b.sp) sz.bytes = false → Faults (.popReg sz r) s (.stackFault 0)) ∧
      (d.allows .read = true → d.inLimit (b.stackAt (b.reg b.stackOp .ebp)) sz.bytes = false → Faults (.leave sz) s (.stackFault 0)) ∧
      ∀ m, opSeg m = .ss → d.allows .read = true → d.inLimit (eaOffset b m.ea) sz.bytes = false →
        Faults (.movRRm sz r (.mem m)) s (.stackFault 0)

end
end

