-- ==== Sys2Proof/Laws/State.lean ====
section
/-! SUPPORT. One lemma for each field of the state under each named update. -/

namespace Sys2Proof.Machine

/-! ## `State.begin` -/

@[simp] theorem State.begin_gpr (s : State) : s.begin.gpr = s.gpr := rfl
@[simp] theorem State.begin_eip (s : State) : s.begin.eip = s.eip := rfl
@[simp] theorem State.begin_nextEip (s : State) : s.begin.nextEip = s.nextEip := rfl
@[simp] theorem State.begin_eflags (s : State) : s.begin.eflags = s.eflags := rfl
@[simp] theorem State.begin_cpl (s : State) : s.begin.cpl = s.cpl := rfl
@[simp] theorem State.begin_segs (s : State) : s.begin.segs = s.segs := rfl
@[simp] theorem State.begin_cr0 (s : State) : s.begin.cr0 = s.cr0 := rfl
@[simp] theorem State.begin_cr2 (s : State) : s.begin.cr2 = s.cr2 := rfl
@[simp] theorem State.begin_cr3 (s : State) : s.begin.cr3 = s.cr3 := rfl
@[simp] theorem State.begin_dbg (s : State) : s.begin.dbg = s.dbg := rfl
@[simp] theorem State.begin_gdtr (s : State) : s.begin.gdtr = s.gdtr := rfl
@[simp] theorem State.begin_idtr (s : State) : s.begin.idtr = s.idtr := rfl
@[simp] theorem State.begin_ldtr (s : State) : s.begin.ldtr = s.ldtr := rfl
@[simp] theorem State.begin_tr (s : State) : s.begin.tr = s.tr := rfl
@[simp] theorem State.begin_mem (s : State) : s.begin.mem = s.mem := rfl
@[simp] theorem State.begin_delivering (s : State) : s.begin.delivering = none := rfl
@[simp] theorem State.begin_shutdown (s : State) : s.begin.shutdown = s.shutdown := rfl
@[simp] theorem State.begin_nmiPending (s : State) : s.begin.nmiPending = s.nmiPending := rfl
@[simp] theorem State.begin_nmiFrame (s : State) : s.begin.nmiFrame = s.nmiFrame := rfl
@[simp] theorem State.begin_intr (s : State) : s.begin.intr = s.intr := rfl
@[simp] theorem State.begin_errorPin (s : State) : s.begin.errorPin = s.errorPin := rfl
@[simp] theorem State.begin_coproc (s : State) : s.begin.coproc = s.coproc := rfl
@[simp] theorem State.begin_npx (s : State) : s.begin.npx = s.npx := rfl
@[simp] theorem State.begin_debugIn (s : State) : s.begin.debugIn = s.debugIn := rfl
@[simp] theorem State.begin_heldTraps (s : State) : s.begin.heldTraps = s.heldTraps := rfl
@[simp] theorem State.begin_inputs (s : State) : s.begin.inputs = s.inputs := rfl
@[simp] theorem State.begin_ssShadow (s : State) : s.begin.ssShadow = s.ssShadow := rfl
@[simp] theorem State.begin_taskTrap (s : State) : s.begin.taskTrap = false := rfl
@[simp] theorem State.begin_switching (s : State) : s.begin.switching = .idle := rfl
@[simp] theorem State.begin_stepKind (s : State) : s.begin.stepKind = .plain := rfl
@[simp] theorem State.begin_abortFrames (s : State) : s.begin.abortFrames = s.abortFrames := rfl
@[simp] theorem State.begin_journal (s : State) : s.begin.journal = [] := rfl
@[simp] theorem State.begin_codeStores (s : State) : s.begin.codeStores = s.codeStores := rfl
@[simp] theorem State.begin_paged (s : State) : s.begin.paged = s.paged := rfl
@[simp] theorem State.begin_ptStores (s : State) : s.begin.ptStores = s.ptStores := rfl
@[simp] theorem State.begin_entryDoubts (s : State) : s.begin.entryDoubts = s.entryDoubts := rfl
@[simp] theorem State.begin_freeCtr (s : State) : s.begin.freeCtr = s.freeCtr := rfl

/-! ## `State.settle` -/

@[simp] theorem State.settle_gpr (s : State) : s.settle.gpr = s.gpr := rfl
@[simp] theorem State.settle_eip (s : State) : s.settle.eip = s.eip := rfl
@[simp] theorem State.settle_nextEip (s : State) : s.settle.nextEip = s.nextEip := rfl
@[simp] theorem State.settle_eflags (s : State) : s.settle.eflags = s.eflags := rfl
@[simp] theorem State.settle_cpl (s : State) : s.settle.cpl = s.cpl := rfl
@[simp] theorem State.settle_segs (s : State) : s.settle.segs = s.segs := rfl
@[simp] theorem State.settle_cr0 (s : State) : s.settle.cr0 = s.cr0 := rfl
@[simp] theorem State.settle_cr2 (s : State) : s.settle.cr2 = s.cr2 := rfl
@[simp] theorem State.settle_cr3 (s : State) : s.settle.cr3 = s.cr3 := rfl
@[simp] theorem State.settle_dbg (s : State) : s.settle.dbg = s.dbg := rfl
@[simp] theorem State.settle_gdtr (s : State) : s.settle.gdtr = s.gdtr := rfl
@[simp] theorem State.settle_idtr (s : State) : s.settle.idtr = s.idtr := rfl
@[simp] theorem State.settle_ldtr (s : State) : s.settle.ldtr = s.ldtr := rfl
@[simp] theorem State.settle_tr (s : State) : s.settle.tr = s.tr := rfl
@[simp] theorem State.settle_mem (s : State) : s.settle.mem = s.mem := rfl
@[simp] theorem State.settle_delivering (s : State) : s.settle.delivering = none := rfl
@[simp] theorem State.settle_shutdown (s : State) : s.settle.shutdown = s.shutdown := rfl
@[simp] theorem State.settle_nmiPending (s : State) : s.settle.nmiPending = s.nmiPending := rfl
@[simp] theorem State.settle_nmiFrame (s : State) : s.settle.nmiFrame = s.nmiFrame := rfl
@[simp] theorem State.settle_intr (s : State) : s.settle.intr = s.intr := rfl
@[simp] theorem State.settle_errorPin (s : State) : s.settle.errorPin = s.errorPin := rfl
@[simp] theorem State.settle_coproc (s : State) : s.settle.coproc = s.coproc := rfl
@[simp] theorem State.settle_npx (s : State) : s.settle.npx = s.npx := rfl
@[simp] theorem State.settle_debugIn (s : State) : s.settle.debugIn = s.debugIn := rfl
@[simp] theorem State.settle_heldTraps (s : State) : s.settle.heldTraps = s.heldTraps := rfl
@[simp] theorem State.settle_inputs (s : State) : s.settle.inputs = s.inputs := rfl
@[simp] theorem State.settle_ssShadow (s : State) : s.settle.ssShadow = s.ssShadow := rfl
@[simp] theorem State.settle_taskTrap (s : State) : s.settle.taskTrap = s.taskTrap := rfl
@[simp] theorem State.settle_switching (s : State) : s.settle.switching = .idle := rfl
@[simp] theorem State.settle_stepKind (s : State) : s.settle.stepKind = s.stepKind := rfl
@[simp] theorem State.settle_abortFrames (s : State) : s.settle.abortFrames = s.abortFrames := rfl
@[simp] theorem State.settle_journal (s : State) : s.settle.journal = [] := rfl
@[simp] theorem State.settle_codeStores (s : State) : s.settle.codeStores = s.codeStores := rfl
@[simp] theorem State.settle_paged (s : State) : s.settle.paged = s.paged := rfl
@[simp] theorem State.settle_ptStores (s : State) : s.settle.ptStores = s.ptStores := rfl
@[simp] theorem State.settle_entryDoubts (s : State) : s.settle.entryDoubts = s.entryDoubts := rfl
@[simp] theorem State.settle_freeCtr (s : State) : s.settle.freeCtr = s.freeCtr := rfl

/-! ## `State.advance` -/

@[simp] theorem State.advance_gpr (s : State) : s.advance.gpr = s.gpr := rfl
@[simp] theorem State.advance_eip (s : State) : s.advance.eip = s.nextEip := rfl
@[simp] theorem State.advance_nextEip (s : State) : s.advance.nextEip = s.nextEip := rfl
@[simp] theorem State.advance_eflags (s : State) : s.advance.eflags = s.eflags := rfl
@[simp] theorem State.advance_cpl (s : State) : s.advance.cpl = s.cpl := rfl
@[simp] theorem State.advance_segs (s : State) : s.advance.segs = s.segs := rfl
@[simp] theorem State.advance_cr0 (s : State) : s.advance.cr0 = s.cr0 := rfl
@[simp] theorem State.advance_cr2 (s : State) : s.advance.cr2 = s.cr2 := rfl
@[simp] theorem State.advance_cr3 (s : State) : s.advance.cr3 = s.cr3 := rfl
@[simp] theorem State.advance_dbg (s : State) : s.advance.dbg = s.dbg := rfl
@[simp] theorem State.advance_gdtr (s : State) : s.advance.gdtr = s.gdtr := rfl
@[simp] theorem State.advance_idtr (s : State) : s.advance.idtr = s.idtr := rfl
@[simp] theorem State.advance_ldtr (s : State) : s.advance.ldtr = s.ldtr := rfl
@[simp] theorem State.advance_tr (s : State) : s.advance.tr = s.tr := rfl
@[simp] theorem State.advance_mem (s : State) : s.advance.mem = s.mem := rfl
@[simp] theorem State.advance_delivering (s : State) : s.advance.delivering = s.delivering := rfl
@[simp] theorem State.advance_shutdown (s : State) : s.advance.shutdown = s.shutdown := rfl
@[simp] theorem State.advance_nmiPending (s : State) : s.advance.nmiPending = s.nmiPending := rfl
@[simp] theorem State.advance_nmiFrame (s : State) : s.advance.nmiFrame = s.nmiFrame := rfl
@[simp] theorem State.advance_intr (s : State) : s.advance.intr = s.intr := rfl
@[simp] theorem State.advance_errorPin (s : State) : s.advance.errorPin = s.errorPin := rfl
@[simp] theorem State.advance_coproc (s : State) : s.advance.coproc = s.coproc := rfl
@[simp] theorem State.advance_npx (s : State) : s.advance.npx = s.npx := rfl
@[simp] theorem State.advance_debugIn (s : State) : s.advance.debugIn = s.debugIn := rfl
@[simp] theorem State.advance_heldTraps (s : State) : s.advance.heldTraps = s.heldTraps := rfl
@[simp] theorem State.advance_inputs (s : State) : s.advance.inputs = s.inputs := rfl
@[simp] theorem State.advance_ssShadow (s : State) : s.advance.ssShadow = s.ssShadow := rfl
@[simp] theorem State.advance_taskTrap (s : State) : s.advance.taskTrap = s.taskTrap := rfl
@[simp] theorem State.advance_switching (s : State) : s.advance.switching = s.switching := rfl
@[simp] theorem State.advance_stepKind (s : State) : s.advance.stepKind = s.stepKind := rfl
@[simp] theorem State.advance_abortFrames (s : State) : s.advance.abortFrames = s.abortFrames := rfl
@[simp] theorem State.advance_journal (s : State) : s.advance.journal = s.journal := rfl
@[simp] theorem State.advance_codeStores (s : State) : s.advance.codeStores = s.codeStores := rfl
@[simp] theorem State.advance_paged (s : State) : s.advance.paged = s.paged := rfl
@[simp] theorem State.advance_ptStores (s : State) : s.advance.ptStores = s.ptStores := rfl
@[simp] theorem State.advance_entryDoubts (s : State) : s.advance.entryDoubts = s.entryDoubts := rfl
@[simp] theorem State.advance_freeCtr (s : State) : s.advance.freeCtr = s.freeCtr := rfl

/-! ## `State.jump` -/

@[simp] theorem State.jump_gpr (s : State) (t : Word32) : (s.jump t).gpr = s.gpr := rfl
@[simp] theorem State.jump_eip (s : State) (t : Word32) : (s.jump t).eip = t := rfl
@[simp] theorem State.jump_nextEip (s : State) (t : Word32) : (s.jump t).nextEip = s.nextEip := rfl
@[simp] theorem State.jump_eflags (s : State) (t : Word32) : (s.jump t).eflags = s.eflags := rfl
@[simp] theorem State.jump_cpl (s : State) (t : Word32) : (s.jump t).cpl = s.cpl := rfl
@[simp] theorem State.jump_segs (s : State) (t : Word32) : (s.jump t).segs = s.segs := rfl
@[simp] theorem State.jump_cr0 (s : State) (t : Word32) : (s.jump t).cr0 = s.cr0 := rfl
@[simp] theorem State.jump_cr2 (s : State) (t : Word32) : (s.jump t).cr2 = s.cr2 := rfl
@[simp] theorem State.jump_cr3 (s : State) (t : Word32) : (s.jump t).cr3 = s.cr3 := rfl
@[simp] theorem State.jump_dbg (s : State) (t : Word32) : (s.jump t).dbg = s.dbg := rfl
@[simp] theorem State.jump_gdtr (s : State) (t : Word32) : (s.jump t).gdtr = s.gdtr := rfl
@[simp] theorem State.jump_idtr (s : State) (t : Word32) : (s.jump t).idtr = s.idtr := rfl
@[simp] theorem State.jump_ldtr (s : State) (t : Word32) : (s.jump t).ldtr = s.ldtr := rfl
@[simp] theorem State.jump_tr (s : State) (t : Word32) : (s.jump t).tr = s.tr := rfl
@[simp] theorem State.jump_mem (s : State) (t : Word32) : (s.jump t).mem = s.mem := rfl
@[simp] theorem State.jump_delivering (s : State) (t : Word32) : (s.jump t).delivering = s.delivering := rfl
@[simp] theorem State.jump_shutdown (s : State) (t : Word32) : (s.jump t).shutdown = s.shutdown := rfl
@[simp] theorem State.jump_nmiPending (s : State) (t : Word32) : (s.jump t).nmiPending = s.nmiPending := rfl
@[simp] theorem State.jump_nmiFrame (s : State) (t : Word32) : (s.jump t).nmiFrame = s.nmiFrame := rfl
@[simp] theorem State.jump_intr (s : State) (t : Word32) : (s.jump t).intr = s.intr := rfl
@[simp] theorem State.jump_errorPin (s : State) (t : Word32) : (s.jump t).errorPin = s.errorPin := rfl
@[simp] theorem State.jump_coproc (s : State) (t : Word32) : (s.jump t).coproc = s.coproc := rfl
@[simp] theorem State.jump_npx (s : State) (t : Word32) : (s.jump t).npx = s.npx := rfl
@[simp] theorem State.jump_debugIn (s : State) (t : Word32) : (s.jump t).debugIn = s.debugIn := rfl
@[simp] theorem State.jump_heldTraps (s : State) (t : Word32) : (s.jump t).heldTraps = s.heldTraps := rfl
@[simp] theorem State.jump_inputs (s : State) (t : Word32) : (s.jump t).inputs = s.inputs := rfl
@[simp] theorem State.jump_ssShadow (s : State) (t : Word32) : (s.jump t).ssShadow = s.ssShadow := rfl
@[simp] theorem State.jump_taskTrap (s : State) (t : Word32) : (s.jump t).taskTrap = s.taskTrap := rfl
@[simp] theorem State.jump_switching (s : State) (t : Word32) : (s.jump t).switching = s.switching := rfl
@[simp] theorem State.jump_stepKind (s : State) (t : Word32) : (s.jump t).stepKind = s.stepKind := rfl
@[simp] theorem State.jump_abortFrames (s : State) (t : Word32) : (s.jump t).abortFrames = s.abortFrames := rfl
@[simp] theorem State.jump_journal (s : State) (t : Word32) : (s.jump t).journal = s.journal := rfl
@[simp] theorem State.jump_codeStores (s : State) (t : Word32) : (s.jump t).codeStores = [] := rfl
@[simp] theorem State.jump_paged (s : State) (t : Word32) : (s.jump t).paged = s.paged := rfl
@[simp] theorem State.jump_ptStores (s : State) (t : Word32) : (s.jump t).ptStores = s.ptStores := rfl
@[simp] theorem State.jump_entryDoubts (s : State) (t : Word32) : (s.jump t).entryDoubts = s.entryDoubts := rfl
@[simp] theorem State.jump_freeCtr (s : State) (t : Word32) : (s.jump t).freeCtr = s.freeCtr := rfl

/-! ## `State.setCs` -/

@[simp] theorem State.setCs_gpr (s : State) (v : SegState) : (s.setCs v).gpr = s.gpr := rfl
@[simp] theorem State.setCs_eip (s : State) (v : SegState) : (s.setCs v).eip = s.eip := rfl
@[simp] theorem State.setCs_nextEip (s : State) (v : SegState) : (s.setCs v).nextEip = s.nextEip := rfl
@[simp] theorem State.setCs_eflags (s : State) (v : SegState) : (s.setCs v).eflags = s.eflags := rfl
@[simp] theorem State.setCs_cpl (s : State) (v : SegState) : (s.setCs v).cpl = rpl v.sel := rfl
@[simp] theorem State.setCs_segs (s : State) (v : SegState) : (s.setCs v).segs = { s.segs with cs := v } := rfl
@[simp] theorem State.setCs_cr0 (s : State) (v : SegState) : (s.setCs v).cr0 = s.cr0 := rfl
@[simp] theorem State.setCs_cr2 (s : State) (v : SegState) : (s.setCs v).cr2 = s.cr2 := rfl
@[simp] theorem State.setCs_cr3 (s : State) (v : SegState) : (s.setCs v).cr3 = s.cr3 := rfl
@[simp] theorem State.setCs_dbg (s : State) (v : SegState) : (s.setCs v).dbg = s.dbg := rfl
@[simp] theorem State.setCs_gdtr (s : State) (v : SegState) : (s.setCs v).gdtr = s.gdtr := rfl
@[simp] theorem State.setCs_idtr (s : State) (v : SegState) : (s.setCs v).idtr = s.idtr := rfl
@[simp] theorem State.setCs_ldtr (s : State) (v : SegState) : (s.setCs v).ldtr = s.ldtr := rfl
@[simp] theorem State.setCs_tr (s : State) (v : SegState) : (s.setCs v).tr = s.tr := rfl
@[simp] theorem State.setCs_mem (s : State) (v : SegState) : (s.setCs v).mem = s.mem := rfl
@[simp] theorem State.setCs_delivering (s : State) (v : SegState) : (s.setCs v).delivering = s.delivering := rfl
@[simp] theorem State.setCs_shutdown (s : State) (v : SegState) : (s.setCs v).shutdown = s.shutdown := rfl
@[simp] theorem State.setCs_nmiPending (s : State) (v : SegState) : (s.setCs v).nmiPending = s.nmiPending := rfl
@[simp] theorem State.setCs_nmiFrame (s : State) (v : SegState) : (s.setCs v).nmiFrame = s.nmiFrame := rfl
@[simp] theorem State.setCs_intr (s : State) (v : SegState) : (s.setCs v).intr = s.intr := rfl
@[simp] theorem State.setCs_errorPin (s : State) (v : SegState) : (s.setCs v).errorPin = s.errorPin := rfl
@[simp] theorem State.setCs_coproc (s : State) (v : SegState) : (s.setCs v).coproc = s.coproc := rfl
@[simp] theorem State.setCs_npx (s : State) (v : SegState) : (s.setCs v).npx = s.npx := rfl
@[simp] theorem State.setCs_debugIn (s : State) (v : SegState) : (s.setCs v).debugIn = s.debugIn := rfl
@[simp] theorem State.setCs_heldTraps (s : State) (v : SegState) : (s.setCs v).heldTraps = s.heldTraps := rfl
@[simp] theorem State.setCs_inputs (s : State) (v : SegState) : (s.setCs v).inputs = s.inputs := rfl
@[simp] theorem State.setCs_ssShadow (s : State) (v : SegState) : (s.setCs v).ssShadow = s.ssShadow := rfl
@[simp] theorem State.setCs_taskTrap (s : State) (v : SegState) : (s.setCs v).taskTrap = s.taskTrap := rfl
@[simp] theorem State.setCs_switching (s : State) (v : SegState) : (s.setCs v).switching = s.switching := rfl
@[simp] theorem State.setCs_stepKind (s : State) (v : SegState) : (s.setCs v).stepKind = s.stepKind := rfl
@[simp] theorem State.setCs_abortFrames (s : State) (v : SegState) : (s.setCs v).abortFrames = s.abortFrames := rfl
@[simp] theorem State.setCs_journal (s : State) (v : SegState) : (s.setCs v).journal = s.journal := rfl
@[simp] theorem State.setCs_codeStores (s : State) (v : SegState) : (s.setCs v).codeStores = s.codeStores := rfl
@[simp] theorem State.setCs_paged (s : State) (v : SegState) : (s.setCs v).paged = s.paged := rfl
@[simp] theorem State.setCs_ptStores (s : State) (v : SegState) : (s.setCs v).ptStores = s.ptStores := rfl
@[simp] theorem State.setCs_entryDoubts (s : State) (v : SegState) : (s.setCs v).entryDoubts = s.entryDoubts := rfl
@[simp] theorem State.setCs_freeCtr (s : State) (v : SegState) : (s.setCs v).freeCtr = s.freeCtr := rfl

/-! ## `State.setGpr` -/

@[simp] theorem State.setGpr_gpr (s : State) (r : Reg) (v : Word32) : (s.setGpr r v).gpr = s.gpr.set r v := rfl
@[simp] theorem State.setGpr_eip (s : State) (r : Reg) (v : Word32) : (s.setGpr r v).eip = s.eip := rfl
@[simp] theorem State.setGpr_nextEip (s : State) (r : Reg) (v : Word32) : (s.setGpr r v).nextEip = s.nextEip := rfl
@[simp] theorem State.setGpr_eflags (s : State) (r : Reg) (v : Word32) : (s.setGpr r v).eflags = s.eflags := rfl
@[simp] theorem State.setGpr_cpl (s : State) (r : Reg) (v : Word32) : (s.setGpr r v).cpl = s.cpl := rfl
@[simp] theorem State.setGpr_segs (s : State) (r : Reg) (v : Word32) : (s.setGpr r v).segs = s.segs := rfl
@[simp] theorem State.setGpr_cr0 (s : State) (r : Reg) (v : Word32) : (s.setGpr r v).cr0 = s.cr0 := rfl
@[simp] theorem State.setGpr_cr2 (s : State) (r : Reg) (v : Word32) : (s.setGpr r v).cr2 = s.cr2 := rfl
@[simp] theorem State.setGpr_cr3 (s : State) (r : Reg) (v : Word32) : (s.setGpr r v).cr3 = s.cr3 := rfl
@[simp] theorem State.setGpr_dbg (s : State) (r : Reg) (v : Word32) : (s.setGpr r v).dbg = s.dbg := rfl
@[simp] theorem State.setGpr_gdtr (s : State) (r : Reg) (v : Word32) : (s.setGpr r v).gdtr = s.gdtr := rfl
@[simp] theorem State.setGpr_idtr (s : State) (r : Reg) (v : Word32) : (s.setGpr r v).idtr = s.idtr := rfl
@[simp] theorem State.setGpr_ldtr (s : State) (r : Reg) (v : Word32) : (s.setGpr r v).ldtr = s.ldtr := rfl
@[simp] theorem State.setGpr_tr (s : State) (r : Reg) (v : Word32) : (s.setGpr r v).tr = s.tr := rfl
@[simp] theorem State.setGpr_mem (s : State) (r : Reg) (v : Word32) : (s.setGpr r v).mem = s.mem := rfl
@[simp] theorem State.setGpr_delivering (s : State) (r : Reg) (v : Word32) : (s.setGpr r v).delivering = s.delivering := rfl
@[simp] theorem State.setGpr_shutdown (s : State) (r : Reg) (v : Word32) : (s.setGpr r v).shutdown = s.shutdown := rfl
@[simp] theorem State.setGpr_nmiPending (s : State) (r : Reg) (v : Word32) : (s.setGpr r v).nmiPending = s.nmiPending := rfl
@[simp] theorem State.setGpr_nmiFrame (s : State) (r : Reg) (v : Word32) : (s.setGpr r v).nmiFrame = s.nmiFrame := rfl
@[simp] theorem State.setGpr_intr (s : State) (r : Reg) (v : Word32) : (s.setGpr r v).intr = s.intr := rfl
@[simp] theorem State.setGpr_errorPin (s : State) (r : Reg) (v : Word32) : (s.setGpr r v).errorPin = s.errorPin := rfl
@[simp] theorem State.setGpr_coproc (s : State) (r : Reg) (v : Word32) : (s.setGpr r v).coproc = s.coproc := rfl
@[simp] theorem State.setGpr_npx (s : State) (r : Reg) (v : Word32) : (s.setGpr r v).npx = s.npx := rfl
@[simp] theorem State.setGpr_debugIn (s : State) (r : Reg) (v : Word32) : (s.setGpr r v).debugIn = s.debugIn := rfl
@[simp] theorem State.setGpr_heldTraps (s : State) (r : Reg) (v : Word32) : (s.setGpr r v).heldTraps = s.heldTraps := rfl
@[simp] theorem State.setGpr_inputs (s : State) (r : Reg) (v : Word32) : (s.setGpr r v).inputs = s.inputs := rfl
@[simp] theorem State.setGpr_ssShadow (s : State) (r : Reg) (v : Word32) : (s.setGpr r v).ssShadow = s.ssShadow := rfl
@[simp] theorem State.setGpr_taskTrap (s : State) (r : Reg) (v : Word32) : (s.setGpr r v).taskTrap = s.taskTrap := rfl
@[simp] theorem State.setGpr_switching (s : State) (r : Reg) (v : Word32) : (s.setGpr r v).switching = s.switching := rfl
@[simp] theorem State.setGpr_stepKind (s : State) (r : Reg) (v : Word32) : (s.setGpr r v).stepKind = s.stepKind := rfl
@[simp] theorem State.setGpr_abortFrames (s : State) (r : Reg) (v : Word32) : (s.setGpr r v).abortFrames = s.abortFrames := rfl
@[simp] theorem State.setGpr_journal (s : State) (r : Reg) (v : Word32) : (s.setGpr r v).journal = s.journal := rfl
@[simp] theorem State.setGpr_codeStores (s : State) (r : Reg) (v : Word32) : (s.setGpr r v).codeStores = s.codeStores := rfl
@[simp] theorem State.setGpr_paged (s : State) (r : Reg) (v : Word32) : (s.setGpr r v).paged = s.paged := rfl
@[simp] theorem State.setGpr_ptStores (s : State) (r : Reg) (v : Word32) : (s.setGpr r v).ptStores = s.ptStores := rfl
@[simp] theorem State.setGpr_entryDoubts (s : State) (r : Reg) (v : Word32) : (s.setGpr r v).entryDoubts = s.entryDoubts := rfl
@[simp] theorem State.setGpr_freeCtr (s : State) (r : Reg) (v : Word32) : (s.setGpr r v).freeCtr = s.freeCtr := rfl

/-! ## `State.setReg` -/

@[simp] theorem State.setReg_eip (s : State) (z : OpSize) (r : Reg) (v : Word32) : (s.setReg z r v).eip = s.eip := by cases z <;> rfl
@[simp] theorem State.setReg_nextEip (s : State) (z : OpSize) (r : Reg) (v : Word32) : (s.setReg z r v).nextEip = s.nextEip := by cases z <;> rfl
@[simp] theorem State.setReg_eflags (s : State) (z : OpSize) (r : Reg) (v : Word32) : (s.setReg z r v).eflags = s.eflags := by cases z <;> rfl
@[simp] theorem State.setReg_cpl (s : State) (z : OpSize) (r : Reg) (v : Word32) : (s.setReg z r v).cpl = s.cpl := by cases z <;> rfl
@[simp] theorem State.setReg_segs (s : State) (z : OpSize) (r : Reg) (v : Word32) : (s.setReg z r v).segs = s.segs := by cases z <;> rfl
@[simp] theorem State.setReg_cr0 (s : State) (z : OpSize) (r : Reg) (v : Word32) : (s.setReg z r v).cr0 = s.cr0 := by cases z <;> rfl
@[simp] theorem State.setReg_cr2 (s : State) (z : OpSize) (r : Reg) (v : Word32) : (s.setReg z r v).cr2 = s.cr2 := by cases z <;> rfl
@[simp] theorem State.setReg_cr3 (s : State) (z : OpSize) (r : Reg) (v : Word32) : (s.setReg z r v).cr3 = s.cr3 := by cases z <;> rfl
@[simp] theorem State.setReg_dbg (s : State) (z : OpSize) (r : Reg) (v : Word32) : (s.setReg z r v).dbg = s.dbg := by cases z <;> rfl
@[simp] theorem State.setReg_gdtr (s : State) (z : OpSize) (r : Reg) (v : Word32) : (s.setReg z r v).gdtr = s.gdtr := by cases z <;> rfl
@[simp] theorem State.setReg_idtr (s : State) (z : OpSize) (r : Reg) (v : Word32) : (s.setReg z r v).idtr = s.idtr := by cases z <;> rfl
@[simp] theorem State.setReg_ldtr (s : State) (z : OpSize) (r : Reg) (v : Word32) : (s.setReg z r v).ldtr = s.ldtr := by cases z <;> rfl
@[simp] theorem State.setReg_tr (s : State) (z : OpSize) (r : Reg) (v : Word32) : (s.setReg z r v).tr = s.tr := by cases z <;> rfl
@[simp] theorem State.setReg_mem (s : State) (z : OpSize) (r : Reg) (v : Word32) : (s.setReg z r v).mem = s.mem := by cases z <;> rfl
@[simp] theorem State.setReg_delivering (s : State) (z : OpSize) (r : Reg) (v : Word32) : (s.setReg z r v).delivering = s.delivering := by cases z <;> rfl
@[simp] theorem State.setReg_shutdown (s : State) (z : OpSize) (r : Reg) (v : Word32) : (s.setReg z r v).shutdown = s.shutdown := by cases z <;> rfl
@[simp] theorem State.setReg_nmiPending (s : State) (z : OpSize) (r : Reg) (v : Word32) : (s.setReg z r v).nmiPending = s.nmiPending := by cases z <;> rfl
@[simp] theorem State.setReg_nmiFrame (s : State) (z : OpSize) (r : Reg) (v : Word32) : (s.setReg z r v).nmiFrame = s.nmiFrame := by cases z <;> rfl
@[simp] theorem State.setReg_intr (s : State) (z : OpSize) (r : Reg) (v : Word32) : (s.setReg z r v).intr = s.intr := by cases z <;> rfl
@[simp] theorem State.setReg_errorPin (s : State) (z : OpSize) (r : Reg) (v : Word32) : (s.setReg z r v).errorPin = s.errorPin := by cases z <;> rfl
@[simp] theorem State.setReg_coproc (s : State) (z : OpSize) (r : Reg) (v : Word32) : (s.setReg z r v).coproc = s.coproc := by cases z <;> rfl
@[simp] theorem State.setReg_npx (s : State) (z : OpSize) (r : Reg) (v : Word32) : (s.setReg z r v).npx = s.npx := by cases z <;> rfl
@[simp] theorem State.setReg_debugIn (s : State) (z : OpSize) (r : Reg) (v : Word32) : (s.setReg z r v).debugIn = s.debugIn := by cases z <;> rfl
@[simp] theorem State.setReg_heldTraps (s : State) (z : OpSize) (r : Reg) (v : Word32) : (s.setReg z r v).heldTraps = s.heldTraps := by cases z <;> rfl
@[simp] theorem State.setReg_inputs (s : State) (z : OpSize) (r : Reg) (v : Word32) : (s.setReg z r v).inputs = s.inputs := by cases z <;> rfl
@[simp] theorem State.setReg_ssShadow (s : State) (z : OpSize) (r : Reg) (v : Word32) : (s.setReg z r v).ssShadow = s.ssShadow := by cases z <;> rfl
@[simp] theorem State.setReg_taskTrap (s : State) (z : OpSize) (r : Reg) (v : Word32) : (s.setReg z r v).taskTrap = s.taskTrap := by cases z <;> rfl
@[simp] theorem State.setReg_switching (s : State) (z : OpSize) (r : Reg) (v : Word32) : (s.setReg z r v).switching = s.switching := by cases z <;> rfl
@[simp] theorem State.setReg_stepKind (s : State) (z : OpSize) (r : Reg) (v : Word32) : (s.setReg z r v).stepKind = s.stepKind := by cases z <;> rfl
@[simp] theorem State.setReg_abortFrames (s : State) (z : OpSize) (r : Reg) (v : Word32) : (s.setReg z r v).abortFrames = s.abortFrames := by cases z <;> rfl
@[simp] theorem State.setReg_journal (s : State) (z : OpSize) (r : Reg) (v : Word32) : (s.setReg z r v).journal = s.journal := by cases z <;> rfl
@[simp] theorem State.setReg_codeStores (s : State) (z : OpSize) (r : Reg) (v : Word32) : (s.setReg z r v).codeStores = s.codeStores := by cases z <;> rfl
@[simp] theorem State.setReg_paged (s : State) (z : OpSize) (r : Reg) (v : Word32) : (s.setReg z r v).paged = s.paged := by cases z <;> rfl
@[simp] theorem State.setReg_ptStores (s : State) (z : OpSize) (r : Reg) (v : Word32) : (s.setReg z r v).ptStores = s.ptStores := by cases z <;> rfl
@[simp] theorem State.setReg_entryDoubts (s : State) (z : OpSize) (r : Reg) (v : Word32) : (s.setReg z r v).entryDoubts = s.entryDoubts := by cases z <;> rfl
@[simp] theorem State.setReg_freeCtr (s : State) (z : OpSize) (r : Reg) (v : Word32) : (s.setReg z r v).freeCtr = s.freeCtr := by cases z <;> rfl

/-! ## `State.setCtl` -/

@[simp] theorem State.setCtl_gpr (s : State) (c : CtlReg) (v : Word32) : (s.setCtl c v).gpr = s.gpr := by cases c <;> rfl
@[simp] theorem State.setCtl_eip (s : State) (c : CtlReg) (v : Word32) : (s.setCtl c v).eip = s.eip := by cases c <;> rfl
@[simp] theorem State.setCtl_nextEip (s : State) (c : CtlReg) (v : Word32) : (s.setCtl c v).nextEip = s.nextEip := by cases c <;> rfl
@[simp] theorem State.setCtl_eflags (s : State) (c : CtlReg) (v : Word32) : (s.setCtl c v).eflags = s.eflags := by cases c <;> rfl
@[simp] theorem State.setCtl_cpl (s : State) (c : CtlReg) (v : Word32) : (s.setCtl c v).cpl = s.cpl := by cases c <;> rfl
@[simp] theorem State.setCtl_segs (s : State) (c : CtlReg) (v : Word32) : (s.setCtl c v).segs = s.segs := by cases c <;> rfl
@[simp] theorem State.setCtl_dbg (s : State) (c : CtlReg) (v : Word32) : (s.setCtl c v).dbg = s.dbg := by cases c <;> rfl
@[simp] theorem State.setCtl_gdtr (s : State) (c : CtlReg) (v : Word32) : (s.setCtl c v).gdtr = s.gdtr := by cases c <;> rfl
@[simp] theorem State.setCtl_idtr (s : State) (c : CtlReg) (v : Word32) : (s.setCtl c v).idtr = s.idtr := by cases c <;> rfl
@[simp] theorem State.setCtl_ldtr (s : State) (c : CtlReg) (v : Word32) : (s.setCtl c v).ldtr = s.ldtr := by cases c <;> rfl
@[simp] theorem State.setCtl_tr (s : State) (c : CtlReg) (v : Word32) : (s.setCtl c v).tr = s.tr := by cases c <;> rfl
@[simp] theorem State.setCtl_mem (s : State) (c : CtlReg) (v : Word32) : (s.setCtl c v).mem = s.mem := by cases c <;> rfl
@[simp] theorem State.setCtl_delivering (s : State) (c : CtlReg) (v : Word32) : (s.setCtl c v).delivering = s.delivering := by cases c <;> rfl
@[simp] theorem State.setCtl_shutdown (s : State) (c : CtlReg) (v : Word32) : (s.setCtl c v).shutdown = s.shutdown := by cases c <;> rfl
@[simp] theorem State.setCtl_nmiPending (s : State) (c : CtlReg) (v : Word32) : (s.setCtl c v).nmiPending = s.nmiPending := by cases c <;> rfl
@[simp] theorem State.setCtl_nmiFrame (s : State) (c : CtlReg) (v : Word32) : (s.setCtl c v).nmiFrame = s.nmiFrame := by cases c <;> rfl
@[simp] theorem State.setCtl_intr (s : State) (c : CtlReg) (v : Word32) : (s.setCtl c v).intr = s.intr := by cases c <;> rfl
@[simp] theorem State.setCtl_errorPin (s : State) (c : CtlReg) (v : Word32) : (s.setCtl c v).errorPin = s.errorPin := by cases c <;> rfl
@[simp] theorem State.setCtl_coproc (s : State) (c : CtlReg) (v : Word32) : (s.setCtl c v).coproc = s.coproc := by cases c <;> rfl
@[simp] theorem State.setCtl_npx (s : State) (c : CtlReg) (v : Word32) : (s.setCtl c v).npx = s.npx := by cases c <;> rfl
@[simp] theorem State.setCtl_debugIn (s : State) (c : CtlReg) (v : Word32) : (s.setCtl c v).debugIn = s.debugIn := by cases c <;> rfl
@[simp] theorem State.setCtl_heldTraps (s : State) (c : CtlReg) (v : Word32) : (s.setCtl c v).heldTraps = s.heldTraps := by cases c <;> rfl
@[simp] theorem State.setCtl_inputs (s : State) (c : CtlReg) (v : Word32) : (s.setCtl c v).inputs = s.inputs := by cases c <;> rfl
@[simp] theorem State.setCtl_ssShadow (s : State) (c : CtlReg) (v : Word32) : (s.setCtl c v).ssShadow = s.ssShadow := by cases c <;> rfl
@[simp] theorem State.setCtl_taskTrap (s : State) (c : CtlReg) (v : Word32) : (s.setCtl c v).taskTrap = s.taskTrap := by cases c <;> rfl
@[simp] theorem State.setCtl_switching (s : State) (c : CtlReg) (v : Word32) : (s.setCtl c v).switching = s.switching := by cases c <;> rfl
@[simp] theorem State.setCtl_stepKind (s : State) (c : CtlReg) (v : Word32) : (s.setCtl c v).stepKind = s.stepKind := by cases c <;> rfl
@[simp] theorem State.setCtl_abortFrames (s : State) (c : CtlReg) (v : Word32) : (s.setCtl c v).abortFrames = s.abortFrames := by cases c <;> rfl
@[simp] theorem State.setCtl_journal (s : State) (c : CtlReg) (v : Word32) : (s.setCtl c v).journal = s.journal := by cases c <;> rfl
@[simp] theorem State.setCtl_codeStores (s : State) (c : CtlReg) (v : Word32) : (s.setCtl c v).codeStores = s.codeStores := by cases c <;> rfl
@[simp] theorem State.setCtl_freeCtr (s : State) (c : CtlReg) (v : Word32) : (s.setCtl c v).freeCtr = s.freeCtr := by cases c <;> rfl

/-! ## `State.drawn` -/

@[simp] theorem State.drawn_gpr (s : State) : s.drawn.gpr = s.gpr := rfl
@[simp] theorem State.drawn_eip (s : State) : s.drawn.eip = s.eip := rfl
@[simp] theorem State.drawn_nextEip (s : State) : s.drawn.nextEip = s.nextEip := rfl
@[simp] theorem State.drawn_eflags (s : State) : s.drawn.eflags = s.eflags := rfl
@[simp] theorem State.drawn_cpl (s : State) : s.drawn.cpl = s.cpl := rfl
@[simp] theorem State.drawn_segs (s : State) : s.drawn.segs = s.segs := rfl
@[simp] theorem State.drawn_cr0 (s : State) : s.drawn.cr0 = s.cr0 := rfl
@[simp] theorem State.drawn_cr2 (s : State) : s.drawn.cr2 = s.cr2 := rfl
@[simp] theorem State.drawn_cr3 (s : State) : s.drawn.cr3 = s.cr3 := rfl
@[simp] theorem State.drawn_dbg (s : State) : s.drawn.dbg = s.dbg := rfl
@[simp] theorem State.drawn_gdtr (s : State) : s.drawn.gdtr = s.gdtr := rfl
@[simp] theorem State.drawn_idtr (s : State) : s.drawn.idtr = s.idtr := rfl
@[simp] theorem State.drawn_ldtr (s : State) : s.drawn.ldtr = s.ldtr := rfl
@[simp] theorem State.drawn_tr (s : State) : s.drawn.tr = s.tr := rfl
@[simp] theorem State.drawn_mem (s : State) : s.drawn.mem = s.mem := rfl
@[simp] theorem State.drawn_delivering (s : State) : s.drawn.delivering = s.delivering := rfl
@[simp] theorem State.drawn_shutdown (s : State) : s.drawn.shutdown = s.shutdown := rfl
@[simp] theorem State.drawn_nmiPending (s : State) : s.drawn.nmiPending = s.nmiPending := rfl
@[simp] theorem State.drawn_nmiFrame (s : State) : s.drawn.nmiFrame = s.nmiFrame := rfl
@[simp] theorem State.drawn_intr (s : State) : s.drawn.intr = s.intr := rfl
@[simp] theorem State.drawn_errorPin (s : State) : s.drawn.errorPin = s.errorPin := rfl
@[simp] theorem State.drawn_coproc (s : State) : s.drawn.coproc = s.coproc := rfl
@[simp] theorem State.drawn_npx (s : State) : s.drawn.npx = s.npx := rfl
@[simp] theorem State.drawn_debugIn (s : State) : s.drawn.debugIn = s.debugIn := rfl
@[simp] theorem State.drawn_heldTraps (s : State) : s.drawn.heldTraps = s.heldTraps := rfl
@[simp] theorem State.drawn_inputs (s : State) : s.drawn.inputs = s.inputs := rfl
@[simp] theorem State.drawn_ssShadow (s : State) : s.drawn.ssShadow = s.ssShadow := rfl
@[simp] theorem State.drawn_taskTrap (s : State) : s.drawn.taskTrap = s.taskTrap := rfl
@[simp] theorem State.drawn_switching (s : State) : s.drawn.switching = s.switching := rfl
@[simp] theorem State.drawn_stepKind (s : State) : s.drawn.stepKind = s.stepKind := rfl
@[simp] theorem State.drawn_abortFrames (s : State) : s.drawn.abortFrames = s.abortFrames := rfl
@[simp] theorem State.drawn_journal (s : State) : s.drawn.journal = s.journal := rfl
@[simp] theorem State.drawn_codeStores (s : State) : s.drawn.codeStores = s.codeStores := rfl
@[simp] theorem State.drawn_paged (s : State) : s.drawn.paged = s.paged := rfl
@[simp] theorem State.drawn_ptStores (s : State) : s.drawn.ptStores = s.ptStores := rfl
@[simp] theorem State.drawn_entryDoubts (s : State) : s.drawn.entryDoubts = s.entryDoubts := rfl
@[simp] theorem State.drawn_freeCtr (s : State) : s.drawn.freeCtr = s.freeCtr + 1 := rfl

/-! ## `State.storeByte` -/

@[simp] theorem State.storeByte_gpr (s : State) (pa : Nat) (b : Byte) : (s.storeByte pa b).gpr = s.gpr := rfl
@[simp] theorem State.storeByte_eip (s : State) (pa : Nat) (b : Byte) : (s.storeByte pa b).eip = s.eip := rfl
@[simp] theorem State.storeByte_nextEip (s : State) (pa : Nat) (b : Byte) : (s.storeByte pa b).nextEip = s.nextEip := rfl
@[simp] theorem State.storeByte_eflags (s : State) (pa : Nat) (b : Byte) : (s.storeByte pa b).eflags = s.eflags := rfl
@[simp] theorem State.storeByte_cpl (s : State) (pa : Nat) (b : Byte) : (s.storeByte pa b).cpl = s.cpl := rfl
@[simp] theorem State.storeByte_segs (s : State) (pa : Nat) (b : Byte) : (s.storeByte pa b).segs = s.segs := rfl
@[simp] theorem State.storeByte_cr0 (s : State) (pa : Nat) (b : Byte) : (s.storeByte pa b).cr0 = s.cr0 := rfl
@[simp] theorem State.storeByte_cr2 (s : State) (pa : Nat) (b : Byte) : (s.storeByte pa b).cr2 = s.cr2 := rfl
@[simp] theorem State.storeByte_cr3 (s : State) (pa : Nat) (b : Byte) : (s.storeByte pa b).cr3 = s.cr3 := rfl
@[simp] theorem State.storeByte_dbg (s : State) (pa : Nat) (b : Byte) : (s.storeByte pa b).dbg = s.dbg := rfl
@[simp] theorem State.storeByte_gdtr (s : State) (pa : Nat) (b : Byte) : (s.storeByte pa b).gdtr = s.gdtr := rfl
@[simp] theorem State.storeByte_idtr (s : State) (pa : Nat) (b : Byte) : (s.storeByte pa b).idtr = s.idtr := rfl
@[simp] theorem State.storeByte_ldtr (s : State) (pa : Nat) (b : Byte) : (s.storeByte pa b).ldtr = s.ldtr := rfl
@[simp] theorem State.storeByte_tr (s : State) (pa : Nat) (b : Byte) : (s.storeByte pa b).tr = s.tr := rfl
@[simp] theorem State.storeByte_mem (s : State) (pa : Nat) (b : Byte) : (s.storeByte pa b).mem = Memory.write s.mem pa b := rfl
@[simp] theorem State.storeByte_delivering (s : State) (pa : Nat) (b : Byte) : (s.storeByte pa b).delivering = s.delivering := rfl
@[simp] theorem State.storeByte_shutdown (s : State) (pa : Nat) (b : Byte) : (s.storeByte pa b).shutdown = s.shutdown := rfl
@[simp] theorem State.storeByte_nmiPending (s : State) (pa : Nat) (b : Byte) : (s.storeByte pa b).nmiPending = s.nmiPending := rfl
@[simp] theorem State.storeByte_nmiFrame (s : State) (pa : Nat) (b : Byte) : (s.storeByte pa b).nmiFrame = s.nmiFrame := rfl
@[simp] theorem State.storeByte_intr (s : State) (pa : Nat) (b : Byte) : (s.storeByte pa b).intr = s.intr := rfl
@[simp] theorem State.storeByte_errorPin (s : State) (pa : Nat) (b : Byte) : (s.storeByte pa b).errorPin = s.errorPin := rfl
@[simp] theorem State.storeByte_coproc (s : State) (pa : Nat) (b : Byte) : (s.storeByte pa b).coproc = s.coproc := rfl
@[simp] theorem State.storeByte_npx (s : State) (pa : Nat) (b : Byte) : (s.storeByte pa b).npx = s.npx := rfl
@[simp] theorem State.storeByte_debugIn (s : State) (pa : Nat) (b : Byte) : (s.storeByte pa b).debugIn = s.debugIn := rfl
@[simp] theorem State.storeByte_heldTraps (s : State) (pa : Nat) (b : Byte) : (s.storeByte pa b).heldTraps = s.heldTraps := rfl
@[simp] theorem State.storeByte_inputs (s : State) (pa : Nat) (b : Byte) : (s.storeByte pa b).inputs = s.inputs := rfl
@[simp] theorem State.storeByte_ssShadow (s : State) (pa : Nat) (b : Byte) : (s.storeByte pa b).ssShadow = s.ssShadow := rfl
@[simp] theorem State.storeByte_taskTrap (s : State) (pa : Nat) (b : Byte) : (s.storeByte pa b).taskTrap = s.taskTrap := rfl
@[simp] theorem State.storeByte_switching (s : State) (pa : Nat) (b : Byte) : (s.storeByte pa b).switching = s.switching := rfl
@[simp] theorem State.storeByte_stepKind (s : State) (pa : Nat) (b : Byte) : (s.storeByte pa b).stepKind = s.stepKind := rfl
@[simp] theorem State.storeByte_abortFrames (s : State) (pa : Nat) (b : Byte) : (s.storeByte pa b).abortFrames = s.abortFrames := rfl
@[simp] theorem State.storeByte_journal (s : State) (pa : Nat) (b : Byte) : (s.storeByte pa b).journal = s.journal := rfl
@[simp] theorem State.storeByte_codeStores (s : State) (pa : Nat) (b : Byte) : (s.storeByte pa b).codeStores = (pa, s.eip) :: s.codeStores := rfl
@[simp] theorem State.storeByte_paged (s : State) (pa : Nat) (b : Byte) : (s.storeByte pa b).paged = s.paged := rfl
@[simp] theorem State.storeByte_ptStores (s : State) (pa : Nat) (b : Byte) : (s.storeByte pa b).ptStores = s.ptStoresPast pa := rfl
@[simp] theorem State.storeByte_entryDoubts (s : State) (pa : Nat) (b : Byte) : (s.storeByte pa b).entryDoubts = s.doubtsPast pa := rfl
@[simp] theorem State.storeByte_freeCtr (s : State) (pa : Nat) (b : Byte) : (s.storeByte pa b).freeCtr = s.freeCtr := rfl

/-! ## `State.note` -/

@[simp] theorem State.note_gpr (s : State) (c : List Host.Cell) : (s.note c).gpr = s.gpr := rfl
@[simp] theorem State.note_eip (s : State) (c : List Host.Cell) : (s.note c).eip = s.eip := rfl
@[simp] theorem State.note_nextEip (s : State) (c : List Host.Cell) : (s.note c).nextEip = s.nextEip := rfl
@[simp] theorem State.note_eflags (s : State) (c : List Host.Cell) : (s.note c).eflags = s.eflags := rfl
@[simp] theorem State.note_cpl (s : State) (c : List Host.Cell) : (s.note c).cpl = s.cpl := rfl
@[simp] theorem State.note_segs (s : State) (c : List Host.Cell) : (s.note c).segs = s.segs := rfl
@[simp] theorem State.note_cr0 (s : State) (c : List Host.Cell) : (s.note c).cr0 = s.cr0 := rfl
@[simp] theorem State.note_cr2 (s : State) (c : List Host.Cell) : (s.note c).cr2 = s.cr2 := rfl
@[simp] theorem State.note_cr3 (s : State) (c : List Host.Cell) : (s.note c).cr3 = s.cr3 := rfl
@[simp] theorem State.note_dbg (s : State) (c : List Host.Cell) : (s.note c).dbg = s.dbg := rfl
@[simp] theorem State.note_gdtr (s : State) (c : List Host.Cell) : (s.note c).gdtr = s.gdtr := rfl
@[simp] theorem State.note_idtr (s : State) (c : List Host.Cell) : (s.note c).idtr = s.idtr := rfl
@[simp] theorem State.note_ldtr (s : State) (c : List Host.Cell) : (s.note c).ldtr = s.ldtr := rfl
@[simp] theorem State.note_tr (s : State) (c : List Host.Cell) : (s.note c).tr = s.tr := rfl
@[simp] theorem State.note_mem (s : State) (c : List Host.Cell) : (s.note c).mem = s.mem := rfl
@[simp] theorem State.note_delivering (s : State) (c : List Host.Cell) : (s.note c).delivering = s.delivering := rfl
@[simp] theorem State.note_shutdown (s : State) (c : List Host.Cell) : (s.note c).shutdown = s.shutdown := rfl
@[simp] theorem State.note_nmiPending (s : State) (c : List Host.Cell) : (s.note c).nmiPending = s.nmiPending := rfl
@[simp] theorem State.note_nmiFrame (s : State) (c : List Host.Cell) : (s.note c).nmiFrame = s.nmiFrame := rfl
@[simp] theorem State.note_intr (s : State) (c : List Host.Cell) : (s.note c).intr = s.intr := rfl
@[simp] theorem State.note_errorPin (s : State) (c : List Host.Cell) : (s.note c).errorPin = s.errorPin := rfl
@[simp] theorem State.note_coproc (s : State) (c : List Host.Cell) : (s.note c).coproc = s.coproc := rfl
@[simp] theorem State.note_npx (s : State) (c : List Host.Cell) : (s.note c).npx = s.npx := rfl
@[simp] theorem State.note_debugIn (s : State) (c : List Host.Cell) : (s.note c).debugIn = s.debugIn := rfl
@[simp] theorem State.note_heldTraps (s : State) (c : List Host.Cell) : (s.note c).heldTraps = s.heldTraps := rfl
@[simp] theorem State.note_inputs (s : State) (c : List Host.Cell) : (s.note c).inputs = s.inputs := rfl
@[simp] theorem State.note_ssShadow (s : State) (c : List Host.Cell) : (s.note c).ssShadow = s.ssShadow := rfl
@[simp] theorem State.note_taskTrap (s : State) (c : List Host.Cell) : (s.note c).taskTrap = s.taskTrap := rfl
@[simp] theorem State.note_switching (s : State) (c : List Host.Cell) : (s.note c).switching = s.switching := rfl
@[simp] theorem State.note_stepKind (s : State) (c : List Host.Cell) : (s.note c).stepKind = s.stepKind := rfl
@[simp] theorem State.note_abortFrames (s : State) (c : List Host.Cell) : (s.note c).abortFrames = s.abortFrames := rfl
@[simp] theorem State.note_journal (s : State) (c : List Host.Cell) : (s.note c).journal = (parts c).reverse ++ s.journal := rfl
@[simp] theorem State.note_codeStores (s : State) (c : List Host.Cell) : (s.note c).codeStores = s.codeStores := rfl
@[simp] theorem State.note_paged (s : State) (c : List Host.Cell) : (s.note c).paged = s.paged := rfl
@[simp] theorem State.note_ptStores (s : State) (c : List Host.Cell) : (s.note c).ptStores = s.ptStores := rfl
@[simp] theorem State.note_entryDoubts (s : State) (c : List Host.Cell) : (s.note c).entryDoubts = s.entryDoubts := rfl
@[simp] theorem State.note_freeCtr (s : State) (c : List Host.Cell) : (s.note c).freeCtr = s.freeCtr := rfl

/-! ## `State.endNmi` -/

@[simp] theorem State.endNmi_gpr (s : State) (f : HandlerFrame) : (s.endNmi f).gpr = s.gpr := rfl
@[simp] theorem State.endNmi_eip (s : State) (f : HandlerFrame) : (s.endNmi f).eip = s.eip := rfl
@[simp] theorem State.endNmi_nextEip (s : State) (f : HandlerFrame) : (s.endNmi f).nextEip = s.nextEip := rfl
@[simp] theorem State.endNmi_eflags (s : State) (f : HandlerFrame) : (s.endNmi f).eflags = s.eflags := rfl
@[simp] theorem State.endNmi_cpl (s : State) (f : HandlerFrame) : (s.endNmi f).cpl = s.cpl := rfl
@[simp] theorem State.endNmi_segs (s : State) (f : HandlerFrame) : (s.endNmi f).segs = s.segs := rfl
@[simp] theorem State.endNmi_cr0 (s : State) (f : HandlerFrame) : (s.endNmi f).cr0 = s.cr0 := rfl
@[simp] theorem State.endNmi_cr2 (s : State) (f : HandlerFrame) : (s.endNmi f).cr2 = s.cr2 := rfl
@[simp] theorem State.endNmi_cr3 (s : State) (f : HandlerFrame) : (s.endNmi f).cr3 = s.cr3 := rfl
@[simp] theorem State.endNmi_dbg (s : State) (f : HandlerFrame) : (s.endNmi f).dbg = s.dbg := rfl
@[simp] theorem State.endNmi_gdtr (s : State) (f : HandlerFrame) : (s.endNmi f).gdtr = s.gdtr := rfl
@[simp] theorem State.endNmi_idtr (s : State) (f : HandlerFrame) : (s.endNmi f).idtr = s.idtr := rfl
@[simp] theorem State.endNmi_ldtr (s : State) (f : HandlerFrame) : (s.endNmi f).ldtr = s.ldtr := rfl
@[simp] theorem State.endNmi_tr (s : State) (f : HandlerFrame) : (s.endNmi f).tr = s.tr := rfl
@[simp] theorem State.endNmi_mem (s : State) (f : HandlerFrame) : (s.endNmi f).mem = s.mem := rfl
@[simp] theorem State.endNmi_delivering (s : State) (f : HandlerFrame) : (s.endNmi f).delivering = s.delivering := rfl
@[simp] theorem State.endNmi_shutdown (s : State) (f : HandlerFrame) : (s.endNmi f).shutdown = s.shutdown := rfl
@[simp] theorem State.endNmi_nmiPending (s : State) (f : HandlerFrame) : (s.endNmi f).nmiPending = s.nmiPending := rfl
@[simp] theorem State.endNmi_nmiFrame (s : State) (f : HandlerFrame) : (s.endNmi f).nmiFrame = if s.nmiFrame = some f then none else s.nmiFrame := rfl
@[simp] theorem State.endNmi_intr (s : State) (f : HandlerFrame) : (s.endNmi f).intr = s.intr := rfl
@[simp] theorem State.endNmi_errorPin (s : State) (f : HandlerFrame) : (s.endNmi f).errorPin = s.errorPin := rfl
@[simp] theorem State.endNmi_coproc (s : State) (f : HandlerFrame) : (s.endNmi f).coproc = s.coproc := rfl
@[simp] theorem State.endNmi_npx (s : State) (f : HandlerFrame) : (s.endNmi f).npx = s.npx := rfl
@[simp] theorem State.endNmi_debugIn (s : State) (f : HandlerFrame) : (s.endNmi f).debugIn = s.debugIn := rfl
@[simp] theorem State.endNmi_heldTraps (s : State) (f : HandlerFrame) : (s.endNmi f).heldTraps = s.heldTraps := rfl
@[simp] theorem State.endNmi_inputs (s : State) (f : HandlerFrame) : (s.endNmi f).inputs = s.inputs := rfl
@[simp] theorem State.endNmi_ssShadow (s : State) (f : HandlerFrame) : (s.endNmi f).ssShadow = s.ssShadow := rfl
@[simp] theorem State.endNmi_taskTrap (s : State) (f : HandlerFrame) : (s.endNmi f).taskTrap = s.taskTrap := rfl
@[simp] theorem State.endNmi_switching (s : State) (f : HandlerFrame) : (s.endNmi f).switching = s.switching := rfl
@[simp] theorem State.endNmi_stepKind (s : State) (f : HandlerFrame) : (s.endNmi f).stepKind = s.stepKind := rfl
@[simp] theorem State.endNmi_abortFrames (s : State) (f : HandlerFrame) : (s.endNmi f).abortFrames = s.abortFrames := rfl
@[simp] theorem State.endNmi_journal (s : State) (f : HandlerFrame) : (s.endNmi f).journal = s.journal := rfl
@[simp] theorem State.endNmi_codeStores (s : State) (f : HandlerFrame) : (s.endNmi f).codeStores = s.codeStores := rfl
@[simp] theorem State.endNmi_paged (s : State) (f : HandlerFrame) : (s.endNmi f).paged = s.paged := rfl
@[simp] theorem State.endNmi_ptStores (s : State) (f : HandlerFrame) : (s.endNmi f).ptStores = s.ptStores := rfl
@[simp] theorem State.endNmi_entryDoubts (s : State) (f : HandlerFrame) : (s.endNmi f).entryDoubts = s.entryDoubts := rfl
@[simp] theorem State.endNmi_freeCtr (s : State) (f : HandlerFrame) : (s.endNmi f).freeCtr = s.freeCtr := rfl

/-! ## `State.noted` -/

@[simp] theorem State.noted_gpr (s : State) (ev : Event) (f : HandlerFrame) : (s.noted ev f).gpr = s.gpr := rfl
@[simp] theorem State.noted_eip (s : State) (ev : Event) (f : HandlerFrame) : (s.noted ev f).eip = s.eip := rfl
@[simp] theorem State.noted_nextEip (s : State) (ev : Event) (f : HandlerFrame) : (s.noted ev f).nextEip = s.nextEip := rfl
@[simp] theorem State.noted_eflags (s : State) (ev : Event) (f : HandlerFrame) : (s.noted ev f).eflags = s.eflags := rfl
@[simp] theorem State.noted_cpl (s : State) (ev : Event) (f : HandlerFrame) : (s.noted ev f).cpl = s.cpl := rfl
@[simp] theorem State.noted_segs (s : State) (ev : Event) (f : HandlerFrame) : (s.noted ev f).segs = s.segs := rfl
@[simp] theorem State.noted_cr0 (s : State) (ev : Event) (f : HandlerFrame) : (s.noted ev f).cr0 = s.cr0 := rfl
@[simp] theorem State.noted_cr2 (s : State) (ev : Event) (f : HandlerFrame) : (s.noted ev f).cr2 = s.cr2 := rfl
@[simp] theorem State.noted_cr3 (s : State) (ev : Event) (f : HandlerFrame) : (s.noted ev f).cr3 = s.cr3 := rfl
@[simp] theorem State.noted_dbg (s : State) (ev : Event) (f : HandlerFrame) : (s.noted ev f).dbg = s.dbg := rfl
@[simp] theorem State.noted_gdtr (s : State) (ev : Event) (f : HandlerFrame) : (s.noted ev f).gdtr = s.gdtr := rfl
@[simp] theorem State.noted_idtr (s : State) (ev : Event) (f : HandlerFrame) : (s.noted ev f).idtr = s.idtr := rfl
@[simp] theorem State.noted_ldtr (s : State) (ev : Event) (f : HandlerFrame) : (s.noted ev f).ldtr = s.ldtr := rfl
@[simp] theorem State.noted_tr (s : State) (ev : Event) (f : HandlerFrame) : (s.noted ev f).tr = s.tr := rfl
@[simp] theorem State.noted_mem (s : State) (ev : Event) (f : HandlerFrame) : (s.noted ev f).mem = s.mem := rfl
@[simp] theorem State.noted_delivering (s : State) (ev : Event) (f : HandlerFrame) : (s.noted ev f).delivering = s.delivering := rfl
@[simp] theorem State.noted_shutdown (s : State) (ev : Event) (f : HandlerFrame) : (s.noted ev f).shutdown = s.shutdown := rfl
@[simp] theorem State.noted_nmiPending (s : State) (ev : Event) (f : HandlerFrame) : (s.noted ev f).nmiPending = s.nmiPending := rfl
@[simp] theorem State.noted_nmiFrame (s : State) (ev : Event) (f : HandlerFrame) : (s.noted ev f).nmiFrame = if ev = .nmi then some f else s.nmiFrame := rfl
@[simp] theorem State.noted_intr (s : State) (ev : Event) (f : HandlerFrame) : (s.noted ev f).intr = s.intr := rfl
@[simp] theorem State.noted_errorPin (s : State) (ev : Event) (f : HandlerFrame) : (s.noted ev f).errorPin = s.errorPin := rfl
@[simp] theorem State.noted_coproc (s : State) (ev : Event) (f : HandlerFrame) : (s.noted ev f).coproc = s.coproc := rfl
@[simp] theorem State.noted_npx (s : State) (ev : Event) (f : HandlerFrame) : (s.noted ev f).npx = s.npx := rfl
@[simp] theorem State.noted_debugIn (s : State) (ev : Event) (f : HandlerFrame) : (s.noted ev f).debugIn = s.debugIn := rfl
@[simp] theorem State.noted_heldTraps (s : State) (ev : Event) (f : HandlerFrame) : (s.noted ev f).heldTraps = s.heldTraps := rfl
@[simp] theorem State.noted_inputs (s : State) (ev : Event) (f : HandlerFrame) : (s.noted ev f).inputs = s.inputs := rfl
@[simp] theorem State.noted_ssShadow (s : State) (ev : Event) (f : HandlerFrame) : (s.noted ev f).ssShadow = s.ssShadow := rfl
@[simp] theorem State.noted_taskTrap (s : State) (ev : Event) (f : HandlerFrame) : (s.noted ev f).taskTrap = s.taskTrap := rfl
@[simp] theorem State.noted_switching (s : State) (ev : Event) (f : HandlerFrame) : (s.noted ev f).switching = s.switching := rfl
@[simp] theorem State.noted_stepKind (s : State) (ev : Event) (f : HandlerFrame) : (s.noted ev f).stepKind = s.stepKind := rfl
@[simp] theorem State.noted_journal (s : State) (ev : Event) (f : HandlerFrame) : (s.noted ev f).journal = s.journal := rfl
@[simp] theorem State.noted_codeStores (s : State) (ev : Event) (f : HandlerFrame) : (s.noted ev f).codeStores = s.codeStores := rfl
@[simp] theorem State.noted_paged (s : State) (ev : Event) (f : HandlerFrame) : (s.noted ev f).paged = s.paged := rfl
@[simp] theorem State.noted_ptStores (s : State) (ev : Event) (f : HandlerFrame) : (s.noted ev f).ptStores = s.ptStores := rfl
@[simp] theorem State.noted_entryDoubts (s : State) (ev : Event) (f : HandlerFrame) : (s.noted ev f).entryDoubts = s.entryDoubts := rfl
@[simp] theorem State.noted_freeCtr (s : State) (ev : Event) (f : HandlerFrame) : (s.noted ev f).freeCtr = s.freeCtr := rfl

/-! ## `State.regsOpened` -/

@[simp] theorem State.regsOpened_eip (s : State) : s.regsOpened.eip = s.eip := rfl
@[simp] theorem State.regsOpened_nextEip (s : State) : s.regsOpened.nextEip = s.nextEip := rfl
@[simp] theorem State.regsOpened_cpl (s : State) : s.regsOpened.cpl = s.cpl := rfl
@[simp] theorem State.regsOpened_cr0 (s : State) : s.regsOpened.cr0 = s.cr0 := rfl
@[simp] theorem State.regsOpened_cr2 (s : State) : s.regsOpened.cr2 = s.cr2 := rfl
@[simp] theorem State.regsOpened_cr3 (s : State) : s.regsOpened.cr3 = s.cr3 := rfl
@[simp] theorem State.regsOpened_dbg (s : State) : s.regsOpened.dbg = s.dbg := rfl
@[simp] theorem State.regsOpened_gdtr (s : State) : s.regsOpened.gdtr = s.gdtr := rfl
@[simp] theorem State.regsOpened_idtr (s : State) : s.regsOpened.idtr = s.idtr := rfl
@[simp] theorem State.regsOpened_ldtr (s : State) : s.regsOpened.ldtr = s.ldtr := rfl
@[simp] theorem State.regsOpened_tr (s : State) : s.regsOpened.tr = s.tr := rfl
@[simp] theorem State.regsOpened_mem (s : State) : s.regsOpened.mem = s.mem := rfl
@[simp] theorem State.regsOpened_delivering (s : State) : s.regsOpened.delivering = s.delivering := rfl
@[simp] theorem State.regsOpened_shutdown (s : State) : s.regsOpened.shutdown = s.shutdown := rfl
@[simp] theorem State.regsOpened_nmiPending (s : State) : s.regsOpened.nmiPending = s.nmiPending := rfl
@[simp] theorem State.regsOpened_nmiFrame (s : State) : s.regsOpened.nmiFrame = s.nmiFrame := rfl
@[simp] theorem State.regsOpened_intr (s : State) : s.regsOpened.intr = s.intr := rfl
@[simp] theorem State.regsOpened_errorPin (s : State) : s.regsOpened.errorPin = s.errorPin := rfl
@[simp] theorem State.regsOpened_coproc (s : State) : s.regsOpened.coproc = s.coproc := rfl
@[simp] theorem State.regsOpened_npx (s : State) : s.regsOpened.npx = s.npx := rfl
@[simp] theorem State.regsOpened_debugIn (s : State) : s.regsOpened.debugIn = s.debugIn := rfl
@[simp] theorem State.regsOpened_heldTraps (s : State) : s.regsOpened.heldTraps = s.heldTraps := rfl
@[simp] theorem State.regsOpened_inputs (s : State) : s.regsOpened.inputs = s.inputs := rfl
@[simp] theorem State.regsOpened_ssShadow (s : State) : s.regsOpened.ssShadow = s.ssShadow := rfl
@[simp] theorem State.regsOpened_taskTrap (s : State) : s.regsOpened.taskTrap = s.taskTrap := rfl
@[simp] theorem State.regsOpened_switching (s : State) : s.regsOpened.switching = s.switching := rfl
@[simp] theorem State.regsOpened_stepKind (s : State) : s.regsOpened.stepKind = s.stepKind := rfl
@[simp] theorem State.regsOpened_abortFrames (s : State) : s.regsOpened.abortFrames = s.abortFrames := rfl
@[simp] theorem State.regsOpened_journal (s : State) : s.regsOpened.journal = s.journal := rfl
@[simp] theorem State.regsOpened_codeStores (s : State) : s.regsOpened.codeStores = s.codeStores := rfl
@[simp] theorem State.regsOpened_paged (s : State) : s.regsOpened.paged = s.paged := rfl
@[simp] theorem State.regsOpened_ptStores (s : State) : s.regsOpened.ptStores = s.ptStores := rfl
@[simp] theorem State.regsOpened_entryDoubts (s : State) : s.regsOpened.entryDoubts = s.entryDoubts := rfl
@[simp] theorem State.regsOpened_freeCtr (s : State) : s.regsOpened.freeCtr = s.freeCtr + 12 := rfl

/-! ## `State.selCounted` -/

@[simp] theorem State.selCounted_gpr (s : State) (z : OpSize) : (s.selCounted z).gpr = s.gpr := by cases z <;> rfl
@[simp] theorem State.selCounted_eip (s : State) (z : OpSize) : (s.selCounted z).eip = s.eip := by cases z <;> rfl
@[simp] theorem State.selCounted_nextEip (s : State) (z : OpSize) : (s.selCounted z).nextEip = s.nextEip := by cases z <;> rfl
@[simp] theorem State.selCounted_eflags (s : State) (z : OpSize) : (s.selCounted z).eflags = s.eflags := by cases z <;> rfl
@[simp] theorem State.selCounted_cpl (s : State) (z : OpSize) : (s.selCounted z).cpl = s.cpl := by cases z <;> rfl
@[simp] theorem State.selCounted_segs (s : State) (z : OpSize) : (s.selCounted z).segs = s.segs := by cases z <;> rfl
@[simp] theorem State.selCounted_cr0 (s : State) (z : OpSize) : (s.selCounted z).cr0 = s.cr0 := by cases z <;> rfl
@[simp] theorem State.selCounted_cr2 (s : State) (z : OpSize) : (s.selCounted z).cr2 = s.cr2 := by cases z <;> rfl
@[simp] theorem State.selCounted_cr3 (s : State) (z : OpSize) : (s.selCounted z).cr3 = s.cr3 := by cases z <;> rfl
@[simp] theorem State.selCounted_dbg (s : State) (z : OpSize) : (s.selCounted z).dbg = s.dbg := by cases z <;> rfl
@[simp] theorem State.selCounted_gdtr (s : State) (z : OpSize) : (s.selCounted z).gdtr = s.gdtr := by cases z <;> rfl
@[simp] theorem State.selCounted_idtr (s : State) (z : OpSize) : (s.selCounted z).idtr = s.idtr := by cases z <;> rfl
@[simp] theorem State.selCounted_ldtr (s : State) (z : OpSize) : (s.selCounted z).ldtr = s.ldtr := by cases z <;> rfl
@[simp] theorem State.selCounted_tr (s : State) (z : OpSize) : (s.selCounted z).tr = s.tr := by cases z <;> rfl
@[simp] theorem State.selCounted_mem (s : State) (z : OpSize) : (s.selCounted z).mem = s.mem := by cases z <;> rfl
@[simp] theorem State.selCounted_delivering (s : State) (z : OpSize) : (s.selCounted z).delivering = s.delivering := by cases z <;> rfl
@[simp] theorem State.selCounted_shutdown (s : State) (z : OpSize) : (s.selCounted z).shutdown = s.shutdown := by cases z <;> rfl
@[simp] theorem State.selCounted_nmiPending (s : State) (z : OpSize) : (s.selCounted z).nmiPending = s.nmiPending := by cases z <;> rfl
@[simp] theorem State.selCounted_nmiFrame (s : State) (z : OpSize) : (s.selCounted z).nmiFrame = s.nmiFrame := by cases z <;> rfl
@[simp] theorem State.selCounted_intr (s : State) (z : OpSize) : (s.selCounted z).intr = s.intr := by cases z <;> rfl
@[simp] theorem State.selCounted_errorPin (s : State) (z : OpSize) : (s.selCounted z).errorPin = s.errorPin := by cases z <;> rfl
@[simp] theorem State.selCounted_coproc (s : State) (z : OpSize) : (s.selCounted z).coproc = s.coproc := by cases z <;> rfl
@[simp] theorem State.selCounted_npx (s : State) (z : OpSize) : (s.selCounted z).npx = s.npx := by cases z <;> rfl
@[simp] theorem State.selCounted_debugIn (s : State) (z : OpSize) : (s.selCounted z).debugIn = s.debugIn := by cases z <;> rfl
@[simp] theorem State.selCounted_heldTraps (s : State) (z : OpSize) : (s.selCounted z).heldTraps = s.heldTraps := by cases z <;> rfl
@[simp] theorem State.selCounted_inputs (s : State) (z : OpSize) : (s.selCounted z).inputs = s.inputs := by cases z <;> rfl
@[simp] theorem State.selCounted_ssShadow (s : State) (z : OpSize) : (s.selCounted z).ssShadow = s.ssShadow := by cases z <;> rfl
@[simp] theorem State.selCounted_taskTrap (s : State) (z : OpSize) : (s.selCounted z).taskTrap = s.taskTrap := by cases z <;> rfl
@[simp] theorem State.selCounted_switching (s : State) (z : OpSize) : (s.selCounted z).switching = s.switching := by cases z <;> rfl
@[simp] theorem State.selCounted_stepKind (s : State) (z : OpSize) : (s.selCounted z).stepKind = s.stepKind := by cases z <;> rfl
@[simp] theorem State.selCounted_abortFrames (s : State) (z : OpSize) : (s.selCounted z).abortFrames = s.abortFrames := by cases z <;> rfl
@[simp] theorem State.selCounted_journal (s : State) (z : OpSize) : (s.selCounted z).journal = s.journal := by cases z <;> rfl
@[simp] theorem State.selCounted_codeStores (s : State) (z : OpSize) : (s.selCounted z).codeStores = s.codeStores := by cases z <;> rfl
@[simp] theorem State.selCounted_paged (s : State) (z : OpSize) : (s.selCounted z).paged = s.paged := by cases z <;> rfl
@[simp] theorem State.selCounted_ptStores (s : State) (z : OpSize) : (s.selCounted z).ptStores = s.ptStores := by cases z <;> rfl
@[simp] theorem State.selCounted_entryDoubts (s : State) (z : OpSize) : (s.selCounted z).entryDoubts = s.entryDoubts := by cases z <;> rfl

/-! ## `State.commitTask` -/

@[simp] theorem State.commitTask_gpr (s : State) (x : Word16) (b l : Word32) : (s.commitTask x b l).gpr = s.gpr := rfl
@[simp] theorem State.commitTask_eip (s : State) (x : Word16) (b l : Word32) : (s.commitTask x b l).eip = s.eip := rfl
@[simp] theorem State.commitTask_nextEip (s : State) (x : Word16) (b l : Word32) : (s.commitTask x b l).nextEip = s.nextEip := rfl
@[simp] theorem State.commitTask_eflags (s : State) (x : Word16) (b l : Word32) : (s.commitTask x b l).eflags = s.eflags := rfl
@[simp] theorem State.commitTask_cpl (s : State) (x : Word16) (b l : Word32) : (s.commitTask x b l).cpl = s.cpl := rfl
@[simp] theorem State.commitTask_segs (s : State) (x : Word16) (b l : Word32) : (s.commitTask x b l).segs = s.segs := rfl
@[simp] theorem State.commitTask_cr0 (s : State) (x : Word16) (b l : Word32) : (s.commitTask x b l).cr0 = s.cr0 ||| 8 := rfl
@[simp] theorem State.commitTask_cr2 (s : State) (x : Word16) (b l : Word32) : (s.commitTask x b l).cr2 = s.cr2 := rfl
@[simp] theorem State.commitTask_cr3 (s : State) (x : Word16) (b l : Word32) : (s.commitTask x b l).cr3 = s.cr3 := rfl
@[simp] theorem State.commitTask_dbg (s : State) (x : Word16) (b l : Word32) : (s.commitTask x b l).dbg = s.dbg := rfl
@[simp] theorem State.commitTask_gdtr (s : State) (x : Word16) (b l : Word32) : (s.commitTask x b l).gdtr = s.gdtr := rfl
@[simp] theorem State.commitTask_idtr (s : State) (x : Word16) (b l : Word32) : (s.commitTask x b l).idtr = s.idtr := rfl
@[simp] theorem State.commitTask_ldtr (s : State) (x : Word16) (b l : Word32) : (s.commitTask x b l).ldtr = s.ldtr := rfl
@[simp] theorem State.commitTask_tr (s : State) (x : Word16) (b l : Word32) : (s.commitTask x b l).tr = { sel := x, base := b, limit := l } := rfl
@[simp] theorem State.commitTask_mem (s : State) (x : Word16) (b l : Word32) : (s.commitTask x b l).mem = s.mem := rfl
@[simp] theorem State.commitTask_delivering (s : State) (x : Word16) (b l : Word32) : (s.commitTask x b l).delivering = s.delivering := rfl
@[simp] theorem State.commitTask_shutdown (s : State) (x : Word16) (b l : Word32) : (s.commitTask x b l).shutdown = s.shutdown := rfl
@[simp] theorem State.commitTask_nmiPending (s : State) (x : Word16) (b l : Word32) : (s.commitTask x b l).nmiPending = s.nmiPending := rfl
@[simp] theorem State.commitTask_nmiFrame (s : State) (x : Word16) (b l : Word32) : (s.commitTask x b l).nmiFrame = s.nmiFrame := rfl
@[simp] theorem State.commitTask_intr (s : State) (x : Word16) (b l : Word32) : (s.commitTask x b l).intr = s.intr := rfl
@[simp] theorem State.commitTask_errorPin (s : State) (x : Word16) (b l : Word32) : (s.commitTask x b l).errorPin = s.errorPin := rfl
@[simp] theorem State.commitTask_coproc (s : State) (x : Word16) (b l : Word32) : (s.commitTask x b l).coproc = s.coproc := rfl
@[simp] theorem State.commitTask_npx (s : State) (x : Word16) (b l : Word32) : (s.commitTask x b l).npx = s.npx := rfl
@[simp] theorem State.commitTask_debugIn (s : State) (x : Word16) (b l : Word32) : (s.commitTask x b l).debugIn = s.debugIn := rfl
@[simp] theorem State.commitTask_heldTraps (s : State) (x : Word16) (b l : Word32) : (s.commitTask x b l).heldTraps = s.heldTraps := rfl
@[simp] theorem State.commitTask_inputs (s : State) (x : Word16) (b l : Word32) : (s.commitTask x b l).inputs = s.inputs := rfl
@[simp] theorem State.commitTask_ssShadow (s : State) (x : Word16) (b l : Word32) : (s.commitTask x b l).ssShadow = s.ssShadow := rfl
@[simp] theorem State.commitTask_taskTrap (s : State) (x : Word16) (b l : Word32) : (s.commitTask x b l).taskTrap = s.taskTrap := rfl
@[simp] theorem State.commitTask_switching (s : State) (x : Word16) (b l : Word32) : (s.commitTask x b l).switching = .committed := rfl
@[simp] theorem State.commitTask_stepKind (s : State) (x : Word16) (b l : Word32) : (s.commitTask x b l).stepKind = .switched := rfl
@[simp] theorem State.commitTask_abortFrames (s : State) (x : Word16) (b l : Word32) : (s.commitTask x b l).abortFrames = s.abortFrames := rfl
@[simp] theorem State.commitTask_journal (s : State) (x : Word16) (b l : Word32) : (s.commitTask x b l).journal = s.journal := rfl
@[simp] theorem State.commitTask_codeStores (s : State) (x : Word16) (b l : Word32) : (s.commitTask x b l).codeStores = s.codeStores := rfl
@[simp] theorem State.commitTask_paged (s : State) (x : Word16) (b l : Word32) : (s.commitTask x b l).paged = s.paged := rfl
@[simp] theorem State.commitTask_ptStores (s : State) (x : Word16) (b l : Word32) : (s.commitTask x b l).ptStores = s.ptStores := rfl
@[simp] theorem State.commitTask_entryDoubts (s : State) (x : Word16) (b l : Word32) : (s.commitTask x b l).entryDoubts = s.entryDoubts := rfl
@[simp] theorem State.commitTask_freeCtr (s : State) (x : Word16) (b l : Word32) : (s.commitTask x b l).freeCtr = s.freeCtr := rfl

/-! ## `State.loadTask` -/

@[simp] theorem State.loadTask_gpr (s : State) (n : Bool) (w : List Word32) : (s.loadTask n w).gpr = taskGpr w := rfl
@[simp] theorem State.loadTask_eip (s : State) (n : Bool) (w : List Word32) : (s.loadTask n w).eip = tssWord w 8 := rfl
@[simp] theorem State.loadTask_nextEip (s : State) (n : Bool) (w : List Word32) : (s.loadTask n w).nextEip = s.nextEip := rfl
@[simp] theorem State.loadTask_eflags (s : State) (n : Bool) (w : List Word32) : (s.loadTask n w).eflags = if n then withNt true (tssWord w 9) else tssWord w 9 := rfl
@[simp] theorem State.loadTask_cpl (s : State) (n : Bool) (w : List Word32) : (s.loadTask n w).cpl = rpl (taskSegs w).cs.sel := rfl
@[simp] theorem State.loadTask_segs (s : State) (n : Bool) (w : List Word32) : (s.loadTask n w).segs = taskSegs w := rfl
@[simp] theorem State.loadTask_cr0 (s : State) (n : Bool) (w : List Word32) : (s.loadTask n w).cr0 = s.cr0 := rfl
@[simp] theorem State.loadTask_cr2 (s : State) (n : Bool) (w : List Word32) : (s.loadTask n w).cr2 = s.cr2 := rfl
@[simp] theorem State.loadTask_cr3 (s : State) (n : Bool) (w : List Word32) : (s.loadTask n w).cr3 = s.cr3 := rfl
@[simp] theorem State.loadTask_dbg (s : State) (n : Bool) (w : List Word32) : (s.loadTask n w).dbg = s.dbg := rfl
@[simp] theorem State.loadTask_gdtr (s : State) (n : Bool) (w : List Word32) : (s.loadTask n w).gdtr = s.gdtr := rfl
@[simp] theorem State.loadTask_idtr (s : State) (n : Bool) (w : List Word32) : (s.loadTask n w).idtr = s.idtr := rfl
@[simp] theorem State.loadTask_ldtr (s : State) (n : Bool) (w : List Word32) : (s.loadTask n w).ldtr = { sel := (tssWord w 24).setWidth 16, base := 0, limit := 0, usable := false } := rfl
@[simp] theorem State.loadTask_tr (s : State) (n : Bool) (w : List Word32) : (s.loadTask n w).tr = s.tr := rfl
@[simp] theorem State.loadTask_mem (s : State) (n : Bool) (w : List Word32) : (s.loadTask n w).mem = s.mem := rfl
@[simp] theorem State.loadTask_delivering (s : State) (n : Bool) (w : List Word32) : (s.loadTask n w).delivering = s.delivering := rfl
@[simp] theorem State.loadTask_shutdown (s : State) (n : Bool) (w : List Word32) : (s.loadTask n w).shutdown = s.shutdown := rfl
@[simp] theorem State.loadTask_nmiPending (s : State) (n : Bool) (w : List Word32) : (s.loadTask n w).nmiPending = s.nmiPending := rfl
@[simp] theorem State.loadTask_nmiFrame (s : State) (n : Bool) (w : List Word32) : (s.loadTask n w).nmiFrame = s.nmiFrame := rfl
@[simp] theorem State.loadTask_intr (s : State) (n : Bool) (w : List Word32) : (s.loadTask n w).intr = s.intr := rfl
@[simp] theorem State.loadTask_errorPin (s : State) (n : Bool) (w : List Word32) : (s.loadTask n w).errorPin = s.errorPin := rfl
@[simp] theorem State.loadTask_coproc (s : State) (n : Bool) (w : List Word32) : (s.loadTask n w).coproc = s.coproc := rfl
@[simp] theorem State.loadTask_npx (s : State) (n : Bool) (w : List Word32) : (s.loadTask n w).npx = s.npx := rfl
@[simp] theorem State.loadTask_debugIn (s : State) (n : Bool) (w : List Word32) : (s.loadTask n w).debugIn = s.debugIn := rfl
@[simp] theorem State.loadTask_heldTraps (s : State) (n : Bool) (w : List Word32) : (s.loadTask n w).heldTraps = s.heldTraps := rfl
@[simp] theorem State.loadTask_inputs (s : State) (n : Bool) (w : List Word32) : (s.loadTask n w).inputs = s.inputs := rfl
@[simp] theorem State.loadTask_ssShadow (s : State) (n : Bool) (w : List Word32) : (s.loadTask n w).ssShadow = s.ssShadow := rfl
@[simp] theorem State.loadTask_taskTrap (s : State) (n : Bool) (w : List Word32) : (s.loadTask n w).taskTrap = (tssWord w 25).getLsbD 0 := rfl
@[simp] theorem State.loadTask_switching (s : State) (n : Bool) (w : List Word32) : (s.loadTask n w).switching = s.switching := rfl
@[simp] theorem State.loadTask_stepKind (s : State) (n : Bool) (w : List Word32) : (s.loadTask n w).stepKind = s.stepKind := rfl
@[simp] theorem State.loadTask_abortFrames (s : State) (n : Bool) (w : List Word32) : (s.loadTask n w).abortFrames = s.abortFrames := rfl
@[simp] theorem State.loadTask_journal (s : State) (n : Bool) (w : List Word32) : (s.loadTask n w).journal = s.journal := rfl
@[simp] theorem State.loadTask_codeStores (s : State) (n : Bool) (w : List Word32) : (s.loadTask n w).codeStores = [] := rfl
@[simp] theorem State.loadTask_paged (s : State) (n : Bool) (w : List Word32) : (s.loadTask n w).paged = s.paged := rfl
@[simp] theorem State.loadTask_ptStores (s : State) (n : Bool) (w : List Word32) : (s.loadTask n w).ptStores = s.ptStores := rfl
@[simp] theorem State.loadTask_entryDoubts (s : State) (n : Bool) (w : List Word32) : (s.loadTask n w).entryDoubts = s.entryDoubts := rfl
@[simp] theorem State.loadTask_freeCtr (s : State) (n : Bool) (w : List Word32) : (s.loadTask n w).freeCtr = s.freeCtr := rfl

/-! ## `State.nullOuter` -/

@[simp] theorem State.nullOuter_gpr (s : State) : s.nullOuter.gpr = s.gpr := rfl
@[simp] theorem State.nullOuter_eip (s : State) : s.nullOuter.eip = s.eip := rfl
@[simp] theorem State.nullOuter_nextEip (s : State) : s.nullOuter.nextEip = s.nextEip := rfl
@[simp] theorem State.nullOuter_eflags (s : State) : s.nullOuter.eflags = s.eflags := rfl
@[simp] theorem State.nullOuter_cpl (s : State) : s.nullOuter.cpl = s.cpl := rfl
@[simp] theorem State.nullOuter_cr0 (s : State) : s.nullOuter.cr0 = s.cr0 := rfl
@[simp] theorem State.nullOuter_cr2 (s : State) : s.nullOuter.cr2 = s.cr2 := rfl
@[simp] theorem State.nullOuter_cr3 (s : State) : s.nullOuter.cr3 = s.cr3 := rfl
@[simp] theorem State.nullOuter_dbg (s : State) : s.nullOuter.dbg = s.dbg := rfl
@[simp] theorem State.nullOuter_gdtr (s : State) : s.nullOuter.gdtr = s.gdtr := rfl
@[simp] theorem State.nullOuter_idtr (s : State) : s.nullOuter.idtr = s.idtr := rfl
@[simp] theorem State.nullOuter_ldtr (s : State) : s.nullOuter.ldtr = s.ldtr := rfl
@[simp] theorem State.nullOuter_tr (s : State) : s.nullOuter.tr = s.tr := rfl
@[simp] theorem State.nullOuter_mem (s : State) : s.nullOuter.mem = s.mem := rfl
@[simp] theorem State.nullOuter_delivering (s : State) : s.nullOuter.delivering = s.delivering := rfl
@[simp] theorem State.nullOuter_shutdown (s : State) : s.nullOuter.shutdown = s.shutdown := rfl
@[simp] theorem State.nullOuter_nmiPending (s : State) : s.nullOuter.nmiPending = s.nmiPending := rfl
@[simp] theorem State.nullOuter_nmiFrame (s : State) : s.nullOuter.nmiFrame = s.nmiFrame := rfl
@[simp] theorem State.nullOuter_intr (s : State) : s.nullOuter.intr = s.intr := rfl
@[simp] theorem State.nullOuter_errorPin (s : State) : s.nullOuter.errorPin = s.errorPin := rfl
@[simp] theorem State.nullOuter_coproc (s : State) : s.nullOuter.coproc = s.coproc := rfl
@[simp] theorem State.nullOuter_npx (s : State) : s.nullOuter.npx = s.npx := rfl
@[simp] theorem State.nullOuter_debugIn (s : State) : s.nullOuter.debugIn = s.debugIn := rfl
@[simp] theorem State.nullOuter_heldTraps (s : State) : s.nullOuter.heldTraps = s.heldTraps := rfl
@[simp] theorem State.nullOuter_inputs (s : State) : s.nullOuter.inputs = s.inputs := rfl
@[simp] theorem State.nullOuter_ssShadow (s : State) : s.nullOuter.ssShadow = s.ssShadow := rfl
@[simp] theorem State.nullOuter_taskTrap (s : State) : s.nullOuter.taskTrap = s.taskTrap := rfl
@[simp] theorem State.nullOuter_switching (s : State) : s.nullOuter.switching = s.switching := rfl
@[simp] theorem State.nullOuter_stepKind (s : State) : s.nullOuter.stepKind = s.stepKind := rfl
@[simp] theorem State.nullOuter_abortFrames (s : State) : s.nullOuter.abortFrames = s.abortFrames := rfl
@[simp] theorem State.nullOuter_journal (s : State) : s.nullOuter.journal = s.journal := rfl
@[simp] theorem State.nullOuter_codeStores (s : State) : s.nullOuter.codeStores = s.codeStores := rfl
@[simp] theorem State.nullOuter_paged (s : State) : s.nullOuter.paged = s.paged := rfl
@[simp] theorem State.nullOuter_ptStores (s : State) : s.nullOuter.ptStores = s.ptStores := rfl
@[simp] theorem State.nullOuter_entryDoubts (s : State) : s.nullOuter.entryDoubts = s.entryDoubts := rfl
@[simp] theorem State.nullOuter_freeCtr (s : State) : s.nullOuter.freeCtr = s.freeCtr := rfl

/-! ## `State.shutDown` -/

@[simp] theorem State.shutDown_gpr (s : State) : s.shutDown.gpr = s.gpr := rfl
@[simp] theorem State.shutDown_eip (s : State) : s.shutDown.eip = s.eip := rfl
@[simp] theorem State.shutDown_nextEip (s : State) : s.shutDown.nextEip = s.nextEip := rfl
@[simp] theorem State.shutDown_eflags (s : State) : s.shutDown.eflags = s.eflags := rfl
@[simp] theorem State.shutDown_cpl (s : State) : s.shutDown.cpl = s.cpl := rfl
@[simp] theorem State.shutDown_segs (s : State) : s.shutDown.segs = s.segs := rfl
@[simp] theorem State.shutDown_cr0 (s : State) : s.shutDown.cr0 = s.cr0 := rfl
@[simp] theorem State.shutDown_cr2 (s : State) : s.shutDown.cr2 = s.cr2 := rfl
@[simp] theorem State.shutDown_cr3 (s : State) : s.shutDown.cr3 = s.cr3 := rfl
@[simp] theorem State.shutDown_dbg (s : State) : s.shutDown.dbg = s.dbg := rfl
@[simp] theorem State.shutDown_gdtr (s : State) : s.shutDown.gdtr = s.gdtr := rfl
@[simp] theorem State.shutDown_idtr (s : State) : s.shutDown.idtr = s.idtr := rfl
@[simp] theorem State.shutDown_ldtr (s : State) : s.shutDown.ldtr = s.ldtr := rfl
@[simp] theorem State.shutDown_tr (s : State) : s.shutDown.tr = s.tr := rfl
@[simp] theorem State.shutDown_mem (s : State) : s.shutDown.mem = s.mem := rfl
@[simp] theorem State.shutDown_delivering (s : State) : s.shutDown.delivering = some .doubleFault := rfl
@[simp] theorem State.shutDown_shutdown (s : State) : s.shutDown.shutdown = true := rfl
@[simp] theorem State.shutDown_nmiPending (s : State) : s.shutDown.nmiPending = s.nmiPending := rfl
@[simp] theorem State.shutDown_nmiFrame (s : State) : s.shutDown.nmiFrame = s.nmiFrame := rfl
@[simp] theorem State.shutDown_intr (s : State) : s.shutDown.intr = s.intr := rfl
@[simp] theorem State.shutDown_errorPin (s : State) : s.shutDown.errorPin = s.errorPin := rfl
@[simp] theorem State.shutDown_coproc (s : State) : s.shutDown.coproc = s.coproc := rfl
@[simp] theorem State.shutDown_npx (s : State) : s.shutDown.npx = s.npx := rfl
@[simp] theorem State.shutDown_debugIn (s : State) : s.shutDown.debugIn = s.debugIn := rfl
@[simp] theorem State.shutDown_heldTraps (s : State) : s.shutDown.heldTraps = s.heldTraps := rfl
@[simp] theorem State.shutDown_inputs (s : State) : s.shutDown.inputs = s.inputs := rfl
@[simp] theorem State.shutDown_ssShadow (s : State) : s.shutDown.ssShadow = s.ssShadow := rfl
@[simp] theorem State.shutDown_taskTrap (s : State) : s.shutDown.taskTrap = s.taskTrap := rfl
@[simp] theorem State.shutDown_switching (s : State) : s.shutDown.switching = s.switching := rfl
@[simp] theorem State.shutDown_stepKind (s : State) : s.shutDown.stepKind = .faulted := rfl
@[simp] theorem State.shutDown_abortFrames (s : State) : s.shutDown.abortFrames = s.abortFrames := rfl
@[simp] theorem State.shutDown_journal (s : State) : s.shutDown.journal = s.journal := rfl
@[simp] theorem State.shutDown_codeStores (s : State) : s.shutDown.codeStores = s.codeStores := rfl
@[simp] theorem State.shutDown_paged (s : State) : s.shutDown.paged = s.paged := rfl
@[simp] theorem State.shutDown_ptStores (s : State) : s.shutDown.ptStores = s.ptStores := rfl
@[simp] theorem State.shutDown_entryDoubts (s : State) : s.shutDown.entryDoubts = s.entryDoubts := rfl
@[simp] theorem State.shutDown_freeCtr (s : State) : s.shutDown.freeCtr = s.freeCtr := rfl

/-! ## `State.record` -/

@[simp] theorem State.record_gpr (s : State) (e : Exc) : (s.record e).gpr = s.gpr := by cases e <;> rfl
@[simp] theorem State.record_eip (s : State) (e : Exc) : (s.record e).eip = s.eip := by cases e <;> rfl
@[simp] theorem State.record_nextEip (s : State) (e : Exc) : (s.record e).nextEip = s.nextEip := by cases e <;> rfl
@[simp] theorem State.record_eflags (s : State) (e : Exc) : (s.record e).eflags = s.eflags := by cases e <;> rfl
@[simp] theorem State.record_cpl (s : State) (e : Exc) : (s.record e).cpl = s.cpl := by cases e <;> rfl
@[simp] theorem State.record_segs (s : State) (e : Exc) : (s.record e).segs = s.segs := by cases e <;> rfl
@[simp] theorem State.record_cr0 (s : State) (e : Exc) : (s.record e).cr0 = s.cr0 := by cases e <;> rfl
@[simp] theorem State.record_cr3 (s : State) (e : Exc) : (s.record e).cr3 = s.cr3 := by cases e <;> rfl
@[simp] theorem State.record_gdtr (s : State) (e : Exc) : (s.record e).gdtr = s.gdtr := by cases e <;> rfl
@[simp] theorem State.record_idtr (s : State) (e : Exc) : (s.record e).idtr = s.idtr := by cases e <;> rfl
@[simp] theorem State.record_ldtr (s : State) (e : Exc) : (s.record e).ldtr = s.ldtr := by cases e <;> rfl
@[simp] theorem State.record_tr (s : State) (e : Exc) : (s.record e).tr = s.tr := by cases e <;> rfl
@[simp] theorem State.record_mem (s : State) (e : Exc) : (s.record e).mem = s.mem := by cases e <;> rfl
@[simp] theorem State.record_delivering (s : State) (e : Exc) : (s.record e).delivering = s.delivering := by cases e <;> rfl
@[simp] theorem State.record_shutdown (s : State) (e : Exc) : (s.record e).shutdown = s.shutdown := by cases e <;> rfl
@[simp] theorem State.record_nmiPending (s : State) (e : Exc) : (s.record e).nmiPending = s.nmiPending := by cases e <;> rfl
@[simp] theorem State.record_nmiFrame (s : State) (e : Exc) : (s.record e).nmiFrame = s.nmiFrame := by cases e <;> rfl
@[simp] theorem State.record_intr (s : State) (e : Exc) : (s.record e).intr = s.intr := by cases e <;> rfl
@[simp] theorem State.record_errorPin (s : State) (e : Exc) : (s.record e).errorPin = s.errorPin := by cases e <;> rfl
@[simp] theorem State.record_coproc (s : State) (e : Exc) : (s.record e).coproc = s.coproc := by cases e <;> rfl
@[simp] theorem State.record_npx (s : State) (e : Exc) : (s.record e).npx = s.npx := by cases e <;> rfl
@[simp] theorem State.record_debugIn (s : State) (e : Exc) : (s.record e).debugIn = s.debugIn := by cases e <;> rfl
@[simp] theorem State.record_heldTraps (s : State) (e : Exc) : (s.record e).heldTraps = s.heldTraps := by cases e <;> rfl
@[simp] theorem State.record_inputs (s : State) (e : Exc) : (s.record e).inputs = s.inputs := by cases e <;> rfl
@[simp] theorem State.record_ssShadow (s : State) (e : Exc) : (s.record e).ssShadow = s.ssShadow := by cases e <;> rfl
@[simp] theorem State.record_taskTrap (s : State) (e : Exc) : (s.record e).taskTrap = s.taskTrap := by cases e <;> rfl
@[simp] theorem State.record_switching (s : State) (e : Exc) : (s.record e).switching = s.switching := by cases e <;> rfl
@[simp] theorem State.record_stepKind (s : State) (e : Exc) : (s.record e).stepKind = s.stepKind := by cases e <;> rfl
@[simp] theorem State.record_abortFrames (s : State) (e : Exc) : (s.record e).abortFrames = s.abortFrames := by cases e <;> rfl
@[simp] theorem State.record_journal (s : State) (e : Exc) : (s.record e).journal = s.journal := by cases e <;> rfl
@[simp] theorem State.record_codeStores (s : State) (e : Exc) : (s.record e).codeStores = s.codeStores := by cases e <;> rfl
@[simp] theorem State.record_paged (s : State) (e : Exc) : (s.record e).paged = s.paged := by cases e <;> rfl
@[simp] theorem State.record_ptStores (s : State) (e : Exc) : (s.record e).ptStores = s.ptStores := by cases e <;> rfl
@[simp] theorem State.record_entryDoubts (s : State) (e : Exc) : (s.record e).entryDoubts = s.entryDoubts := by cases e <;> rfl
@[simp] theorem State.record_freeCtr (s : State) (e : Exc) : (s.record e).freeCtr = s.freeCtr := by cases e <;> rfl

end Sys2Proof.Machine
end

