-- ==== Sys2Proof/Laws/Memory.lean ====
section
/-! SUPPORT. Memory: every store keeps the canonical form, a read sees the last store, and the canonical form is canonical. -/

namespace Sys2Proof.Machine

/-! ## Reading after writing -/

theorem Memory.read_erase_other {m : List Host.Cell} {a x : Nat} (h : x ≠ a) : Memory.read (Memory.erase m a) x = Memory.read m x := by
  induction m with
  | nil => rfl
  | cons c r ih =>
    obtain ⟨k, v⟩ := c
    simp only [Memory.erase]
    split
    · rfl
    · split
      · rename_i hk
        simp [Memory.read, hk, Ne.symm h]
      · simp [Memory.read, ih]

theorem Memory.read_insert {m : List Host.Cell} {a x : Nat} {b : Byte} :
    Memory.read (Memory.insert m a b) x = if x = a then b else Memory.read m x := by
  induction m with
  | nil => simp [Memory.insert, Memory.read, eq_comm]
  | cons c r ih =>
    obtain ⟨k, v⟩ := c
    simp only [Memory.insert]
    split
    · simp [Memory.read, eq_comm]
    · split
      · rename_i hk
        subst hk
        simp only [Memory.read]
        by_cases hx : x = k
        · simp [hx]
        · simp [hx, Ne.symm hx]
      · rename_i hk
        simp only [Memory.read, ih]
        by_cases hx : x = a
        · simp [hx, hk]
        · simp [hx]

/-- A write leaves every other address alone. -/
theorem Memory.read_write_other {m : List Host.Cell} {a x : Nat} {b : Byte} (h : x ≠ a) :
    Memory.read (Memory.write m a b) x = Memory.read m x := by
  unfold Memory.write
  split
  · exact Memory.read_erase_other h
  · rw [Memory.read_insert, if_neg h]

/-! ## The canonical form -/

theorem Memory.above_of_le {m : List Host.Cell} {a b : Nat} (h : a ≤ b) (hm : Memory.above b m = true) : Memory.above a m = true := by
  cases m with
  | nil => rfl
  | cons c r =>
    obtain ⟨k, v⟩ := c
    simp only [Memory.above, Bool.and_eq_true, decide_eq_true_eq] at hm ⊢
    exact ⟨⟨by omega, hm.1.2⟩, hm.2⟩

theorem Memory.wf_of_above {m : List Host.Cell} {a : Nat} (h : Memory.above a m = true) : Memory.wf m = true := by
  cases m with
  | nil => rfl
  | cons c r =>
    simp only [Memory.above, Memory.wf, Bool.and_eq_true, decide_eq_true_eq] at h ⊢
    exact ⟨h.1.2, h.2⟩

/-- Below its cells a memory reads as nothing listed. -/
theorem Memory.read_of_above {m : List Host.Cell} {a x : Nat} (h : Memory.above a m = true) (hx : x ≤ a) : Memory.read m x = Memory.unlisted := by
  induction m generalizing a with
  | nil => rfl
  | cons c r ih =>
    obtain ⟨k, v⟩ := c
    simp only [Memory.above, Bool.and_eq_true, decide_eq_true_eq] at h
    rw [Memory.read, if_neg (by omega)]
    exact ih h.2 (by omega)

theorem Memory.above_erase {m : List Host.Cell} {a x : Nat} (h : Memory.above a m = true) : Memory.above a (Memory.erase m x) = true := by
  induction m generalizing a with
  | nil => rfl
  | cons c r ih =>
    obtain ⟨k, v⟩ := c
    have h' := h
    simp only [Memory.above, Bool.and_eq_true, decide_eq_true_eq] at h'
    simp only [Memory.erase]
    split
    · exact h
    · split
      · exact Memory.above_of_le (by omega) h'.2
      · simp only [Memory.above, Bool.and_eq_true, decide_eq_true_eq]
        exact ⟨h'.1, ih h'.2⟩

theorem Memory.above_insert {m : List Host.Cell} {a x : Nat} {b : Byte} (h : Memory.above a m = true) (hx : a < x) (hb : b ≠ Memory.unlisted) :
    Memory.above a (Memory.insert m x b) = true := by
  induction m generalizing a with
  | nil => simp [Memory.insert, Memory.above, hx, hb]
  | cons c r ih =>
    obtain ⟨k, v⟩ := c
    have h' := h
    simp only [Memory.above, Bool.and_eq_true, decide_eq_true_eq] at h'
    simp only [Memory.insert]
    split
    · simp only [Memory.above, Bool.and_eq_true, decide_eq_true_eq]
      exact ⟨⟨hx, hb⟩, ⟨by omega, h'.1.2⟩, h'.2⟩
    · split
      · simp only [Memory.above, Bool.and_eq_true, decide_eq_true_eq]
        exact ⟨⟨hx, hb⟩, Memory.above_of_le (by omega) h'.2⟩
      · simp only [Memory.above, Bool.and_eq_true, decide_eq_true_eq]
        exact ⟨h'.1, ih h'.2 (by omega)⟩

/-- Every store keeps the canonical form. -/
theorem Memory.wf_write {m : List Host.Cell} (a : Nat) (b : Byte) (h : Memory.wf m = true) : Memory.wf (Memory.write m a b) = true := by
  unfold Memory.write
  cases m with
  | nil =>
    split
    · rfl
    · rename_i hb
      simp [Memory.insert, Memory.wf, Memory.above, hb]
  | cons c r =>
    obtain ⟨k, v⟩ := c
    have h' := h
    simp only [Memory.wf, Bool.and_eq_true, decide_eq_true_eq] at h'
    split
    · simp only [Memory.erase]
      split
      · exact h
      · split
        · exact Memory.wf_of_above h'.2
        · simp only [Memory.wf, Bool.and_eq_true, decide_eq_true_eq]
          exact ⟨h'.1, Memory.above_erase h'.2⟩
    · rename_i hb
      simp only [Memory.insert]
      split
      · simp only [Memory.wf, Memory.above, Bool.and_eq_true, decide_eq_true_eq]
        exact ⟨hb, ⟨by assumption, h'.1⟩, h'.2⟩
      · split
        · simp only [Memory.wf, Bool.and_eq_true, decide_eq_true_eq]
          subst_vars
          exact ⟨hb, h'.2⟩
        · simp only [Memory.wf, Bool.and_eq_true, decide_eq_true_eq]
          exact ⟨h'.1, Memory.above_insert h'.2 (by omega) hb⟩

theorem Memory.read_erase_same {m : List Host.Cell} {a : Nat} (h : Memory.wf m = true) : Memory.read (Memory.erase m a) a = Memory.unlisted := by
  induction m with
  | nil => rfl
  | cons c r ih =>
    obtain ⟨k, v⟩ := c
    simp only [Memory.wf, Bool.and_eq_true, decide_eq_true_eq] at h
    simp only [Memory.erase]
    split
    · rw [Memory.read, if_neg (by omega)]
      exact Memory.read_of_above h.2 (by omega)
    · split
      · exact Memory.read_of_above h.2 (by omega)
      · rename_i hk
        rw [Memory.read, if_neg hk]
        exact ih (Memory.wf_of_above h.2)

/-- A read gives the byte last stored at its address. -/
theorem Memory.read_write {m : List Host.Cell} {a x : Nat} {b : Byte} (h : Memory.wf m = true) :
    Memory.read (Memory.write m a b) x = if x = a then b else Memory.read m x := by
  by_cases hx : x = a
  · subst hx
    rw [if_pos rfl]
    unfold Memory.write
    split
    · rename_i hb
      rw [Memory.read_erase_same h, hb]
    · rw [Memory.read_insert, if_pos rfl]
  · rw [if_neg hx, Memory.read_write_other hx]

theorem reset_mem_wf : Memory.wf State.reset.mem = true := rfl

/-! ## Storing several bytes -/

/-- Storing leaves every register alone but the notes of what was stored. -/
theorem State.storeCells_eq (c : List Host.Cell) : ∀ s : State, s.storeCells c = { s with
    mem := (s.storeCells c).mem, codeStores := (s.storeCells c).codeStores
    ptStores := (s.storeCells c).ptStores, entryDoubts := (s.storeCells c).entryDoubts } := by
  induction c with
  | nil => exact fun _ => rfl
  | cons x r ih =>
    intro s
    rw [State.storeCells, ih]
    rfl

theorem State.storeBytes_eq (s : State) (l : List Nat) (v : Word32) :
    s.storeBytes l v = { s with
      mem := (s.storeBytes l v).mem, journal := (s.storeBytes l v).journal, codeStores := (s.storeBytes l v).codeStores
      ptStores := (s.storeBytes l v).ptStores, entryDoubts := (s.storeBytes l v).entryDoubts } := by
  unfold State.storeBytes
  rw [State.storeCells_eq]
  rfl

theorem State.mem_storeCells_wf (c : List Host.Cell) : ∀ s : State, Memory.wf s.mem = true → Memory.wf (s.storeCells c).mem = true := by
  induction c with
  | nil => exact fun _ h => h
  | cons x r ih => exact fun s h => ih _ (Memory.wf_write x.1 x.2 h)

theorem State.mem_storeBytes_wf (s : State) (l : List Nat) (v : Word32) (h : Memory.wf s.mem = true) : Memory.wf (s.storeBytes l v).mem = true :=
  State.mem_storeCells_wf _ s h

@[simp] theorem State.storeBytes_gpr (s : State) (l : List Nat) (v : Word32) : (s.storeBytes l v).gpr = s.gpr := by rw [State.storeBytes_eq]
@[simp] theorem State.storeBytes_eip (s : State) (l : List Nat) (v : Word32) : (s.storeBytes l v).eip = s.eip := by rw [State.storeBytes_eq]
@[simp] theorem State.storeBytes_nextEip (s : State) (l : List Nat) (v : Word32) : (s.storeBytes l v).nextEip = s.nextEip := by rw [State.storeBytes_eq]
@[simp] theorem State.storeBytes_eflags (s : State) (l : List Nat) (v : Word32) : (s.storeBytes l v).eflags = s.eflags := by rw [State.storeBytes_eq]
@[simp] theorem State.storeBytes_cpl (s : State) (l : List Nat) (v : Word32) : (s.storeBytes l v).cpl = s.cpl := by rw [State.storeBytes_eq]
@[simp] theorem State.storeBytes_segs (s : State) (l : List Nat) (v : Word32) : (s.storeBytes l v).segs = s.segs := by rw [State.storeBytes_eq]
@[simp] theorem State.storeBytes_cr0 (s : State) (l : List Nat) (v : Word32) : (s.storeBytes l v).cr0 = s.cr0 := by rw [State.storeBytes_eq]
@[simp] theorem State.storeBytes_cr2 (s : State) (l : List Nat) (v : Word32) : (s.storeBytes l v).cr2 = s.cr2 := by rw [State.storeBytes_eq]
@[simp] theorem State.storeBytes_cr3 (s : State) (l : List Nat) (v : Word32) : (s.storeBytes l v).cr3 = s.cr3 := by rw [State.storeBytes_eq]
@[simp] theorem State.storeBytes_dbg (s : State) (l : List Nat) (v : Word32) : (s.storeBytes l v).dbg = s.dbg := by rw [State.storeBytes_eq]
@[simp] theorem State.storeBytes_gdtr (s : State) (l : List Nat) (v : Word32) : (s.storeBytes l v).gdtr = s.gdtr := by rw [State.storeBytes_eq]
@[simp] theorem State.storeBytes_idtr (s : State) (l : List Nat) (v : Word32) : (s.storeBytes l v).idtr = s.idtr := by rw [State.storeBytes_eq]
@[simp] theorem State.storeBytes_ldtr (s : State) (l : List Nat) (v : Word32) : (s.storeBytes l v).ldtr = s.ldtr := by rw [State.storeBytes_eq]
@[simp] theorem State.storeBytes_tr (s : State) (l : List Nat) (v : Word32) : (s.storeBytes l v).tr = s.tr := by rw [State.storeBytes_eq]
@[simp] theorem State.storeBytes_delivering (s : State) (l : List Nat) (v : Word32) : (s.storeBytes l v).delivering = s.delivering := by rw [State.storeBytes_eq]
@[simp] theorem State.storeBytes_shutdown (s : State) (l : List Nat) (v : Word32) : (s.storeBytes l v).shutdown = s.shutdown := by rw [State.storeBytes_eq]
@[simp] theorem State.storeBytes_nmiPending (s : State) (l : List Nat) (v : Word32) : (s.storeBytes l v).nmiPending = s.nmiPending := by rw [State.storeBytes_eq]
@[simp] theorem State.storeBytes_nmiFrame (s : State) (l : List Nat) (v : Word32) : (s.storeBytes l v).nmiFrame = s.nmiFrame := by rw [State.storeBytes_eq]
@[simp] theorem State.storeBytes_intr (s : State) (l : List Nat) (v : Word32) : (s.storeBytes l v).intr = s.intr := by rw [State.storeBytes_eq]
@[simp] theorem State.storeBytes_errorPin (s : State) (l : List Nat) (v : Word32) : (s.storeBytes l v).errorPin = s.errorPin := by rw [State.storeBytes_eq]
@[simp] theorem State.storeBytes_coproc (s : State) (l : List Nat) (v : Word32) : (s.storeBytes l v).coproc = s.coproc := by rw [State.storeBytes_eq]
@[simp] theorem State.storeBytes_npx (s : State) (l : List Nat) (v : Word32) : (s.storeBytes l v).npx = s.npx := by rw [State.storeBytes_eq]
@[simp] theorem State.storeBytes_debugIn (s : State) (l : List Nat) (v : Word32) : (s.storeBytes l v).debugIn = s.debugIn := by rw [State.storeBytes_eq]
@[simp] theorem State.storeBytes_heldTraps (s : State) (l : List Nat) (v : Word32) : (s.storeBytes l v).heldTraps = s.heldTraps := by rw [State.storeBytes_eq]
@[simp] theorem State.storeBytes_inputs (s : State) (l : List Nat) (v : Word32) : (s.storeBytes l v).inputs = s.inputs := by rw [State.storeBytes_eq]
@[simp] theorem State.storeBytes_ssShadow (s : State) (l : List Nat) (v : Word32) : (s.storeBytes l v).ssShadow = s.ssShadow := by rw [State.storeBytes_eq]
@[simp] theorem State.storeBytes_taskTrap (s : State) (l : List Nat) (v : Word32) : (s.storeBytes l v).taskTrap = s.taskTrap := by rw [State.storeBytes_eq]
@[simp] theorem State.storeBytes_switching (s : State) (l : List Nat) (v : Word32) : (s.storeBytes l v).switching = s.switching := by rw [State.storeBytes_eq]
@[simp] theorem State.storeBytes_stepKind (s : State) (l : List Nat) (v : Word32) : (s.storeBytes l v).stepKind = s.stepKind := by rw [State.storeBytes_eq]
@[simp] theorem State.storeBytes_abortFrames (s : State) (l : List Nat) (v : Word32) : (s.storeBytes l v).abortFrames = s.abortFrames := by rw [State.storeBytes_eq]
@[simp] theorem State.storeBytes_paged (s : State) (l : List Nat) (v : Word32) : (s.storeBytes l v).paged = s.paged := by rw [State.storeBytes_eq]
@[simp] theorem State.storeBytes_freeCtr (s : State) (l : List Nat) (v : Word32) : (s.storeBytes l v).freeCtr = s.freeCtr := by rw [State.storeBytes_eq]

/-- Bytes outside the addresses stored to are as before. -/
theorem read_storeCells_other (l : List Nat) : ∀ (s : State) (v : Word32) {a : Nat}, a ∉ l →
    Memory.read (s.storeCells (cells l v)).mem a = Memory.read s.mem a := by
  induction l with
  | nil => exact fun _ _ _ _ => rfl
  | cons pa r ih =>
    intro s v a ha
    rw [List.mem_cons, not_or] at ha
    rw [cells, State.storeCells, ih _ _ ha.2, State.storeByte_mem, Memory.read_write_other ha.1]

theorem read_storeBytes_other (s : State) (l : List Nat) (v : Word32) {a : Nat} (ha : a ∉ l) :
    Memory.read (s.storeBytes l v).mem a = Memory.read s.mem a := read_storeCells_other l s v ha

end Sys2Proof.Machine
end

