-- ==== Sys2Proof/Laws/Monad.lean ====
section
/-! SUPPORT. Running operations: what each primitive answers, and the rules for what an operation keeps. -/

namespace Sys2Proof.Machine

/-! ## Running -/

theorem bind_run {α β : Type} (m : M α) (f : α → M β) (s : State) :
    (m >>= f) s = match m s with
      | .ok a t => f a t
      | .error e t => .error e t := by
  show EStateM.bind m f s = _
  unfold EStateM.bind
  cases m s <;> rfl

/-- Go on from an operation that answers. -/
theorem bind_ok {α β : Type} {m : M α} {f : α → M β} {s t : State} {a : α} (h : m s = .ok a t) : (m >>= f) s = f a t := by
  rw [bind_run, h]

theorem bind_error {α β : Type} {m : M α} {f : α → M β} {s t : State} {e : Stop} (h : m s = .error e t) : (m >>= f) s = .error e t := by
  rw [bind_run, h]

@[simp] theorem look_run {α : Type} (f : State → α) (s : State) : look f s = .ok (f s) s := rfl
@[simp] theorem change_run (f : State → State) (s : State) : change f s = .ok () (f s) := rfl
@[simp] theorem pure_run {α : Type} (a : α) (s : State) : (pure a : M α) s = .ok a s := rfl
@[simp] theorem raise_run {α : Type} (e : Exc) (s : State) : (raise e : M α) s = .error (.exc e) s := rfl
@[simp] theorem refuse_run {α : Type} (r : Refusal) (s : State) : (refuse r : M α) s = .error (.refuse r) s := rfl
@[simp] theorem drawBit_run (s : State) : drawBit s = .ok (Config.freeBit s.freeCtr) s.drawn := rfl
@[simp] theorem drawWord_run (s : State) : drawWord s = .ok (Config.freeWord s.freeCtr) s.drawn := rfl
theorem require_run (c : Bool) (e : Exc) (s : State) : require c e s = if c then .ok () s else .error (.exc e) s := rfl
theorem covered_run (c : Bool) (r : Refusal) (s : State) : covered c r s = if c then .ok () s else .error (.refuse r) s := rfl
@[simp] theorem require_true (e : Exc) (s : State) : require true e s = .ok () s := rfl
@[simp] theorem require_false (e : Exc) (s : State) : require false e s = .error (.exc e) s := rfl
@[simp] theorem covered_true (r : Refusal) (s : State) : covered true r s = .ok () s := rfl
@[simp] theorem onlyIf_true (m : M Unit) : onlyIf true m = m := rfl
@[simp] theorem onlyIf_false (m : M Unit) : onlyIf false m = pure () := rfl
@[simp] theorem covered_false (r : Refusal) (s : State) : covered false r s = .error (.refuse r) s := rfl

/-! ## What an operation keeps -/

/-- From a state that meets `P`, an answer meets `Q` and an early end meets `E`. -/
def Holds {α : Type} (P : State → Prop) (m : M α) (Q : α → State → Prop) (E : Stop → State → Prop) : Prop :=
  ∀ s, P s → match m s with
    | .ok a t => Q a t
    | .error e t => E e t

/-- The operation keeps `P`, however it ends; `E` holds of every way it ends early. -/
abbrev Keeps {α : Type} (P : State → Prop) (E : Stop → Prop) (m : M α) : Prop := Holds P m (fun _ => P) (fun e t => P t ∧ E e)

section
variable {α β : Type} {P : State → Prop} {E : Stop → Prop}

theorem Holds.bind {m : M α} {f : α → M β} {Q : α → State → Prop} {R : β → State → Prop} {X : Stop → State → Prop}
    (hm : Holds P m Q X) (hf : ∀ a, Holds (Q a) (f a) R X) : Holds P (m >>= f) R X := by
  intro s hs
  have h := hm s hs
  rw [bind_run]
  cases hms : m s with
  | ok a t =>
    rw [hms] at h
    exact hf a t h
  | error e t =>
    rw [hms] at h
    exact h

theorem Holds.weaken {m : M α} {P' : State → Prop} {Q Q' : α → State → Prop} {X X' : Stop → State → Prop} (h : Holds P m Q X)
    (hP : ∀ s, P' s → P s) (hQ : ∀ a s, Q a s → Q' a s) (hX : ∀ e s, X e s → X' e s) : Holds P' m Q' X' := by
  intro s hs
  have h' := h s (hP s hs)
  cases hms : m s with
  | ok a t =>
    rw [hms] at h'
    exact hQ a t h'
  | error e t =>
    rw [hms] at h'
    exact hX e t h'

theorem Keeps.bind {m : M α} {f : α → M β} (hm : Keeps P E m) (hf : ∀ a, Keeps P E (f a)) : Keeps P E (m >>= f) := Holds.bind hm hf

theorem keeps_pure (a : α) : Keeps P E (pure a : M α) := fun _ h => h
theorem keeps_look (f : State → α) : Keeps P E (look f) := fun _ h => h
theorem keeps_change {f : State → State} (h : ∀ s, P s → P (f s)) : Keeps P E (change f) := h
theorem keeps_raise {e : Exc} (h : E (.exc e)) : Keeps P E (raise e : M α) := fun _ hs => ⟨hs, h⟩
theorem keeps_refuse {r : Refusal} (h : E (.refuse r)) : Keeps P E (refuse r : M α) := fun _ hs => ⟨hs, h⟩

theorem keeps_require {c : Bool} {e : Exc} (h : E (.exc e)) : Keeps P E (require c e) := by
  intro s hs
  cases c
  · exact ⟨hs, h⟩
  · exact hs

theorem keeps_covered {c : Bool} {r : Refusal} (h : E (.refuse r)) : Keeps P E (covered c r) := by
  intro s hs
  cases c
  · exact ⟨hs, h⟩
  · exact hs

theorem keeps_onlyIf {c : Bool} {m : M Unit} (hm : Keeps P E m) : Keeps P E (onlyIf c m) := by
  cases c
  · exact keeps_pure _
  · exact hm

theorem keeps_ite {c : Prop} [Decidable c] {m n : M α} (hm : Keeps P E m) (hn : Keeps P E n) : Keeps P E (if c then m else n) := by
  split
  · exact hm
  · exact hn

end

end Sys2Proof.Machine
end

