-- ==== Sys2Proof/Laws/Keeps.lean ====
section
/-! SUPPORT. For each shared operation, once: it keeps every property of states that its updates keep. An invariant, or the frame of a register, is one
instance of `Closed`. -/

namespace Sys2Proof.Machine

/-- A page fault. -/
def Exc.isPage : Exc → Bool
  | .pageFault _ _ _ _ => true
  | _ => false

/-- `P` is kept by drawing an open value, and `E` holds of every early end but a page fault, and of each one that translation gives in a state that
meets `P`. -/
structure Reads (P : State → Prop) (E : Stop → Prop) : Prop where
  drawn : ∀ s, P s → P s.drawn
  exc : ∀ e, e.isPage = false → E (.exc e)
  refuse : ∀ r, E (.refuse r)
  page : ∀ s w u lin e, P s → translate s w u lin = .error e → E e

/-- `P` is kept by a store and by the note of one, too. -/
structure Quiet (P : State → Prop) (E : Stop → Prop) : Prop extends Reads P E where
  store : ∀ s pa b, P s → P (s.storeByte pa b)
  note : ∀ s c, P s → P (s.note c)

/-- `P` is kept by the loads of segment registers and of the LDT register that do not change the selector in CS. -/
structure Loads (P : State → Prop) (E : Stop → Prop) : Prop extends Reads P E where
  segs : ∀ s g, P s → g.cs.sel = s.segs.cs.sel → P { s with segs := g }
  ldtr : ∀ s l, P s → P { s with ldtr := l }

/-- `P` is kept by every update a shared operation makes, too. -/
structure Closed (P : State → Prop) (E : Stop → Prop) : Prop extends Quiet P E, Loads P E where
  gpr : ∀ s g, P s → P { s with gpr := g }
  setCs : ∀ s v, P s → P (s.setCs v)
  eip : ∀ s t, P s → P { s with eip := t }
  jump : ∀ s t, P s → P (s.jump t)
  eflags : ∀ s f, P s → P { s with eflags := f }
  ssShadow : ∀ s b, P s → P { s with ssShadow := b }
  abortFrames : ∀ s l, P s → P { s with abortFrames := l }
  located : ∀ s, P s → P { s with switching := .located }
  commit : ∀ s x b l, P s → P (s.commitTask x b l)
  load : ∀ s n w, P s → P (s.loadTask n w)
  cr3 : ∀ s v, P s → P (s.setCtl .cr3 v)

/-- `Q` holds of the value an attempted operation answers, `E` of the exception it raised. -/
def Attempted {α : Type} (P : State → Prop) (Q : α → State → Prop) (E : Stop → Prop) : Except Exc α → State → Prop
  | .ok a, t => Q a t
  | .error e, t => P t ∧ E (.exc e)

variable {α β : Type} {P : State → Prop} {E : Stop → Prop}

/-- An entry is found in a touched state as in the state itself, or the model stops (R64). -/
theorem pageEntry_touch (s : State) (x pa : Nat) : pageEntry (s.touch x) pa = .error (.refuse .staleTranslation) ∨ pageEntry (s.touch x) pa = pageEntry s pa := by
  unfold pageEntry
  cases ht : (s.touch x).staleEntry pa with
  | true => exact .inl rfl
  | false =>
    have hs : s.staleEntry pa = false := by
      unfold State.staleEntry State.touch State.ptStoresPast at *
      split at ht
      · exact (Bool.or_eq_false_iff.mp ht).2
      · exact ht
    exact .inr (by rw [hs]; rfl)

/-- A page walk in a touched state ends as in the state itself, or the model stops (R64). -/
theorem pageWalk_touch (s : State) (x : Nat) (w u : Bool) (lin : Word32) :
    pageWalk (s.touch x) w u lin = .error (.refuse .staleTranslation) ∨ pageWalk (s.touch x) w u lin = pageWalk s w u lin := by
  unfold pageWalk
  change (if s.pg then _ else _) = _ ∨ (if s.pg then _ else _) = _
  split
  · rcases pageEntry_touch s x (entryBase s.cr3 + 4 * (lin >>> 22).toNat) with h | h
    · exact .inl (by rw [show (s.touch x).cr3 = s.cr3 from rfl, h])
    · rw [show (s.touch x).cr3 = s.cr3 from rfl, h]
      cases pageEntry s (entryBase s.cr3 + 4 * (lin >>> 22).toNat) with
      | error e => exact .inr rfl
      | ok pde =>
        dsimp only
        split
        · rcases pageEntry_touch s x (entryBase pde + 4 * ((lin >>> 12) &&& 0x3FF).toNat) with h | h
          · exact .inl (by rw [h])
          · exact .inr (by rw [h]; rfl)
        · exact .inr rfl
  · exact .inr rfl

/-- A translation fails in a touched state as in the state itself, or the model stops (R64). -/
theorem translate_touch {s : State} {x : Nat} {w u : Bool} {lin : Word32} {e : Stop} (h : translate (s.touch x) w u lin = .error e) :
    (∃ r, e = .refuse r) ∨ translate s w u lin = .error e := by
  unfold translate at h ⊢
  rcases pageWalk_touch s x w u lin with hw | hw
  · rw [hw] at h
    cases h
    exact .inl ⟨_, rfl⟩
  · rw [hw] at h
    cases hp : pageWalk s w u lin with
    | error y =>
      rw [hp] at h
      exact .inr h
    | ok pa =>
      rw [hp] at h
      dsimp only at h
      split at h
      · cases h
        exact .inl ⟨_, rfl⟩
      · cases h

namespace Reads

variable (C : Reads P E)
include C

/-! ### Open values and accesses -/

theorem keeps_drawBit : Keeps P E drawBit := fun s h => C.drawn s h
theorem keeps_drawWord : Keeps P E drawWord := fun s h => C.drawn s h

theorem translateAll_error (s : State) (h : P s) (w u : Bool) (n : Nat) : ∀ lin e, (translateAll s w u n lin).2 = some e → E e := by
  induction n with
  | zero => intro lin e he; cases he
  | succ n ih =>
    intro lin e he
    unfold translateAll at he
    split at he
    · rename_i he'
      cases he
      exact C.page s w u lin _ h he'
    · exact ih _ _ he

theorem translateEach_error (u : Bool) (n : Nat) : ∀ s, (∀ lin e, translate s true u lin = .error e → E e) →
    ∀ lin e, (translateEach u n s lin).2 = some e → E e := by
  induction n with
  | zero => intro s _ lin e he; cases he
  | succ n ih =>
    intro s hs lin e he
    unfold translateEach at he
    split at he
    · rename_i he'
      cases he
      exact hs _ _ he'
    · refine ih _ (fun lin e hl => ?_) _ _ he
      rcases translate_touch hl with ⟨r, rfl⟩ | hl
      · exact C.refuse r
      · exact hs _ _ hl

theorem translateWrite_error (s : State) (h : P s) (u : Bool) (n : Nat) (lin : Word32) (e : Stop) (he : (translateWrite s u n lin).2 = some e) : E e := by
  unfold translateWrite at he
  split at he
  · exact C.translateAll_error s h _ _ _ _ _ he
  · exact C.translateEach_error u n s (fun lin e => C.page s true u lin e h) lin e he

theorem keeps_readLin (u : Bool) (n : Nat) (lin : Word32) : Keeps P E (readLin u n lin) := by
  intro s h
  unfold readLin
  cases he : (translateAll s false u n lin).2 with
  | none => exact h
  | some e => exact ⟨h, C.translateAll_error s h _ _ _ _ _ he⟩

theorem keeps_raise' (e : Exc) (he : e.isPage = false) : Keeps P E (raise e : M α) := keeps_raise (C.exc e he)
theorem keeps_require' (c : Bool) (e : Exc) (he : e.isPage = false) : Keeps P E (require c e) := keeps_require (C.exc e he)
theorem keeps_covered' (c : Bool) (r : Refusal) : Keeps P E (covered c r) := keeps_covered (C.refuse r)
theorem keeps_refuse' (r : Refusal) : Keeps P E (Machine.refuse r : M α) := keeps_refuse (C.refuse r)

theorem keeps_readDescAt (a : Word32) : Keeps P E (readDescAt a) :=
  Keeps.bind (C.keeps_readLin _ _ _) fun _ => Keeps.bind (C.keeps_readLin _ _ _) fun _ => keeps_pure _

theorem keeps_readDesc (x : Exc) (hx : x.isPage = false) (sel : Word16) : Keeps P E (readDesc x sel) := by
  intro s h
  unfold readDesc
  cases descAddr s sel with
  | none => exact ⟨h, C.exc x hx⟩
  | some a => exact C.keeps_readDescAt a s h

/-- A check of a selector changes nothing but by drawing, and the register it describes holds that selector. -/
theorem checkSelector_holds (wrong : Word16 → Exc) (hw : ∀ x, (wrong x).isPage = false) (seg : SegReg) (sel : Word16) :
    Holds P (checkSelector wrong seg sel) (fun v t => P t ∧ v.sel = sel) (fun e t => P t ∧ E e) := by
  unfold checkSelector
  split
  · cases seg <;> first | exact fun s h => ⟨h, C.exc _ (hw _)⟩ | exact fun s h => ⟨h, rfl⟩
  · refine Holds.bind (Q := fun _ => P) (C.keeps_readDesc _ (hw _) sel) fun d => ?_
    refine Holds.bind (Q := fun _ => P) (keeps_look _) fun cpl => ?_
    cases segTest seg cpl sel d with
    | ok sd => exact fun s h => ⟨h, rfl⟩
    | error f =>
      cases f with
      | protection => exact fun s h => ⟨h, C.exc _ (hw _)⟩
      | notPresent => exact fun s h => ⟨h, C.exc _ (by cases seg <;> rfl)⟩

theorem keeps_checkSelector (wrong : Word16 → Exc) (hw : ∀ x, (wrong x).isPage = false) (seg : SegReg) (sel : Word16) :
    Keeps P E (checkSelector wrong seg sel) :=
  Holds.weaken (C.checkSelector_holds wrong hw seg sel) (fun _ h => h) (fun _ _ h => h.1) (fun _ _ h => h)

/-! ### The segment stage and the stack -/

theorem keeps_uncheckedView (seg : SegReg) (sel : Word16) : Keeps P E (uncheckedView seg sel) :=
  Keeps.bind (C.keeps_checkSelector _ (fun _ => rfl) _ _) fun _ => Keeps.bind C.keeps_drawBit fun _ =>
    Keeps.bind (C.keeps_require' _ (limitExc seg) (by cases seg <;> rfl)) fun _ => keeps_pure _

theorem keeps_segView (seg : SegReg) : Keeps P E (segView seg) := by
  intro s h
  unfold segView
  by_cases hc : (s.segs.get seg).checked = true
  · rw [if_pos hc]
    exact h
  · rw [if_neg hc]
    exact C.keeps_uncheckedView seg _ s h

theorem keeps_segLin (seg : SegReg) (off : Word32) (n : Nat) (k : Access) : Keeps P E (segLin seg off n k) := by
  unfold segLin
  refine Keeps.bind (keeps_look _) fun sel => Keeps.bind (C.keeps_require' _ _ rfl) fun _ => Keeps.bind (C.keeps_segView seg) fun d => ?_
  split
  · exact keeps_pure _
  · exact C.keeps_raise' _ rfl
  · exact C.keeps_raise' _ (by cases seg <;> rfl)
  · exact Keeps.bind C.keeps_drawBit fun b => C.keeps_raise' _ (by cases b <;> cases seg <;> rfl)

theorem keeps_memRead (seg : SegReg) (off : Word32) (n : Nat) : Keeps P E (memRead seg off n) :=
  Keeps.bind (C.keeps_segLin _ _ _ _) fun _ => Keeps.bind (keeps_look _) fun _ => C.keeps_readLin _ _ _

theorem keeps_stackBig : Keeps P E stackBig := Keeps.bind (C.keeps_segView _) fun _ => keeps_pure _
theorem keeps_getSp : Keeps P E getSp := Keeps.bind C.keeps_stackBig fun _ => keeps_look _
theorem keeps_stackRead (off : Word32) (n : Nat) : Keeps P E (stackRead off n) := Keeps.bind C.keeps_stackBig fun _ => C.keeps_memRead _ _ _

theorem keeps_selImage (sz : OpSize) (sel : Word16) : Keeps P E (selImage sz sel) := by
  cases sz
  · exact keeps_pure _
  · exact Keeps.bind C.keeps_drawWord fun _ => keeps_pure _

/-! ### Operands -/

theorem keeps_opRead (m : MemOp) (d : Word32) (n : Nat) : Keeps P E (opRead m d n) := Keeps.bind (keeps_look _) fun _ => C.keeps_memRead _ _ _

theorem keeps_readRM (sz : OpSize) (rm : RM) : Keeps P E (readRM sz rm) := by
  cases rm
  · exact keeps_look _
  · exact C.keeps_opRead _ _ _

theorem keeps_readRM8 (rm : RM) : Keeps P E (readRM8 rm) := by
  cases rm
  · exact keeps_look _
  · exact C.keeps_opRead _ _ _

theorem keeps_memOnly (rm : RM) : Keeps P E (memOnly rm) := by
  cases rm
  · exact C.keeps_raise' _ rfl
  · exact keeps_pure _

theorem keeps_readFar (sz : OpSize) (m : MemOp) : Keeps P E (readFar sz m) :=
  Keeps.bind (C.keeps_opRead _ _ _) fun _ => Keeps.bind (C.keeps_opRead _ _ _) fun _ => keeps_pure _

/-! ### The task switch -/

theorem keeps_locateTss (cause : SwitchCause) (sel : Word16) : Keeps P E (locateTss cause sel) := by
  unfold locateTss
  refine Keeps.bind (C.keeps_require' _ _ rfl) fun _ => Keeps.bind (C.keeps_readDesc _ rfl _) fun d => ?_
  split
  · exact Keeps.bind (C.keeps_require' _ _ rfl) fun _ => Keeps.bind (C.keeps_require' _ _ rfl) fun _ =>
      Keeps.bind (C.keeps_require' _ _ rfl) fun _ => keeps_pure _
  · exact C.keeps_raise' _ rfl

omit C in
/-- What an attempted operation raises is its value. -/
theorem attempt_holds {m : M α} {Q : α → State → Prop} (hm : Holds P m Q (fun e t => P t ∧ E e)) :
    Holds P (attempt m) (Attempted P Q E) (fun e t => P t ∧ E e) := by
  intro s h
  have h1 := hm s h
  unfold attempt
  cases hr : m s with
  | ok a t =>
    rw [hr] at h1
    exact h1
  | error e t =>
    rw [hr] at h1
    cases e with
    | exc e => exact h1
    | refuse r => exact h1

omit C in
/-- The state an attempt leaves, and the exception it raised. -/
theorem raised_holds {m : M α} (hm : Keeps P E m) :
    Holds P (attempt m) (fun r t => P t ∧ ∀ e, raised r = some e → E (.exc e)) (fun e t => P t ∧ E e) :=
  Holds.weaken (attempt_holds hm) (fun _ h => h)
    (fun r t h => by
      cases r with
      | ok a => exact ⟨h, fun e he => by cases he⟩
      | error e => exact ⟨h.1, fun e' he => by cases he; exact h.2⟩)
    (fun _ _ h => h)

theorem keeps_valueOrDraw (r : Except Exc Word32) : Keeps P E (valueOrDraw r) := by
  cases r
  · exact C.keeps_drawWord
  · exact keeps_pure _

/-- Reading the new TSS keeps `P`; `E` holds of the exception it tells of. -/
theorem readTss_holds (n : Nat) : ∀ lin, Holds P (readTss n lin) (fun r t => P t ∧ ∀ e, r.2 = some e → E (.exc e)) (fun e t => P t ∧ E e) := by
  induction n with
  | zero => exact fun lin s h => ⟨h, fun e he => by cases he⟩
  | succ n ih =>
    intro lin
    refine Holds.bind (raised_holds (C.keeps_readLin false 4 lin)) fun v => ?_
    refine Holds.bind (Q := fun _ t => P t ∧ ∀ e, raised v = some e → E (.exc e)) (fun s h => ?_) fun w => ?_
    · have hk := C.keeps_valueOrDraw v s h.1
      cases hr : valueOrDraw v s with
      | ok a t =>
        rw [hr] at hk
        exact ⟨hk, h.2⟩
      | error e t =>
        rw [hr] at hk
        exact hk
    · intro s h
      refine Holds.bind (β := List Word32 × Option Exc) (R := fun r t => P t ∧ ∀ e, r.2 = some e → E (.exc e)) (ih (lin + 4)) ?_ s h.1
      intro r t ht
      refine ⟨ht.1, fun e he => ?_⟩
      change (raised v).or r.2 = some e at he
      rcases Option.or_eq_some_iff.mp he with hv | ⟨_, hr⟩
      · exact h.2 e hv
      · exact ht.2 e hr

theorem keeps_checkLdt (sel : Word16) : Keeps P E (checkLdt sel) := by
  unfold checkLdt
  split
  · exact keeps_pure _
  · refine Keeps.bind (C.keeps_require' _ _ rfl) fun _ => Keeps.bind (C.keeps_readDesc _ rfl _) fun d => ?_
    split
    · exact keeps_pure _
    · exact C.keeps_raise' _ rfl

/-- The same with the segment registers held fixed. -/
theorem fixSegs (g : SegRegs) : Reads (fun t => P t ∧ t.segs = g) E where
  drawn := fun s h => ⟨C.drawn s h.1, h.2⟩
  exc := C.exc
  refuse := C.refuse
  page := fun s w u lin e h => C.page s w u lin e h.1

end Reads

namespace Quiet

variable (C : Quiet P E)
include C

theorem storeCells (c : List Host.Cell) : ∀ s, P s → P (s.storeCells c) := by
  induction c with
  | nil => exact fun _ h => h
  | cons x r ih => exact fun s h => ih _ (C.store s _ _ h)

theorem storeBytes (l : List Nat) (s : State) (v : Word32) (h : P s) : P (s.storeBytes l v) := C.note _ _ (C.storeCells _ s h)

theorem storeSome (c : List Host.Cell) : ∀ s, P s → P (s.storeSome c) := by
  induction c with
  | nil => exact fun _ h => h
  | cons x r ih =>
    intro s h
    unfold State.storeSome
    split
    · exact ih _ (C.note _ _ (C.store _ _ _ (C.drawn s h)))
    · exact ih _ (C.drawn s h)

theorem keeps_writeLin (u : Bool) (n : Nat) (lin v : Word32) : Keeps P E (writeLin u n lin v) := by
  intro s h
  unfold writeLin
  cases he : (translateWrite s u n lin).2 with
  | none => exact C.storeBytes _ s v h
  | some e => exact ⟨C.storeSome _ s h, C.translateWrite_error s h _ _ _ _ he⟩

theorem keeps_memWrite (seg : SegReg) (off : Word32) (n : Nat) (v : Word32) : Keeps P E (memWrite seg off n v) :=
  Keeps.bind (C.keeps_segLin _ _ _ _) fun _ => Keeps.bind (keeps_look _) fun _ => C.keeps_writeLin _ _ _ _

theorem keeps_writeTssFields (base : Word32) (l : List (Nat × Nat × Word32)) : Keeps P E (writeTssFields base l) := by
  induction l with
  | nil => exact keeps_pure _
  | cons f r ih => exact Keeps.bind (C.keeps_writeLin _ _ _ _) fun _ => ih

theorem keeps_saveTask (cause : SwitchCause) (pc : Word16 × Word32) : Keeps P E (saveTask cause pc) :=
  Keeps.bind (keeps_look _) fun _ => Keeps.bind (C.keeps_require' _ _ rfl) fun _ => C.keeps_writeTssFields _ _

theorem keeps_markBusy (busy : Bool) (sel : Word16) : Keeps P E (markBusy busy sel) := by
  intro s h
  unfold markBusy
  cases descAddr s sel with
  | none => exact ⟨h, C.exc _ rfl⟩
  | some a => exact Keeps.bind (C.keeps_readLin _ _ _) (fun _ => C.keeps_writeLin _ _ _ _) s h

theorem keeps_markTasks (cause : SwitchCause) (sel : Word16) : Keeps P E (markTasks cause sel) :=
  Keeps.bind (keeps_look _) fun _ => Keeps.bind (keeps_onlyIf (C.keeps_markBusy _ _)) fun _ => keeps_onlyIf (C.keeps_markBusy _ _)

theorem keeps_linkBack (cause : SwitchCause) (base : Word32) (old : Word16) : Keeps P E (linkBack cause base old) :=
  keeps_onlyIf (C.keeps_writeLin _ _ _ _)

end Quiet

/-- Each check that passed describes a register that holds the selector checked; `E` holds of each failure. -/
def ChecksOk (E : Stop → Prop) (g : SegRegs) : List (SegReg × Except Exc SegState) → Prop
  | [] => True
  | (seg, .ok v) :: r => v.sel = (g.get seg).sel ∧ ChecksOk E g r
  | (_, .error e) :: r => E (.exc e) ∧ ChecksOk E g r

theorem failures_ok {g : SegRegs} (l : List (SegReg × Except Exc SegState)) (h : ChecksOk E g l) : ∀ e ∈ failures l, E (.exc e) := by
  induction l with
  | nil => simp [failures]
  | cons c r ih =>
    obtain ⟨seg, x⟩ := c
    cases x with
    | ok v => exact ih h.2
    | error e =>
      simp only [failures, List.mem_cons, forall_eq_or_imp]
      exact ⟨h.1, ih h.2⟩

theorem Reads.checkSegs_holds (C : Reads P E) (g : SegRegs) (ok : Bool) (l : List SegReg) :
    Holds (fun t => P t ∧ t.segs = g) (checkSegs ok l) (fun r t => (P t ∧ t.segs = g) ∧ ChecksOk E g r) (fun e t => P t ∧ E e) := by
  induction l with
  | nil => exact fun s h => ⟨h, trivial⟩
  | cons seg r ih =>
    unfold checkSegs
    refine Holds.bind (Q := fun sel t => (P t ∧ t.segs = g) ∧ sel = (g.get seg).sel) (fun s h => ⟨h, by rw [← h.2]⟩) fun sel => ?_
    split
    · exact Holds.weaken ih (fun _ h => h.1) (fun _ _ h => h) (fun _ _ h => h)
    · have hc := Reads.attempt_holds ((C.fixSegs g).checkSelector_holds .invalidTss (fun _ => rfl) seg sel)
      refine Holds.bind (Q := fun c t => (P t ∧ t.segs = g) ∧ ChecksOk E g [(seg, c)])
        (fun s h => ?_) fun c => Holds.bind (Q := fun cs t => (P t ∧ t.segs = g) ∧ ChecksOk E g ((seg, c) :: cs)) (fun s h => ?_) fun cs s h => h
      · have h' := hc s h.1
        cases hr : attempt (checkSelector .invalidTss seg sel) s with
        | ok a t =>
          rw [hr] at h'
          cases a with
          | ok v => exact ⟨h'.1, h'.2.trans h.2, trivial⟩
          | error e => exact ⟨h'.1, h'.2, trivial⟩
        | error e t =>
          rw [hr] at h'
          exact ⟨h'.1.1, h'.2⟩
      · have h' := ih s h.1
        cases hr : checkSegs ok r s with
        | ok a t =>
          rw [hr] at h'
          cases c with
          | ok v => exact ⟨h'.1, h.2.1, h'.2⟩
          | error e => exact ⟨h'.1, h.2.1, h'.2⟩
        | error e t =>
          rw [hr] at h'
          exact h'

namespace Loads

variable (C : Loads P E)
include C

theorem setSeg (s : State) (r : SegReg) (v : SegState) (h : P s) (hv : r = .cs → v.sel = s.segs.cs.sel) :
    P { s with segs := s.segs.set r v } := by
  refine C.segs s _ h ?_
  cases r <;> first | rfl | exact hv rfl

theorem takeLdt_holds (r : Except Exc LdtReg) :
    Holds (Attempted P (fun _ => P) E r) (takeLdt r) (fun l t => P t ∧ ∀ e ∈ l, E (.exc e)) (fun e t => P t ∧ E e) := by
  intro s h
  cases r with
  | ok l => exact ⟨C.ldtr s l h, by simp⟩
  | error e => exact ⟨h.1, by simpa using h.2⟩

theorem markChecked_holds (g : SegRegs) (all : Bool) (l : List (SegReg × Except Exc SegState)) (hl : ChecksOk E g l) :
    Holds (fun t => P t ∧ t.segs.cs.sel = g.cs.sel) (markChecked all l) (fun _ => P) (fun e t => P t ∧ E e) := by
  induction l with
  | nil => exact fun s h => h.1
  | cons c r ih =>
    obtain ⟨seg, x⟩ := c
    cases x with
    | error e => exact ih hl.2
    | ok v =>
      refine Holds.bind (Q := fun _ t => P t ∧ t.segs.cs.sel = g.cs.sel) (fun s h => ?_) fun made =>
        Holds.bind (Q := fun _ t => P t ∧ t.segs.cs.sel = g.cs.sel) (fun s h => ?_) fun _ => ih hl.2
      · cases all
        · exact ⟨C.drawn s h.1, h.2⟩
        · exact h
      · cases made
        · exact h
        · refine ⟨C.setSeg s seg v h.1 fun hs => ?_, ?_⟩
          · subst hs
            exact hl.1.trans h.2.symm
          · cases seg <;> first | exact h.2 | exact hl.1

theorem keeps_reportOne (l : List Exc) (hl : ∀ e ∈ l, E (.exc e)) : Keeps P E (reportOne l) := by
  match l, hl with
  | [], _ => exact keeps_pure _
  | [e], hl => exact keeps_raise (hl e (by simp))
  | e :: f :: r, hl =>
    refine Keeps.bind C.keeps_drawWord fun w => keeps_raise ?_
    simp only [List.getD_eq_getElem?_getD]
    cases hg : (e :: f :: r)[w.toNat % ((f :: r).length + 1)]? with
    | none => exact hl e (by simp)
    | some x => exact hl x (List.mem_of_getElem? hg)

theorem keeps_checkTask : Keeps P E checkTask := by
  unfold checkTask
  refine Keeps.bind (keeps_look _) fun sel => ?_
  refine Holds.bind (Q := Attempted P (fun _ => P) E) (Reads.attempt_holds (C.keeps_checkLdt sel)) fun ldt => ?_
  refine Holds.bind (Q := fun (l : List Exc) t => P t ∧ ∀ e ∈ l, E (.exc e)) (C.takeLdt_holds ldt) fun le => ?_
  intro s h
  refine Holds.bind (C.checkSegs_holds s.segs le.isEmpty _) (fun cs => ?_) s ⟨h.1, rfl⟩
  intro t ht
  have hf := failures_ok cs ht.2
  exact Holds.bind (P := fun t => P t ∧ t.segs.cs.sel = s.segs.cs.sel) (C.markChecked_holds s.segs _ cs ht.2)
    (fun _ => C.keeps_reportOne _ fun e he => by
      rcases List.mem_append.mp he with he | he
      · exact h.2 e he
      · exact hf e he) t ⟨ht.1.1, by rw [ht.1.2]⟩

end Loads

namespace Closed

variable (C : Closed P E)
include C

theorem setReg (s : State) (z : OpSize) (r : Reg) (v : Word32) (h : P s) : P (s.setReg z r v) := by
  cases z <;> exact C.gpr s _ h

theorem advance (s : State) (h : P s) : P s.advance := C.eip s _ h

theorem keeps_setSp (v : Word32) : Keeps P E (setSp v) :=
  Keeps.bind C.keeps_stackBig fun _ => keeps_change fun s h => C.setReg s _ _ _ h
theorem keeps_push (sz : OpSize) (v : Word32) : Keeps P E (push sz v) :=
  Keeps.bind C.keeps_getSp fun _ => Keeps.bind C.keeps_stackBig fun _ => Keeps.bind (C.keeps_memWrite _ _ _ _) fun _ => C.keeps_setSp _

theorem keeps_pushAll (sz : OpSize) (l : List Word32) : Keeps P E (pushAll sz l) := by
  induction l with
  | nil => exact keeps_pure _
  | cons v r ih => exact Keeps.bind (C.keeps_push sz v) fun _ => ih

theorem keeps_pop (sz : OpSize) : Keeps P E (pop sz) :=
  Keeps.bind C.keeps_getSp fun _ => Keeps.bind (C.keeps_stackRead _ _) fun _ => Keeps.bind (C.keeps_setSp _) fun _ => keeps_pure _

theorem keeps_writeRM (sz : OpSize) (v : Word32) (rm : RM) : Keeps P E (writeRM sz v rm) := by
  cases rm
  · exact keeps_change fun s h => C.setReg s _ _ _ h
  · exact Keeps.bind (keeps_look _) fun _ => C.keeps_memWrite _ _ _ _

theorem keeps_openFlags : Keeps P E openFlags := Keeps.bind C.keeps_drawWord fun _ => keeps_change fun s h => C.eflags s _ h

/-- The commit of a task switch keeps `P`. -/
theorem keeps_commitSwitch (cause : SwitchCause) (sel : Word16) (base limit : Word32) : Keeps P E (commitSwitch cause sel base limit) := by
  refine Keeps.bind (keeps_look _) fun old => Keeps.bind (keeps_change fun s h => C.commit s _ _ _ h) fun _ => ?_
  refine Holds.bind (Reads.raised_holds (C.keeps_linkBack cause base old)) fun link => ?_
  intro s h
  refine Holds.bind (C.readTss_holds 26 base) (fun r => ?_) s h.1
  refine Holds.bind (Q := fun _ t => P t ∧ ∀ e, r.2 = some e → E (.exc e)) (fun s h => ⟨C.load s _ _ h.1, h.2⟩) fun _ => ?_
  intro t ht
  refine Keeps.bind (E := E) ?_ (fun _ => keeps_pure r.1) t ht.1
  cases hx : (raised link).or r.2 with
  | none => exact keeps_pure _
  | some e =>
    refine keeps_raise ?_
    rcases Option.or_eq_some_iff.mp hx with hl | ⟨_, hr⟩
    · exact h.2 e hl
    · exact ht.2 e hr

theorem keeps_taskSwitch (cause : SwitchCause) (sel : Word16) (pc : Word16 × Word32) : Keeps P E (taskSwitch cause sel pc) :=
  Keeps.bind (C.keeps_locateTss _ _) fun _ => Keeps.bind (keeps_change fun s h => C.located s h) fun _ => Keeps.bind (C.keeps_saveTask _ _) fun _ =>
    Keeps.bind (C.keeps_markTasks _ _) fun _ => Keeps.bind (C.keeps_commitSwitch _ _ _ _) fun _ => Keeps.bind (C.keeps_covered' _ _) fun _ =>
      Keeps.bind (keeps_change fun s h => C.cr3 s _ h) fun _ => C.keeps_checkTask

end Closed

end Sys2Proof.Machine
end

