-- ==== Sys2Proof/Laws/KeepsOps.lean ====
section
/-! SUPPORT. Transfers of control, taking an exception and returning from one keep what their updates keep. -/

namespace Sys2Proof.Machine

variable {α β : Type} {P : State → Prop} {E : Stop → Prop}

/-- What an event adds to the updates of its handler's invocation: the note of an NMI handler's entry. -/
def Notes (P : State → Prop) (ev : Event) : Prop := ev = .nmi → ∀ f s, P s → P { s with nmiFrame := some f }

namespace Closed

variable (C : Closed P E)
include C

theorem keeps_loadSegReg (seg : SegReg) (hs : seg ≠ .cs) (sel : Word16) : Keeps P E (loadSegReg seg sel) :=
  Keeps.bind (C.keeps_checkSelector _ (fun _ => rfl) _ _) fun _ => keeps_change fun s h => C.setSeg s seg _ h fun h => absurd h hs

theorem keeps_jumpNear (t : Word32) : Keeps P E (jumpNear t) :=
  Keeps.bind (C.keeps_segView _) fun _ => Keeps.bind (C.keeps_require' _ _ rfl) fun _ => keeps_change fun s h => C.jump s _ h

theorem keeps_codeReady (sel : Word16) (p : Bool) (d : SegDesc) (off : Word32) : Keeps P E (codeReady sel p d off) :=
  Keeps.bind (C.keeps_require' _ _ rfl) fun _ => C.keeps_require' _ _ rfl

theorem keeps_loadCs (sel : Word16) (d : SegDesc) (level : BitVec 2) : Keeps P E (loadCs sel d level) := keeps_change fun s h => C.setCs s _ h

theorem keeps_innerStack (level : BitVec 2) : Keeps P E (innerStack level) :=
  Keeps.bind (keeps_look _) fun _ => Keeps.bind (C.keeps_require' _ _ rfl) fun _ => Keeps.bind (C.keeps_readLin _ _ _) fun _ =>
    Keeps.bind (C.keeps_readLin _ _ _) fun _ => keeps_pure _

theorem keeps_switchStack (ss : Word16) (esp : Word32) : Keeps P E (switchStack ss esp) :=
  Keeps.bind (C.keeps_loadSegReg _ (by decide) _) fun _ => C.keeps_setSp _

theorem keeps_onNewStack (ss : Word16) {m : M α} (hm : Keeps P E m) : Keeps P E (onNewStack ss m) := by
  intro s h
  have h' := hm s h
  unfold onNewStack
  cases hr : m s with
  | ok a t =>
    rw [hr] at h'
    exact h'
  | error e t =>
    rw [hr] at h'
    cases e with
    | refuse r => exact h'
    | exc e => cases e <;> first | exact h' | exact ⟨h'.1, C.exc _ rfl⟩

theorem keeps_readParams (sz : OpSize) (n : Nat) : ∀ sp, Keeps P E (readParams sz sp n) := by
  induction n with
  | zero => exact fun _ => keeps_pure _
  | succ n ih => exact fun sp => Keeps.bind (C.keeps_stackRead _ _) fun _ => Keeps.bind (ih _) fun _ => keeps_pure _

theorem keeps_callInner (sz : OpSize) (count : BitVec 5) (sel : Word16) (p : Bool) (d : SegDesc) (off : Word32) :
    Keeps P E (callInner sz count sel p d off) :=
  Keeps.bind (C.keeps_codeReady _ _ _ _) fun _ => Keeps.bind (keeps_look _) fun _ => Keeps.bind C.keeps_getSp fun _ =>
    Keeps.bind (C.keeps_readParams _ _ _) fun _ => Keeps.bind (C.keeps_innerStack _) fun _ => Keeps.bind (C.keeps_loadCs _ _ _) fun _ =>
      Keeps.bind (C.keeps_switchStack _ _) fun _ => Keeps.bind (C.keeps_selImage _ _) fun _ => Keeps.bind (C.keeps_selImage _ _) fun _ =>
        Keeps.bind (C.keeps_onNewStack _ (C.keeps_pushAll _ _)) fun _ => keeps_change fun s h => C.jump s _ h

theorem keeps_enterSame (call : Bool) (sz : OpSize) (sel : Word16) (p : Bool) (d : SegDesc) (off : Word32) :
    Keeps P E (enterSame call sz sel p d off) :=
  Keeps.bind (C.keeps_codeReady _ _ _ _) fun _ => Keeps.bind (keeps_look _) fun _ =>
    Keeps.bind (keeps_onlyIf (Keeps.bind (C.keeps_selImage _ _) fun _ => C.keeps_pushAll _ _)) fun _ =>
      Keeps.bind (C.keeps_loadCs _ _ _) fun _ => keeps_change fun s h => C.jump s _ h

theorem keeps_throughCallGate (call : Bool) (sz : OpSize) (count : BitVec 5) (sel : Word16) (off : Word32) :
    Keeps P E (throughCallGate call sz count sel off) := by
  unfold throughCallGate
  refine Keeps.bind (C.keeps_require' _ _ rfl) fun _ => Keeps.bind (C.keeps_readDesc _ rfl _) fun d => Keeps.bind (keeps_look _) fun cpl => ?_
  split
  · split
    · refine Keeps.bind (C.keeps_require' _ _ rfl) fun _ => ?_
      split
      · exact C.keeps_enterSame _ _ _ _ _ _
      · exact Keeps.bind (C.keeps_require' _ _ rfl) fun _ => C.keeps_callInner _ _ _ _ _ _
    · exact C.keeps_raise' _ rfl
  · exact C.keeps_raise' _ rfl

theorem keeps_farTransfer (call : Bool) (sz : OpSize) (sel : Word16) (off : Word32) : Keeps P E (farTransfer call sz sel off) := by
  unfold farTransfer
  refine Keeps.bind (C.keeps_require' _ _ rfl) fun _ => Keeps.bind (C.keeps_readDesc _ rfl _) fun d => Keeps.bind (keeps_look _) fun cpl =>
    Keeps.bind (keeps_look _) fun pc => ?_
  dsimp only
  split
  · split
    · exact Keeps.bind (C.keeps_require' _ _ rfl) fun _ => C.keeps_enterSame _ _ _ _ _ _
    · exact C.keeps_raise' _ rfl
  · exact Keeps.bind (C.keeps_require' _ _ rfl) fun _ => Keeps.bind (C.keeps_require' _ _ rfl) fun _ => C.keeps_throughCallGate _ _ _ _ _
  · exact Keeps.bind (C.keeps_require' _ _ rfl) fun _ => Keeps.bind (C.keeps_require' _ _ rfl) fun _ => C.keeps_taskSwitch _ _ _
  · exact Keeps.bind (C.keeps_require' _ _ rfl) fun _ => C.keeps_taskSwitch _ _ _
  · exact C.keeps_raise' _ rfl
  · exact C.keeps_raise' _ rfl
  · exact C.keeps_raise' _ rfl

/-! ### Taking an exception -/

theorem keeps_savedPc (ev : Event) : Keeps P E (savedPc ev) := by
  unfold savedPc
  split
  · exact Keeps.bind C.keeps_drawWord fun _ => Keeps.bind C.keeps_drawWord fun _ => keeps_pure _
  · exact keeps_look _

theorem draws (n : Nat) : ∀ s, P s → P { s with freeCtr := s.freeCtr + n } := by
  induction n with
  | zero => exact fun _ h => h
  | succ n ih => exact fun s h => C.drawn _ (ih s h)

theorem regsOpened (s : State) (h : P s) : P s.regsOpened :=
  C.segs _ _ (C.eflags _ (maskMerge abortFlags s.eflags (Config.freeWord (s.freeCtr + 7))) (C.gpr _ s.regsOpened.gpr (C.draws 12 s h))) rfl

theorem keeps_readGate (ev : Event) : Keeps P E (readGate ev) := by
  unfold readGate
  refine Keeps.bind (keeps_look _) fun idtr => Keeps.bind (C.keeps_require' _ _ rfl) fun _ => Keeps.bind (C.keeps_readDescAt _) fun g => ?_
  split
  · exact C.keeps_raise' _ rfl
  · exact Keeps.bind (keeps_look _) fun _ => Keeps.bind (C.keeps_require' _ _ rfl) fun _ => Keeps.bind (C.keeps_require' _ _ rfl) fun _ => keeps_pure _

theorem keeps_errImage (ec : ErrCode) : Keeps P E (errImage ec) := by
  cases ec
  · exact keeps_pure _
  · exact keeps_pure _
  · exact Keeps.bind C.keeps_drawWord fun _ => keeps_pure _
  · exact Keeps.bind C.keeps_drawWord fun _ => keeps_pure _

theorem noted (ev : Event) (f : HandlerFrame) (hn : ev = .nmi → ∀ s, P s → P { s with nmiFrame := some f }) (s : State) (h : P s) : P (s.noted ev f) := by
  unfold State.noted
  by_cases he : ev = .nmi
  · simp only [if_pos he]
    exact C.abortFrames _ _ (hn he s h)
  · simp only [if_neg he]
    exact C.abortFrames s _ h

theorem keeps_noteFrame (ev : Event) (f : HandlerFrame) (hn : ev = .nmi → ∀ s, P s → P { s with nmiFrame := some f }) :
    Keeps P E (noteFrame ev f) := keeps_change fun s h => C.noted ev f hn s h

theorem keeps_pushFrame (sz : OpSize) (sw : Bool) (old : State) (pc : Word16 × Word32) : Keeps P E (pushFrame sz sw old pc) :=
  Keeps.bind (C.keeps_selImage _ _) fun _ => Keeps.bind (C.keeps_selImage _ _) fun _ => C.keeps_pushAll _ _

theorem keeps_enterLevel (sel : Word16) (d : SegDesc) (level : BitVec 2) : Keeps P E (enterLevel sel d level) :=
  Keeps.bind (keeps_look _) fun _ => keeps_ite (C.keeps_loadCs _ _ _)
    (Keeps.bind (C.keeps_innerStack _) fun _ => Keeps.bind (C.keeps_loadCs _ _ _) fun _ => C.keeps_switchStack _ _)

theorem keeps_enterHandler (ev : Event) (hn : Notes P ev) (sz : OpSize) (trap : Bool) (sel : Word16) (d : SegDesc) (level : BitVec 2)
    (off : Word32) (pc : Word16 × Word32) : Keeps P E (enterHandler ev sz trap sel d level off pc) :=
  Keeps.bind (keeps_look _) fun _ => Keeps.bind (C.keeps_enterLevel _ _ _) fun _ =>
    Keeps.bind (C.keeps_pushFrame _ _ _ _) fun _ => Keeps.bind C.keeps_getSp fun _ => Keeps.bind (C.keeps_segView _) fun _ =>
      Keeps.bind (C.keeps_noteFrame _ _ fun he => hn he _) fun _ => Keeps.bind (C.keeps_errImage _) fun _ =>
        Keeps.bind (C.keeps_pushAll _ _) fun _ => Keeps.bind (keeps_change fun s h => C.eflags s _ h) fun _ => keeps_change fun s h => C.jump s _ h

theorem keeps_gateHandler (ev : Event) (hn : Notes P ev) (sz : OpSize) (trap : Bool) (sel : Word16) (off : Word32) (pc : Word16 × Word32) :
    Keeps P E (gateHandler ev sz trap sel off pc) := by
  unfold gateHandler
  refine Keeps.bind (C.keeps_require' _ _ rfl) fun _ => Keeps.bind (C.keeps_readDesc _ rfl _) fun d => Keeps.bind (keeps_look _) fun cpl =>
    Keeps.bind (keeps_look _) fun vm => ?_
  split
  · split
    · exact Keeps.bind (C.keeps_require' _ _ rfl) fun _ => Keeps.bind (C.keeps_codeReady _ _ _ _) fun _ =>
        Keeps.bind (C.keeps_require' _ _ rfl) fun _ => Keeps.bind (C.keeps_covered' _ _) fun _ =>
          Keeps.bind (C.keeps_enterHandler _ hn _ _ _ _ _ _ _) fun _ => C.keeps_covered' _ _
    · exact C.keeps_raise' _ rfl
  · exact C.keeps_raise' _ rfl

theorem keeps_taskHandler (ev : Event) (hn : Notes P ev) (sel : Word16) (pc : Word16 × Word32) : Keeps P E (taskHandler ev sel pc) :=
  Keeps.bind (C.keeps_noteFrame _ _ fun he => hn he _) fun _ => Keeps.bind (C.keeps_taskSwitch _ _ _) fun _ =>
    Keeps.bind (C.keeps_errImage _) fun _ => C.keeps_pushAll _ _

theorem keeps_invoke (ev : Event) (hn : Notes P ev) : Keeps P E (invoke ev) := by
  unfold invoke
  refine Keeps.bind (keeps_onlyIf (keeps_change fun s h => C.regsOpened s h)) fun _ => Keeps.bind (C.keeps_savedPc _) fun pc =>
    Keeps.bind (C.keeps_readGate _) fun g => ?_
  split
  · exact C.keeps_taskHandler _ hn _ _
  · exact C.keeps_gateHandler _ hn _ _ _ _ _
  · exact C.keeps_raise' _ rfl

/-! ### Returning -/

theorem nullOuter (s : State) (h : P s) : P s.nullOuter := C.segs s _ h rfl

theorem keeps_returnCode (sel : Word16) : Keeps P E (returnCode sel) := by
  unfold returnCode
  refine Keeps.bind (C.keeps_require' _ _ rfl) fun _ => Keeps.bind (keeps_look _) fun _ => Keeps.bind (C.keeps_require' _ _ rfl) fun _ =>
    Keeps.bind (C.keeps_readDesc _ rfl _) fun d => ?_
  split
  · exact keeps_pure _
  · exact C.keeps_raise' _ rfl
  · exact C.keeps_raise' _ rfl

theorem keeps_returnLevel (same : Bool) (sz : OpSize) (top release : Word32) (sel : Word16) (d : SegDesc) :
    Keeps P E (returnLevel same sz top release sel d) := by
  cases same
  · exact Keeps.bind (C.keeps_stackRead _ _) fun _ => Keeps.bind (C.keeps_stackRead _ _) fun _ => Keeps.bind (keeps_change fun s h => C.setCs s _ h)
      fun _ => Keeps.bind (C.keeps_loadSegReg _ (by decide) _) fun _ => Keeps.bind (C.keeps_setSp _) fun _ => keeps_change fun s h => C.nullOuter s h
  · exact Keeps.bind (C.keeps_setSp _) fun _ => keeps_change fun s h => C.setCs s _ h

theorem keeps_popFlags (iret : Bool) (off : Word32) (sz : OpSize) : Keeps P E (popFlags iret off sz) := by
  cases iret
  · exact keeps_pure _
  · exact C.keeps_stackRead _ _

theorem keeps_returnFar (sz : OpSize) (release : Word32) (iret : Bool) : Keeps P E (returnFar sz release iret) :=
  Keeps.bind C.keeps_getSp fun _ => Keeps.bind (C.keeps_stackRead _ _) fun _ => Keeps.bind (C.keeps_stackRead _ _) fun _ =>
    Keeps.bind (C.keeps_popFlags _ _ _) fun _ => Keeps.bind (keeps_look _) fun _ => Keeps.bind (keeps_look _) fun _ =>
      Keeps.bind (C.keeps_covered' _ _) fun _ => Keeps.bind (C.keeps_returnCode _) fun _ => Keeps.bind (C.keeps_require' _ _ rfl) fun _ =>
        Keeps.bind (C.keeps_returnLevel _ _ _ _ _ _) fun _ => Keeps.bind (keeps_onlyIf (keeps_change fun s h => C.eflags s _ h)) fun _ =>
          keeps_change fun s h => C.jump s _ h

theorem keeps_returnTask : Keeps P E returnTask :=
  Keeps.bind (keeps_look _) fun _ => Keeps.bind (C.keeps_require' _ _ rfl) fun _ => Keeps.bind (C.keeps_readLin _ _ _) fun _ =>
    Keeps.bind (keeps_look _) fun _ => C.keeps_taskSwitch _ _ _

theorem keeps_returnKind (nested : Bool) (sz : OpSize) : Keeps P E (returnKind nested sz) := by
  cases nested
  · exact C.keeps_returnFar _ _ _
  · exact C.keeps_returnTask

theorem keeps_returnFrame (nested : Bool) : Keeps P E (returnFrame nested) := by
  cases nested
  · exact Keeps.bind C.keeps_getSp fun _ => Keeps.bind (C.keeps_segView _) fun _ => keeps_pure _
  · exact keeps_look _

theorem keeps_returnHandler (sz : OpSize) (hn : ∀ s f, P s → P (s.endNmi f)) : Keeps P E (returnHandler sz) :=
  Keeps.bind (keeps_look _) fun _ => Keeps.bind (C.keeps_returnFrame _) fun _ => Keeps.bind (keeps_look _) fun _ =>
    Keeps.bind (C.keeps_covered' _ _) fun _ => Keeps.bind (keeps_change fun s h => hn s _ h) fun _ => C.keeps_returnKind _ _

end Closed

end Sys2Proof.Machine
end

