-- ==== Sys2Proof/Laws/KeepsStep.lean ====
section
/-! SUPPORT. Every meaning, every report of an event and every step keep what their updates keep. -/

namespace Sys2Proof.Machine

/-- `R` holds of the next state, if the outcome is one. -/
def Answers (R : State → Prop) (r : Result) : Prop := ∀ t, r = .next t → R t

/-- `P` is kept by every update that a shared operation or the report of an event makes. -/
structure Reports (P : State → Prop) (E : Stop → Prop) : Prop extends Closed P E where
  record : ∀ s e, E (.exc e) → P s → P (s.record e)
  book : ∀ s j w d k b x, P s → P { s with journal := j, switching := w, delivering := d, stepKind := k, taskTrap := b, shutdown := x }
  count : ∀ s n, P s → P { s with freeCtr := n }

/-- `P` is kept by every update of a step, too: the place of the next instruction, and what comes from outside. -/
structure Whole (P : State → Prop) (E : Stop → Prop) : Prop extends Reports P E where
  next : ∀ s n, P s → P { s with nextEip := n }
  outside : ∀ s p b i e d n h l y, P s →
    P { s with nmiPending := p, nmiFrame := b, intr := i, errorPin := e, debugIn := d, npx := n, heldTraps := h, inputs := l, ssShadow := y }

variable {P : State → Prop} {E : Stop → Prop}

theorem answers_next {R : State → Prop} {s : State} (h : R s) : Answers R (.next s) := by
  intro t ht
  cases ht
  exact h

theorem answers_refused {R : State → Prop} {r : Refusal} : Answers R (.refused r) := by
  intro t ht
  cases ht

theorem answers_fault {R : State → Prop} {r : Fault} : Answers R (.fault r) := by
  intro t ht
  cases ht

namespace Reports

variable (C : Reports P E)
include C

theorem start (s : State) (h : P s) : P s.begin := C.book s [] .idle none .plain false s.shutdown h
theorem settle (s : State) (h : P s) : P s.settle := C.book s [] .idle none s.stepKind s.taskTrap s.shutdown h
theorem shutDown (s : State) (h : P s) : P s.shutDown := C.book s s.journal s.switching (some .doubleFault) .faulted s.taskTrap true h

theorem redo (l : List (List Host.Cell)) : ∀ s, P s → P (s.redo l) := by
  induction l with
  | nil => exact fun _ h => h
  | cons c r ih =>
    intro s h
    unfold State.redo
    split
    · exact ih _ (C.storeCells _ _ (C.drawn s h))
    · exact ih _ (C.drawn s h)

theorem rollback (old t : State) (h : P old) : P (rollback old t) := C.settle _ (C.redo _ _ (C.count _ _ h))

theorem cutOff (old t : State) (h : P old) (ht : P t) : P (cutOff old t) := by
  unfold Machine.cutOff
  split
  · exact C.settle t ht
  · exact C.rollback old t h

theorem recordEvent (s : State) (ev : Event) (hev : ∀ e, ev = .exc e → E (.exc e)) (h : P s) : P (s.recordEvent ev) := by
  cases ev with
  | exc e => exact C.record s e (hev e rfl) h
  | soft n => exact h
  | nmi => exact h
  | external v => exact h

theorem withExt (b : Bool) (e : Exc) (he : E (.exc e)) : E (.exc (e.withExt b)) := by
  cases e <;> first | exact he | exact C.exc _ rfl

theorem secondExc (ev : Event) (s : State) (e : Exc) (he : E (.exc e)) : E (.exc (secondExc ev s e)) := by
  unfold Machine.secondExc
  split
  · exact he
  · exact C.withExt _ _ he

theorem report (n : Nat) : ∀ old src ev, P old → P src → Notes P ev → (∀ e, ev = .exc e → E (.exc e)) → Answers P (report n old src ev) := by
  induction n with
  | zero => exact fun old _ _ h _ _ _ => answers_next (C.shutDown old h)
  | succ n ih =>
    intro old src ev ho hs hn hev
    unfold Machine.report
    have hi := C.keeps_invoke ev hn { (src.recordEvent ev).begin with delivering := some ev.delivering }
      (C.book _ _ _ _ _ _ _ (C.start _ (C.recordEvent src ev hev hs)))
    split
    · rename_i t ht
      rw [ht] at hi
      exact answers_next (C.book t.settle _ _ _ _ _ _ (C.settle t hi))
    · exact answers_refused
    · rename_i e t ht
      rw [ht] at hi
      have hc := C.record _ e hi.2 (C.cutOff _ _ (C.recordEvent old ev hev ho) hi.1)
      dsimp only
      split
      · exact answers_next (C.shutDown _ hc)
      · split
        · exact ih _ _ _ hc hc (fun hx => by cases hx) (fun x hx => by cases hx; exact C.exc _ rfl)
        · exact ih _ _ _ (C.drawn _ hc) (C.drawn _ hc) (fun hx => by cases hx) (fun x hx => by cases hx; exact C.secondExc ev _ e hi.2)

theorem reportFault (s : State) (e : Exc) (h : P s) (he : E (.exc e)) : Answers P (reportFault s e) :=
  C.report _ _ _ _ h h (fun hx => by cases hx) (fun x hx => by cases hx; exact he)

theorem runInstr (body : M Unit) (hb : Keeps P E body) (s : State) (h : P s) : Answers P (runInstr body s) := by
  unfold Machine.runInstr
  split
  · exact answers_refused
  · have hi := hb s.begin (C.start s h)
    split
    · rename_i t ht
      rw [ht] at hi
      exact answers_next (C.settle t hi)
    · exact answers_refused
    · rename_i e t ht
      rw [ht] at hi
      exact C.reportFault _ e (C.cutOff _ _ (C.start s h) hi.1) hi.2

theorem runTrap (ev : Event) (hn : Notes P ev) (hev : ∀ e, ev = .exc e → E (.exc e)) (s : State) (h : P s) : Answers P (runTrap ev s) := by
  unfold Machine.runTrap
  split
  · exact answers_refused
  · exact C.report _ _ _ _ (C.start s h) (C.advance _ (C.start s h)) hn hev

end Reports

end Sys2Proof.Machine
end

