-- ==== Sys2Proof/Laws/KeepsExec.lean ====
section
/-! SUPPORT. Every meaning keeps what its updates keep, and so does every step. -/

namespace Sys2Proof.Machine

variable {P : State → Prop} {E : Stop → Prop}

namespace Closed

variable (C : Closed P E)
include C

theorem keeps_advance : Keeps P E (change State.advance) := keeps_change fun s h => C.advance s h

/-! ### Division -/

theorem setQuotRem (s : State) (w : DivWidth) (q r : Word32) (h : P s) : P (s.setQuotRem w q r) := by cases w <;> exact C.gpr s _ h

theorem keeps_finishDiv (w : DivWidth) (q r : Word32) : Keeps P E (finishDiv w q r) :=
  Keeps.bind (keeps_change fun s h => C.setQuotRem s w q r h) fun _ => Keeps.bind C.keeps_openFlags fun _ => C.keeps_advance

theorem keeps_divideBy (w : DivWidth) (d : Word32) : Keeps P E (divideBy w d) := by
  refine Keeps.bind (keeps_look _) fun n => ?_
  split
  · exact C.keeps_raise' _ rfl
  · exact C.keeps_finishDiv _ _ _

theorem keeps_idivideBy (w : DivWidth) (d : Word32) : Keeps P E (idivideBy w d) := by
  refine Keeps.bind (keeps_look _) fun n => ?_
  split
  · exact C.keeps_raise' _ rfl
  · exact C.keeps_finishDiv _ _ _
  · exact Keeps.bind C.keeps_drawBit fun _ => Keeps.bind (C.keeps_require' _ _ rfl) fun _ => C.keeps_finishDiv _ _ _

/-! ### The coprocessor -/

theorem keeps_laterPortion (last : Bool) {m : M Unit} (hm : Keeps P E m) : Keeps P E (laterPortion last m) := by
  intro s h
  have h' := hm s h
  unfold laterPortion
  cases hr : m s with
  | ok a t =>
    rw [hr] at h'
    exact h'
  | error e t =>
    rw [hr] at h'
    cases e with
    | refuse r => exact h'
    | exc e =>
      refine ⟨h'.1, ?_⟩
      cases last
      · exact C.exc _ rfl
      · exact h'.2

theorem keeps_movePortions (l : List (M Unit)) (hl : ∀ m ∈ l, Keeps P E m) : Keeps P E (movePortions l) := by
  induction l with
  | nil => exact keeps_pure _
  | cons m r ih => exact Keeps.bind (C.keeps_laterPortion _ (hl m (by simp))) fun _ => ih fun m hm => hl m (by simp [hm])

theorem keeps_moveOperand (l : List (M Unit)) (hl : ∀ m ∈ l, Keeps P E m) : Keeps P E (moveOperand l) := by
  cases l with
  | nil => exact keeps_pure _
  | cons m r => exact Keeps.bind (hl m (by simp)) fun _ => C.keeps_movePortions r fun m hm => hl m (by simp [hm])

theorem keeps_takePortion (seg : SegReg) (off : Word32) (n : Nat) : Keeps P E (takePortion seg off n) :=
  Keeps.bind (C.keeps_memRead _ _ _) fun _ => keeps_pure _

theorem keeps_transferOperand (m : MemOp) : Keeps P E (transferOperand m) := by
  refine Keeps.bind (keeps_look _) fun off => Keeps.bind (keeps_look _) fun npx => ?_
  split
  · exact keeps_pure _
  · refine C.keeps_moveOperand _ fun x hx => ?_
    obtain ⟨q, _, rfl⟩ := List.mem_map.mp hx
    exact C.keeps_takePortion _ _ _
  · refine C.keeps_moveOperand _ fun x hx => ?_
    obtain ⟨q, _, rfl⟩ := List.mem_map.mp hx
    exact C.keeps_memWrite _ _ _ _

theorem takeNpxAx (s : State) (h : P s) : P s.takeNpxAx := by
  unfold State.takeNpxAx
  split
  · exact C.setReg s _ _ _ h
  · exact h

theorem keeps_escTransfer (rm : RM) : Keeps P E (escTransfer rm) := by
  cases rm
  · exact keeps_pure _
  · exact C.keeps_transferOperand _

theorem keeps_escAvailable : Keeps P E escAvailable :=
  Keeps.bind (keeps_look _) fun _ => Keeps.bind (C.keeps_require' _ _ rfl) fun _ => Keeps.bind (C.keeps_require' _ _ rfl) fun _ =>
    keeps_onlyIf (Keeps.bind C.keeps_drawBit fun _ => C.keeps_require' _ _ rfl)

/-! ### Transfers, segment loads, the stack -/

theorem keeps_callNear (sz : OpSize) (t : Word32) : Keeps P E (callNear sz t) :=
  Keeps.bind (C.keeps_segView _) fun _ => Keeps.bind (C.keeps_require' _ _ rfl) fun _ => Keeps.bind (keeps_look _) fun _ =>
    Keeps.bind (C.keeps_push _ _) fun _ => keeps_change fun s h => C.jump s _ h

theorem keeps_loadFar (seg : SegReg) (hs : seg ≠ .cs) (sz : OpSize) (r : Reg) (rm : RM) : Keeps P E (loadFar seg sz r rm) :=
  Keeps.bind (C.keeps_memOnly _) fun _ => Keeps.bind (C.keeps_readFar _ _) fun _ => Keeps.bind (C.keeps_loadSegReg _ hs _) fun _ =>
    keeps_change fun s h => C.advance _ (C.setReg s _ _ _ h)

theorem keeps_ldtLoad (sel : Word16) : Keeps P E (ldtLoad sel) := by
  unfold ldtLoad
  split
  · exact keeps_pure _
  · refine Keeps.bind (C.keeps_require' _ _ rfl) fun _ => Keeps.bind (C.keeps_readDesc _ rfl _) fun d => ?_
    split
    · exact Keeps.bind (C.keeps_require' _ _ rfl) fun _ => keeps_pure _
    · exact C.keeps_raise' _ rfl

theorem keeps_popSeg (seg : SegReg) (hs : seg ≠ .cs) (sz : OpSize) : Keeps P E (popSeg seg sz) :=
  Keeps.bind C.keeps_getSp fun _ => Keeps.bind (C.keeps_stackRead _ _) fun _ => Keeps.bind C.keeps_stackBig fun _ =>
    Keeps.bind (C.keeps_loadSegReg _ hs _) fun _ => Keeps.bind (keeps_change fun s h => C.setReg s _ _ _ h) fun _ => C.keeps_advance

theorem keeps_pushSeg (seg : SegReg) (sz : OpSize) : Keeps P E (pushSeg seg sz) :=
  Keeps.bind (keeps_look _) fun _ => Keeps.bind (C.keeps_selImage _ _) fun _ => Keeps.bind (C.keeps_push _ _) fun _ => C.keeps_advance

theorem keeps_copyFrames (sz : OpSize) (k : Nat) : ∀ bp, Keeps P E (copyFrames sz k bp) := by
  induction k with
  | zero => exact fun _ => keeps_pure _
  | succ k ih => exact fun bp => Keeps.bind (C.keeps_stackRead _ _) fun _ => Keeps.bind (C.keeps_push _ _) fun _ => ih _

theorem keeps_nestFrames (sz : OpSize) (k : Nat) (bp f : Word32) : Keeps P E (nestFrames sz k bp f) := by
  cases k with
  | zero => exact keeps_pure _
  | succ k => exact Keeps.bind (C.keeps_copyFrames _ _ _) fun _ => C.keeps_push _ _

end Closed

/-- `P` is kept by the one update that only this instruction makes: the load of a control register that R117 allows, the end of IRET (R195). -/
structure Allows (P : State → Prop) (i : Instr) : Prop where
  movCr : ∀ c r, i = .movCrR c r → ∀ s v, (c = .cr0 → pagingUnprotected v = false) → P s → P (s.setCtl c v)
  iret : ∀ sz, i = .iret sz → ∀ s f, P s → P (s.endNmi f)

/-- What the body of a meaning keeps: all that its updates keep. -/
def BodyOf (i : Instr) (body : M Unit) : Prop := ∀ (P : State → Prop) (E : Stop → Prop), Closed P E → Allows P i → Keeps P E body

/-- A meaning runs a body, or it is a trap. -/
def Shape (i : Instr) (r : Result) (s : State) : Prop :=
  (∃ body, r = runInstr body s ∧ BodyOf i body) ∨ (∃ ev : Event, r = runTrap ev s ∧ ev.software = true ∧ ∀ e, ev = .exc e → e.isPage = false)

theorem instrShape {i : Instr} {body : M Unit} {s : State} (h : BodyOf i body) : Shape i (runInstr body s) s := .inl ⟨body, rfl, h⟩

theorem trapShape {i : Instr} {ev : Event} {s : State} (h : ev.software = true) (he : ∀ e, ev = .exc e → e.isPage = false) :
    Shape i (runTrap ev s) s := .inr ⟨ev, rfl, h, he⟩

/-- What every meaning is: a body that keeps what its updates keep, or a trap. -/
theorem exec_shape (i : Instr) (s : State) : Shape i (exec i s) s := by
  cases i with
  | divRm8 rm => exact instrShape fun P E D A => (Keeps.bind (D.keeps_readRM8 _) fun _ => D.keeps_divideBy _ _)
  | divRmv sz rm => exact instrShape fun P E D A => (Keeps.bind (D.keeps_readRM _ _) fun _ => D.keeps_divideBy _ _)
  | idivRm8 rm => exact instrShape fun P E D A => (Keeps.bind (D.keeps_readRM8 _) fun _ => D.keeps_idivideBy _ _)
  | idivRmv sz rm => exact instrShape fun P E D A => (Keeps.bind (D.keeps_readRM _ _) fun _ => D.keeps_idivideBy _ _)
  | int3 => exact trapShape rfl (fun e he => by cases he; rfl)
  | intImm n => exact trapShape rfl (fun e he => by cases he)
  | into =>
    show Shape .into (execInto s) s
    unfold execInto
    split
    · exact trapShape rfl (fun e he => by cases he; rfl)
    · exact instrShape fun P E D A => D.keeps_advance
  | bound sz r rm =>
    exact instrShape fun P E D A => (Keeps.bind (D.keeps_memOnly _) fun _ => Keeps.bind (keeps_look _) fun _ => Keeps.bind (D.keeps_opRead _ _ _) fun _ =>
      Keeps.bind (D.keeps_opRead _ _ _) fun _ => Keeps.bind (D.keeps_require' _ _ rfl) fun _ => D.keeps_advance)
  | esc op reg rm =>
    exact instrShape fun P E D A => (Keeps.bind D.keeps_escAvailable fun _ => Keeps.bind (Keeps.bind (keeps_look _) fun _ => D.keeps_require' _ _ rfl) fun _ =>
      Keeps.bind (keeps_look _) fun _ => Keeps.bind (D.keeps_covered' _ _) fun _ => Keeps.bind (D.keeps_escTransfer _) fun _ =>
        Keeps.bind (keeps_change fun s h => D.takeNpxAx s h) fun _ => D.keeps_advance)
  | wait =>
    exact instrShape fun P E D A => (Keeps.bind (keeps_look _) fun _ => Keeps.bind (D.keeps_require' _ _ rfl) fun _ => Keeps.bind (D.keeps_require' _ _ rfl)
      fun _ => D.keeps_advance)
  | jmpRel8 sz d => exact instrShape fun P E D A => (D.keeps_jumpNear _)
  | jmpRelv d => exact instrShape fun P E D A => (D.keeps_jumpNear _)
  | jmpRmv sz rm => exact instrShape fun P E D A => (Keeps.bind (D.keeps_readRM _ _) fun _ => D.keeps_jumpNear _)
  | jmpPtr off sel => exact instrShape fun P E D A => (D.keeps_farTransfer _ _ _ _)
  | jmpMem sz rm =>
    exact instrShape fun P E D A => (Keeps.bind (D.keeps_memOnly _) fun _ => Keeps.bind (D.keeps_readFar _ _) fun _ => D.keeps_farTransfer _ _ _ _)
  | callRelv d => exact instrShape fun P E D A => (D.keeps_callNear _ _)
  | callRmv sz rm => exact instrShape fun P E D A => (Keeps.bind (D.keeps_readRM _ _) fun _ => D.keeps_callNear _ _)
  | callPtr off sel => exact instrShape fun P E D A => (D.keeps_farTransfer _ _ _ _)
  | callMem sz rm =>
    exact instrShape fun P E D A => (Keeps.bind (D.keeps_memOnly _) fun _ => Keeps.bind (D.keeps_readFar _ _) fun _ => D.keeps_farTransfer _ _ _ _)
  | retf sz => exact instrShape fun P E D A => (D.keeps_returnFar _ _ _)
  | retfImm sz n => exact instrShape fun P E D A => (D.keeps_returnFar _ _ _)
  | iret sz => exact instrShape fun P E D A => D.keeps_returnHandler _ (A.iret _ rfl)
  | lds sz r rm => exact instrShape fun P E D A => (D.keeps_loadFar _ (by decide) _ _ _)
  | les sz r rm => exact instrShape fun P E D A => (D.keeps_loadFar _ (by decide) _ _ _)
  | lss sz r rm => exact instrShape fun P E D A => (D.keeps_loadFar _ (by decide) _ _ _)
  | lfs sz r rm => exact instrShape fun P E D A => (D.keeps_loadFar _ (by decide) _ _ _)
  | lgs sz r rm => exact instrShape fun P E D A => (D.keeps_loadFar _ (by decide) _ _ _)
  | lldt rm =>
    exact instrShape fun P E D A => (Keeps.bind (keeps_look _) fun _ => Keeps.bind (D.keeps_require' _ _ rfl) fun _ => Keeps.bind (D.keeps_readRM _ _) fun _ =>
      Keeps.bind (D.keeps_ldtLoad _) fun _ => keeps_change fun s h => D.advance _ (D.ldtr s _ h))
  | movSregRm sreg rm =>
    refine instrShape fun P E D A => ?_
    split
    · exact D.keeps_raise' _ rfl
    · exact D.keeps_raise' _ rfl
    · rename_i seg hn _
      exact Keeps.bind (D.keeps_readRM _ _) fun _ => Keeps.bind (D.keeps_loadSegReg _ (by rintro rfl; exact hn rfl) _) fun _ =>
        keeps_change fun s h => D.advance _ (D.ssShadow s _ h)
  | movRmSreg rm sreg =>
    refine instrShape fun P E D A => ?_
    split
    · exact D.keeps_raise' _ rfl
    · exact Keeps.bind (keeps_look _) fun _ => Keeps.bind (D.keeps_writeRM _ _ _) fun _ => D.keeps_advance
  | popEs sz => exact instrShape fun P E D A => (D.keeps_popSeg _ (by decide) _)
  | popSs sz => exact instrShape fun P E D A => (Keeps.bind (D.keeps_popSeg _ (by decide) _) fun _ => keeps_change fun s h => D.ssShadow s _ h)
  | popDs sz => exact instrShape fun P E D A => (D.keeps_popSeg _ (by decide) _)
  | popFs sz => exact instrShape fun P E D A => (D.keeps_popSeg _ (by decide) _)
  | popGs sz => exact instrShape fun P E D A => (D.keeps_popSeg _ (by decide) _)
  | pushEs sz => exact instrShape fun P E D A => (D.keeps_pushSeg _ _)
  | pushCs sz => exact instrShape fun P E D A => (D.keeps_pushSeg _ _)
  | pushSs sz => exact instrShape fun P E D A => (D.keeps_pushSeg _ _)
  | pushDs sz => exact instrShape fun P E D A => (D.keeps_pushSeg _ _)
  | pushFs sz => exact instrShape fun P E D A => (D.keeps_pushSeg _ _)
  | pushGs sz => exact instrShape fun P E D A => (D.keeps_pushSeg _ _)
  | movCrR c r =>
    refine instrShape fun P E D A => (Holds.bind (Q := fun _ => P) (keeps_look _) fun x => Holds.bind (Q := fun _ => P) (D.keeps_require' _ _ rfl) fun _ =>
      Holds.bind (Q := fun _ t => P t ∧ (c = .cr0 → pagingUnprotected (x.gpr.get r) = false)) (fun t ht => ?_) fun _ =>
        Holds.bind (Q := fun _ => P) (fun t ht => A.movCr c r rfl t _ ht.2 ht.1) fun _ => Keeps.bind D.keeps_openFlags fun _ => D.keeps_advance)
    rw [require_run]
    split
    · rename_i e t hg
      split at hg <;> rename_i hb <;> cases hg
      refine ⟨ht, fun hc => ?_⟩
      subst hc
      simpa using hb
    · rename_i e t hg
      split at hg <;> cases hg
      exact ⟨ht, D.exc _ rfl⟩
  | movRCr r c =>
    exact instrShape fun P E D A => (Keeps.bind (keeps_look _) fun x => Keeps.bind (D.keeps_require' _ _ rfl) fun _ =>
      keeps_change fun s h => D.advance _ (D.gpr s _ h))
  | pushReg sz r => exact instrShape fun P E D A => (Keeps.bind (keeps_look _) fun _ => Keeps.bind (D.keeps_push _ _) fun _ => D.keeps_advance)
  | pushRm sz rm => exact instrShape fun P E D A => (Keeps.bind (D.keeps_readRM _ _) fun _ => Keeps.bind (D.keeps_push _ _) fun _ => D.keeps_advance)
  | pushImm8 sz n => exact instrShape fun P E D A => (Keeps.bind (D.keeps_push _ _) fun _ => D.keeps_advance)
  | pushImmv n => exact instrShape fun P E D A => (Keeps.bind (D.keeps_push _ _) fun _ => D.keeps_advance)
  | popReg sz r => exact instrShape fun P E D A => (Keeps.bind (D.keeps_pop _) fun _ => keeps_change fun s h => D.advance _ (D.setReg s _ _ _ h))
  | popRm sz rm => exact instrShape fun P E D A => (Keeps.bind (D.keeps_pop _) fun _ => Keeps.bind (D.keeps_writeRM _ _ _) fun _ => D.keeps_advance)
  | enter sz n l =>
    exact instrShape fun P E D A => (Keeps.bind D.keeps_stackBig fun _ => Keeps.bind (keeps_look _) fun _ => Keeps.bind (keeps_look _) fun _ =>
      Keeps.bind (D.keeps_push _ _) fun _ => Keeps.bind D.keeps_getSp fun _ => Keeps.bind (D.keeps_nestFrames _ _ _ _) fun _ =>
        Keeps.bind D.keeps_getSp fun _ => Keeps.bind (D.keeps_segView _) fun _ => Keeps.bind (D.keeps_require' _ _ rfl) fun _ =>
          keeps_change fun s h => D.advance _ (D.setReg _ _ _ _ (D.setReg s _ _ _ h)))
  | leave sz =>
    exact instrShape fun P E D A => (Keeps.bind D.keeps_stackBig fun _ => Keeps.bind (keeps_look _) fun _ => Keeps.bind (D.keeps_stackRead _ _) fun _ =>
      keeps_change fun s h => D.advance _ (D.setReg _ _ _ _ (D.setReg s _ _ _ h)))
  | movRRm sz r rm => exact instrShape fun P E D A => (Keeps.bind (D.keeps_readRM _ _) fun _ => keeps_change fun s h => D.advance _ (D.setReg s _ _ _ h))

/-- Every meaning keeps `P`. -/
theorem Reports.exec (C : Reports P E) (i : Instr) (A : Allows P i) (s : State) (h : P s) : Answers P (exec i s) := by
  rcases exec_shape i s with ⟨body, hb, hk⟩ | ⟨ev, hb, hs, hev⟩
  · rw [hb]
    exact C.runInstr body (hk P E C.toClosed A) s h
  · rw [hb]
    exact C.runTrap ev (fun hx => by subst hx; cases hs) (fun e he => C.exc e (hev e he)) s h

end Sys2Proof.Machine
end

