-- ==== Sys2Proof/Laws/KeepsFetch.lean ====
section
/-! SUPPORT. The parts of a step, and a whole step, keep what their updates keep. -/

namespace Sys2Proof.Machine

variable {P : State → Prop} {E : Stop → Prop}

/-- The ways the fetch of a byte ends early. -/
theorem fetchByte_error (C : Reads P E) (s : State) (h : P s) (d : SegDesc) (k : Nat) (e : Stop) (he : fetchByte s d k = .error e) : E e := by
  unfold fetchByte at he
  split at he
  · cases he
    exact C.exc _ rfl
  · split at he
    · cases he
      exact C.refuse _
    · split at he
      · rename_i ht
        cases he
        exact C.page s _ _ _ _ h ht
      · split at he <;> cases he
        exact C.refuse _

theorem fetchBytes_error (C : Reads P E) (s : State) (h : P s) (d : SegDesc) (n : Nat) :
    ∀ k e, (fetchBytes s d n k).2 = some e → E e := by
  induction n with
  | zero => intro k e he; cases he
  | succ n ih =>
    intro k e he
    unfold fetchBytes at he
    split at he
    · rename_i hb
      cases he
      exact fetchByte_error C s h d k _ hb
    · exact ih _ _ he

namespace Reads

variable (C : Reads P E) (next : ∀ s n, P s → P { s with nextEip := n })
include C next

theorem setNext (s : State) (top n : Nat) (h : P s) : P (s.setNext top n) := by
  unfold State.setNext
  split
  · exact next s _ h
  · exact next _ _ (C.drawn s h)

theorem keeps_fetchDecode : Keeps P E fetchDecode := by
  unfold fetchDecode
  refine Keeps.bind (C.keeps_segView _) fun d => ?_
  refine Holds.bind (Q := fun x t => x = t ∧ P t) (fun s h => ⟨rfl, h⟩) fun x => ?_
  intro s h
  obtain ⟨rfl, h⟩ := h
  dsimp only
  cases decode d.big (fetchBytes x d Config.maxInstrLen 0).1 with
  | ok r =>
    obtain ⟨i, rest⟩ := r
    exact C.setNext next x _ _ h
  | error e =>
    cases e with
    | more =>
      cases he : (fetchBytes x d Config.maxInstrLen 0).2 with
      | some e => exact ⟨h, fetchBytes_error C x h d _ _ e he⟩
      | none => exact ⟨h, C.exc _ rfl⟩
    | unlisted => exact ⟨h, C.refuse _⟩

end Reads

namespace Whole

variable (C : Whole P E)
include C

theorem latch (s : State) (h : P s) : P s.latch := by
  unfold State.latch
  split
  · exact C.book _ s.journal s.switching s.delivering .plain s.taskTrap s.shutdown
      (C.outside s s.nmiPending s.nmiFrame s.intr s.errorPin {} s.npx s.heldTraps s.inputs s.ssShadow h)
  · rename_i i r _
    exact C.book _ s.journal s.switching s.delivering .plain s.taskTrap s.shutdown
      (C.outside s (s.nmiPending || i.nmi) s.nmiFrame i.intr i.errorPin i.debug i.npx s.heldTraps r s.ssShadow h)

variable (A : ∀ i, Allows P i)
include A

theorem stepInstr (s : State) (h : P s) : Answers P (stepInstr s) := by
  unfold Machine.stepInstr
  have hf := C.keeps_fetchDecode C.next s h
  split
  · rename_i ht
    rw [ht] at hf
    exact C.exec _ (A _) _ hf
  · exact answers_refused
  · rename_i ht
    rw [ht] at hf
    exact C.reportFault _ _ (C.cutOff _ _ h hf.1) hf.2

theorem stepEvent (s : State) (h : P s) : Answers P (stepEvent s) := by
  unfold Machine.stepEvent
  dsimp only
  have hq : P { s with ssShadow := false } := C.ssShadow s _ h
  split
  · exact C.reportFault _ _ hq (C.exc _ rfl)
  · split
    · exact C.report _ _ _ _ (C.outside s false _ _ _ _ _ _ _ _ h) (C.outside s false _ _ _ _ _ _ _ _ h)
        (fun _ f s h => C.outside s _ (some f) _ _ _ _ _ _ _ h) (fun e he => by cases he)
    · split
      · exact C.report _ _ _ _ (C.outside s _ _ none _ _ _ _ _ _ h) (C.outside s _ _ none _ _ _ _ _ _ h) (fun hx => by cases hx)
          (fun e he => by cases he)
      · split
        · exact answers_refused
        · exact C.stepInstr A _ hq

omit A in
theorem reportTraps (old src : State) (c : DebugConds) (ho : P old) (hs : P src) : Answers P (reportTraps old src c) := by
  unfold Machine.reportTraps
  split
  · exact C.report _ _ _ _ ho hs (fun hx => by cases hx) (fun e he => by cases he; exact C.exc _ rfl)
  · exact answers_refused

omit A in
theorem afterEvent (s t : State) (h : P s) (ht : P t) : Answers P (afterEvent s t) := by
  unfold Machine.afterEvent
  split
  · exact answers_next ht
  split
  · split
    · exact C.reportTraps _ _ _ ht ht
    · exact answers_next ht
  · dsimp only
    split
    · exact answers_next ht
    · split
      · exact answers_next (C.outside { t with taskTrap := false } _ _ _ _ _ _ _ _ _
          (C.book t t.journal t.switching t.delivering t.stepKind false t.shutdown ht))
      · refine C.reportTraps _ _ _ ?_ (C.outside t _ _ _ _ _ _ _ _ _ ht)
        split
        · exact C.outside t _ _ _ _ _ _ _ _ _ ht
        · exact C.outside s _ _ _ _ _ _ _ _ _ h

theorem stepBody (s : State) (h : P s) : Answers P (stepBody s) := by
  unfold Machine.stepBody
  split
  · exact C.reportTraps _ _ _ h h
  · intro t ht
    cases he : Machine.stepEvent s.begin with
    | fault r => rw [he] at ht; cases ht
    | refused r => rw [he] at ht; cases ht
    | next u =>
      rw [he] at ht
      have hb := C.start s h
      exact C.afterEvent _ _ hb (C.stepEvent A _ hb u he) t ht

/-- A step keeps `P`. -/
theorem step (s : State) (h : P s) : Answers P (step s) := by
  unfold Machine.step
  split
  · exact answers_fault
  · split
    · exact answers_refused
    · intro t ht
      cases hr : Machine.stepBody s with
      | fault r => rw [hr] at ht; cases ht
      | refused r => rw [hr] at ht; cases ht
      | next v =>
        rw [hr] at ht
        cases ht
        exact C.latch v (C.stepBody A s h v hr)

end Whole

end Sys2Proof.Machine
end

