-- ==== Sys2Proof/Laws/Runs.lean ====
section
/-! SUPPORT. What each shared operation answers where it goes through, in the words of Safety.lean. -/

namespace Sys2Proof.Machine

/-! ## Meanings -/

theorem ready_modeRefusal {s : State} (h : s.ready) : s.modeRefusal = none := by
  unfold State.modeRefusal
  rw [h.1, h.2]
  rfl

/-- A body that completes is the instruction's next state. -/
theorem runInstr_ok {body : M Unit} {s t : State} (h : s.ready) (hb : body s.begin = .ok () t) : runInstr body s = .next t.settle := by
  unfold runInstr
  rw [ready_modeRefusal h, hb]

theorem cutOff_self (s : State) : cutOff s.begin s.begin = s.begin := rfl

/-- A body that raises an exception before it has changed anything is a fault at the instruction (R131). -/
theorem runInstr_raise {body : M Unit} {s : State} {e : Exc} (h : s.ready) (hb : body s.begin = .error (.exc e) s.begin) :
    runInstr body s = reportFault s.begin e := by
  unfold runInstr
  rw [ready_modeRefusal h, hb]
  rfl

/-! ## Accesses -/

theorem segView_ok {s : State} {seg : SegReg} (h : (s.segs.get seg).checked = true) : segView seg s = .ok (s.segs.get seg).desc s := by
  unfold segView
  rw [if_pos h]

theorem segLin_ok {s : State} {seg : SegReg} {off : Word32} {n : Nat} {k : Access} (h : s.segAllows seg off n k = true) :
    segLin seg off n k s = .ok (s.lin seg off) s := by
  simp only [State.segAllows, Bool.and_eq_true] at h
  unfold segLin
  rw [bind_ok (look_run _ _), h.1.1.2, bind_ok (require_true _ _), bind_ok (segView_ok h.1.1.1)]
  simp only [h.1.2, h.2]
  rfl

/-- Which bytes a write reaches does not depend on TR. -/
theorem translateEach_tr (u : Bool) (r : TaskReg) (n : Nat) : ∀ (s : State) (lin : Word32),
    translateEach u n { s with tr := r } lin = translateEach u n s lin := by
  induction n with
  | zero => exact fun _ _ => rfl
  | succ n ih =>
    intro s lin
    unfold translateEach
    rw [show translate { s with tr := r } true u lin = translate s true u lin from rfl]
    cases translate s true u lin with
    | error e => rfl
    | ok pa => exact congrArg (fun x : List Nat × Option Stop => (pa :: x.1, x.2)) (ih (s.touch pa) _)

theorem translateWrite_tr (s : State) (u : Bool) (r : TaskReg) (n : Nat) (lin : Word32) :
    translateWrite { s with tr := r } u n lin = translateWrite s u n lin := by
  unfold translateWrite
  rw [translateEach_tr]
  have h : ∀ n lin, translateAll { s with tr := r } true u n lin = translateAll s true u n lin := by
    intro n
    induction n with
    | zero => exact fun _ => rfl
    | succ n ih =>
      intro lin
      unfold translateAll
      rw [ih, show translate { s with tr := r } true u lin = translate s true u lin from rfl]
  rw [h]

/-- As many bytes are reached as an access has, if none fails. -/
theorem translateAll_length {s : State} {w u : Bool} {n : Nat} : ∀ {lin : Word32}, (translateAll s w u n lin).2 = none →
    (translateAll s w u n lin).1.length = n := by
  induction n with
  | zero => exact fun _ => rfl
  | succ n ih =>
    intro lin h
    unfold translateAll at h ⊢
    cases ht : translate s w u lin with
    | error e =>
      rw [ht] at h
      cases h
    | ok pa =>
      rw [ht] at h
      exact congrArg (· + 1) (ih h)

theorem translateEach_length {u : Bool} {n : Nat} : ∀ {s : State} {lin : Word32}, (translateEach u n s lin).2 = none →
    (translateEach u n s lin).1.length = n := by
  induction n with
  | zero => exact fun _ => rfl
  | succ n ih =>
    intro s lin h
    unfold translateEach at h ⊢
    cases ht : translate s true u lin with
    | error e =>
      rw [ht] at h
      cases h
    | ok pa =>
      rw [ht] at h
      exact congrArg (· + 1) (ih h)

theorem translateWrite_length {s : State} {u : Bool} {n : Nat} {lin : Word32} (h : (translateWrite s u n lin).2 = none) :
    (translateWrite s u n lin).1.length = n := by
  unfold translateWrite at h ⊢
  split at h
  · rw [if_pos ‹_›]
    exact translateAll_length h
  · rw [if_neg ‹_›]
    exact translateEach_length h

theorem readLin_ok {s : State} {u : Bool} {n : Nat} {lin : Word32} (h : s.mapped false u n lin = true) :
    readLin u n lin s = .ok (s.valueAt u n lin) s := by
  unfold readLin
  rw [show (translateAll s false u n lin).2 = none by simpa [State.mapped] using h]

theorem writeLin_ok {s : State} {u : Bool} {n : Nat} {lin v : Word32} (h : s.mapped true u n lin = true) :
    writeLin u n lin v s = .ok () (s.storeBytes (translateWrite s u n lin).1 v) := by
  unfold writeLin
  rw [show (translateWrite s u n lin).2 = none by simpa [State.mapped] using h]

theorem memRead_ok {s : State} {seg : SegReg} {off : Word32} {n : Nat} (h : s.readable seg off n = true) :
    memRead seg off n s = .ok (s.loaded seg off n) s := by
  simp only [State.readable, Bool.and_eq_true] at h
  unfold memRead
  rw [bind_ok (segLin_ok h.1), bind_ok (look_run _ _)]
  exact readLin_ok h.2

theorem memWrite_ok {s : State} {seg : SegReg} {off v : Word32} {n : Nat} (h : s.writable seg off n = true) :
    memWrite seg off n v s = .ok () (s.stored seg off n v) := by
  simp only [State.writable, Bool.and_eq_true] at h
  unfold memWrite
  rw [bind_ok (segLin_ok h.1), bind_ok (look_run _ _)]
  exact writeLin_ok h.2

/-! ## Operands -/

theorem readRM_ok {s : State} {sz : OpSize} {rm : RM} (h : s.rmReadable sz.bytes rm = true) : readRM sz rm s = .ok (s.rmValue sz rm) s := by
  cases rm with
  | reg r => rfl
  | mem m =>
    show opRead m 0 sz.bytes s = _
    unfold opRead
    rw [bind_ok (look_run _ _)]
    exact memRead_ok h

theorem readRM8_ok {s : State} {rm : RM} (h : s.rmReadable 1 rm = true) : readRM8 rm s = .ok (s.rmValue8 rm) s := by
  cases rm with
  | reg r => rfl
  | mem m =>
    show opRead m 0 1 s = _
    unfold opRead
    rw [bind_ok (look_run _ _)]
    exact memRead_ok h

theorem opRead_ok {s : State} {m : MemOp} {d : Word32} {n : Nat} (h : s.memReadable m d n = true) : opRead m d n s = .ok (s.memLoaded m d n) s := by
  unfold opRead
  rw [bind_ok (look_run _ _)]
  exact memRead_ok h

theorem writeRM_ok {s : State} {sz : OpSize} {v : Word32} {rm : RM} (h : s.rmWritable sz.bytes rm = true) :
    writeRM sz v rm s = .ok () (s.rmStored sz v rm) := by
  cases rm with
  | reg r => rfl
  | mem m =>
    show (look _ >>= fun off => memWrite (opSeg m) off sz.bytes v) s = _
    rw [bind_ok (look_run _ _)]
    exact memWrite_ok h

theorem readFar_ok {s : State} {sz : OpSize} {m : MemOp} (h : s.farReadable sz m = true) : readFar sz m s = .ok (s.farOff sz m, s.farSel sz m) s := by
  simp only [State.farReadable, Bool.and_eq_true] at h
  unfold readFar
  rw [bind_ok (opRead_ok h.1), bind_ok (opRead_ok h.2)]
  rfl

/-! ## The stack -/

theorem stackBig_ok {s : State} (h : s.segs.ss.checked = true) : stackBig s = .ok s.segs.ss.desc.big s := by
  unfold stackBig
  rw [bind_ok (segView_ok (seg := .ss) h)]
  rfl

theorem getSp_ok {s : State} (h : s.segs.ss.checked = true) : getSp s = .ok s.sp s := by
  unfold getSp
  rw [bind_ok (stackBig_ok h)]
  rfl

theorem setSp_ok {s : State} (h : s.segs.ss.checked = true) (v : Word32) : setSp v s = .ok () (s.withSp v) := by
  unfold setSp
  rw [bind_ok (stackBig_ok h)]
  rfl

theorem stackRead_ok {s : State} {off : Word32} {n : Nat} (h : s.canPop off n = true) : stackRead off n s = .ok (s.onStack off n) s := by
  simp only [State.canPop, Bool.and_eq_true] at h
  unfold stackRead
  rw [bind_ok (stackBig_ok h.1)]
  exact memRead_ok h.2

@[simp] theorem State.stored_segs (s : State) (seg : SegReg) (off : Word32) (n : Nat) (v : Word32) : (s.stored seg off n v).segs = s.segs := by
  simp [State.stored]

theorem push_ok {s : State} {sz : OpSize} (h : s.canPush sz = true) (v : Word32) : push sz v s = .ok () (s.pushed sz v) := by
  simp only [State.canPush, Bool.and_eq_true] at h
  have hw : memWrite .ss (stackWrap s.segs.ss.desc.big (s.sp - BitVec.ofNat 32 sz.bytes)) sz.bytes v s =
      .ok () (s.stored .ss (s.pushAt sz) sz.bytes v) := memWrite_ok h.2
  unfold push
  rw [bind_ok (getSp_ok h.1), bind_ok (stackBig_ok h.1), bind_ok hw, setSp_ok (by rw [State.stored_segs]; exact h.1)]
  rfl

theorem pushAll_ok {sz : OpSize} (l : List Word32) : ∀ {s : State}, s.canPushAll sz l = true → pushAll sz l s = .ok () (s.pushedAll sz l) := by
  induction l with
  | nil => intro s _; rfl
  | cons v r ih =>
    intro s h
    simp only [State.canPushAll, Bool.and_eq_true] at h
    unfold pushAll
    rw [bind_ok (push_ok h.1 v)]
    exact ih h.2

theorem pop_ok {s : State} {sz : OpSize} (h : s.canPop s.sp sz.bytes = true) :
    pop sz s = .ok (s.onStack s.sp sz.bytes) (s.withSp (s.sp + BitVec.ofNat 32 sz.bytes)) := by
  have hc : s.segs.ss.checked = true := by
    simp only [State.canPop, Bool.and_eq_true] at h
    exact h.1
  unfold pop
  rw [bind_ok (getSp_ok hc), bind_ok (stackRead_ok h), bind_ok (setSp_ok hc _)]
  rfl

theorem selImage_run (sz : OpSize) (sel : Word16) (s : State) : selImage sz sel s = .ok (selDrawn sz s.freeCtr sel) (s.selCounted sz) := by
  cases sz <;> rfl

@[simp] theorem State.withSp_mem (s : State) (v : Word32) : (s.withSp v).mem = s.mem := by simp [State.withSp]
@[simp] theorem State.withSp_segs (s : State) (v : Word32) : (s.withSp v).segs = s.segs := by simp [State.withSp]
@[simp] theorem State.withSp_freeCtr (s : State) (v : Word32) : (s.withSp v).freeCtr = s.freeCtr := by simp [State.withSp]

theorem read_pushed_other (s : State) (sz : OpSize) (v : Word32) {a : Nat} (ha : a ∉ s.pushTargets sz) :
    Memory.read (s.pushed sz v).mem a = Memory.read s.mem a := by
  unfold State.pushed
  rw [State.withSp_mem]
  exact read_storeBytes_other _ _ _ ha

theorem read_pushedAll_other (sz : OpSize) (l : List Word32) : ∀ (s : State) {a : Nat}, a ∉ s.pushAllTargets sz l →
    Memory.read (s.pushedAll sz l).mem a = Memory.read s.mem a := by
  induction l with
  | nil => intro s a _; rfl
  | cons v r ih =>
    intro s a ha
    rw [State.pushAllTargets, List.mem_append, not_or] at ha
    rw [State.pushedAll, ih _ ha.2, read_pushed_other _ _ _ ha.1]

theorem State.pushedAll_frame (sz : OpSize) (l : List Word32) : ∀ s : State,
    (s.pushedAll sz l).segs = s.segs ∧ (s.pushedAll sz l).freeCtr = s.freeCtr ∧ (s.pushedAll sz l).cpl = s.cpl := by
  induction l with
  | nil => exact fun _ => ⟨rfl, rfl, rfl⟩
  | cons v r ih =>
    intro s
    rw [State.pushedAll]
    refine ⟨(ih _).1.trans ?_, (ih _).2.1.trans ?_, (ih _).2.2.trans ?_⟩ <;> simp [State.pushed, State.stored, State.withSp]

/-! ## Descriptors and segment loads -/

theorem readDescAt_ok {s : State} {a : Word32} (h : (s.mapped false false 4 a && s.mapped false false 4 (a + 4)) = true) :
    readDescAt a s = .ok (parseDesc (s.valueAt false 4 a) (s.valueAt false 4 (a + 4))) s := by
  simp only [Bool.and_eq_true] at h
  unfold readDescAt
  rw [bind_ok (readLin_ok h.1), bind_ok (readLin_ok h.2)]
  rfl

theorem readDesc_ok {s : State} {x : Exc} {sel : Word16} {d : Desc} (h : s.descOf sel = some d) : readDesc x sel s = .ok d s := by
  unfold State.descOf at h
  unfold readDesc
  cases ha : descAddr s sel with
  | none => rw [ha] at h; cases h
  | some a =>
    rw [ha] at h
    dsimp only at h ⊢
    split at h
    · rename_i hm
      cases h
      exact readDescAt_ok hm
    · cases h

theorem checkSelector_ok {s : State} {w : Word16 → Exc} {seg : SegReg} {sel : Word16} {v : SegState} (h : s.segLoad seg sel = some v) :
    checkSelector w seg sel s = .ok v s := by
  unfold State.segLoad at h
  unfold checkSelector
  by_cases hn : isNull sel = true
  · rw [if_pos hn] at h ⊢
    cases seg <;> cases h <;> rfl
  · rw [if_neg hn] at h ⊢
    cases hd : s.descOf sel with
    | none => rw [hd] at h; cases h
    | some d =>
      rw [hd] at h
      rw [bind_ok (readDesc_ok hd), bind_ok (look_run _ _)]
      dsimp only at h
      cases ht : segTest seg s.cpl sel d with
      | error e => rw [ht] at h; cases h
      | ok sd =>
        rw [ht] at h
        cases h
        rfl

theorem loadSegReg_ok {s : State} {seg : SegReg} {sel : Word16} {v : SegState} (h : s.segLoad seg sel = some v) :
    loadSegReg seg sel s = .ok () (s.withSeg seg v) := by
  unfold loadSegReg
  rw [bind_ok (checkSelector_ok h)]
  rfl

/-- The parts of a code segment that passes the tests of a transfer at the same level. -/
theorem levelCode_spec {s : State} {named : Bool} {sel : Word16} {off : Word32} {d : SegDesc} (h : s.levelCode named sel off = some d) :
    isNull sel = false ∧ s.descOf sel = some (.seg true d) ∧ off.toNat ≤ d.limit.toNat ∧ ∃ c r, d.kind = .code c r ∧
      (if c then decide (d.dpl ≤ s.cpl) else d.dpl == s.cpl && (!named || decide (rpl sel ≤ s.cpl))) = true := by
  unfold State.levelCode at h
  split at h
  · cases h
  · rename_i hn
    split at h
    · rename_i d' hd
      split at h
      · rename_i c r hk
        by_cases hc : ((if c then decide (d'.dpl ≤ s.cpl) else d'.dpl == s.cpl && (!named || decide (rpl sel ≤ s.cpl))) &&
            decide (off.toNat ≤ d'.limit.toNat)) = true
        · rw [if_pos hc] at h
          cases h
          rw [Bool.and_eq_true] at hc
          exact ⟨by simpa using hn, hd, by simpa using hc.2, c, r, hk, hc.1⟩
        · rw [if_neg hc] at h
          cases h
      · cases h
    · cases h

/-! ## Transfers -/

theorem jumpNear_ok {s : State} {t : Word32} (h : s.segs.cs.checked = true) (ht : t.toNat ≤ s.segs.cs.desc.limit.toNat) :
    jumpNear t s = .ok () (s.jump t) := by
  unfold jumpNear
  rw [bind_ok (segView_ok (seg := .cs) h)]
  show (require (decide (t.toNat ≤ s.segs.cs.desc.limit.toNat)) _ >>= fun _ => change _) s = _
  rw [decide_eq_true ht]
  rfl

theorem codeReady_ok {s : State} {sel : Word16} {d : SegDesc} {off : Word32} (h : off.toNat ≤ d.limit.toNat) :
    codeReady sel true d off s = .ok () s := by
  unfold codeReady
  rw [bind_ok (require_true _ _), decide_eq_true h]
  rfl

/-- A far JMP or CALL to a code segment at the same level (R106, R108). -/
theorem farTransfer_same {s : State} {call : Bool} {sz : OpSize} {sel : Word16} {off : Word32} {d : SegDesc}
    (h : s.sameLevelCode sel off = some d) : farTransfer call sz sel off s = enterSame call sz sel true d off s := by
  obtain ⟨hn, hd, -, c, r, hk, hp⟩ := levelCode_spec h
  rw [Bool.not_true, Bool.false_or] at hp
  unfold farTransfer
  rw [hn, Bool.not_false, bind_ok (require_true _ _), bind_ok (readDesc_ok hd), bind_ok (look_run _ _), bind_ok (look_run _ _)]
  dsimp only
  rw [hk]
  dsimp only
  rw [hp, bind_ok (require_true _ _)]

/-- A far JMP or CALL through a call gate to a code segment at the same level (R106, R108). -/
theorem farTransfer_gate {s : State} {call : Bool} {sz z : OpSize} {sel gsel : Word16} {off goff : Word32} {count : BitVec 5} {dpl : BitVec 2}
    {d : SegDesc} (hn : isNull sel = false) (hg : s.descOf sel = some (.callGate true dpl z count gsel goff)) (hc : s.cpl ≤ dpl) (hr : rpl sel ≤ dpl)
    (h : s.gateCode gsel goff = some d) : farTransfer call sz sel off s = enterSame call z gsel true d goff s := by
  obtain ⟨hgn, hd, -, c, r, hk, hp⟩ := levelCode_spec h
  have hl : d.dpl ≤ s.cpl ∧ (c || d.dpl == s.cpl) = true := by
    cases c with
    | true => exact ⟨of_decide_eq_true hp, rfl⟩
    | false =>
      have he : d.dpl = s.cpl := by simpa using hp
      exact ⟨he ▸ BitVec.le_refl _, by simp [he]⟩
  unfold farTransfer
  rw [hn, Bool.not_false, bind_ok (require_true _ _), bind_ok (readDesc_ok hg), bind_ok (look_run _ _), bind_ok (look_run _ _)]
  dsimp only
  have hdp : dataPrivilege s.cpl sel dpl = true := by
    unfold dataPrivilege
    rw [decide_eq_true hc, decide_eq_true hr]
    rfl
  rw [hdp, bind_ok (require_true _ _), bind_ok (require_true _ _)]
  unfold throughCallGate
  rw [hgn, Bool.not_false, bind_ok (require_true _ _), bind_ok (readDesc_ok hd), bind_ok (look_run _ _)]
  dsimp only
  rw [hk]
  dsimp only
  rw [decide_eq_true hl.1, bind_ok (require_true _ _), if_pos hl.2]

/-- A far JMP or CALL that keeps the level goes where `FarSame` says, inside the limit (R106, R108). -/
theorem farTransfer_level {s : State} {call : Bool} {sz z : OpSize} {sel x : Word16} {off o : Word32} {d : SegDesc}
    (h : s.FarSame sz sel off z x o d) : farTransfer call sz sel off s = enterSame call z x true d o s ∧ o.toNat ≤ d.limit.toNat := by
  rcases h with ⟨h, rfl, rfl, rfl⟩ | ⟨hn, h, dpl, count, hg, hc, hr⟩
  · exact ⟨farTransfer_same h, (levelCode_spec h).2.2.1⟩
  · exact ⟨farTransfer_gate hn hg hc hr h, (levelCode_spec h).2.2.1⟩

theorem enterSame_jmp {s : State} {sz : OpSize} {sel : Word16} {off : Word32} {d : SegDesc} (h : off.toNat ≤ d.limit.toNat) :
    enterSame false sz sel true d off s = .ok () ((s.sameCs sel d).jump off) := by
  unfold enterSame
  rw [bind_ok (codeReady_ok h)]
  rfl

theorem enterSame_call {s : State} {sz : OpSize} {sel : Word16} {off : Word32} {d : SegDesc} (h : off.toNat ≤ d.limit.toNat)
    (hp : (s.selCounted sz).canPushAll sz [selDrawn sz s.freeCtr s.segs.cs.sel, s.nextEip] = true) :
    enterSame true sz sel true d off s =
      .ok () ((((s.selCounted sz).pushedAll sz [selDrawn sz s.freeCtr s.segs.cs.sel, s.nextEip]).sameCs sel d).jump off) := by
  unfold enterSame
  rw [bind_ok (codeReady_ok h), bind_ok (look_run _ _)]
  rw [onlyIf_true, bind_ok (t := (s.selCounted sz).pushedAll sz [selDrawn sz s.freeCtr s.segs.cs.sel, s.nextEip]) (a := ())
    (by rw [bind_ok (selImage_run _ _ _)]; exact pushAll_ok _ hp)]
  have hc : ((s.selCounted sz).pushedAll sz [selDrawn sz s.freeCtr s.segs.cs.sel, s.nextEip]).cpl = s.cpl :=
    (State.pushedAll_frame _ _ _).2.2.trans (by simp)
  unfold State.sameCs
  rw [hc]
  rfl

end Sys2Proof.Machine
end

