-- ==== Sys2Proof/Laws/Places.lean ====
section
/-! SUPPORT. Where an access that the processor makes on its own account lies, and what it stores and finds there: stores of one instruction do not change
where the page tables put a byte (R57, R59, R64). -/

namespace Sys2Proof.Machine

/-- A page frame begins at a multiple of 4096. -/
theorem entryBase_mod (pte : BitVec 32) : (pte &&& 0xFFFFF000#32).toNat % 4096 = 0 := by
  have : pte &&& 0xFFFFF000#32 = (pte >>> 12) <<< 12 := by
    apply BitVec.eq_of_getLsbD_eq
    intro i hi
    simp only [BitVec.getLsbD_and, BitVec.getLsbD_shiftLeft, BitVec.getLsbD_ushiftRight]
    have : ∀ i < 32, (0xFFFFF000#32).getLsbD i = decide (12 ≤ i) := by decide
    rw [this i hi]
    by_cases h : 12 ≤ i
    · simp [h, hi, show 12 + (i - 12) = i by omega]
    · simp [h, hi]
  rw [this, BitVec.toNat_shiftLeft, Nat.shiftLeft_eq]
  omega

/-- Bytes stored one after the other. -/
def Memory.writes (m : List Host.Cell) (c : List Host.Cell) : List Host.Cell := c.foldl (fun m x => Memory.write m x.1 x.2) m

theorem Memory.writes_append (m c d : List Host.Cell) : Memory.writes m (c ++ d) = Memory.writes (Memory.writes m c) d := by
  simp [Memory.writes]

theorem Memory.writes_wf (c : List Host.Cell) : ∀ m, Memory.wf m = true → Memory.wf (Memory.writes m c) = true := by
  induction c with
  | nil => exact fun _ h => h
  | cons x r ih => exact fun m h => ih _ (Memory.wf_write _ _ h)

/-- Bytes outside the addresses stored to are as before. -/
theorem Memory.read_writes_other (c : List Host.Cell) : ∀ (m : List Host.Cell) (a : Nat), (∀ b, (a, b) ∉ c) →
    Memory.read (Memory.writes m c) a = Memory.read m a := by
  induction c with
  | nil => exact fun _ _ _ => rfl
  | cons x r ih =>
    intro m a h
    rw [Memory.writes, List.foldl_cons]
    refine (ih _ a (fun b hb => h b (by simp [hb]))).trans (Memory.read_write_other ?_)
    intro he; exact h x.2 (by rw [he]; simp)

/-- A byte reads as it was last stored. -/
theorem Memory.read_writes_last (c d m : List Host.Cell) (a : Nat) (b : Byte) (hw : Memory.wf m = true) (h : ∀ x, (a, x) ∉ d) :
    Memory.read (Memory.writes m (c ++ (a, b) :: d)) a = b := by
  rw [Memory.writes_append]
  have : Memory.writes (Memory.writes m c) ((a, b) :: d) = Memory.writes (Memory.write (Memory.writes m c) a b) d := rfl
  rw [this, Memory.read_writes_other _ _ _ h, Memory.read_write (Memory.writes_wf _ _ hw), if_pos rfl]

/-- `v` has come from `s` by stores alone, as far as page translation can tell: an entry not stored to since CR3 was loaded is as it was in `s` (R64). -/
structure State.Past (s v : State) : Prop where
  cr3 : v.cr3 = s.cr3
  pg : v.pg = s.pg
  stale : v.pg = true → ∀ a ∈ s.ptStores, a ∈ v.ptStores
  kept : v.pg = true → ∀ a, a ∉ v.ptStores → Memory.read v.mem a = Memory.read s.mem a

theorem State.Past.touch {s v : State} (h : s.Past v) (pa) : s.Past (v.touch pa) where
  cr3 := h.cr3
  pg := h.pg
  stale := fun hp a ha => by
    have hp : v.pg = true := hp
    show a ∈ v.ptStoresPast pa
    unfold State.ptStoresPast
    rw [hp]
    exact List.mem_cons_of_mem _ (h.stale hp a ha)
  kept := fun hp a ha => by
    have hp : v.pg = true := hp
    refine h.kept hp a (fun hx => ha ?_)
    show a ∈ v.ptStoresPast pa
    unfold State.ptStoresPast
    rw [hp]
    exact List.mem_cons_of_mem _ hx

theorem State.Past.storeByte {s v : State} (h : s.Past v) (pa b) : s.Past (v.storeByte pa b) where
  cr3 := h.cr3
  pg := h.pg
  stale := (h.touch pa).stale
  kept := fun hp a ha => by
    have hp : v.pg = true := hp
    have ha : a ∉ v.ptStoresPast pa := ha
    unfold State.ptStoresPast at ha
    rw [hp] at ha
    have ha : a ≠ pa ∧ a ∉ v.ptStores := by simpa using ha
    rw [State.storeByte_mem, Memory.read_write_other ha.1]
    exact h.kept hp a ha.2

/-- An entry that may still be used is as it was. -/
theorem pageEntry_past {s v : State} (h : s.Past v) (hp : v.pg = true) {pa e} (he : pageEntry v pa = .ok e) : pageEntry s pa = .ok e := by
  unfold pageEntry at *
  have hs : v.staleEntry pa = false := by
    cases hv : v.staleEntry pa with
    | true => rw [hv] at he; cases he
    | false => rfl
  rw [hs] at he
  unfold State.staleEntry at hs
  rw [List.any_eq_false] at hs
  have hs' : s.staleEntry pa = false := by
    unfold State.staleEntry
    rw [List.any_eq_false]
    exact fun a ha => hs a (h.stale hp a ha)
  rw [hs']
  have hm : Memory.dword v.mem pa = Memory.dword s.mem pa := by
    have : ∀ k < 4, Memory.read v.mem (pa + k) = Memory.read s.mem (pa + k) := by
      intro k hk
      refine h.kept hp _ (fun hx => ?_)
      have := hs _ hx
      simp at this
      omega
    unfold Memory.dword
    congr 1
    exact List.map_congr_left (fun k hk => this k (by simpa using hk))
  rw [hm] at he
  exact he

/-- What translates after some stores translates as before them (R64). -/
theorem place_of_pageWalk {s v : State} (h : s.Past v) {w lin pa} (hw : pageWalk v w false lin = .ok pa) : s.place lin = some pa := by
  have : pageWalk s false false lin = .ok pa := by
    unfold pageWalk at hw ⊢
    rw [h.pg] at hw
    by_cases hp : s.pg = true
    · rw [if_pos hp] at hw ⊢
      have hpv : v.pg = true := h.pg.trans hp
      rw [h.cr3] at hw
      cases h1 : pageEntry v (entryBase s.cr3 + 4 * (lin >>> 22).toNat) with
      | error e => rw [h1] at hw; cases hw
      | ok pde =>
        rw [h1] at hw
        rw [pageEntry_past h hpv h1]
        dsimp only at hw ⊢
        by_cases hd : entryPresent pde = true
        · rw [if_pos hd] at hw ⊢
          cases h2 : pageEntry v (entryBase pde + 4 * ((lin >>> 12) &&& 0x3FF).toNat) with
          | error e => rw [h2] at hw; cases hw
          | ok pte =>
            rw [h2] at hw
            rw [pageEntry_past h hpv h2]
            dsimp only at hw ⊢
            by_cases he : entryPresent pte = true
            · rw [if_pos he] at hw ⊢
              rw [show pageAllows w false pde pte = true from rfl, if_pos rfl] at hw
              rw [show pageAllows false false pde pte = true from rfl, if_pos rfl]
              exact hw
            · rw [if_neg he] at hw
              cases hw
        · rw [if_neg hd] at hw
          cases hw
    · rw [if_neg hp] at hw ⊢
      exact hw
  unfold State.place
  rw [this]

theorem place_of_translate {s v : State} (h : s.Past v) {w lin pa} (ht : translate v w false lin = .ok pa) : s.place lin = some pa := by
  unfold translate at ht
  split at ht
  · cases ht
  · rename_i p hw
    have : p = pa := by split at ht <;> first | (cases ht; rfl) | cases ht
    subst this
    exact place_of_pageWalk h hw

/-- Translation keeps the offset in the page. -/
theorem place_mod {s : State} {lin pa} (h : s.place lin = some pa) : pa % 4096 = lin.toNat % 4096 := by
  unfold State.place at h
  cases hw : pageWalk s false false lin with
  | error e => rw [hw] at h; cases h
  | ok p =>
    rw [hw] at h
    injection h with h
    subst h
    unfold pageWalk at hw
    split at hw
    · split at hw
      · cases hw
      · split at hw
        · split at hw
          · cases hw
          · split at hw
            · split at hw
              · cases hw
                rename_i pte _ _ _
                have h1 : entryBase pte % 4096 = 0 := entryBase_mod pte
                have h2 : (lin &&& 0xFFF).toNat = lin.toNat % 4096 := by
                  rw [BitVec.toNat_and]
                  exact Nat.and_two_pow_sub_one_eq_mod lin.toNat 12
                rw [h2]
                omega
              · cases hw
            · cases hw
        · cases hw
    · injection hw with hw
      rw [← hw]

theorem pageEntry_error {s : State} {pa x} (h : pageEntry s pa = .error x) : x = .refuse .staleTranslation := by
  unfold pageEntry at h
  split at h
  · injection h with h
    exact h.symm
  · cases h

/-- A page walk raises nothing but page faults. -/
theorem pageWalk_exc {s : State} {w u lin e} (h : pageWalk s w u lin = .error (.exc e)) : e.dfClass = .pageFault := by
  unfold pageWalk at h
  split at h
  · split at h
    · rename_i h1
      have := pageEntry_error h1
      subst this
      cases h
    · split at h
      · split at h
        · rename_i h1
          have := pageEntry_error h1
          subst this
          cases h
        · split at h
          · split at h
            · cases h
            · cases h; rfl
          · cases h; rfl
      · cases h; rfl
  · cases h

theorem translate_exc {s : State} {w u lin e} (h : translate s w u lin = .error (.exc e)) : e.dfClass = .pageFault := by
  unfold translate at h
  split at h
  · rename_i x hw
    injection h with h
    subst h
    exact pageWalk_exc hw
  · split at h <;> cases h

theorem translateAll_exc {s : State} {w u} (n) : ∀ {lin e}, (translateAll s w u n lin).2 = some (.exc e) → e.dfClass = .pageFault := by
  induction n with
  | zero => intro lin e h; cases h
  | succ n ih =>
    intro lin e h
    unfold translateAll at h
    split at h
    · rename_i ht
      injection h with h
      subst h
      exact translate_exc ht
    · exact ih h

theorem translateEach_exc {u} (n) : ∀ {s : State} {lin e}, (translateEach u n s lin).2 = some (.exc e) → e.dfClass = .pageFault := by
  induction n with
  | zero => intro s lin e h; cases h
  | succ n ih =>
    intro s lin e h
    unfold translateEach at h
    split at h
    · rename_i ht
      injection h with h
      subst h
      exact translate_exc ht
    · exact ih h

theorem translateWrite_exc {s : State} {u n lin e} (h : (translateWrite s u n lin).2 = some (.exc e)) : e.dfClass = .pageFault := by
  unfold translateWrite at h
  split at h
  · exact translateAll_exc _ h
  · exact translateEach_exc _ h

/-- These are the addresses of the bytes from a linear address up. -/
def Placed (s : State) (lin : Word32) (l : List Nat) : Prop := ∀ k (h : k < l.length), s.place (lin + BitVec.ofNat 32 k) = some l[k]

theorem placed_cons {s : State} {lin : Word32} {pa : Nat} {l : List Nat} (h : s.place lin = some pa) (hl : Placed s (lin + 1) l) :
    Placed s lin (pa :: l) := by
  intro k hk
  cases k with
  | zero => rw [show lin + BitVec.ofNat 32 0 = lin from BitVec.add_zero lin]; exact h
  | succ k =>
    have := hl k (by simpa using hk)
    rw [List.getElem_cons_succ, ← this]
    congr 1
    rw [BitVec.add_assoc]
    congr 1
    apply BitVec.eq_of_toNat_eq
    simp [BitVec.toNat_add]; omega

theorem translateAll_placed {s v : State} (h : s.Past v) {w} (n) : ∀ {lin}, Placed s lin (translateAll v w false n lin).1 := by
  induction n with
  | zero => intro lin k hk; simp [translateAll] at hk
  | succ n ih =>
    intro lin
    unfold translateAll
    cases ht : translate v w false lin with
    | error e => intro k hk; simp at hk
    | ok pa => exact placed_cons (place_of_translate h ht) ih

theorem translateEach_placed {s : State} (n) : ∀ {v : State} {lin}, s.Past v → Placed s lin (translateEach false n v lin).1 := by
  induction n with
  | zero => intro v lin _ k hk; simp [translateEach] at hk
  | succ n ih =>
    intro v lin h
    unfold translateEach
    cases ht : translate v true false lin with
    | error e => intro k hk; simp at hk
    | ok pa => exact placed_cons (place_of_translate h ht) (ih (h.touch pa))

theorem translateWrite_placed {s v : State} (h : s.Past v) {n lin} : Placed s lin (translateWrite v false n lin).1 := by
  unfold translateWrite
  split
  · exact translateAll_placed h n
  · exact translateEach_placed n h

/-- The addresses of `n` bytes from a linear address up. -/
def placesOf (s : State) (lin : Word32) (n : Nat) : List Nat :=
  (List.range n).map (fun k => (s.place (lin + BitVec.ofNat 32 k)).getD 0)

theorem placed_eq {s : State} {lin : Word32} {l : List Nat} {n : Nat} (h : Placed s lin l) (hl : l.length = n) :
    l = placesOf s lin n ∧ ∀ k < n, ∃ pa, s.place (lin + BitVec.ofNat 32 k) = some pa := by
  subst hl
  refine ⟨?_, fun k hk => ⟨_, h k hk⟩⟩
  apply List.ext_getElem
  · simp [placesOf]
  · intro k h1 h2
    simp [placesOf, h k h1]

theorem State.storeCells_mem (c : List Host.Cell) : ∀ v : State, (v.storeCells c).mem = Memory.writes v.mem c := by
  induction c with
  | nil => exact fun _ => rfl
  | cons x r ih => intro v; rw [State.storeCells, ih]; rfl

theorem State.Past.storeCells {s : State} (c : List Host.Cell) : ∀ {v : State}, s.Past v → s.Past (v.storeCells c) := by
  induction c with
  | nil => exact fun h => h
  | cons x r ih => exact fun h => ih (h.storeByte _ _)

theorem State.Past.storeBytes {s v : State} (h : s.Past v) (l x) : s.Past (v.storeBytes l x) := by
  have := State.Past.storeCells (cells l x) h
  exact ⟨this.cr3, this.pg, this.stale, this.kept⟩

/-- A write on the processor's own account stores its bytes where the page tables of the start put them, or raises a page fault. -/
theorem writeLin_spec {s v : State} (h : s.Past v) (n : Nat) (lin x : Word32) :
    match writeLin false n lin x v with
    | .ok _ t => t.mem = Memory.writes v.mem (cells (placesOf s lin n) x) ∧ s.Past t ∧ ∀ k < n, ∃ pa, s.place (lin + BitVec.ofNat 32 k) = some pa
    | .error (.exc e) _ => e.dfClass = .pageFault
    | .error (.refuse _) _ => True := by
  unfold writeLin
  cases he : (translateWrite v false n lin).2 with
  | none =>
    dsimp only
    obtain ⟨h1, h2⟩ := placed_eq (translateWrite_placed h (n := n) (lin := lin)) (translateWrite_length he)
    refine ⟨?_, h.storeBytes _ _, h2⟩
    rw [← h1]
    exact State.storeCells_mem _ v
  | some e =>
    cases e with
    | exc e => exact translateWrite_exc he
    | refuse r => trivial

theorem leValue_one (a : Byte) : (leValue [a]).setWidth 8 = a := by
  ext i hi
  simp [leValue]

/-- The bytes of a doubleword. -/
theorem leValue_four (a b c d : Byte) : (leValue [a, b, c, d] >>> 0).setWidth 8 = a ∧ (leValue [a, b, c, d] >>> 8).setWidth 8 = b ∧
    (leValue [a, b, c, d] >>> 16).setWidth 8 = c ∧ (leValue [a, b, c, d] >>> 24).setWidth 8 = d := by
  refine ⟨?_, ?_, ?_, ?_⟩ <;> ext i hi <;> simp [leValue, BitVec.getLsbD_or, BitVec.getLsbD_shiftLeft] <;>
    (interval_cases i <;> simp)

/-- A read on the processor's own account changes nothing and gives what lies where the page tables of the start put its bytes, or raises a page fault. -/
theorem readLin_spec {s v : State} (h : s.Past v) (n : Nat) (lin : Word32) (hn : n = 1 ∨ n = 4) :
    match readLin false n lin v with
    | .ok x t => t = v ∧ s.Finds v.mem n lin x
    | .error (.exc e) t => t = v ∧ e.dfClass = .pageFault
    | .error (.refuse _) t => t = v := by
  unfold readLin
  cases he : (translateAll v false false n lin).2 with
  | none =>
    dsimp only
    refine ⟨rfl, ?_⟩
    have hp := translateAll_placed h (w := false) n (lin := lin)
    have hl := translateAll_length he
    unfold State.valueAt
    generalize hg : (translateAll v false false n lin).1 = l at *
    rcases hn with rfl | rfl
    · match l, hl with
      | [a], _ =>
        intro k hk
        have : k = 0 := by omega
        subst this
        exact ⟨a, hp 0 (by simp), (leValue_one _).symm⟩
    · match l, hl with
      | [a, b, c, d], _ =>
        intro k hk
        obtain ⟨h1, h2, h3, h4⟩ := leValue_four (Memory.read v.mem a) (Memory.read v.mem b) (Memory.read v.mem c) (Memory.read v.mem d)
        match k, hk with
        | 0, _ => exact ⟨a, hp 0 (by simp), h1.symm⟩
        | 1, _ => exact ⟨b, hp 1 (by simp), h2.symm⟩
        | 2, _ => exact ⟨c, hp 2 (by simp), h3.symm⟩
        | 3, _ => exact ⟨d, hp 3 (by simp), h4.symm⟩
  | some e =>
    cases e with
    | exc e => exact ⟨rfl, translateAll_exc _ he⟩
    | refuse r => rfl

theorem State.Past.frame {s v t : State} (h : s.Past v) (h1 : t.cr3 = v.cr3) (h2 : t.pg = v.pg) (h3 : t.ptStores = v.ptStores) (h4 : t.mem = v.mem) :
    s.Past t where
  cr3 := h1.trans h.cr3
  pg := h2.trans h.pg
  stale := by rw [h2, h3]; exact h.stale
  kept := by rw [h2, h3, h4]; exact h.kept

/-- Reading the new TSS changes nothing but the count of open values, and gives its doublewords, or tells of a page fault (R176). -/
theorem readTss_spec {s : State} (n : Nat) : ∀ {v : State} (lin), s.Past v →
    match readTss n lin v with
    | .ok (w, err) t => (∃ c, t = { v with freeCtr := c }) ∧ (∀ e, err = some e → e.dfClass = .pageFault) ∧
        (err = none → ∀ i < n, s.Finds v.mem 4 (lin + BitVec.ofNat 32 (4 * i)) (w.getD i 0))
    | .error e t => (∃ c, t = { v with freeCtr := c }) ∧ ∀ x, e ≠ .exc x := by
  induction n with
  | zero => intro v lin h; exact ⟨⟨v.freeCtr, rfl⟩, (by intro e he; cases he), fun _ i hi => by omega⟩
  | succ n ih =>
    intro v lin h
    have h1 := readLin_spec h 4 lin (.inr rfl)
    unfold readTss
    have step : ∀ (a : Except Exc Word32) (x : Word32) (c : Nat),
        (match a with
          | .ok y => x = y ∧ s.Finds v.mem 4 lin x
          | .error e => e.dfClass = .pageFault) →
        match (do let (r, e) ← readTss n (lin + 4); pure (x :: r, (raised a).or e) : M (List Word32 × Option Exc)) { v with freeCtr := c } with
        | .ok (w, err) t => (∃ c, t = { v with freeCtr := c }) ∧ (∀ e, err = some e → e.dfClass = .pageFault) ∧
            (err = none → ∀ i < n + 1, s.Finds v.mem 4 (lin + BitVec.ofNat 32 (4 * i)) (w.getD i 0))
        | .error e t => (∃ c, t = { v with freeCtr := c }) ∧ ∀ x, e ≠ .exc x := by
      intro a x c ha
      have h2 := ih (v := { v with freeCtr := c }) (lin + 4) (h.frame rfl rfl rfl rfl)
      rw [bind_run]
      cases hr : readTss n (lin + 4) { v with freeCtr := c } with
      | error e t =>
        rw [hr] at h2
        obtain ⟨⟨c', rfl⟩, h3⟩ := h2
        exact ⟨⟨c', rfl⟩, h3⟩
      | ok p t =>
        obtain ⟨w, err⟩ := p
        rw [hr] at h2
        obtain ⟨⟨c', rfl⟩, h3, h4⟩ := h2
        refine ⟨⟨c', rfl⟩, ?_, ?_⟩
        · intro e he
          rcases Option.or_eq_some_iff.mp he with he | ⟨_, he⟩
          · cases a with
            | ok y => cases he
            | error y => injection he with he; subst he; exact ha
          · exact h3 e he
        · intro he
          cases a with
          | error y => cases err <;> cases he
          | ok y =>
            have he : err = none := by cases err <;> first | rfl | cases he
            intro i hi
            cases i with
            | zero => simpa using ha.2
            | succ i =>
              have := h4 he i (by omega)
              rw [show lin + BitVec.ofNat 32 (4 * (i + 1)) = lin + 4 + BitVec.ofNat 32 (4 * i) by
                apply BitVec.eq_of_toNat_eq
                simp [BitVec.toNat_add]; omega]
              simpa using this
    cases hr : readLin false 4 lin v with
    | ok x t =>
      rw [hr] at h1
      obtain ⟨rfl, h1⟩ := h1
      have ha : attempt (readLin false 4 lin) t = .ok (.ok x) t := by unfold attempt; rw [hr]
      rw [bind_ok ha]
      exact step (.ok x) x t.freeCtr ⟨rfl, h1⟩
    | error e t =>
      rw [hr] at h1
      cases e with
      | refuse r =>
        have ha : attempt (readLin false 4 lin) v = .error (.refuse r) t := by unfold attempt; rw [hr]
        rw [bind_error ha]
        subst h1
        exact ⟨⟨t.freeCtr, rfl⟩, fun x hx => by cases hx⟩
      | exc e =>
        obtain ⟨rfl, h1⟩ := h1
        have ha : attempt (readLin false 4 lin) t = .ok (.error e) t := by unfold attempt; rw [hr]
        rw [bind_ok ha]
        exact step (.error e) _ (t.freeCtr + 1) h1

end Sys2Proof.Machine
end

