-- ==== Sys2Proof/Laws/Checks.lean ====
section
/-! SUPPORT. The checks that a task switch makes of the new task's selectors, in the words of Safety.lean: what each answers, and that it changes nothing but
what it marks (R118, R153, R154, R160). -/

namespace Sys2Proof.Machine

/-- The part of `Unfit` about a segment descriptor. -/
def UnfitIn (seg : SegReg) (cpl : BitVec 2) (sel : Word16) (x : SegDesc) : Prop :=
       ((seg = .ss ∧ ((∀ e, x.kind ≠ .data true e) ∨ x.dpl ≠ cpl ∨ rpl sel ≠ cpl)) ∨
      (seg = .cs ∧ ((∃ w e, x.kind = .data w e) ∨ (∃ r, x.kind = .code false r ∧ x.dpl ≠ cpl) ∨ ∃ r, x.kind = .code true r ∧ cpl < x.dpl)) ∨
      (seg ≠ .ss ∧ seg ≠ .cs ∧ ((∃ c, x.kind = .code c false) ∨ ((∀ r, x.kind ≠ .code true r) ∧ (x.dpl < cpl ∨ x.dpl < rpl sel)))))

theorem unfit_seg (seg cpl sel p x) : Unfit seg cpl sel (.seg p x) ↔ UnfitIn seg cpl sel x := by
      unfold Unfit
      constructor
      · rintro (h | ⟨p', x', h, h'⟩)
        · exact absurd rfl (h p x)
        · injection h with h1 h2
          subst h2
          exact h'
      · exact fun h => .inr ⟨p, x, rfl, h⟩

/-- What a test's answer says of a segment descriptor. -/
def Says (seg : SegReg) (cpl : BitVec 2) (sel : Word16) (p : Bool) (x : SegDesc) (r : Except LoadFail SegDesc) : Prop := match r with
    | .ok sd => ¬UnfitIn seg cpl sel x ∧ p = true ∧ sd = x
    | .error .protection => UnfitIn seg cpl sel x
    | .error .notPresent => ¬UnfitIn seg cpl sel x ∧ p = false

theorem says_stackTest (cpl sel p x) : Says .ss cpl sel p x (stackTest cpl sel (.seg p x)) := by
    obtain ⟨ba, li, kind, dpl, big⟩ := x
    by_cases h3 : dpl = cpl <;> by_cases h4 : rpl sel = cpl <;> rcases kind with ⟨c, r⟩ | ⟨_ | _, e⟩ <;> cases p <;>
      simp [Says, UnfitIn, stackTest, h3, h4]

theorem says_codeTest (cpl sel p x) : Says .cs cpl sel p x (codeTest cpl (.seg p x)) := by
    obtain ⟨ba, li, kind, dpl, big⟩ := x
    have e1 : (cpl < dpl) ↔ ¬ dpl ≤ cpl := BitVec.not_le.symm
    by_cases h3 : dpl = cpl <;> by_cases h4 : dpl ≤ cpl <;> rcases kind with ⟨_ | _, r⟩ | ⟨w, e⟩ <;> cases p <;>
      simp_all [Says, UnfitIn, codeTest, -BitVec.not_le]

theorem says_dataTest (cpl sel p x seg) (h1 : seg ≠ .ss) (h2 : seg ≠ .cs) : Says seg cpl sel p x (dataTest cpl sel (.seg p x)) := by
    obtain ⟨ba, li, kind, dpl, big⟩ := x
    have e1 : (dpl < cpl) ↔ ¬ cpl ≤ dpl := BitVec.not_le.symm
    have e2 : (dpl < rpl sel) ↔ ¬ rpl sel ≤ dpl := BitVec.not_le.symm
    by_cases h3 : cpl ≤ dpl <;> by_cases h4 : rpl sel ≤ dpl <;> rcases kind with ⟨_ | _, _ | _⟩ | ⟨w, e⟩ <;> cases p <;>
      simp [Says, UnfitIn, dataTest, dataPrivilege, h3, h4, e1, e2, h1, h2, -BitVec.not_le]

/-- What the tests of R118 and R153 answer. -/
theorem segTest_spec (seg cpl sel d) : match segTest seg cpl sel d with
    | .ok sd => ¬Unfit seg cpl sel d ∧ d = .seg true sd
    | .error .protection => Unfit seg cpl sel d
    | .error .notPresent => ¬Unfit seg cpl sel d ∧ ∃ x, d = .seg false x := by
  cases d with
  | seg p x =>
    simp only [unfit_seg]
    have h : Says seg cpl sel p x (segTest seg cpl sel (.seg p x)) := by
      cases seg
      · exact says_dataTest _ _ _ _ _ (by decide) (by decide)
      · exact says_codeTest _ _ _ _
      · exact says_stackTest _ _ _ _
      all_goals exact says_dataTest _ _ _ _ _ (by decide) (by decide)
    cases hr : segTest seg cpl sel (.seg p x) with
    | ok sd =>
      rw [hr] at h
      obtain ⟨h1, rfl, rfl⟩ := h
      exact ⟨h1, rfl⟩
    | error e =>
      rw [hr] at h
      cases e with
      | protection => exact h
      | notPresent =>
        obtain ⟨h1, rfl⟩ := h
        exact ⟨h1, x, rfl⟩
  | _ => cases seg <;> exact .inl (fun p x h => by cases h)

theorem translate_frame (u : State) (g c w us lin) : translate { u with segs := g, freeCtr := c } w us lin = translate u w us lin := rfl

/-- What translates does not depend on the segment registers. -/
theorem translateAll_frame (u : State) (g c w us n) : ∀ lin, translateAll { u with segs := g, freeCtr := c } w us n lin = translateAll u w us n lin := by
  induction n with
  | zero => exact fun _ => rfl
  | succ n ih =>
    intro lin
    unfold translateAll
    rw [ih, translate_frame]

theorem descOf_frame (u : State) (g c sel) : State.descOf { u with segs := g, freeCtr := c } sel = u.descOf sel := by
  unfold State.descOf State.mapped State.valueAt
  rw [show descAddr { u with segs := g, freeCtr := c } sel = descAddr u sel from rfl]
  simp only [translateAll_frame]

theorem rowFails_frame (u : State) (g c seg sel e) : State.RowFails { u with segs := g, freeCtr := c } seg sel e ↔ u.RowFails seg sel e := by
  unfold State.RowFails
  rw [descOf_frame]
  exact Iff.rfl

theorem readLin_error {u n lin v e t} (h : readLin u n lin v = .error e t) : t = v ∧ ∀ x, e = .exc x → x.dfClass = .pageFault := by
  unfold readLin at h
  cases he : (translateAll v false u n lin).2 with
  | none =>
    rw [he] at h
    cases h
  | some y =>
    rw [he] at h
    injection h with h1 h2
    subst h1
    subst h2
    exact ⟨rfl, fun x hx => by subst hx; exact translateAll_exc _ he⟩

theorem readLin_ok_spec {u n lin v a t} (h : readLin u n lin v = .ok a t) : t = v ∧ v.mapped false u n lin = true ∧ a = v.valueAt u n lin := by
  unfold readLin at h
  cases he : (translateAll v false u n lin).2 with
  | none => rw [he] at h; injection h with h1 h2; subst h1; subst h2; exact ⟨rfl, by unfold State.mapped; rw [he]; rfl, rfl⟩
  | some y =>
    rw [he] at h
    cases h

/-- Reading a descriptor changes nothing. -/
theorem readDesc_spec (x : Exc) (sel) (u : State) : match readDesc x sel u with
    | .ok d t => t = u ∧ u.descOf sel = some d
    | .error (.exc e) t => t = u ∧ ((descAddr u sel = none ∧ e = x) ∨ e.dfClass = .pageFault)
    | .error (.refuse _) _ => True := by
  unfold readDesc State.descOf
  cases ha : descAddr u sel with
  | none => exact ⟨rfl, .inl ⟨rfl, rfl⟩⟩
  | some a =>
    dsimp only
    unfold readDescAt
    rw [bind_run]
    cases h1 : readLin false 4 a u with
    | error e t =>
      obtain ⟨rfl, h⟩ := readLin_error h1
      cases e with
      | exc e => exact ⟨rfl, .inr (h e rfl)⟩
      | refuse r => trivial
    | ok lo t =>
      obtain ⟨rfl, hm, rfl⟩ := readLin_ok_spec h1
      dsimp only
      rw [bind_run]
      cases h2 : readLin false 4 (a + 4) t with
      | error e t' =>
        obtain ⟨rfl, h⟩ := readLin_error h2
        cases e with
        | exc e => exact ⟨rfl, .inr (h e rfl)⟩
        | refuse r => trivial
      | ok hi t' =>
        obtain ⟨rfl, hm2, rfl⟩ := readLin_ok_spec h2
        refine ⟨rfl, ?_⟩
        rw [hm, hm2]
        rfl

/-- A check of a selector in a task switch changes nothing, and its exception is a page fault or that of the row that fails. -/
theorem checkSelector_spec (seg sel) (u : State) : match checkSelector .invalidTss seg sel u with
    | .ok v t => t = u ∧ v.sel = sel ∧ v.checked = true ∧ (if isNull sel then v.desc = nullDesc else u.descOf sel = some (.seg true v.desc)) ∧
        ∀ e, ¬u.RowFails seg sel e
    | .error (.exc e) t => t = u ∧ (u.RowFails seg sel e ∨ e.dfClass = .pageFault)
    | .error (.refuse _) _ => True := by
  unfold checkSelector
  by_cases hn : isNull sel = true
  · rw [if_pos hn]
    have nr : seg ≠ .cs → seg ≠ .ss → ∀ e, ¬u.RowFails seg sel e := by
      rintro h1 h2 e (⟨_, h | h, _⟩ | ⟨h, _⟩ | ⟨h, _⟩)
      · exact h1 h
      · exact h2 h
      · rw [hn] at h
        cases h
      · rw [hn] at h
        cases h
    cases seg
    case cs => exact ⟨rfl, .inl (.inl ⟨hn, .inl rfl, rfl⟩)⟩
    case ss => exact ⟨rfl, .inl (.inl ⟨hn, .inr rfl, rfl⟩)⟩
    all_goals exact ⟨rfl, rfl, rfl, by rw [if_pos hn]; rfl, nr (by decide) (by decide)⟩
  · rw [if_neg hn]
    have hn' : isNull sel = false := by simpa using hn
    have h1 := readDesc_spec (.invalidTss (selError sel)) sel u
    rw [bind_run]
    cases hr : readDesc (.invalidTss (selError sel)) sel u with
    | error e t =>
      rw [hr] at h1
      cases e with
      | refuse r => trivial
      | exc e =>
        obtain ⟨rfl, ⟨h, rfl⟩ | h⟩ := h1
        · exact ⟨rfl, .inl (.inr (.inl ⟨hn', h, rfl⟩))⟩
        · exact ⟨rfl, .inr h⟩
    | ok d t =>
      rw [hr] at h1
      obtain ⟨rfl, hd⟩ := h1
      dsimp only
      rw [bind_ok (look_run _ _)]
      have h2 := segTest_spec seg t.cpl sel d
      cases ht : segTest seg t.cpl sel d with
      | ok sd =>
        rw [ht] at h2
        obtain ⟨h2, rfl⟩ := h2
        refine ⟨rfl, rfl, rfl, by rw [if_neg hn]; exact hd, ?_⟩
        rintro e (⟨h, _⟩ | ⟨_, h, _⟩ | ⟨_, d', hd', ⟨h, _⟩ | ⟨_, ⟨x, hx⟩, _⟩⟩)
        · rw [hn'] at h
          cases h
        · unfold State.descOf at hd
          rw [h] at hd
          cases hd
        · rw [hd] at hd'
          injection hd' with hd'
          subst hd'
          exact h2 h
        · rw [hd] at hd'
          injection hd' with hd'
          subst hd'
          cases hx
      | error f =>
        rw [ht] at h2
        cases f with
        | protection => exact ⟨rfl, .inl (.inr (.inr ⟨hn', d, hd, .inl ⟨h2, rfl⟩⟩))⟩
        | notPresent =>
          refine ⟨rfl, .inl (.inr (.inr ⟨hn', d, hd, .inr ⟨h2.1, h2.2, ?_⟩⟩))⟩
          cases seg <;> rfl

/-- So does the check of the LDT. -/
theorem checkLdt_spec (sel) (u : State) : match checkLdt sel u with
    | .ok l t => t = u ∧ l.sel = sel ∧
        (if isNull sel then l.usable = false else l.usable = true ∧ inLdt sel = false ∧ u.descOf sel = some (.ldt true l.base l.limit)) ∧
        ∀ e, ¬u.LdtFails sel e
    | .error (.exc e) t => t = u ∧ (u.LdtFails sel e ∨ e.dfClass = .pageFault)
    | .error (.refuse _) _ => True := by
  unfold checkLdt
  by_cases hn : isNull sel = true
  · rw [if_pos hn]
    exact ⟨rfl, rfl, by rw [if_pos hn], fun e h => by have := h.1; rw [hn] at this; cases this⟩
  · rw [if_neg hn]
    have hn' : isNull sel = false := by simpa using hn
    by_cases hl : inLdt sel = true
    · rw [hl, Bool.not_true, bind_error (require_false _ _)]
      exact ⟨rfl, .inl ⟨hn', rfl, .inl hl⟩⟩
    · have hl' : inLdt sel = false := by simpa using hl
      rw [hl', Bool.not_false, bind_ok (require_true _ _)]
      have h1 := readDesc_spec (.invalidTss (selError sel)) sel u
      rw [bind_run]
      cases hr : readDesc (.invalidTss (selError sel)) sel u with
      | error e t =>
        rw [hr] at h1
        cases e with
        | refuse r => trivial
        | exc e =>
          obtain ⟨rfl, ⟨h, rfl⟩ | h⟩ := h1
          · exact ⟨rfl, .inl ⟨hn', rfl, .inr (.inl h)⟩⟩
          · exact ⟨rfl, .inr h⟩
      | ok d t =>
        rw [hr] at h1
        obtain ⟨rfl, hd⟩ := h1
        dsimp only
        have bad : (∀ b l, d ≠ .ldt true b l) → t.LdtFails sel (.invalidTss (selError sel)) := fun h => ⟨hn', rfl, .inr (.inr ⟨d, hd, h⟩)⟩
        by_cases hd' : ∃ b l, d = .ldt true b l
        · obtain ⟨b, l, rfl⟩ := hd'
          refine ⟨rfl, rfl, by rw [if_neg hn]; exact ⟨rfl, rfl, hd⟩, ?_⟩
          rintro e ⟨_, _, h | h | ⟨d', hd', h⟩⟩
          · exact hl h
          · unfold State.descOf at hd
            rw [h] at hd
            cases hd
          · rw [hd] at hd'
            injection hd' with hd'
            exact h b l hd'.symm
        · have hb := bad (fun b l h => hd' ⟨b, l, h⟩)
          cases d with
          | ldt p b l =>
            cases p
            · exact ⟨rfl, .inl hb⟩
            · exact absurd ⟨b, l, rfl⟩ hd'
          | _ => exact ⟨rfl, .inl hb⟩

/-- What the check of a segment register answers in `u`. -/
def State.Checks (u : State) (seg : SegReg) (x : Except Exc SegState) : Prop :=
  let sel := (u.segs.get seg).sel
  match x with
  | .ok v => v.sel = sel ∧ v.checked = true ∧ (if isNull sel then v.desc = nullDesc else u.descOf sel = some (.seg true v.desc)) ∧
      ∀ e, ¬u.RowFails seg sel e
  | .error e => u.RowFails seg sel e ∨ e.dfClass = .pageFault

/-- The checks of some segment registers: one for each that is checked, all made in the same state. -/
theorem checkSegs_spec (ok : Bool) (u : State) (l : List SegReg) : match checkSegs ok l u with
    | .ok cs t => t = u ∧ (∀ y ∈ cs, State.Checks u y.1 y.2 ∧ ((!ok && inLdt (u.segs.get y.1).sel) = false)) ∧
        (∀ seg ∈ l, (!ok && inLdt (u.segs.get seg).sel) = false → ∃ x, (seg, x) ∈ cs) ∧ (∀ y ∈ cs, ∀ z ∈ cs, y.1 = z.1 → y.2 = z.2)
    | .error (.exc _) _ => False
    | .error (.refuse _) _ => True := by
  have main : match checkSegs ok l u with
    | .ok cs t => t = u ∧
        (∀ y ∈ cs, attempt (checkSelector .invalidTss y.1 (u.segs.get y.1).sel) u = .ok y.2 u ∧ ((!ok && inLdt (u.segs.get y.1).sel) = false)) ∧
        (∀ seg ∈ l, (!ok && inLdt (u.segs.get seg).sel) = false → ∃ x, (seg, x) ∈ cs)
    | .error (.exc _) _ => False
    | .error (.refuse _) _ => True := by
    induction l with
    | nil => exact ⟨rfl, by simp, by simp⟩
    | cons seg r ih =>
      unfold checkSegs
      rw [bind_ok (look_run _ _)]
      by_cases hs : (!ok && inLdt (u.segs.get seg).sel) = true
      · rw [if_pos hs]
        cases hr : checkSegs ok r u with
        | error e t => rw [hr] at ih; cases e <;> exact ih
        | ok cs t =>
          rw [hr] at ih
          refine ⟨ih.1, ih.2.1, fun q hq hn => ?_⟩
          rcases List.mem_cons.mp hq with rfl | hq
          · rw [hs] at hn
            cases hn
          · exact ih.2.2 q hq hn
      · rw [if_neg hs]
        have h1 := checkSelector_spec seg (u.segs.get seg).sel u
        have ha : (∃ x, attempt (checkSelector .invalidTss seg (u.segs.get seg).sel) u = .ok x u) ∨
            (∃ r t, attempt (checkSelector .invalidTss seg (u.segs.get seg).sel) u = .error (.refuse r) t) := by
          unfold attempt
          cases hr : checkSelector .invalidTss seg (u.segs.get seg).sel u with
          | ok v t =>
            rw [hr] at h1
            obtain ⟨rfl, -⟩ := h1
            exact .inl ⟨_, rfl⟩
          | error e t =>
            rw [hr] at h1
            cases e with
            | exc e =>
              obtain ⟨rfl, -⟩ := h1
              exact .inl ⟨_, rfl⟩
            | refuse r => exact .inr ⟨r, t, rfl⟩
        rcases ha with ⟨x, ha⟩ | ⟨r', t, ha⟩
        · rw [bind_ok ha, bind_run]
          cases hr : checkSegs ok r u with
          | error e t => rw [hr] at ih; cases e <;> exact ih
          | ok cs t =>
            rw [hr] at ih
            obtain ⟨rfl, h2, h3⟩ := ih
            refine ⟨rfl, ?_, ?_⟩
            · intro y hy
              rcases List.mem_cons.mp hy with rfl | hy
              · exact ⟨ha, by simpa using hs⟩
              · exact h2 y hy
            · intro q hq hn
              rcases List.mem_cons.mp hq with rfl | hq
              · exact ⟨x, by simp⟩
              · obtain ⟨y, hy⟩ := h3 q hq hn
                exact ⟨y, by simp [hy]⟩
        · rw [bind_error ha]
          trivial
  cases hr : checkSegs ok l u with
  | error e t => rw [hr] at main; cases e <;> exact main
  | ok cs t =>
    rw [hr] at main
    obtain ⟨rfl, h1, h2⟩ := main
    refine ⟨rfl, fun y hy => ⟨?_, (h1 y hy).2⟩, h2, ?_⟩
    · have h := (h1 y hy).1
      have h3 := checkSelector_spec y.1 (t.segs.get y.1).sel t
      unfold attempt at h
      unfold State.Checks
      cases hc : checkSelector .invalidTss y.1 (t.segs.get y.1).sel t with
      | ok v u =>
        rw [hc] at h h3
        injection h with h _
        rw [← h]
        exact h3.2
      | error e u =>
        rw [hc] at h h3
        cases e with
        | exc e =>
          injection h with h _
          rw [← h]
          exact h3.2
        | refuse r => cases h
    · intro y hy z hz he
      have a := (h1 y hy).1
      have b := (h1 z hz).1
      rw [he, b] at a
      injection a with a _
      exact a.symm

theorem SegRegs.get_set (g : SegRegs) (a b v) : (g.set a v).get b = if b = a then v else g.get b := by
  cases a <;> cases b <;> rfl

/-- Marking never fails, and changes only the registers that passed; all of them where all passed. -/
theorem markChecked_spec (all : Bool) (cs : List (SegReg × Except Exc SegState)) (hu : ∀ y ∈ cs, ∀ z ∈ cs, y.1 = z.1 → y.2 = z.2) :
    ∀ u : State,
    ∃ g c, markChecked all cs u = .ok () { u with segs := g, freeCtr := c } ∧
      (∀ seg, g.get seg = u.segs.get seg ∨ ∃ v, (seg, .ok v) ∈ cs ∧ g.get seg = v) ∧
      (all = true → ∀ seg v, (seg, .ok v) ∈ cs → g.get seg = v) := by
  induction cs with
  | nil => exact fun u => ⟨u.segs, u.freeCtr, rfl, fun _ => .inl rfl, by simp⟩
  | cons y r ih =>
    have ih := ih (fun a ha b hb => hu a (by simp [ha]) b (by simp [hb]))
    intro u
    obtain ⟨seg, x⟩ := y
    cases x with
    | error e =>
      obtain ⟨g, c, h1, h2, h3⟩ := ih u
      refine ⟨g, c, h1, fun q => ?_, fun ha q v hv => ?_⟩
      · rcases h2 q with h | ⟨v, h, h'⟩
        · exact .inl h
        · exact .inr ⟨v, by simp [h], h'⟩
      · refine h3 ha q v ?_
        rcases List.mem_cons.mp hv with hv | hv
        · cases hv
        · exact hv
    | ok v =>
      have hx : ∃ made c0, madeBefore all u = .ok made { u with freeCtr := c0 } ∧ (all = true → made = true) := by
        cases all
        · exact ⟨Config.freeBit u.freeCtr, u.freeCtr + 1, rfl, by simp⟩
        · exact ⟨true, u.freeCtr, rfl, by simp⟩
      obtain ⟨made, c0, h0, hm⟩ := hx
      unfold markChecked
      rw [bind_ok h0]
      cases made
      · rw [onlyIf_false, bind_ok (pure_run _ _)]
        obtain ⟨g, c, h1, h2, h3⟩ := ih { u with freeCtr := c0 }
        refine ⟨g, c, h1, fun q => ?_, fun ha => absurd (hm ha) (by decide)⟩
        rcases h2 q with h | ⟨w, h, h'⟩
        · exact .inl h
        · exact .inr ⟨w, by simp [h], h'⟩
      · rw [onlyIf_true, bind_ok (change_run _ _)]
        obtain ⟨g, c, h1, h2, h3⟩ := ih { u with segs := u.segs.set seg v, freeCtr := c0 }
        refine ⟨g, c, h1, fun q => ?_, fun ha q w hw => ?_⟩
        · rcases h2 q with h | ⟨w, h, h'⟩
          · change g.get q = (u.segs.set seg v).get q at h
            rw [SegRegs.get_set] at h
            by_cases hq : q = seg
            · rw [if_pos hq] at h
              exact .inr ⟨v, by simp [hq], h⟩
            · rw [if_neg hq] at h
              exact .inl h
          · exact .inr ⟨w, by simp [h], h'⟩
        · rcases List.mem_cons.mp hw with hw | hw
          · obtain ⟨rfl, rfl⟩ : q = seg ∧ w = v := by simpa using hw
            rcases h2 q with h | ⟨w', h, h'⟩
            · change g.get q = (u.segs.set q w).get q at h
              rw [SegRegs.get_set, if_pos rfl] at h
              exact h
            · have := hu (q, .ok w) (by simp) (q, .ok w') (by simp [h]) rfl
              injection this with this
              rw [h', this]
          · exact h3 ha q w hw

/-- The exceptions among the checks. -/
theorem mem_failures {l e} : e ∈ failures l ↔ ∃ seg, (seg, Except.error e) ∈ l := by
  induction l with
  | nil => simp [failures]
  | cons y r ih =>
    obtain ⟨seg, x⟩ := y
    cases x with
    | ok v => simp [failures, ih]
    | error f =>
      simp only [failures, List.mem_cons, ih]
      constructor
      · rintro (rfl | ⟨q, h⟩)
        · exact ⟨seg, .inl rfl⟩
        · exact ⟨q, .inr h⟩
      · rintro ⟨q, h | h⟩
        · injection h with _ h
          injection h with h
          exact .inl h
        · exact .inr ⟨q, h⟩

/-- One of the exceptions is raised, where there is one. -/
theorem reportOne_spec (l : List Exc) (u : State) : match reportOne l u with
    | .ok _ t => t = u ∧ l = []
    | .error (.exc e) t => (∃ c, t = { u with freeCtr := c }) ∧ e ∈ l
    | .error (.refuse _) _ => False := by
  match l with
  | [] => exact ⟨rfl, rfl⟩
  | [e] => exact ⟨⟨u.freeCtr, rfl⟩, by simp⟩
  | e :: f :: r =>
    have hrun : reportOne (e :: f :: r) u = .error (.exc ((e :: f :: r).getD ((Config.freeWord u.freeCtr).toNat % ((f :: r).length + 1)) e)) u.drawn := rfl
    rw [hrun]
    refine ⟨⟨u.freeCtr + 1, rfl⟩, ?_⟩
    simp only [List.getD_eq_getElem?_getD]
    cases hg : (e :: f :: r)[(Config.freeWord u.freeCtr).toNat % ((f :: r).length + 1)]? with
    | none => simp
    | some x => exact List.mem_of_getElem? hg

/-- What the checks leave alone: all but what the registers hold beside their selectors, and the count of open values. -/
structure State.Rechecked (u t : State) : Prop where
  mem : t.mem = u.mem
  regs : t.gpr = u.gpr ∧ t.eip = u.eip ∧ t.eflags = u.eflags ∧ t.cr3 = u.cr3 ∧ t.cr0 = u.cr0 ∧ t.cpl = u.cpl ∧
    t.taskTrap = u.taskTrap ∧ t.tr = u.tr ∧ t.switching = u.switching
  segs : ∀ seg, (t.segs.get seg).sel = (u.segs.get seg).sel
  ldtr : t.ldtr.sel = u.ldtr.sel

theorem translateAll_ldtr (u : State) (r w us n) : ∀ lin, translateAll { u with ldtr := r } w us n lin = translateAll u w us n lin := by
  induction n with
  | zero => exact fun _ => rfl
  | succ n ih =>
    intro lin
    unfold translateAll
    rw [ih]
    rfl

theorem ldtFails_ldtr (u : State) (r sel e) : State.LdtFails { u with ldtr := r } sel e ↔ u.LdtFails sel e := by
  unfold State.LdtFails
  by_cases h : inLdt sel = true
  · simp [h]
  · have ha : descAddr { u with ldtr := r } sel = descAddr u sel := by unfold descAddr; rw [if_neg h, if_neg h]
    have hd : State.descOf { u with ldtr := r } sel = u.descOf sel := by
      unfold State.descOf State.mapped State.valueAt
      rw [ha]
      simp only [translateAll_ldtr]
    rw [ha, hd]

theorem ldtFails_frame (u : State) (g c sel e) : State.LdtFails { u with segs := g, freeCtr := c } sel e ↔ u.LdtFails sel e := by
  unfold State.LdtFails
  rw [descOf_frame]
  exact Iff.rfl

/-- Step 5 of a task switch: every check passes, or it raises a page fault or the exception of a check that fails (R153, R154). -/
theorem checkTask_spec (u : State) : match checkTask u with
    | .ok _ t => u.Rechecked t ∧ t.TaskChecked
    | .error (.exc e) t => u.Rechecked t ∧ (e.dfClass = .pageFault ∨ t.TaskFails e)
    | .error (.refuse _) _ => True := by
  unfold checkTask
  rw [bind_ok (look_run _ _)]
  have h1 := checkLdt_spec u.ldtr.sel u
  -- the LDT
  have hL : (∃ r, (∃ t, attempt (checkLdt u.ldtr.sel) u = .error (.refuse r) t)) ∨
      ∃ x, attempt (checkLdt u.ldtr.sel) u = .ok x u ∧ match x with
        | .ok l => l.sel = u.ldtr.sel ∧
          (if isNull u.ldtr.sel then l.usable = false else l.usable = true ∧ inLdt u.ldtr.sel = false ∧ u.descOf u.ldtr.sel = some (.ldt true l.base l.limit)) ∧
          ∀ e, ¬u.LdtFails u.ldtr.sel e
        | .error e => u.LdtFails u.ldtr.sel e ∨ e.dfClass = .pageFault := by
    unfold attempt
    cases hr : checkLdt u.ldtr.sel u with
    | ok l t =>
      rw [hr] at h1
      obtain ⟨rfl, h1⟩ := h1
      exact .inr ⟨_, rfl, h1⟩
    | error e t =>
      rw [hr] at h1
      cases e with
      | exc e =>
        obtain ⟨rfl, h1⟩ := h1
        exact .inr ⟨_, rfl, h1⟩
      | refuse r => exact .inl ⟨r, t, rfl⟩
  rcases hL with ⟨r, t, ha⟩ | ⟨x, ha, hx⟩
  · rw [bind_error ha]
    trivial
  rw [bind_ok ha]
  -- the state of the checks
  have hT : ∃ bad u1, takeLdt x u = .ok bad u1 ∧ (∃ l, u1 = { u with ldtr := l } ∧ l.sel = u.ldtr.sel ∧ (bad = [] → x = .ok l)) ∧
      (∀ e ∈ bad, u.LdtFails u.ldtr.sel e ∨ e.dfClass = .pageFault) ∧ ((∃ e, u.LdtFails u.ldtr.sel e) → bad ≠ []) := by
    cases x with
    | ok l => exact ⟨[], _, rfl, ⟨l, rfl, hx.1, fun _ => rfl⟩, by simp, fun ⟨e, he⟩ => absurd he (hx.2.2 e)⟩
    | error e => exact ⟨[e], u, rfl, ⟨u.ldtr, rfl, rfl, by simp⟩, by simpa using hx, by simp⟩
  obtain ⟨bad, u1, ht, ⟨l, hu1, hl, hok⟩, hbad, hfail⟩ := hT
  rw [bind_ok ht]
  have h2 := checkSegs_spec bad.isEmpty u1 [.ss, .cs, .ds, .es, .fs, .gs]
  rw [bind_run]
  cases hr : checkSegs bad.isEmpty [.ss, .cs, .ds, .es, .fs, .gs] u1 with
  | error e t =>
    rw [hr] at h2
    cases e with
    | exc e => exact h2.elim
    | refuse r => trivial
  | ok cs t =>
    rw [hr] at h2
    obtain ⟨rfl, h3, h4, h5⟩ := h2
    dsimp only
    obtain ⟨g, c, h6, h7, h8⟩ := markChecked_spec (bad ++ failures cs).isEmpty cs h5 t
    rw [bind_ok h6]
    have hsel : ∀ seg, (g.get seg).sel = (u.segs.get seg).sel := by
      intro seg
      have ht : t.segs = u.segs := by rw [hu1]
      rcases h7 seg with h | ⟨v, h, h'⟩
      · rw [h, ht]
      · rw [h']
        have := (h3 _ h).1.1
        rw [this, ht]
    have hC : ∀ c, State.Rechecked u { t with segs := g, freeCtr := c } := by
      intro c
      refine ⟨by rw [hu1], by rw [hu1]; exact ⟨rfl, rfl, rfl, rfl, rfl, rfl, rfl, rfl, rfl⟩, hsel, ?_⟩
      rw [hu1]
      exact hl
    have hLd : ∀ c e, State.LdtFails { t with segs := g, freeCtr := c } t.ldtr.sel e ↔ u.LdtFails u.ldtr.sel e := by
      intro c e
      rw [ldtFails_frame, hu1]
      show State.LdtFails { u with ldtr := l } l.sel e ↔ _
      rw [ldtFails_ldtr, hl]
    have hRw : ∀ c seg e, State.RowFails { t with segs := g, freeCtr := c } seg (g.get seg).sel e ↔ t.RowFails seg (t.segs.get seg).sel e := by
      intro c seg e
      rw [rowFails_frame, hsel, hu1]
    have h9 := reportOne_spec (bad ++ failures cs) { t with segs := g, freeCtr := c }
    cases hq : reportOne (bad ++ failures cs) { t with segs := g, freeCtr := c } with
    | ok a t' =>
      rw [hq] at h9
      obtain ⟨rfl, h9⟩ := h9
      have hb : bad = [] ∧ failures cs = [] := by simpa using h9
      refine ⟨hC c, ?_, ?_, ?_, ?_⟩
      · intro e he
        exact hfail ⟨e, (hLd c e).mp he⟩ hb.1
      · intro seg e he
        have he := (hRw c seg e).mp he
        obtain ⟨x, hx⟩ := h4 seg (by cases seg <;> simp) (by rw [hb.1]; rfl)
        have := (h3 _ hx).1
        cases x with
        | ok v => exact this.2.2.2 e he
        | error f =>
          have : f ∈ failures cs := mem_failures.mpr ⟨seg, hx⟩
          rw [hb.2] at this
          cases this
      · have hxl := hok hb.1
        rw [hxl] at hx
        dsimp only at hx
        have hl' : ({ t with segs := g, freeCtr := c } : State).ldtr = l := by rw [hu1]
        rw [descOf_frame, hl', hl]
        by_cases hn : isNull u.ldtr.sel = true
        · rw [if_pos hn] at hx ⊢
          exact hx.2.1
        · rw [if_neg hn] at hx ⊢
          refine ⟨hx.2.1.1, ?_⟩
          rw [hu1]
          have : State.descOf { u with ldtr := l } u.ldtr.sel = u.descOf u.ldtr.sel := by
            unfold State.descOf State.mapped State.valueAt
            have ha : descAddr { u with ldtr := l } u.ldtr.sel = descAddr u u.ldtr.sel := by unfold descAddr; rw [hx.2.1.2.1]; rfl
            rw [ha]
            simp only [translateAll_ldtr]
          rw [this]
          exact hx.2.1.2.2
      · intro seg
        obtain ⟨x, hx⟩ := h4 seg (by cases seg <;> simp) (by rw [hb.1]; rfl)
        cases x with
        | error f =>
          have : f ∈ failures cs := mem_failures.mpr ⟨seg, hx⟩
          rw [hb.2] at this
          cases this
        | ok v =>
          have hg := h8 (by rw [h9]; rfl) seg v hx
          have := (h3 _ hx).1
          show (g.get seg).checked = true ∧ if isNull (g.get seg).sel then (g.get seg).desc = nullDesc else
            State.descOf { t with segs := g, freeCtr := c } (g.get seg).sel = some (.seg true (g.get seg).desc)
          rw [descOf_frame, hg]
          refine ⟨this.2.1, ?_⟩
          rw [this.1]
          exact this.2.2.1
    | error e t' =>
      rw [hq] at h9
      cases e with
      | refuse r => exact h9.elim
      | exc e =>
        obtain ⟨⟨c', rfl⟩, hm⟩ := h9
        refine ⟨hC c', ?_⟩
        rcases List.mem_append.mp hm with hm | hm
        · rcases hbad e hm with h | h
          · exact .inr (.inl ((hLd c' e).mpr h))
          · exact .inl h
        · obtain ⟨seg, hs⟩ := mem_failures.mp hm
          obtain ⟨hs1, hs2⟩ := h3 _ hs
          rcases hs1 with h | h
          · refine .inr (.inr ⟨seg, (hRw c' seg e).mpr h, ?_⟩)
            rintro ⟨y, hy⟩
            have hne := hfail ⟨y, (hLd c' y).mp hy⟩
            show inLdt (g.get seg).sel = false
            rw [hsel]
            have ht : t.segs = u.segs := by rw [hu1]
            rw [ht] at hs2
            cases bad with
            | nil => exact absurd rfl hne
            | cons a b => simpa using hs2
          · exact .inl h

end Sys2Proof.Machine
end

