-- ==== Sys2Proof/Laws/PerInstr.lean ====
section
/-! SUPPORT. What holds of every instruction as syntax, constructor by constructor: its encoding, with no redundant byte before the opcode, is 1 to 15
bytes long (R70, R73: the length limit "can occur only if redundant prefixes are placed before an instruction"). -/

namespace Sys2Proof

/-! ## Lengths of the parts -/

theorem wordBytes_length (w : Word16) : (wordBytes w).length = 2 := rfl

theorem dwordBytes_length (w : Word32) : (dwordBytes w).length = 4 := rfl

theorem ImmV.toBytes_length (i : ImmV) : i.toBytes.length ≤ 4 := by cases i <;> simp [ImmV.toBytes, wordBytes, dwordBytes]

theorem EA.toBytes_length (reg : BitVec 3) (ea : EA) : (ea.toBytes reg).length ≤ 6 := by
  cases ea with
  | a16 b d => cases d <;> simp [EA.toBytes, Disp16.toBytes, wordBytes]
  | direct16 w => simp [EA.toBytes, wordBytes]
  | a32 b d => cases d <;> simp [EA.toBytes, Disp32.toBytes, wordBytes, dwordBytes]
  | direct32 w => simp [EA.toBytes, wordBytes, dwordBytes]
  | sib s i b d => cases d <;> simp [EA.toBytes, Disp32.toBytes, wordBytes, dwordBytes]
  | sibDirect s i w => simp [EA.toBytes, wordBytes, dwordBytes]

theorem RM.toBytes_length (reg : BitVec 3) (rm : RM) : (rm.toBytes reg).length ≤ 6 := by
  cases rm with
  | reg r => simp [RM.toBytes]
  | mem m => exact EA.toBytes_length reg m.ea

theorem opLead_length (d32 : Bool) (o : Option OpSize) : (opLead d32 o).length ≤ 1 := by
  cases o with
  | none => simp [opLead]
  | some sz => cases sz <;> cases d32 <;> simp [opLead]

theorem segLead_length (o : Option SegReg) : (segLead o).length ≤ 1 := by
  cases o with
  | none => simp [segLead]
  | some s => cases s <;> simp [segLead]

theorem rmLead_length (d32 : Bool) (o : Option RM) : (rmLead d32 o).length ≤ 2 := by
  cases o with
  | none => simp [rmLead]
  | some rm =>
    cases rm with
    | reg r => simp [rmLead]
    | mem m =>
      have h := segLead_length m.ovr
      simp only [rmLead, List.length_append]
      split <;> simp <;> omega

/-- What precedes the body is at most three bytes long. -/
theorem encode_length {d32 : Bool} {i : Instr} {n : Nat} (lo : 1 ≤ i.body.length) (hi : i.body.length ≤ n) :
    1 ≤ (encode d32 i).length ∧ (encode d32 i).length ≤ n + 3 := by
  have h1 := opLead_length d32 i.opSize?
  have h2 := rmLead_length d32 i.rm?
  simp only [encode, List.length_append]
  omega

end Sys2Proof

namespace Sys2Proof.Laws.Encoding

/-- A well-formed instruction's own encoding is 1 to 15 bytes long. -/
def Statement (i : Instr) : Prop := i.wf = true → ∀ d32, 1 ≤ (encode d32 i).length ∧ (encode d32 i).length ≤ Config.maxInstrLen

theorem of_body {i : Instr} (lo : 1 ≤ i.body.length) (hi : i.body.length ≤ 12) : Statement i := fun _ _ => encode_length lo hi

theorem divRm8 (rm : RM) : Statement (.divRm8 rm) :=
  of_body (by simp [Instr.body]) (by simp only [Instr.body, List.length_cons]; have h := RM.toBytes_length (6 : BitVec 3) rm; omega)

theorem divRmv (sz : OpSize) (rm : RM) : Statement (.divRmv sz rm) :=
  of_body (by simp [Instr.body]) (by simp only [Instr.body, List.length_cons]; have h := RM.toBytes_length (6 : BitVec 3) rm; omega)

theorem idivRm8 (rm : RM) : Statement (.idivRm8 rm) :=
  of_body (by simp [Instr.body]) (by simp only [Instr.body, List.length_cons]; have h := RM.toBytes_length (7 : BitVec 3) rm; omega)

theorem idivRmv (sz : OpSize) (rm : RM) : Statement (.idivRmv sz rm) :=
  of_body (by simp [Instr.body]) (by simp only [Instr.body, List.length_cons]; have h := RM.toBytes_length (7 : BitVec 3) rm; omega)

theorem int3 : Statement (.int3) :=
  of_body (by simp [Instr.body]) (by simp [Instr.body])

theorem intImm (n : Byte) : Statement (.intImm n) :=
  of_body (by simp [Instr.body]) (by simp [Instr.body])

theorem into : Statement (.into) :=
  of_body (by simp [Instr.body]) (by simp [Instr.body])

theorem bound (sz : OpSize) (r : Reg) (rm : RM) : Statement (.bound sz r rm) :=
  of_body (by simp [Instr.body]) (by simp only [Instr.body, List.length_cons]; have h := RM.toBytes_length (r.toBits : BitVec 3) rm; omega)

theorem esc (op : BitVec 3) (reg : BitVec 3) (rm : RM) : Statement (.esc op reg rm) :=
  of_body (by simp [Instr.body]) (by simp only [Instr.body, List.length_cons]; have h := RM.toBytes_length (reg : BitVec 3) rm; omega)

theorem wait : Statement (.wait) :=
  of_body (by simp [Instr.body]) (by simp [Instr.body])

theorem jmpRel8 (sz : OpSize) (disp : Byte) : Statement (.jmpRel8 sz disp) :=
  of_body (by simp [Instr.body]) (by simp [Instr.body])

theorem jmpRelv (disp : ImmV) : Statement (.jmpRelv disp) :=
  of_body (by simp [Instr.body]) (by have h := disp.toBytes_length; simp [Instr.body]; omega)

theorem jmpRmv (sz : OpSize) (rm : RM) : Statement (.jmpRmv sz rm) :=
  of_body (by simp [Instr.body]) (by simp only [Instr.body, List.length_cons]; have h := RM.toBytes_length (4 : BitVec 3) rm; omega)

theorem jmpPtr (off : ImmV) (sel : Word16) : Statement (.jmpPtr off sel) :=
  of_body (by simp [Instr.body]) (by have h := off.toBytes_length; simp [Instr.body, wordBytes]; omega)

theorem jmpMem (sz : OpSize) (rm : RM) : Statement (.jmpMem sz rm) :=
  of_body (by simp [Instr.body]) (by simp only [Instr.body, List.length_cons]; have h := RM.toBytes_length (5 : BitVec 3) rm; omega)

theorem callRelv (disp : ImmV) : Statement (.callRelv disp) :=
  of_body (by simp [Instr.body]) (by have h := disp.toBytes_length; simp [Instr.body]; omega)

theorem callRmv (sz : OpSize) (rm : RM) : Statement (.callRmv sz rm) :=
  of_body (by simp [Instr.body]) (by simp only [Instr.body, List.length_cons]; have h := RM.toBytes_length (2 : BitVec 3) rm; omega)

theorem callPtr (off : ImmV) (sel : Word16) : Statement (.callPtr off sel) :=
  of_body (by simp [Instr.body]) (by have h := off.toBytes_length; simp [Instr.body, wordBytes]; omega)

theorem callMem (sz : OpSize) (rm : RM) : Statement (.callMem sz rm) :=
  of_body (by simp [Instr.body]) (by simp only [Instr.body, List.length_cons]; have h := RM.toBytes_length (3 : BitVec 3) rm; omega)

theorem retf (sz : OpSize) : Statement (.retf sz) :=
  of_body (by simp [Instr.body]) (by simp [Instr.body])

theorem retfImm (sz : OpSize) (n : Word16) : Statement (.retfImm sz n) :=
  of_body (by simp [Instr.body]) (by simp [Instr.body, wordBytes])

theorem iret (sz : OpSize) : Statement (.iret sz) :=
  of_body (by simp [Instr.body]) (by simp [Instr.body])

theorem lds (sz : OpSize) (r : Reg) (rm : RM) : Statement (.lds sz r rm) :=
  of_body (by simp [Instr.body]) (by simp only [Instr.body, List.length_cons]; have h := RM.toBytes_length (r.toBits : BitVec 3) rm; omega)

theorem les (sz : OpSize) (r : Reg) (rm : RM) : Statement (.les sz r rm) :=
  of_body (by simp [Instr.body]) (by simp only [Instr.body, List.length_cons]; have h := RM.toBytes_length (r.toBits : BitVec 3) rm; omega)

theorem lss (sz : OpSize) (r : Reg) (rm : RM) : Statement (.lss sz r rm) :=
  of_body (by simp [Instr.body]) (by simp only [Instr.body, List.length_cons]; have h := RM.toBytes_length (r.toBits : BitVec 3) rm; omega)

theorem lfs (sz : OpSize) (r : Reg) (rm : RM) : Statement (.lfs sz r rm) :=
  of_body (by simp [Instr.body]) (by simp only [Instr.body, List.length_cons]; have h := RM.toBytes_length (r.toBits : BitVec 3) rm; omega)

theorem lgs (sz : OpSize) (r : Reg) (rm : RM) : Statement (.lgs sz r rm) :=
  of_body (by simp [Instr.body]) (by simp only [Instr.body, List.length_cons]; have h := RM.toBytes_length (r.toBits : BitVec 3) rm; omega)

theorem lldt (rm : RM) : Statement (.lldt rm) :=
  of_body (by simp [Instr.body]) (by simp only [Instr.body, List.length_cons]; have h := RM.toBytes_length (2 : BitVec 3) rm; omega)

theorem movSregRm (sreg : BitVec 3) (rm : RM) : Statement (.movSregRm sreg rm) :=
  of_body (by simp [Instr.body]) (by simp only [Instr.body, List.length_cons]; have h := RM.toBytes_length (sreg : BitVec 3) rm; omega)

theorem movRmSreg (rm : RM) (sreg : BitVec 3) : Statement (.movRmSreg rm sreg) :=
  of_body (by simp [Instr.body]) (by simp only [Instr.body, List.length_cons]; have h := RM.toBytes_length (sreg : BitVec 3) rm; omega)

theorem popEs (sz : OpSize) : Statement (.popEs sz) :=
  of_body (by simp [Instr.body]) (by simp [Instr.body])

theorem popSs (sz : OpSize) : Statement (.popSs sz) :=
  of_body (by simp [Instr.body]) (by simp [Instr.body])

theorem popDs (sz : OpSize) : Statement (.popDs sz) :=
  of_body (by simp [Instr.body]) (by simp [Instr.body])

theorem popFs (sz : OpSize) : Statement (.popFs sz) :=
  of_body (by simp [Instr.body]) (by simp [Instr.body])

theorem popGs (sz : OpSize) : Statement (.popGs sz) :=
  of_body (by simp [Instr.body]) (by simp [Instr.body])

theorem pushEs (sz : OpSize) : Statement (.pushEs sz) :=
  of_body (by simp [Instr.body]) (by simp [Instr.body])

theorem pushCs (sz : OpSize) : Statement (.pushCs sz) :=
  of_body (by simp [Instr.body]) (by simp [Instr.body])

theorem pushSs (sz : OpSize) : Statement (.pushSs sz) :=
  of_body (by simp [Instr.body]) (by simp [Instr.body])

theorem pushDs (sz : OpSize) : Statement (.pushDs sz) :=
  of_body (by simp [Instr.body]) (by simp [Instr.body])

theorem pushFs (sz : OpSize) : Statement (.pushFs sz) :=
  of_body (by simp [Instr.body]) (by simp [Instr.body])

theorem pushGs (sz : OpSize) : Statement (.pushGs sz) :=
  of_body (by simp [Instr.body]) (by simp [Instr.body])

theorem movCrR (cr : CtlReg) (r : Reg) : Statement (.movCrR cr r) :=
  of_body (by simp [Instr.body]) (by simp [Instr.body])

theorem movRCr (r : Reg) (cr : CtlReg) : Statement (.movRCr r cr) :=
  of_body (by simp [Instr.body]) (by simp [Instr.body])

theorem pushReg (sz : OpSize) (r : Reg) : Statement (.pushReg sz r) :=
  of_body (by simp [Instr.body]) (by simp [Instr.body])

theorem pushRm (sz : OpSize) (rm : RM) : Statement (.pushRm sz rm) :=
  of_body (by simp [Instr.body]) (by simp only [Instr.body, List.length_cons]; have h := RM.toBytes_length (6 : BitVec 3) rm; omega)

theorem pushImm8 (sz : OpSize) (i : Byte) : Statement (.pushImm8 sz i) :=
  of_body (by simp [Instr.body]) (by simp [Instr.body])

theorem pushImmv (i : ImmV) : Statement (.pushImmv i) :=
  of_body (by simp [Instr.body]) (by have h := i.toBytes_length; simp [Instr.body]; omega)

theorem popReg (sz : OpSize) (r : Reg) : Statement (.popReg sz r) :=
  of_body (by simp [Instr.body]) (by simp [Instr.body])

theorem popRm (sz : OpSize) (rm : RM) : Statement (.popRm sz rm) :=
  of_body (by simp [Instr.body]) (by simp only [Instr.body, List.length_cons]; have h := RM.toBytes_length (0 : BitVec 3) rm; omega)

theorem enter (sz : OpSize) (size : Word16) (level : Byte) : Statement (.enter sz size level) :=
  of_body (by simp [Instr.body]) (by simp [Instr.body, wordBytes])

theorem leave (sz : OpSize) : Statement (.leave sz) :=
  of_body (by simp [Instr.body]) (by simp [Instr.body])

theorem movRRm (sz : OpSize) (r : Reg) (rm : RM) : Statement (.movRRm sz r rm) :=
  of_body (by simp [Instr.body]) (by simp only [Instr.body, List.length_cons]; have h := RM.toBytes_length (r.toBits : BitVec 3) rm; omega)

end Sys2Proof.Laws.Encoding
end

