-- ==== Sys2Proof/Laws/RunsHandler.lean ====
section
/-! SUPPORT. Entering a handler through a trap or interrupt gate, step by step (R188 to R190), and the parts of an interlevel CALL (R108). -/

namespace Sys2Proof.Machine

/-- The parts of a handler that passes every test. -/
theorem handler_spec {s : State} {soft : Bool} {v : Byte} {h : Handler} (hh : s.handler soft v = some h) :
    ∃ dpl, s.idtEntry v = some (.intGate true dpl h.size h.trap h.sel h.off) ∧ (!soft || decide (s.cpl ≤ dpl)) = true ∧
      isNull h.sel = false ∧ s.descOf h.sel = some (.seg true h.desc) ∧ h.desc.dpl ≤ s.cpl ∧ h.off.toNat ≤ h.desc.limit.toNat ∧
      ∃ c r, h.desc.kind = .code c r := by
  unfold State.handler at hh
  split at hh
  · rename_i dpl size trap sel off hi
    split at hh
    · rename_i hc
      split at hh
      · rename_i d hd
        split at hh
        · rename_i c r hk
          split at hh
          · rename_i hl
            cases hh
            simp only [Bool.and_eq_true, decide_eq_true_eq] at hc hl
            exact ⟨dpl, hi, hc.1, by simpa using hc.2, hd, hl.1, hl.2, c, r, hk⟩
          · cases hh
        · cases hh
      · cases hh
    · cases hh
  · cases hh

theorem idtEntry_spec {s : State} {v : Byte} {g : Desc} (h : s.idtEntry v = some g) :
    8 * v.toNat + 7 ≤ s.idtr.limit.toNat ∧ readDescAt (s.idtr.base + BitVec.ofNat 32 (8 * v.toNat)) s = .ok g s := by
  unfold State.idtEntry at h
  dsimp only at h
  split at h
  · rename_i hc
    cases h
    rw [Bool.and_assoc, Bool.and_eq_true] at hc
    exact ⟨by simpa using hc.1, readDescAt_ok hc.2⟩
  · cases h

/-- The IDT lookup of an event whose entry is a present gate that the event may use. -/
theorem readGate_ok {s : State} {ev : Event} {size : OpSize} {trap : Bool} {sel : Word16} {off : Word32} {dpl : BitVec 2}
    (h : s.idtEntry ev.vector = some (.intGate true dpl size trap sel off)) (hd : (!ev.software || decide (s.cpl ≤ dpl)) = true) :
    readGate ev s = .ok (.intGate true dpl size trap sel off) s := by
  obtain ⟨hl, hg⟩ := idtEntry_spec h
  unfold readGate
  rw [bind_ok (look_run _ _), decide_eq_true hl, bind_ok (require_true _ _), bind_ok hg]
  dsimp only [handlerGate]
  rw [bind_ok (look_run _ _), hd, bind_ok (require_true _ _), bind_ok (require_true _ _)]
  rfl

theorem errImage_run (ec : ErrCode) (s : State) : errImage ec s = .ok (errDrawn s.freeCtr ec) (s.errCounted ec) := by cases ec <;> rfl

theorem innerStack_ok {s : State} {level : BitVec 2} {p : Word16 × Word32} (h : s.tssStack level = some p) : innerStack level s = .ok p s := by
  unfold State.tssStack at h
  dsimp only at h
  split at h
  · rename_i hc
    cases h
    simp only [Bool.and_eq_true, decide_eq_true_eq] at hc
    unfold innerStack
    rw [bind_ok (look_run _ _), decide_eq_true hc.1.1, bind_ok (require_true _ _), bind_ok (readLin_ok hc.1.2), bind_ok (readLin_ok hc.2)]
    rfl
  · cases h

/-- A load of SS that passes its tests leaves SS checked. -/
theorem segLoad_ss_checked {s : State} {sel : Word16} {v : SegState} (h : s.segLoad .ss sel = some v) : v.checked = true := by
  unfold State.segLoad at h
  split at h
  · cases h
  · split at h
    · cases h
    · split at h
      · cases h
        rfl
      · cases h

/-- CS, and the stack switch where the handler is more privileged. -/
theorem enterLevel_ok {s t : State} {h : Handler} (ht : s.handlerStack h = some t) :
    enterLevel h.sel h.desc (h.level s.cpl) s = .ok () t := by
  unfold State.handlerStack at ht
  dsimp only at ht
  unfold enterLevel
  rw [bind_ok (look_run _ _)]
  by_cases hl : h.level s.cpl = s.cpl
  · rw [if_pos hl] at ht
    cases ht
    rw [if_pos (beq_iff_eq.mpr hl)]
    rfl
  · rw [if_neg hl] at ht
    rw [if_neg (by simpa using hl)]
    split at ht
    · cases ht
    · rename_i ss esp hi
      split at ht
      · cases ht
      · rename_i v hv
        cases ht
        rw [bind_ok (innerStack_ok hi)]
        dsimp only
        unfold loadCs
        rw [bind_ok (change_run _ _)]
        show (loadSegReg .ss ss >>= fun _ => setSp esp) _ = _
        rw [bind_ok (loadSegReg_ok hv)]
        exact setSp_ok (segLoad_ss_checked hv) _

theorem pushFrame_ok {s : State} {h : Handler} {pc : Word16 × Word32} (hp : (s.framing h).canPushAll h.size (s.frame h pc) = true) :
    pushFrame h.size (h.level s.cpl != s.cpl) s pc (s.based h) = .ok () (s.framed h pc) := by
  unfold pushFrame
  rw [bind_ok (selImage_run _ _ _), bind_ok (selImage_run _ _ _)]
  exact pushAll_ok _ hp

theorem State.framed_segs (s : State) (h : Handler) (pc : Word16 × Word32) : (s.framed h pc).segs = (s.framing h).segs :=
  (State.pushedAll_frame _ _ _).1

/-- The entry of a handler. -/
theorem enterHandler_ok {s : State} {ev : Event} {h : Handler} {pc : Word16 × Word32} (hp : s.canEnter ev h pc = true) :
    enterHandler ev h.size h.trap h.sel h.desc (h.level s.cpl) h.off pc s = .ok () (s.entered ev h pc) := by
  simp only [State.canEnter, Bool.and_eq_true] at hp
  obtain ⟨⟨⟨hs, hss⟩, hf⟩, he⟩ := hp
  obtain ⟨t, ht⟩ := Option.isSome_iff_exists.mp hs
  have hb : s.based h = t := by
    unfold State.based
    rw [ht]
    rfl
  have hss' : (s.framed h pc).segs.ss.checked = true := by rw [State.framed_segs]; exact hss
  have hn : noteFrame ev (.stack (((s.framed h pc).segs.get .ss).desc.base + (s.framed h pc).sp)) (s.framed h pc) =
      .ok () (s.entryNoted ev h pc) := rfl
  have he' : errImage ev.errCode (s.entryNoted ev h pc) = .ok (errDrawn (s.framed h pc).freeCtr ev.errCode) (s.coding ev h pc) :=
    errImage_run _ _
  have hp := pushFrame_ok hf
  rw [hb] at hp
  unfold enterHandler
  rw [bind_ok (look_run _ _)]
  simp only [id]
  rw [bind_ok (enterLevel_ok ht), bind_ok hp, bind_ok (getSp_ok hss'), bind_ok (segView_ok (seg := .ss) hss'),
    bind_ok hn, bind_ok he', bind_ok (pushAll_ok _ he), bind_ok (change_run _ _)]
  rfl

/-- The registers drawn for an abort leave VM alone (log entry 13). -/
theorem State.regsOpened_vm (s : State) : s.regsOpened.flag flagVM = s.flag flagVM := by
  show (maskMerge abortFlags s.eflags _).getLsbD 17 = s.eflags.getLsbD 17
  simp [maskMerge, abortFlags]

theorem State.faced_vm (s : State) (ev : Event) : (s.faced ev).flag flagVM = s.flag flagVM := by
  unfold State.faced
  split
  · exact s.regsOpened_vm
  · rfl

/-- The start of an attempt: the registers and the saved CS:EIP of an abort drawn, then the gate. -/
theorem invoke_start (s : State) (ev : Event) :
    invoke ev s = (readGate ev >>= fun g =>
      match g with
      | .taskGate _ _ sel => taskHandler ev sel (s.eventPc ev)
      | .intGate _ _ size trap sel off => gateHandler ev size trap sel off (s.eventPc ev)
      | _ => raise (.generalProtection (idtError ev.vector))) (s.faced ev) := by
  unfold invoke savedPc State.eventPc State.faced
  cases ev.isAbort <;> rfl

/-- A trap or interrupt gate's handler is entered. -/
theorem gateHandler_ok {s : State} {ev : Event} {h : Handler} {pc : Word16 × Word32} (hv : s.flag flagVM = false)
    (hh : s.handler ev.software ev.vector = some h) (hp : s.canEnter ev h pc = true) :
    gateHandler ev h.size h.trap h.sel h.off pc s =
      covered (!ev.needsTask) .invalidTssNotTask (s.entered ev h pc) := by
  obtain ⟨dpl, hi, hd, hn, hs, hl, ho, c, r, hk⟩ := handler_spec hh
  have hlev : (if c then s.cpl else h.desc.dpl) = h.level s.cpl := by
    unfold Handler.level
    rw [hk]
    cases c <;> rfl
  unfold gateHandler
  rw [hn, Bool.not_false, bind_ok (require_true _ _), bind_ok (readDesc_ok hs), bind_ok (look_run _ _), bind_ok (look_run _ _)]
  dsimp only
  rw [hk]
  dsimp only
  rw [decide_eq_true hl, bind_ok (require_true _ _), bind_ok (codeReady_ok ho), hv]
  simp only [Bool.not_false, Bool.true_or]
  rw [bind_ok (require_true _ _), bind_ok (covered_true _ _), hlev, bind_ok (enterHandler_ok hp)]

/-- One attempt at invoking a handler through a trap or interrupt gate goes through, unless it is exception 10's (R157). -/
theorem invoke_gate {s : State} {ev : Event} {h : Handler} (hv : s.flag flagVM = false)
    (hh : (s.faced ev).handler ev.software ev.vector = some h) (hp : (s.faced ev).canEnter ev h (s.eventPc ev) = true) :
    invoke ev s =
      covered (!ev.needsTask) .invalidTssNotTask ((s.faced ev).entered ev h (s.eventPc ev)) := by
  obtain ⟨dpl, hi, hd, -⟩ := handler_spec hh
  rw [invoke_start, bind_ok (readGate_ok hi hd)]
  exact gateHandler_ok (by rw [State.faced_vm]; exact hv) hh hp

/-! ## An interlevel CALL -/

/-- The level as RPL of a selector given that level. -/
@[simp] theorem rpl_withRpl (sel : Word16) (p : BitVec 2) : rpl (withRpl sel p) = p := by
  unfold rpl withRpl
  ext i hi
  simp
  interval_cases i <;> simp

theorem readParams_ok (sz : OpSize) (s : State) (n : Nat) :
    ∀ (at' : Word32) (l : List Word32), s.params sz n at' = some l → readParams sz at' n s = .ok l s := by
  induction n with
  | zero =>
    intro at' l h
    cases h
    rfl
  | succ n ih =>
    intro at' l h
    unfold State.params at h
    split at h
    · rename_i hp
      rw [Option.map_eq_some_iff] at h
      obtain ⟨r, hr, rfl⟩ := h
      unfold readParams
      rw [bind_ok (stackRead_ok hp), bind_ok (ih _ _ hr)]
      rfl
    · cases h

theorem onNewStack_ok {α : Type} {ss : Word16} {m : M α} {s t : State} {a : α} (h : m s = .ok a t) : onNewStack ss m s = .ok a t := by
  unfold onNewStack
  rw [h]

theorem switchStack_ok {s : State} {ss : Word16} {esp : Word32} {v : SegState} (h : s.segLoad .ss ss = some v) :
    switchStack ss esp s = .ok () ((s.withSeg .ss v).withSp esp) := by
  unfold switchStack
  rw [bind_ok (loadSegReg_ok h)]
  exact setSp_ok (segLoad_ss_checked h) _

end Sys2Proof.Machine
end

