-- ==== Sys2Proof/Tests/Slice0.lean ====
section
/-! SUPPORT. Tests: ill-formed terms, words decoded, one step on a small state, and a witness for the hypotheses of each obligation. Expected results are
those of spec/95_test_vectors.md (V and E rows) and of the encodings of R72, R75. -/

namespace Sys2Proof.Tests

open Sys2Proof.Machine

/- One theorem at a time: checked side by side, so many kernel evaluations ask for more threads than there is room for. -/
set_option Elab.async false

/-! ## A small state -/

/-- Bytes laid out from an address up. -/
def put (m : List Host.Cell) (a : Nat) : List Byte → List Host.Cell
  | [] => m
  | b :: r => put (Memory.write m a b) (a + 1) r

def puts (m : List Host.Cell) : List (Nat × List Byte) → List Host.Cell
  | [] => m
  | (a, bs) :: r => puts (put m a bs) r

/-- The cells of bytes at an address: those that are not zero. -/
def nonzero (a : Nat) : List Byte → List Host.Cell
  | [] => []
  | b :: r => if b = 0 then nonzero (a + 1) r else (a, b) :: nonzero (a + 1) r

/-- Memory laid out from rows whose addresses rise. -/
def layout : List (Nat × List Byte) → List Host.Cell
  | [] => []
  | (a, bs) :: r => nonzero a bs ++ layout r

/-- A descriptor, high doubleword first. -/
def desc (hi lo : Word32) : List Byte := dwordBytes lo ++ dwordBytes hi

/-- The GDT at 0x1000. -/
def gdtRows : List (Nat × List Byte) :=
  [(0x1008, desc 0x00CF9A00 0x0000FFFF), (0x1010, desc 0x00CF9200 0x0000FFFF), (0x1018, desc 0x00CFFA00 0x0000FFFF),
    (0x1020, desc 0x00CFF200 0x0000FFFF), (0x1028, desc 0x00008900 0x30000067), (0x1030, desc 0x00008200 0x4000000F),
    (0x1038, desc 0x00CF1200 0x0000FFFF)] ++
  [(0x1040, desc 0x00008B00 0x30000067), (0x1048, desc 0x00000900 0x30000067), (0x1050, desc 0x00008900 0x30000066),
    (0x1058, desc 0x00CF9E00 0x0000FFFF), (0x1060, desc 0x00CF9800 0x0000FFFF), (0x1068, desc 0x00CF9000 0x0000FFFF),
    (0x1070, desc 0x00CF1A00 0x0000FFFF)]

/-- The IDT at 0x2000: 16-bit trap gates to 0x08:0x0500 and up; 10 a task gate to the TSS 0x28; 0x30 not present, 0x31 for level 0 only. -/
def idtRows : List (Nat × List Byte) :=
  [(0x2000, desc 0x0000E700 0x00080500), (0x2008, desc 0x0000E700 0x00080501), (0x2010, desc 0x0000E700 0x00080502),
    (0x2018, desc 0x0000E700 0x00080503), (0x2020, desc 0x0000E700 0x00080504), (0x2028, desc 0x0000E700 0x00080505),
    (0x2030, desc 0x0000E700 0x00080506), (0x2038, desc 0x0000E700 0x00080507)] ++
  [(0x2040, desc 0x0000E700 0x00080508), (0x2048, desc 0x0000E700 0x00080509), (0x2050, desc 0x0000E500 0x00280000), (0x2068, desc 0x0000E700 0x0008050D), (0x2070, desc 0x0000E600 0x0008050E), (0x2080, desc 0x0000E700 0x00080510),
    (0x2180, desc 0x00006700 0x00080530), (0x2188, desc 0x00008700 0x00080531)]

/-- The TSS at 0x3000: the stack of level 0 is 0x10:0x7000. -/
def tssRows : List (Nat × List Byte) :=
  [(0x3004, dwordBytes 0x7000), (0x3008, wordBytes 0x10), (0x3020, dwordBytes 0x600), (0x3024, dwordBytes 2), (0x3038, dwordBytes 0x6000),
    (0x3048, wordBytes 0x10), (0x304C, wordBytes 0x08), (0x3050, wordBytes 0x10), (0x3054, wordBytes 0x10)]

def flat (k : SegKind) (big : Bool) (p : BitVec 2) : SegDesc := { base := 0, limit := 0xFFFFFFFF, kind := k, dpl := p, big := big }

def seg (sel : Word16) (d : SegDesc) : SegState := { sel := sel, desc := d, checked := true }

/-- Protected mode, level 0, flat segments, paging off, code bytes at 0x100, a 16-bit stack at 0x8000 (V: "Unless a row says otherwise"). -/
def small (big : Bool) (code : List Byte) : State :=
  { State.reset.launch with
    gpr := { eax := 0, ecx := 0, edx := 0, ebx := 0, esp := 0x8000, ebp := 0x9000, esi := 0, edi := 0 }
    eip := 0x100
    nextEip := 0x100 + BitVec.ofNat 32 code.length
    segs :=
      { es := seg 0x10 (flat (.data true false) true 0)
        cs := seg 0x08 (flat (.code false true) big 0)
        ss := seg 0x10 (flat (.data true false) false 0)
        ds := seg 0x10 (flat (.data true false) true 0)
        fs := nullSeg 0
        gs := nullSeg 0 }
    gdtr := { base := 0x1000, limit := 0x77 }
    idtr := { base := 0x2000, limit := 0x18F }
    ldtr := { sel := 0, base := 0, limit := 0, usable := false }
    tr := { sel := 0x40, base := 0x3080, limit := 0x67 }
    mem := layout ((0x100, code) :: gdtRows ++ idtRows ++ tssRows) }

/-- The same at level 3. -/
def user (code : List Byte) : State :=
  { small true code with
    cpl := 3
    segs :=
      { (small true code).segs with
        cs := seg 0x1B (flat (.code false true) true 3)
        ss := seg 0x23 (flat (.data true false) false 3) }
    tr := { sel := 0x40, base := 0x3000, limit := 0x67 } }

/-- The plain one. -/
def s0 : State := small true []

def withGpr (s : State) (r : Reg) (v : Word32) : State := s.setGpr r v

/-- With bytes in memory. -/
def withMem (s : State) (l : List (Nat × List Byte)) : State := { s with mem := puts s.mem l }

/-- With a 16-bit stack whose last valid offset is 0xFFF (V13). -/
def shortStack (sp bp : Word32) : State :=
  { s0 with
    gpr := { s0.gpr with esp := sp, ebp := bp }
    segs := { s0.segs with ss := seg 0x10 { flat (.data true false) false 0 with limit := 0xFFF } } }

/-! ## Questions about a result -/

def nextIs (r : Result) (f : State → Bool) : Bool :=
  match r with
  | .next s => f s
  | _ => false

def runs (r : Result) : Bool := nextIs r (fun _ => true)

/-- Why a step is refused. -/
def refusal (r : Result) : Option Refusal :=
  match r with
  | .refused e => some e
  | _ => none

theorem runs_next {r : Result} (h : runs r = true) : ∃ t, r = .next t := by
  cases r with
  | next t => exact ⟨t, rfl⟩
  | fault e => cases h
  | refused e => cases h

/-- The exception an operation raises. -/
def raises {α : Type} (m : M α) (s : State) : Option Exc :=
  match m s with
  | .error (.exc e) _ => some e
  | _ => none

theorem raises_error {α : Type} {m : M α} {s : State} {e : Exc} (h : raises m s = some e) : ∃ t, m s = .error (.exc e) t := by
  unfold raises at h
  split at h
  · rename_i t ht
    cases h
    exact ⟨t, ht⟩
  · cases h

/-- A 16-bit word of memory. -/
def word (s : State) (a : Nat) : Nat := (Memory.read s.mem a).toNat + 256 * (Memory.read s.mem (a + 1)).toNat

/-- Stopped at a handler of the small IDT's vector `v`, which saved `ip`, having pushed `n` bytes. -/
def atHandler (v n ip : Nat) (s : State) : Bool :=
  s.eip.toNat == 0x500 + v && s.gpr.esp.toNat == 0x8000 - n && word s (0x8000 - n) == ip

/-! ## Ill-formed terms (R72) -/

/-- mod 00 with rm 110 is a displacement alone, not [BP]. -/
theorem test_wf_refuses_bp_alone : (Instr.divRm8 (.mem { ovr := none, ea := .a16 .bp .none })).wf = false := by decide
/-- rm 100 announces a SIB byte, it is not [ESP]. -/
theorem test_wf_refuses_esp_without_sib : (Instr.pushRm .s32 (.mem { ovr := none, ea := .a32 .esp (.d8 4) })).wf = false := by decide
/-- mod 00 with rm 101 is a displacement alone, not [EBP]. -/
theorem test_wf_refuses_ebp_alone : (Instr.popRm .s32 (.mem { ovr := none, ea := .a32 .ebp .none })).wf = false := by decide
/-- mod 00 with base 101 has no base. -/
theorem test_wf_refuses_sib_ebp_alone : (Instr.movRRm .s32 .eax (.mem { ovr := none, ea := .sib 1 .ecx .ebp .none })).wf = false := by decide
theorem test_wf_takes_bp_with_byte : (Instr.divRm8 (.mem { ovr := none, ea := .a16 .bp (.d8 0) })).wf = true := by decide

/-! ## Words written out from R72, R73 and R75 -/

theorem test_decode_divide :
    decode true [0xF6, 0xF3] = .ok (.divRm8 (.reg .ebx), []) ∧ decode false [0xF7, 0x74, 0x05] = .ok (.divRmv .s16 (.mem { ovr := none, ea := .a16 .si (.d8 5) }), []) ∧
      decode true [0xF6, 0xF8] = .ok (.idivRm8 (.reg .eax), []) ∧ decode true [0xF7, 0xF9] = .ok (.idivRmv .s32 (.reg .ecx), []) := ⟨rfl, rfl, rfl, rfl⟩

theorem test_decode_interrupt :
    decode true [0xCC] = .ok (.int3, []) ∧ decode true [0xCD, 0x30] = .ok (.intImm 0x30, []) ∧ decode true [0xCE] = .ok (.into, []) ∧
      decode true [0x62, 0x08] = .ok (.bound .s32 .ecx (.mem { ovr := none, ea := .a32 .eax .none }), []) ∧
      decode true [0x62, 0xC3] = .ok (.bound .s32 .eax (.reg .ebx), []) := ⟨rfl, rfl, rfl, rfl, rfl⟩

theorem test_decode_coprocessor :
    decode true [0xD9, 0xD0] = .ok (.esc 1 2 (.reg .eax), []) ∧ decode true [0xDF, 0xE0] = .ok (.esc 7 4 (.reg .eax), []) ∧
      decode true [0xDD, 0x05, 0, 0x10, 0, 0] = .ok (.esc 5 0 (.mem { ovr := none, ea := .direct32 0x1000 }), []) ∧
      decode true [0x9B] = .ok (.wait, []) := ⟨rfl, rfl, rfl, rfl⟩

theorem test_decode_jump :
    decode true [0xEB, 0xFE] = .ok (.jmpRel8 .s32 0xFE, []) ∧ decode true [0xE9, 1, 2, 3, 4] = .ok (.jmpRelv (.i32 0x04030201), []) ∧
      decode true [0xFF, 0xE0] = .ok (.jmpRmv .s32 (.reg .eax), []) ∧
      decode false [0xEA, 0x78, 0x56, 0x34, 0x12] = .ok (.jmpPtr (.i16 0x5678) 0x1234, []) ∧
      decode true [0xFF, 0x2B] = .ok (.jmpMem .s32 (.mem { ovr := none, ea := .a32 .ebx .none }), []) := ⟨rfl, rfl, rfl, rfl, rfl⟩

theorem test_decode_call :
    decode false [0xE8, 1, 2] = .ok (.callRelv (.i16 0x0201), []) ∧ decode true [0xFF, 0xD2] = .ok (.callRmv .s32 (.reg .edx), []) ∧
      decode true [0x9A, 1, 0, 0, 0, 8, 0] = .ok (.callPtr (.i32 1) 8, []) ∧
      decode true [0xFF, 0x1E] = .ok (.callMem .s32 (.mem { ovr := none, ea := .a32 .esi .none }), []) ∧
      decode true [0xCB] = .ok (.retf .s32, []) ∧ decode true [0xCA, 4, 0] = .ok (.retfImm .s32 4, []) ∧
      decode true [0x66, 0xCF] = .ok (.iret .s16, []) := ⟨rfl, rfl, rfl, rfl, rfl, rfl, rfl⟩

theorem test_decode_far_loads :
    decode true [0xC5, 0x0F] = .ok (.lds .s32 .ecx (.mem { ovr := none, ea := .a32 .edi .none }), []) ∧
      decode true [0xC4, 0xC0] = .ok (.les .s32 .eax (.reg .eax), []) ∧
      decode true [0x0F, 0xB2, 0x20] = .ok (.lss .s32 .esp (.mem { ovr := none, ea := .a32 .eax .none }), []) ∧
      decode true [0x0F, 0xB4, 0x00] = .ok (.lfs .s32 .eax (.mem { ovr := none, ea := .a32 .eax .none }), []) ∧
      decode true [0x0F, 0xB5, 0x00] = .ok (.lgs .s32 .eax (.mem { ovr := none, ea := .a32 .eax .none }), []) := ⟨rfl, rfl, rfl, rfl, rfl⟩

theorem test_decode_segment_moves :
    decode true [0x0F, 0x00, 0xD0] = .ok (.lldt (.reg .eax), []) ∧ decode true [0x8E, 0xD8] = .ok (.movSregRm 3 (.reg .eax), []) ∧
      decode true [0x8C, 0xD1] = .ok (.movRmSreg (.reg .ecx) 2, []) ∧ decode true [0x07] = .ok (.popEs .s32, []) ∧
      decode true [0x17] = .ok (.popSs .s32, []) ∧ decode true [0x1F] = .ok (.popDs .s32, []) ∧ decode true [0x0F, 0xA1] = .ok (.popFs .s32, []) ∧
      decode true [0x0F, 0xA9] = .ok (.popGs .s32, []) := ⟨rfl, rfl, rfl, rfl, rfl, rfl, rfl, rfl⟩

theorem test_decode_segment_pushes :
    decode true [0x06] = .ok (.pushEs .s32, []) ∧ decode true [0x0E] = .ok (.pushCs .s32, []) ∧ decode true [0x16] = .ok (.pushSs .s32, []) ∧
      decode true [0x1E] = .ok (.pushDs .s32, []) ∧ decode true [0x0F, 0xA0] = .ok (.pushFs .s32, []) ∧
      decode true [0x0F, 0xA8] = .ok (.pushGs .s32, []) := ⟨rfl, rfl, rfl, rfl, rfl, rfl⟩

theorem test_decode_control_registers :
    decode true [0x0F, 0x22, 0xC0] = .ok (.movCrR .cr0 .eax, []) ∧ decode true [0x0F, 0x22, 0xD9] = .ok (.movCrR .cr3 .ecx, []) ∧
      decode true [0x0F, 0x20, 0xD3] = .ok (.movRCr .ebx .cr2, []) := ⟨rfl, rfl, rfl⟩

theorem test_decode_stack :
    decode true [0x53] = .ok (.pushReg .s32 .ebx, []) ∧ decode true [0xFF, 0x36] = .ok (.pushRm .s32 (.mem { ovr := none, ea := .a32 .esi .none }), []) ∧
      decode true [0x6A, 0xFF] = .ok (.pushImm8 .s32 0xFF, []) ∧ decode false [0x68, 0x34, 0x12] = .ok (.pushImmv (.i16 0x1234), []) ∧
      decode true [0x5C] = .ok (.popReg .s32 .esp, []) ∧
      decode false [0x2E, 0x8F, 0x06, 0x00, 0x30] = .ok (.popRm .s16 (.mem { ovr := some .cs, ea := .direct16 0x3000 }), []) ∧
      decode true [0xC8, 0x10, 0x00, 0x03] = .ok (.enter .s32 0x10 3, []) ∧ decode true [0xC9] = .ok (.leave .s32, []) ∧
      decode true [0x8B, 0x8C, 0xDE, 1, 0, 0, 0] = .ok (.movRRm .s32 .ecx (.mem { ovr := none, ea := .sib 3 .ebx .esi (.d32 1) }), []) :=
  ⟨rfl, rfl, rfl, rfl, rfl, rfl, rfl, rfl, rfl⟩

/-- V6: bytes outside the map are refused (R62, R77); LOCK is a byte before the opcode like the others (R71, R73). -/
theorem test_decode_refuses :
    decode true [0x0F, 0x0B] = .error .unlisted ∧ decode true [0xD6] = .error .unlisted ∧ decode true [0xF1] = .error .unlisted ∧
      decode true [0xF7, 0xC0] = .error .unlisted ∧ decode true [0x0F, 0x22, 0xC8] = .error .unlisted ∧ decode true [0xF0, 0xCC] = .ok (.int3, []) :=
  ⟨rfl, rfl, rfl, rfl, rfl, rfl⟩

/-! ## One instruction: DIV, IDIV (V1, V2) -/

theorem test_div_32 : nextIs (exec (.divRmv .s32 (.reg .ebx)) (withGpr (withGpr s0 .eax 100) .ebx 7)) (fun t => t.gpr.eax == 14 && t.gpr.edx == 2) = true := by
  decide +kernel
theorem test_div_16_keeps_upper_halves :
    nextIs (exec (.divRmv .s16 (.reg .ebx)) (withGpr (withGpr (withGpr s0 .eax 0xAAAA0000) .edx 0xBBBB0001) .ebx 2))
      (fun t => t.gpr.eax == 0xAAAA8000 && t.gpr.edx == 0xBBBB0000) = true := by decide +kernel
theorem test_div_zero_faults_at_itself :
    nextIs (exec (.divRmv .s32 (.reg .ebx)) (withGpr s0 .eax 100)) (fun t => atHandler 0 6 0x100 t && t.gpr.eax == 100) = true := by decide +kernel
theorem test_div_8_too_large : nextIs (exec (.divRm8 (.reg .ebx)) (withGpr (withGpr s0 .eax 0x100) .ebx 1)) (atHandler 0 6 0x100) = true := by decide +kernel
theorem test_div_al_by_itself : nextIs (exec (.divRm8 (.reg .eax)) (withGpr s0 .eax 0x102)) (fun t => t.gpr.eax == 0x81) = true := by decide +kernel
theorem test_idiv_8_truncates :
    nextIs (exec (.idivRm8 (.reg .ebx)) (withGpr (withGpr s0 .eax 0xFFF9) .ebx 2)) (fun t => t.gpr.eax == 0xFFFD) = true := by decide +kernel
theorem test_idiv_8_too_large : nextIs (exec (.idivRm8 (.reg .ebx)) (withGpr (withGpr s0 .eax 0x80) .ebx 1)) (atHandler 0 6 0x100) = true := by decide +kernel
theorem test_idiv_32_overflow :
    nextIs (exec (.idivRmv .s32 (.reg .ecx)) (withGpr (withGpr (withGpr s0 .eax 0x80000000) .edx 0xFFFFFFFF) .ecx 0xFFFFFFFF)) (atHandler 0 6 0x100) = true := by
  decide +kernel

/-! ## INT 3, INT n, INTO, BOUND (V3, V4) -/

theorem test_int3_saves_next : nextIs (exec .int3 (small true [0xCC])) (atHandler 3 6 0x101) = true := by decide +kernel
theorem test_int_n_has_no_error_code : nextIs (exec (.intImm 13) (small true [0xCD, 0x0D])) (atHandler 13 6 0x102) = true := by decide +kernel
theorem test_into_saves_next : nextIs (exec .into { small true [0xCE] with eflags := 0x802 }) (fun t => atHandler 4 6 0x101 t && word t 0x7FFE == 0x802) = true := by
  decide +kernel
theorem test_into_goes_on : nextIs (exec .into (small true [0xCE])) (fun t => t.eip == 0x101 && t.gpr.esp == 0x8000) = true := by decide +kernel
/-- V3: `CD 30`, gate not present: exception 11, error code 0x0182; at level 3 a gate of level 0: exception 13 (R197). -/
theorem test_int_gate_not_present : raises (readGate (.soft 0x30)) s0 = some (.notPresent 0x182) := by decide +kernel
theorem test_int_gate_privilege : raises (readGate (.soft 0x31)) (user []) = some (.generalProtection 0x18A) := by decide +kernel
theorem test_bound_upper_included :
    nextIs (exec (.bound .s16 .eax (.mem { ovr := none, ea := .direct32 0x3000 })) (withGpr (withMem (small true [0x62]) [(0x3000, [0, 0, 10, 0])]) .eax 10))
      (fun t => t.eip == 0x101) = true := by decide +kernel
theorem test_bound_is_signed :
    nextIs (exec (.bound .s16 .eax (.mem { ovr := none, ea := .direct32 0x3000 })) (withGpr (withMem s0 [(0x3000, [0, 0, 10, 0])]) .eax 0xFFFF))
      (atHandler 5 6 0x100) = true := by decide +kernel

/-! ## ESC and WAIT (V5) -/

theorem test_esc_em : nextIs (exec (.esc 1 2 (.reg .eax)) { s0 with cr0 := 5 }) (atHandler 7 6 0x100) = true := by decide +kernel
theorem test_esc_runs : nextIs (exec (.esc 1 2 (.reg .eax)) { small true [0xD9, 0xD0] with cr0 := 3 }) (fun t => t.eip == 0x102) = true := by decide +kernel
theorem test_wait_mp_ts : nextIs (exec .wait { s0 with cr0 := 0xB, errorPin := true }) (atHandler 7 6 0x100) = true := by decide +kernel
theorem test_wait_error : nextIs (exec .wait { s0 with cr0 := 1, errorPin := true }) (atHandler 16 6 0x100) = true := by decide +kernel

/-! ## Transfers (R105 to R109, E1, E5) -/

theorem test_jmp_rel8 : nextIs (exec (.jmpRel8 .s32 0x10) { small true [0xEB, 0x10] with eip := 0x4000, nextEip := 0x4002 }) (fun t => t.eip == 0x4012) = true := by
  decide +kernel
theorem test_jmp_rel16_masks : nextIs (exec (.jmpRelv (.i16 0xFFF0)) { s0 with nextEip := 0x10 }) (fun t => t.eip == 0) = true := by decide +kernel
theorem test_jmp_reg : nextIs (exec (.jmpRmv .s32 (.reg .ecx)) (withGpr s0 .ecx 0x1234)) (fun t => t.eip == 0x1234) = true := by decide +kernel
theorem test_jmp_far : nextIs (exec (.jmpPtr (.i32 0x200) 0x58) s0) (fun t => t.eip == 0x200 && t.segs.cs.sel == 0x58) = true := by decide +kernel
theorem test_jmp_far_needs_code : raises (farTransfer false .s32 0x10 0x200) s0 = some (.generalProtection 0x10) := by decide +kernel
theorem test_jmp_mem :
    nextIs (exec (.jmpMem .s16 (.mem { ovr := none, ea := .direct32 0x3100 })) (withMem s0 [(0x3100, [0x34, 0x12, 0x08, 0x00])]))
      (fun t => t.eip == 0x1234 && t.segs.cs.sel == 0x08) = true := by decide +kernel
theorem test_jmp_mem_register : nextIs (exec (.jmpMem .s32 (.reg .eax)) s0) (atHandler 6 6 0x100) = true := by decide +kernel
theorem test_call_near : nextIs (exec (.callRelv (.i16 0x10)) (small true [0xE8, 0x10, 0x00])) (fun t => t.eip == 0x113 && word t 0x7FFE == 0x103) = true := by decide +kernel
theorem test_call_reg : nextIs (exec (.callRmv .s16 (.reg .ecx)) (withGpr s0 .ecx 0x700)) (fun t => t.eip == 0x700 && t.gpr.esp == 0x7FFE) = true := by decide +kernel
theorem test_call_far :
    nextIs (exec (.callPtr (.i16 0x200) 8) (small true [0x9A, 0, 2, 8, 0])) (fun t => t.eip == 0x200 && word t 0x7FFE == 8 && word t 0x7FFC == 0x105) = true := by
  decide +kernel
theorem test_call_mem :
    nextIs (exec (.callMem .s16 (.mem { ovr := none, ea := .direct32 0x3100 })) (withMem s0 [(0x3100, [0x34, 0x12, 0x08, 0x00])]))
      (fun t => t.eip == 0x1234 && t.gpr.esp == 0x7FFC) = true := by decide +kernel
theorem test_retf : nextIs (exec (.retf .s16) (withMem s0 [(0x8000, [0x34, 0x12, 0x08, 0x00])])) (fun t => t.eip == 0x1234 && t.gpr.esp == 0x8004) = true := by decide +kernel
theorem test_retf_to_outer_level :
    nextIs (exec (.retfImm .s16 4) (withMem s0 [(0x8000, [0x34, 0x12, 0x1B, 0x00, 0, 0, 0, 0, 0x00, 0x70, 0x23, 0x00])]))
      (fun t => t.cpl == 3 && t.segs.ss.sel == 0x23 && t.gpr.esp == 0x7004 && t.segs.ds.sel == 0) = true := by decide +kernel
theorem test_iret : nextIs (exec (.iret .s16) (withMem { s0 with nmiFrame := some (.stack 0x8000) } [(0x8000, [0x34, 0x12, 0x08, 0x00, 0x03, 0x08])]))
    (fun t => t.eip == 0x1234 && t.eflags == 0x803 && t.gpr.esp == 0x8006 && t.nmiFrame.isNone) = true := by decide +kernel
/-- R109: at level 3 IRET changes neither IOPL nor IF. -/
theorem test_iret_keeps_iopl : iretMask .s32 3 0 &&& 0x3200 = 0 := by decide +kernel

/-! ## Segment registers (V7) -/

theorem test_mov_ds_null : nextIs (exec (.movSregRm 3 (.reg .eax)) s0) (fun t => t.segs.ds.sel == 0 && t.segs.ds.checked) = true := by decide +kernel
theorem test_mov_ss_shadow : nextIs (exec (.movSregRm 2 (.reg .eax)) (withGpr s0 .eax 0x10)) (fun t => t.segs.ss.sel == 0x10 && t.ssShadow) = true := by decide +kernel
theorem test_load_ss :
    raises (loadSegReg .ss 0) s0 = some (.generalProtection 0) ∧ raises (loadSegReg .ss 0x38) s0 = some (.stackFault 0x38) ∧
      raises (loadSegReg .ss 0x68) s0 = some (.generalProtection 0x68) ∧ raises (loadSegReg .ss 8) s0 = some (.generalProtection 8) ∧
      raises (loadSegReg .ss 0x13) s0 = some (.generalProtection 0x10) := by decide +kernel
theorem test_load_ds :
    raises (loadSegReg .ds 0x60) s0 = some (.generalProtection 0x60) ∧ raises (loadSegReg .ds 0x38) s0 = some (.notPresent 0x38) ∧
      raises (loadSegReg .ds 0x28) s0 = some (.generalProtection 0x28) ∧ raises (loadSegReg .ds 0x7B) s0 = some (.generalProtection 0x78) ∧
      raises (loadSegReg .ds 0x47) s0 = some (.generalProtection 0x44) ∧ raises (loadSegReg .ds 0x13) (user []) = some (.generalProtection 0x10) := by decide +kernel
theorem test_mov_from_ss : nextIs (exec (.movRmSreg (.reg .ecx) 2) s0) (fun t => t.gpr.ecx == 0x10) = true := by decide +kernel
theorem test_mov_cs_is_invalid : nextIs (exec (.movSregRm 1 (.reg .eax)) s0) (atHandler 6 6 0x100) = true := by decide +kernel
theorem test_lldt : nextIs (exec (.lldt (.reg .eax)) (withGpr s0 .eax 0x30)) (fun t => t.ldtr == { sel := 0x30, base := 0x4000, limit := 0xF, usable := true }) = true := by
  decide +kernel
theorem test_lldt_not_ldt : raises (ldtLoad 0x28) s0 = some (.generalProtection 0x28) := by decide +kernel
theorem test_lss :
    nextIs (exec (.lss .s16 .esp (.mem { ovr := none, ea := .direct32 0x3100 })) (withMem s0 [(0x3100, [0xF0, 0x00, 0x10, 0x00])]))
      (fun t => t.segs.ss.sel == 0x10 && t.gpr.esp == 0xF0) = true := by decide +kernel
theorem test_lds :
    nextIs (exec (.lds .s16 .ebx (.mem { ovr := none, ea := .direct32 0x3100 })) (withMem s0 [(0x3100, [0xF0, 0x00, 0x08, 0x00])]))
      (fun t => t.segs.ds.sel == 8 && t.gpr.ebx == 0xF0) = true := by decide +kernel
theorem test_les :
    nextIs (exec (.les .s16 .ebx (.mem { ovr := none, ea := .direct32 0x3100 })) (withMem s0 [(0x3100, [0xF0, 0x00, 0x58, 0x00])]))
      (fun t => t.segs.es.sel == 0x58 && t.segs.ds.sel == 0x10) = true := by decide +kernel
theorem test_lfs_lgs :
    nextIs (exec (.lfs .s16 .ebx (.mem { ovr := none, ea := .direct32 0x3100 })) (withMem s0 [(0x3100, [1, 0, 0x10, 0x00])])) (fun t => t.segs.fs.sel == 0x10) = true ∧
      nextIs (exec (.lgs .s16 .ebx (.mem { ovr := none, ea := .direct32 0x3100 })) (withMem s0 [(0x3100, [1, 0, 0x22, 0x00])])) (fun t => t.segs.gs.sel == 0x22) = true := by
  decide +kernel
theorem test_pop_segments :
    nextIs (exec (.popDs .s16) (withMem s0 [(0x8000, [0x08, 0x00])])) (fun t => t.segs.ds.sel == 8 && t.gpr.esp == 0x8002) = true ∧
      nextIs (exec (.popEs .s16) (withMem s0 [(0x8000, [0x08, 0x00])])) (fun t => t.segs.es.sel == 8) = true ∧
      nextIs (exec (.popSs .s16) (withMem s0 [(0x8000, [0x10, 0x00])])) (fun t => t.ssShadow && t.gpr.esp == 0x8002) = true ∧
      nextIs (exec (.popFs .s32) (withMem s0 [(0x8000, [0x08, 0x00])])) (fun t => t.segs.fs.sel == 8 && t.gpr.esp == 0x8004) = true ∧
      nextIs (exec (.popGs .s16) (withMem s0 [(0x8000, [0x08, 0x00])])) (fun t => t.segs.gs.sel == 8) = true := by decide +kernel
theorem test_push_segments :
    nextIs (exec (.pushCs .s16) s0) (fun t => word t 0x7FFE == 8 && t.gpr.esp == 0x7FFE) = true ∧
      nextIs (exec (.pushDs .s16) s0) (fun t => word t 0x7FFE == 0x10) = true ∧ nextIs (exec (.pushFs .s16) s0) (fun t => word t 0x7FFE == 0) = true ∧
      nextIs (exec (.pushEs .s16) s0) (fun t => word t 0x7FFE == 0x10) = true ∧ nextIs (exec (.pushSs .s32) s0) (fun t => t.gpr.esp == 0x7FFC) = true ∧
      nextIs (exec (.pushGs .s16) s0) (fun t => t.gpr.esp == 0x7FFE) = true := by decide +kernel

/-! ## Control registers (V8) -/

theorem test_mov_cr0_pg_without_pe : nextIs (exec (.movCrR .cr0 .eax) (withGpr s0 .eax 0x80000000)) (fun t => t.eip == 0x50D && t.cr0 == 0x11) = true := by decide +kernel
theorem test_mov_cr0 : nextIs (exec (.movCrR .cr0 .eax) (withGpr s0 .eax 9)) (fun t => t.cr0 == 9) = true := by decide +kernel
theorem test_mov_from_cr2 : nextIs (exec (.movRCr .ebx .cr2) { s0 with cr2 := 0x1234 }) (fun t => t.gpr.ebx == 0x1234) = true := by decide +kernel
theorem test_mov_cr0_privileged : nextIs (exec (.movCrR .cr0 .eax) (user [])) (fun t => t.eip == 0x50D && t.cpl == 0) = true := by decide +kernel

/-! ## The stack, MOV (V13, E3) -/

theorem test_push_bottom : nextIs (exec (.pushReg .s16 .eax) (withGpr (shortStack 2 0) .eax 0x1234)) (fun t => word t 0 == 0x1234 && t.gpr.esp == 0) = true := by decide +kernel
theorem test_push_wraps_outside : raises (push .s16 0) (shortStack 1 0) = some (.stackFault 0) ∧ raises (push .s16 0) (shortStack 0 0) = some (.stackFault 0) := by decide +kernel
theorem test_push_sp : nextIs (exec (.pushReg .s16 .esp) s0) (fun t => word t 0x7FFE == 0x8000) = true := by decide +kernel
theorem test_push_immediates :
    nextIs (exec (.pushImm8 .s32 0x80) s0) (fun t => word t 0x7FFC == 0xFF80 && word t 0x7FFE == 0xFFFF) = true ∧
      nextIs (exec (.pushImmv (.i16 0x1234)) s0) (fun t => word t 0x7FFE == 0x1234) = true := by decide +kernel
theorem test_push_memory :
    nextIs (exec (.pushRm .s16 (.mem { ovr := none, ea := .direct32 0x3100 })) (withMem s0 [(0x3100, [0x78, 0x56])])) (fun t => word t 0x7FFE == 0x5678) = true := by decide +kernel
theorem test_pop_top : nextIs (exec (.popReg .s16 .eax) (withMem (shortStack 0xFFE 0) [(0xFFE, [0xCD, 0xAB])])) (fun t => t.gpr.eax == 0xABCD && t.gpr.esp == 0x1000) = true := by
  decide +kernel
theorem test_pop_crosses : raises (pop .s16) (shortStack 0xFFF 0) = some (.stackFault 0) := by decide +kernel
theorem test_pop_memory_after_increment :
    nextIs (exec (.popRm .s16 (.mem { ovr := none, ea := .sib 0 .esp .esp .none })) (withMem s0 [(0x8000, [0xCD, 0xAB])]))
      (fun t => word t 0x8002 == 0xABCD && t.gpr.esp == 0x8002) = true := by decide +kernel
theorem test_leave : nextIs (exec (.leave .s16) (withMem (shortStack 0x800 0xFFE) [(0xFFE, [0x00, 0x08])])) (fun t => t.gpr.esp == 0x1000 && t.gpr.ebp == 0x800) = true := by
  decide +kernel
theorem test_leave_outside : raises (stackRead 0x1000 2) (shortStack 0x800 0x1000) = some (.stackFault 0) := by decide +kernel
theorem test_enter :
    nextIs (exec (.enter .s16 0x10 0) (shortStack 0x800 0x900)) (fun t => word t 0x7FE == 0x900 && t.gpr.ebp == 0x7FE && t.gpr.esp == 0x7EE) = true := by decide +kernel
theorem test_enter_nested :
    nextIs (exec (.enter .s16 4 2) (withMem (shortStack 0x800 0x900) [(0x8FE, [0x34, 0x12])]))
      (fun t => word t 0x7FC == 0x1234 && word t 0x7FA == 0x7FE && t.gpr.ebp == 0x7FE && t.gpr.esp == 0x7F6) = true := by decide +kernel
theorem test_mov_bp_uses_ss :
    raises (readRM .s16 (.mem { ovr := none, ea := .a16 .bp (.d8 6) })) (shortStack 0x800 0xFF9) = some (.stackFault 0) ∧
      nextIs (exec (.movRRm .s16 .eax (.mem { ovr := none, ea := .a16 .bp (.d8 6) })) (withMem (shortStack 0x800 0xFF8) [(0xFFE, [0x21, 0x43])]))
        (fun t => t.gpr.eax == 0x4321) = true := by decide +kernel

/-! ## Exceptions, task switches, a step -/

/-- V9: EXT set in an IDT error code; V11 by class. -/
theorem test_ext_bit : extCode true (idtError 0x21) = 0x10B ∧ extCode true (selError 0x1F) = 0x1D ∧ extCode false 0 = 0 := by decide +kernel
/-- V11: exception 13 with its gate absent, then 8 with its gate absent: shutdown (R187). -/
theorem test_shutdown :
    nextIs (exec (.movCrR .cr0 .eax) { withGpr s0 .eax 0x80000000 with idtr := { base := 0x2100, limit := 0x7F } }) (fun t => t.shutdown) = true := by decide +kernel
/-- R190: a fault at level 3 whose handler is at level 0 switches stacks. -/
theorem test_inner_stack :
    nextIs (exec (.divRm8 (.reg .ebx)) (user [])) (fun t => t.cpl == 0 && t.segs.ss.sel == 0x10 && t.gpr.esp == 0x6FF6 && word t 0x6FFE == 0x23 && word t 0x6FFC == 0x8000) = true := by
  decide +kernel
/-- R156, R25: a CALL to a TSS loads the new task, nests it and sets TS. -/
theorem test_task_call :
    nextIs (exec (.callPtr (.i32 0) 0x28) s0)
      (fun t => t.tr.sel == 0x28 && t.eip == 0x600 && t.gpr.esp == 0x6000 && t.ts && t.flag flagNT && word t 0x3000 == 0x40 && word t 0x30A0 == 0x100) = true := by
  decide +kernel
/-- V14: a busy, an absent and a short TSS. -/
theorem test_tss_tests :
    raises (farTransfer false .s32 0x40 0) s0 = some (.generalProtection 0x40) ∧ raises (farTransfer false .s32 0x48 0) s0 = some (.notPresent 0x48) ∧
      raises (farTransfer false .s32 0x50 0) s0 = some (.invalidTss 0x50) := by decide +kernel
/-- E1: the single-step trap after a JMP saves the target. -/
theorem test_trap_after_jmp :
    nextIs (step { small true [0xEB, 0x10] with eflags := 0x102 }) (fun t => t.eip == 0x501 && word t 0x7FFA == 0x112) = true := by decide +kernel
/-- R138: INT 3 with TF set counts as executed: the trap saves the handler's first instruction. R201: a MOV that leaves protected mode with a trap due. -/
theorem test_trap_after_int3 : nextIs (step { small true [0xCC] with eflags := 0x102 }) (fun t => t.eip == 0x501 && word t 0x7FF4 == 0x503) = true := by
  decide +kernel
/-- R138: a debug trap whose handler is a task with its debug trap bit set leaves that task's trap to the next step, which reports it before an
instruction. -/
theorem test_trap_into_trapped_task :
    nextIs (step (withMem { small true [0xEB, 0x10] with eflags := 0x102 } [(0x2008, desc 0x0000E500 0x00280000), (0x3064, [1])]))
      (fun t => t.tr.sel == 0x28 && t.eip == 0x600 && t.taskTrap) = true := by decide +kernel
theorem test_task_trap_comes_first :
    nextIs (step { small true [0xCC] with taskTrap := true })
      (fun t => t.eip == 0x501 && word t 0x7FFA == 0x100 && t.dbg.dr6 == 0x8000 && !t.taskTrap) = true := by decide +kernel
theorem test_trap_in_real_mode : refusal (step { small true [0x0F, 0x22, 0xC0] with eflags := 0x102 }) = some .realMode := by decide +kernel
/-- R195: the NMI handler's frame holds further NMIs off. -/
theorem test_nmi_frame :
    nextIs (step { s0 with nmiPending := true }) (fun t => t.eip == 0x502 && !t.nmiPending && t.nmiFrame == some (.stack 0x7FFA)) = true := by decide +kernel
/-- R56, R168: the old TSS's selector outside the GDT at a JMP. -/
theorem test_busy_mark_outside : raises (taskSwitch .jmp 0x28 (8, 0x100)) { s0 with tr := { s0.tr with sel := 0x78 } } = some (.generalProtection 0x78) := by
  decide +kernel
/-- V6: fourteen bytes 66 and CC are INT 3. -/
theorem test_fifteen_bytes : nextIs (step (small true (List.replicate 14 0x66 ++ [0xCC]))) (atHandler 3 6 0x10F) = true := by decide +kernel
/-- Table words: the row of DIV r/m8 and that of INT 3, read after reset. -/
theorem test_table_words : decodeTableWord 16 0xF6F0 = some (.divRm8 (.reg .eax)) ∧ decodeTableWord 8 0xCC = some .int3 := ⟨rfl, rfl⟩
theorem test_table_word_runs : runs (step (State.reset.withFetchWord 16 0x0F22)) = true ∧ runs (step (State.reset.withFetchWord 8 0xC9)) = true := by decide +kernel

/-! ## Witnesses: states and operands that meet the hypotheses of each obligation -/

theorem s0_ready : s0.ready := ⟨rfl, rfl⟩

/-- The states that the witnesses below use are ready. -/
theorem witness_ready :
    (∀ r v, (withGpr s0 r v).ready) ∧ (∀ l, (withMem s0 l).ready) ∧ (∀ l r v, (withGpr (withMem s0 l) r v).ready) ∧ (∀ a b, (shortStack a b).ready) ∧
      (user []).ready ∧ ({ s0 with eflags := 0x802 } : State).ready ∧ ({ s0 with errorPin := true } : State).ready ∧
      (∀ c : Word32, c.getLsbD 0 = true → ({ s0 with cr0 := c } : State).ready) :=
  have h := s0_ready
  ⟨fun _ _ => ⟨h.1, h.2⟩, fun _ => ⟨h.1, h.2⟩, fun _ _ _ => ⟨h.1, h.2⟩, fun _ _ => ⟨h.1, h.2⟩, ⟨rfl, rfl⟩, ⟨rfl, rfl⟩, ⟨rfl, rfl⟩, fun _ hc => ⟨hc, h.2⟩⟩

theorem witness_StepKeepsInvariant : (small true [0xCC]).Inv ∧ ∃ t, step (small true [0xCC]) = .next t :=
  ⟨⟨by decide +kernel, by decide, by decide, rfl, rfl, rfl⟩, runs_next (by decide +kernel)⟩

theorem witness_StepKeepsFixedRegisters : ∃ t, step (small true [0xCC]) = .next t := runs_next (by decide +kernel)

theorem witness_OnlyMovWritesCr0 : (∀ r, Instr.int3 ≠ .movCrR .cr0 r) ∧ ∃ t, exec .int3 s0 = .next t := ⟨nofun, runs_next (by decide +kernel)⟩

theorem witness_Cr2KeptWithoutPaging : (∀ c r, Instr.int3 ≠ .movCrR c r) ∧ s0.pg = false ∧ ∃ t, exec .int3 s0 = .next t :=
  ⟨nofun, rfl, runs_next (by decide +kernel)⟩

/-- INT 3; an IRET of another frame than the NMI handler's. -/
theorem witness_NmiHeldUntilIret :
    ((∀ sz, Instr.int3 ≠ .iret sz) ∧ ∃ t, exec .int3 s0 = .next t) ∧
      (let s : State := withMem { s0 with nmiFrame := some (.stack 0x7000) } [(0x8000, [0x34, 0x12, 0x08, 0x00, 0x03, 0x08])]
       s.segs.ss.checked = true ∧ s.nmiFrame ≠ some s.irets ∧ ∃ t, exec (.iret .s16) s = .next t) :=
  ⟨⟨nofun, runs_next (by decide +kernel)⟩, rfl, by decide +kernel, runs_next (by decide +kernel)⟩

theorem witness_DecodeReadsEncoded : (Instr.movRRm .s32 .eax (.mem { ovr := some .fs, ea := .sib 2 .esp .esp (.d8 4) })).wf = true := rfl

/-- The external interrupt is absent, or masked. -/
theorem witness_StepRunsDecodedInstruction :
    let s := small true [0xCC]
    s.shutdown = false ∧ s.ready ∧ s.debugIn.hasFault = false ∧ (s.nmiPending && s.nmiFrame.isNone && !s.ssShadow) = false ∧ s.intr = none ∧
      (({ s with intr := some 0x20 } : State).flag flagIF && !s.ssShadow) = false ∧ s.taskTrap = false ∧ s.segs.cs.checked = true ∧
      fetchBytes { s.begin with ssShadow := false } s.segs.cs.desc Config.maxInstrLen 0 = (0xCC :: List.replicate 14 0, none) ∧
      decode s.segs.cs.desc.big (0xCC :: List.replicate 14 0) = .ok (.int3, List.replicate 14 0) :=
  ⟨rfl, ⟨rfl, rfl⟩, rfl, rfl, rfl, rfl, rfl, rfl, by decide +kernel, rfl⟩

theorem witness_LengthLimitFaults :
    let s := small true (List.replicate 15 0x66)
    s.segs.cs.checked = true ∧ fetchBytes s.begin s.segs.cs.desc Config.maxInstrLen 0 = (List.replicate 15 0x66, none) ∧
      decode s.segs.cs.desc.big (List.replicate 15 0x66) = .error .more := ⟨rfl, by decide +kernel, rfl⟩

theorem witness_RealModeRefused : State.reset.shutdown = false ∧ State.reset.pe = false := ⟨rfl, rfl⟩

theorem witness_V86Refused : ({ s0 with eflags := 0x20002 } : State).pe = true ∧ ({ s0 with eflags := 0x20002 } : State).flag flagVM = true := ⟨rfl, rfl⟩

/-- No gate inside the IDT's limit. -/
def noIdt : State := { s0 with idtr := { base := 0x2000, limit := 0 } }

/-- Paging on: page 0 for all, page 1 read-only, page 2 for the supervisor, page 3 absent; the IDT lies in page 3. -/
def paged : State :=
  { withMem s0 [(0x9000, dwordBytes 0xA007), (0xA000, dwordBytes 0x0007), (0xA004, dwordBytes 0x1005), (0xA008, dwordBytes 0x2003)] with
    cr0 := 0x80000011
    cr3 := 0x9000
    idtr := { base := 0x3000, limit := 0xFF } }

/-- The stack segment has room for nothing. -/
def noStack : State := { s0 with segs := s0.segs.set .ss { s0.segs.ss with desc := { s0.segs.ss.desc with limit := 0 } } }

/-- Contributory with contributory, page fault with contributory, page fault with page fault; benign with contributory: an INT 48, and exception 6 with an
error code other than 0 and with error code 0. -/
theorem witness_SecondExceptionOutcome :
    (∃ t, invoke (.exc .divideError) (noIdt.attempt (.exc .divideError)) = .error (.exc (.generalProtection 2)) t) ∧
      (∃ t, invoke (.exc (.pageFault 0 false false false)) (noIdt.attempt (.exc (.pageFault 0 false false false))) = .error (.exc (.generalProtection 0x72)) t) ∧
      (∃ t, invoke (.exc (.pageFault 0 false false false)) (paged.attempt (.exc (.pageFault 0 false false false))) =
        .error (.exc (.pageFault 0x3070 false false false)) t) ∧
      (∃ t, invoke (.soft 0x30) (s0.attempt (.soft 0x30)) = .error (.exc (.notPresent 0x182)) t) ∧
      (∃ t, invoke (.exc .invalidOpcode) (noIdt.attempt (.exc .invalidOpcode)) = .error (.exc (.generalProtection 0x32)) t) ∧
      ∃ t, invoke (.exc .invalidOpcode) (noStack.attempt (.exc .invalidOpcode)) = .error (.exc (.stackFault 0)) t :=
  ⟨raises_error (by decide +kernel), raises_error (by decide +kernel), raises_error (by decide +kernel), raises_error (by decide +kernel),
    raises_error (by decide +kernel), raises_error (by decide +kernel)⟩

theorem witness_DoubleFaultShutsDown :
    (∃ t, invoke (.exc .doubleFault) (noIdt.attempt (.exc .doubleFault)) = .error (.exc (.generalProtection 0x42)) t) ∧
      ({ s0 with shutdown := true } : State).shutdown = true := ⟨raises_error (by decide +kernel), rfl⟩

/-- The handler that a 16-bit gate of the small IDT names. -/
def handlerAt (trap : Bool) (off : Word32) : Handler :=
  { size := .s16, trap := trap, sel := 8, desc := { base := 0, limit := 0xFFFFFFFF, kind := .code false true, dpl := 0, big := true }, off := off }

/-- The handler of an event is entered through the small IDT's gate to `off`. -/
def entersAt (s : State) (ev : Event) (trap : Bool) (off : Word32) : Bool :=
  let b := (s.attempt ev).faced ev
  !s.flag flagVM && b.handler ev.software ev.vector == some (handlerAt trap off) && b.canEnter ev (handlerAt trap off) ((s.attempt ev).eventPc ev)

theorem entersAt_spec {s : State} {ev : Event} {trap : Bool} {off : Word32} (h : entersAt s ev trap off = true) :
    let b := (s.attempt ev).faced ev
    s.flag flagVM = false ∧ b.handler ev.software ev.vector = some (handlerAt trap off) ∧
      b.canEnter ev (handlerAt trap off) ((s.attempt ev).eventPc ev) = true := by
  simpa [entersAt, and_assoc] using h

/-- Whether the task that handles an event, with the old CS:EIP 8:0x100, can be entered. -/
def entersTask (s : State) (ev : Event) (sel : Word16) : Bool :=
  let b := (s.attempt ev).faced ev
  b.idtEntry ev.vector == some (.taskGate true 3 sel) &&
    match taskSwitch .int sel (8, 0x100) (b.noted ev (.task sel)) with
    | .ok _ t => (t.errCounted ev.errCode).canPushAll .s32 (errDrawn t.freeCtr ev.errCode)
    | .error _ _ => false

theorem entersTask_spec {s : State} {ev : Event} {sel : Word16} (h : entersTask s ev sel = true) :
    let b := (s.attempt ev).faced ev
    b.idtEntry ev.vector = some (.taskGate true 3 sel) ∧ ∃ t, taskSwitch .int sel (8, 0x100) (b.noted ev (.task sel)) = .ok () t ∧
      (t.errCounted ev.errCode).canPushAll .s32 (errDrawn t.freeCtr ev.errCode) = true := by
  unfold entersTask at h
  simp only [Bool.and_eq_true, beq_iff_eq] at h
  refine ⟨h.1, ?_⟩
  have h2 := h.2
  split at h2
  · rename_i u t ht
    exact ⟨t, ht, h2⟩
  · cases h2

/-- A fault at the handler's level, from an outer one, and with an error code; a debug trap; exceptions 8 and 9; NMI; an external interrupt. -/
theorem witness_EventEntersHandler_gate :
    entersAt s0 (.exc .divideError) true 0x500 = true ∧ entersAt (user []) (.exc .divideError) true 0x500 = true ∧
      entersAt s0 (.exc (.generalProtection 8)) true 0x50D = true ∧ entersAt s0 (.exc (.debug { singleStep := true })) true 0x501 = true ∧
      entersAt s0 (.exc .doubleFault) true 0x508 = true ∧ entersAt s0 (.exc .coprocOverrun) true 0x509 = true ∧ entersAt s0 .nmi true 0x502 = true ∧
      entersAt s0 (.external 7) true 0x507 = true := by decide +kernel

/-- Exception 10 through a gate of its own, and an exception and an external interrupt whose handler is a task. -/
theorem witness_EventEntersHandler_task :
    entersAt (withMem s0 [(0x2050, desc 0x0000E700 0x0008050A)]) (.exc (.invalidTss 8)) true 0x50A = true ∧
      ((s0.attempt (.exc (.invalidTss 8))).eventPc (.exc (.invalidTss 8)) = (8, 0x100) ∧ entersTask s0 (.exc (.invalidTss 8)) 0x28 = true) ∧
      (s0.attempt (.external 10)).eventPc (.external 10) = (8, 0x100) ∧ entersTask s0 (.external 10) 0x28 = true := by decide +kernel

theorem witness_PageFaultRecorded : Memory.wf s0.mem = true ∧ entersAt s0 (.exc (.pageFault 0x1234 true false true)) false 0x50E = true := by decide +kernel

/-- In protected mode, and no longer in it. -/
theorem witness_TrapsFollowCompletion :
    (({ s0 with stepKind := .faulted } : State).stepKind = .faulted ∧ s0.taskTrap = false) ∧
      (s0.shutdown = false ∧ s0.stepKind = .plain ∧ s0.ssShadow = false ∧ s0.taskTrap = false ∧ s0.heldTraps = {} ∧
        ({ s0 with eflags := 0x102 } : State).debugIn = {} ∧ ({ s0 with eflags := 0x102 } : State).flag flagTF = true) ∧
      (s0.pe = true ∧ ({ s0 with cr0 := 0x10 } : State).pe = false) ∧
      ({ s0 with taskTrap := true } : State).shutdown = false ∧ ({ s0 with taskTrap := true } : State).pe = true := by decide

/-- NMI; an interrupt with no NMI pending, and with one that is held off; right after a load of SS. -/
theorem witness_InterruptsAtBoundary :
    (let s : State := { s0 with nmiPending := true }
     s.debugIn.hasFault = false ∧ s.nmiPending = true ∧ s.nmiFrame = none ∧ s.ssShadow = false) ∧
      (let s : State := { s0 with intr := some 0x20, eflags := 0x202 }
       s.debugIn.hasFault = false ∧ s.nmiPending = false ∧ s.intr = some 0x20 ∧ s.flag flagIF = true ∧ s.ssShadow = false) ∧
      ({ s0 with nmiPending := true, nmiFrame := some (.stack 0) } : State).nmiFrame ≠ none ∧
      (let s : State := { s0 with nmiPending := true, ssShadow := true }
       s.debugIn.hasFault = false ∧ s.ssShadow = true ∧ s.flag flagVM = false) := by decide

/-- DS read-only with the limit 0xFFF. -/
def dsShort : State := { s0 with segs := { s0.segs with ds := seg 0x68 { flat (.data false false) true 0 with limit := 0xFFF } } }

/-- A null FS; a read of SS one byte past its limit; a write to code; a write past the limit of read-only data; the last word inside. -/
theorem witness_SegmentStage :
    ((s0.segs.get .fs).checked = true ∧ isNull (s0.segs.get .fs).sel = true) ∧
      (((shortStack 0 0).segs.get .ss).checked = true ∧ ((shortStack 0 0).segs.get .ss).desc.inLimit 0xFFF 2 = false ∧
        ((shortStack 0 0).segs.get .ss).desc.kind = .data true false) ∧
      ((s0.segs.get .cs).checked = true ∧ (s0.segs.get .cs).desc.inLimit 0 4 = true ∧ (s0.segs.get .cs).desc.kind = .code false true) ∧
      ((dsShort.segs.get .ds).checked = true ∧ isNull (dsShort.segs.get .ds).sel = false ∧ (dsShort.segs.get .ds).desc.inLimit 0x1000 1 = false ∧
        (dsShort.segs.get .ds).desc.kind = .data false false) ∧
      (dsShort.segs.get .ds).desc.inLimit 0xFFE 2 = true := by decide

/-- Paging off; page 3 absent; at level 3 page 2, and page 1 to a write; page 0; an entry in use, and a byte that is none. -/
theorem witness_PageStage :
    s0.pg = false ∧ paged.pg = true ∧ pageEntry paged (entryBase paged.cr3 + 4 * (0x3000#32 >>> 22).toNat) = .ok 0xA007 ∧
      pageEntry paged (entryBase 0xA007 + 4 * ((0x3000#32 >>> 12) &&& 0x3FF).toNat) = .ok 0 ∧ entryPresent 0 = false ∧
      pageEntry paged (entryBase 0xA007 + 4 * ((0x2000#32 >>> 12) &&& 0x3FF).toNat) = .ok 0x2003 ∧ entryPresent 0x2003 = true ∧ entryUser 0x2003 = false ∧
      pageEntry paged (entryBase 0xA007 + 4 * ((0x1FFF#32 >>> 12) &&& 0x3FF).toNat) = .ok 0x1005 ∧ entryPresent 0x1005 = true ∧ entryWritable 0x1005 = false ∧
      pageEntry paged (entryBase 0xA007 + 4 * ((0xFFF#32 >>> 12) &&& 0x3FF).toNat) = .ok 7 ∧ entryPresent 7 = true ∧ entryUser 7 = true ∧ entryWritable 7 = true ∧
      paged.entryBits 0xA000 = true ∧ paged.entryBits 0xFFF = false := by
  decide +kernel

/-- R31, R172: a read of a table at level 3 tells user level. U21: a read of an entry in use. R64: an entry stored to while paging was off. -/
theorem test_page_tables :
    pageWalk { paged with cpl := 3 } false false 0x3000 = .error (.exc (.pageFault 0x3000 false false true)) ∧
      translate (withMem paged [(0xA004, [0x05, 0x90])]) false false 0x1000 = .error (.refuse .accessedBits) ∧
      pageEntry (((paged.setCtl .cr0 0x11).storeByte 0xA000 7).setCtl .cr0 0x80000011) 0xA000 = .error (.refuse .staleTranslation) := by decide +kernel

/-- U21: the entries of a table that a store to the directory puts out of use stay in doubt, that directory entry itself does not. -/
theorem test_table_out_of_use :
    (paged.storeByte 0x9000 0).entryDoubts = [0xA000, 0xA004, 0xA008] ∧ (paged.storeByte 0x9000 0).entryBits 0xA004 = true ∧
      (paged.storeByte 0x9000 0).entryBits 0x9000 = false := by decide +kernel

/-- R57, R64: a directory entry being stored, 0x19007 at 0x9004, puts no table in use, neither its own nor the one its first byte alone would name, frame 0,
where an odd byte of the code is read as before. -/
theorem test_half_stored_entry :
    let s := (withMem paged [(0x100, [0x0F])]).storeBytes [0x9004, 0x9005, 0x9006, 0x9007] 0x19007
    s.tables = [9, 10] ∧ s.entryDoubts = [0x9000, 0xA000, 0xA004, 0xA008] ∧ s.entryBits 0x100 = false := by decide +kernel

/-- R64, R51: with linear page 0x3FE at the page table's own frame, a write across its end changes the entry of page 0x3FF, which its second part needs, and
is refused; an aligned one inside it (R52) and one across two other pages are not. -/
theorem test_write_changes_its_own_page :
    let s := withMem paged [(0xAFF8, dwordBytes 0xA003), (0xAFFC, dwordBytes 0x3003)]
    translateWrite s false 4 0x3FEFFE = ([0xAFFE, 0xAFFF], some (.refuse .staleTranslation)) ∧
      translateWrite s false 4 0x3FEFFC = ([0xAFFC, 0xAFFD, 0xAFFE, 0xAFFF], none) ∧ (translateWrite s false 4 0xFFE).2 = none := by decide +kernel

/-- MOV CR3, EAX with paging on goes on under the new tables, with the old entries' bytes in doubt (R64, R117, U21). -/
theorem test_paged_step :
    nextIs (step (withGpr (withMem paged [(0xA000, dwordBytes 7), (0x100, [0x0F, 0x22, 0xD8])]) .eax 0x9000))
      (fun t => t.eip == 0x103 && t.cr3 == 0x9000 && t.entryDoubts == [0x9000, 0xA000, 0xA004, 0xA008]) = true := by decide +kernel

theorem witness_PushStoresLittleEndian :
    (Memory.wf s0.mem = true ∧ s0.canPush .s32 = true) ∧ Memory.wf (shortStack 2 0).mem = true ∧ (shortStack 2 0).canPush .s16 = true := by decide +kernel

/-- With a task gate at 0x68 to the absent TSS 0x48, an absent task gate at 0x70, and a far pointer to 0x40. -/
def taskGated : State := withMem s0 [(0x1068, desc 0x00008500 0x00480000), (0x1070, desc 0x00000500 0x00280000), (0x3100, [0, 0, 0x40, 0])]

/-- A busy, an absent and a short TSS; through memory; through a task gate; an absent task gate. -/
theorem witness_TssVerifiedFirst :
    (s0.begin.descOf 0x40 = some (.tss true true 0 0x3000 0x67) ∧ s0.begin.descOf 0x48 = some (.tss false false 0 0x3000 0x67) ∧
      s0.begin.descOf 0x50 = some (.tss false true 0 0x3000 0x66) ∧ isNull 0x40 = false ∧ inLdt 0x40 = false ∧ isNull 0x48 = false ∧ inLdt 0x48 = false ∧
      isNull 0x50 = false ∧ inLdt 0x50 = false ∧ s0.cpl ≤ 0 ∧ rpl 0x40 ≤ 0 ∧ rpl 0x48 ≤ 0 ∧ rpl 0x50 ≤ 0) ∧
      (let m : MemOp := { ovr := none, ea := .direct32 0x3100 }
       taskGated.begin.farReadable .s16 m = true ∧ taskGated.begin.farSel .s16 m = 0x40) ∧
      taskGated.begin.descOf 0x68 = some (.taskGate true 0 0x48) ∧ taskGated.begin.descOf 0x48 = some (.tss false false 0 0x3000 0x67) ∧
      taskGated.begin.descOf 0x70 = some (.taskGate false 0 0x28) := by decide +kernel

/-- Whether an operation completed (0), raises an exception with TR changed (1) or unchanged (2), or did neither (3). -/
def switchEnd (m : M Unit) (s : State) : Nat :=
  match m s with
  | .ok _ _ => 0
  | .error (.exc _) t => if t.tr = s.tr then 2 else 1
  | .error (.refuse _) _ => 3

/-- The TSS holds nothing but selectors outside the GDT. -/
def badTask : State :=
  withMem s0 [(0x3048, [0x80]), (0x304C, [0x80]), (0x3050, [0x80]), (0x3054, [0x80]), (0x3058, [0x80]), (0x305C, [0x80])]

/-- A switch that completes, one to a busy TSS, one to a TSS whose selectors are all wrong. -/
theorem witness_TaskSwitchCommits :
    (s0.switching = .idle ∧ SwitchCause.call.nests = true ∧ Memory.wf s0.mem = true) ∧ switchEnd (taskSwitch .call 0x28 (8, 0x100)) s0 = 0 ∧
      switchEnd (taskSwitch .jmp 0x40 (8, 0x100)) s0 = 2 ∧ badTask.switching = .idle ∧ Memory.wf badTask.mem = true ∧
      switchEnd (taskSwitch .jmp 0x28 (8, 0x100)) badTask = 1 := by decide +kernel

/-- The largest quotient that fits, in eight bits from a register and in sixteen from memory. -/
theorem witness_DivCompletes :
    (let s := withGpr (withGpr s0 .eax 0xFF) .ebx 1
     s.begin.rmReadable 1 (.reg .ebx) = true ∧ (s.begin.rmValue8 (.reg .ebx)).toNat ≠ 0 ∧ dividend s.begin .b8 / (s.begin.rmValue8 (.reg .ebx)).toNat < 2 ^ 8) ∧
      (let s := withGpr (withMem s0 [(0x3100, [1, 0])]) .eax 0xFFFF
       let rm : RM := .mem { ovr := none, ea := .direct32 0x3100 }
       s.begin.rmReadable OpSize.s16.bytes rm = true ∧ (s.begin.rmValue .s16 rm).toNat ≠ 0 ∧
          dividend s.begin .b16 / (s.begin.rmValue .s16 rm).toNat < 2 ^ OpSize.s16.bits) := by decide +kernel

/-- Quotients -127, 127 and -128. -/
theorem witness_IdivCompletes :
    (signed 8 1 ≠ 0 ∧ -(2 ^ 7) < (signed 16 0xFF81).tdiv (signed 8 1) ∧ (signed 16 0xFF81).tdiv (signed 8 1) < 2 ^ 7) ∧
      (-(2 ^ 7) < (signed 16 0x7F).tdiv (signed 8 1) ∧ (signed 16 0x7F).tdiv (signed 8 1) < 2 ^ 7) ∧
      (signed 16 0xFF80).tdiv (signed 8 1) = -(2 ^ 7) ∧ dividend (withGpr s0 .eax 0xFF80).begin .b8 = 0xFF80 ∧
      ((withGpr s0 .ebx 1).begin.rmValue8 (.reg .ebx)).toNat = 1 := by decide +kernel

/-- A zero divisor, the quotients 256, 128 and -129. -/
theorem witness_DivideErrorFaults :
    ((s0.begin.rmValue8 (.reg .ebx)).toNat = 0 ∧ signed 8 0 = 0) ∧
      (let s := withGpr (withGpr s0 .eax 0x100) .ebx 1
       2 ^ DivWidth.b8.bits ≤ dividend s.begin .b8 / (s.begin.rmValue8 (.reg .ebx)).toNat) ∧
      2 ^ 7 ≤ (signed 16 0x80).tdiv (signed 8 1) ∧ (signed 16 0xFF7F).tdiv (signed 8 1) < -(2 ^ 7) := by decide +kernel

/-- INT 3, INT 13 and INTO. -/
theorem witness_IntEntersHandler :
    entersAt s0.begin.advance (.exc .breakpoint) true 0x503 = true ∧ entersAt s0.begin.advance (.soft 13) true 0x50D = true ∧
      (let s : State := { s0 with eflags := 0x802 }
       s.flag flagOF = true ∧ entersAt s.begin.advance (.exc .overflow) true 0x504 = true) := by decide +kernel

/-- Past the IDT's limit; a gate of level 0 from level 3; a gate that is not present. -/
theorem witness_IntGateTests :
    (s0.ready ∧ s0.idtr.limit.toNat < 8 * (Event.soft 0x32).vector.toNat + 7) ∧
      ((user []).ready ∧ (user []).begin.idtEntry 0x31 = some (.intGate true 0 .s16 true 8 0x531) ∧ (0 : BitVec 2) < (user []).cpl) ∧
      s0.begin.idtEntry 0x30 = some (.intGate false 3 .s16 true 8 0x530) ∧ s0.cpl ≤ 3 :=
  ⟨⟨s0_ready, by decide +kernel⟩, ⟨⟨rfl, rfl⟩, by decide +kernel, by decide⟩, by decide +kernel, by decide⟩

theorem witness_IntoGoesOn : s0.ready ∧ s0.flag flagOF = false := ⟨s0_ready, rfl⟩

/-- The limits themselves, and one past each. -/
theorem witness_BoundChecksIndex :
    let s := withMem s0 [(0x3100, [0, 0, 10, 0])]
    let m : MemOp := { ovr := none, ea := .direct32 0x3100 }
    (s.begin.memReadable m 0 2 = true ∧ s.begin.memReadable m 2 2 = true ∧ signedOf .s16 (s.begin.memLoaded m 0 2) = 0 ∧ signedOf .s16 (s.begin.memLoaded m 2 2) = 10) ∧
      signedOf .s16 ((withGpr s .eax 10).begin.reg .s16 .eax) = 10 ∧ signedOf .s16 ((withGpr s .eax 0).begin.reg .s16 .eax) = 0 ∧
      signedOf .s16 ((withGpr s .eax 0xFFFF).begin.reg .s16 .eax) = -1 ∧ signedOf .s16 ((withGpr s .eax 11).begin.reg .s16 .eax) = 11 := by decide +kernel

def npxLoads (n : Nat) (s : State) : State := { s with npx := { transfer := .load n } }

/-- DS with a last valid offset. -/
def dsTo (limit : Word32) : State := { s0 with segs := { s0.segs with ds := seg 0x10 { flat (.data true false) true 0 with limit := limit } } }

/-- An operand of four bytes moves byte by byte, whatever the open sizes are. -/
theorem portion_four : portion 4 = 1 := by
  unfold portion
  split <;> omega

theorem witness_EscCompletes :
    let m : MemOp := { ovr := none, ea := .direct32 0x1000 }
    (s0.em = false ∧ s0.ts = false ∧ s0.errorPin = false ∧ s0.coproc ≠ .none ∧ ({ s0 with coproc := .none } : State).coproc = .none) ∧
      (npxLoads 4 (dsTo 0x1003)).npx.transfer = .load 4 ∧
      (∀ q ∈ portions (portion 4) 4 0x1000 4, (npxLoads 4 (dsTo 0x1003)).begin.readable (opSeg m) q.1 q.2 = true) ∧
      s0.begin.canGive (opSeg m) (dataPortions (portion 4) 4 (eaOffset s0.begin m.ea) [1, 2, 3, 4]) = true ∧
      (let s : State := { s0 with cr0 := 9 }
       s.ready ∧ s.em = false ∧ s.mp = false ∧ s.ts = true ∧ s.errorPin = false ∧ s.coproc ≠ .none) := by
  rw [portion_four]
  exact ⟨by decide, rfl, by decide +kernel, by decide +kernel, ⟨rfl, rfl⟩, by decide⟩

theorem witness_CoprocessorNotAvailable :
    ({ s0 with cr0 := 5 } : State).em = true ∧ ({ s0 with cr0 := 0xB } : State).mp = true ∧ ({ s0 with cr0 := 0xB } : State).ts = true := by decide

theorem witness_CoprocessorErrorFaults :
    let s : State := { s0 with errorPin := true }
    s.em = false ∧ s.ts = false ∧ s.errorPin = true ∧ s.coproc ≠ .none ∧ s.mp = false := by decide

/-- Four portions of a byte: the first, the second and the last fails, in a read and in a write. -/
theorem witness_EscPortionFaults :
    let m : MemOp := { ovr := none, ea := .direct32 0x1000 }
    portions (portion 4) 4 (eaOffset s0.begin m.ea) 4 = [] ++ (0x1000, 1) :: [(0x1001, 1), (0x1002, 1), (0x1003, 1)] ∧
      raises (memRead (opSeg m) 0x1000 1) (npxLoads 4 (dsTo 0xFFF)).begin = some (.generalProtection 0) ∧
      ((npxLoads 4 (dsTo 0x1000)).begin.readable (opSeg m) 0x1000 1 = true ∧
        raises (memRead (opSeg m) 0x1001 1) (npxLoads 4 (dsTo 0x1000)).begin = some (.generalProtection 0)) ∧
      ((npxLoads 4 (dsTo 0x1002)).begin.readable (opSeg m) 0x1002 1 = true ∧
        raises (memRead (opSeg m) 0x1003 1) (npxLoads 4 (dsTo 0x1002)).begin = some (.generalProtection 0)) ∧
      dataPortions (portion 4) 4 (eaOffset s0.begin m.ea) [1, 2, 3, 4] = [(0x1000, [1])] ++ (0x1001, [2]) :: [(0x1002, [3]), (0x1003, [4])] ∧
      (dsTo 0x1000).begin.canGive (opSeg m) [(0x1000, [1])] = true ∧
      raises (memWrite (opSeg m) 0x1001 1 2) ((dsTo 0x1000).begin.given (opSeg m) [(0x1000, [1])]) = some (.generalProtection 0) := by
  rw [portion_four]
  decide +kernel

theorem witness_WaitCompletes : (s0.mp = false ∧ s0.errorPin = false) ∧ ({ s0 with cr0 := 5, errorPin := true } : State).em = true := by decide

/-- CS with a last valid offset. -/
def csTo (limit : Word32) : State := { s0 with segs := { s0.segs with cs := seg 8 { flat (.code false true) true 0 with limit := limit } } }

theorem witness_ready_short : (∀ n, (csTo n).ready) ∧ ∀ k n, (npxLoads k (dsTo n)).ready := ⟨fun _ => ⟨s0_ready.1, s0_ready.2⟩, fun _ _ => ⟨s0_ready.1, s0_ready.2⟩⟩

/-- A target at the limit of CS, and one past it. -/
theorem witness_JmpNearGoesToTarget :
    ((csTo 0xFFF).segs.cs.checked = true ∧ (0xFFF : Word32).toNat ≤ (csTo 0xFFF).segs.cs.desc.limit.toNat) ∧
      (csTo 0xFFF).segs.cs.desc.limit.toNat < (0x1000 : Word32).toNat ∧
      sizeMask .s32 ({ csTo 0xFFF with nextEip := 0xFF0 }.nextEip + (0xF : Byte).signExtend 32) = 0xFFF ∧
      sizeMask .s32 ({ csTo 0xFFF with nextEip := 0xFF0 }.nextEip + (0x10 : Byte).signExtend 32) = 0x1000 ∧
      (withGpr (csTo 0xFFF) .ecx 0x1000).begin.rmValue .s32 (.reg .ecx) = 0x1000 := by decide +kernel

theorem witness_CallNearPushesAndGoes :
    (csTo 0xFFF).segs.cs.checked = true ∧ (csTo 0xFFF).begin.canPush .s16 = true ∧ (csTo 0xFFF).begin.canPush .s32 = true ∧
      (withGpr (csTo 0xFFF) .ecx 0xFFF).begin.rmValue .s32 (.reg .ecx) = 0xFFF := by decide +kernel

def data0 : SegDesc := { base := 0, limit := 0xFFFFFFFF, kind := .data true false, dpl := 0, big := true }

def code0 (conforming : Bool) : SegDesc := { base := 0, limit := 0xFFFFFFFF, kind := .code conforming true, dpl := 0, big := true }

/-- With call gates, 16-bit at 0x48 and 32-bit at 0x50, to code of level 0, the first by a selector with RPL 3, and to conforming code. -/
def sameGates : State := withMem s0 [(0x1048, desc 0x00008400 0x000B0200), (0x1050, desc 0x00008C00 0x00580200)]

/-- The gates, and their code. -/
theorem same_gates :
    isNull 0x48 = false ∧ sameGates.begin.descOf 0x48 = some (.callGate true 0 .s16 0 0xB 0x200) ∧ sameGates.cpl ≤ 0 ∧ rpl 0x48 ≤ 0 ∧
      sameGates.begin.gateCode 0xB 0x200 = some (code0 false) ∧ sameGates.begin.descOf 0x50 = some (.callGate true 0 .s32 0 0x58 0x200) ∧
      sameGates.begin.gateCode 0x58 0x200 = some (code0 true) := by decide +kernel

/-- Non-conforming and conforming code, and the largest offset; a far pointer in memory; through a gate (`same_gates`). -/
theorem witness_JmpFarSameLevel :
    sameGates.begin.FarSame .s32 0x48 0 .s16 0xB 0x200 (code0 false) ∧ sameGates.begin.FarSame .s16 0x50 0 .s32 0x58 0x200 (code0 true) ∧
      s0.begin.FarSame .s32 8 0xFFFFFFFF .s32 8 0xFFFFFFFF (code0 false) ∧ s0.begin.sameLevelCode 8 0xFFFFFFFF = some (code0 false) ∧ s0.begin.sameLevelCode 0x58 0 = some (code0 true) ∧
      (withMem s0 [(0x3100, [0, 2, 8, 0])]).begin.farReadable .s16 { ovr := none, ea := .direct32 0x3100 } = true :=
  ⟨.inr ⟨rfl, same_gates.2.2.2.2.1, 0, 0, same_gates.2.1, by decide, by decide⟩,
    .inr ⟨rfl, same_gates.2.2.2.2.2.2, 0, 0, same_gates.2.2.2.2.2.1, by decide, by decide⟩, .inl ⟨by decide +kernel, rfl, rfl, rfl⟩, by decide +kernel⟩

theorem witness_CallFarSameLevel :
    (sameGates.begin.gateCode 0x58 0x200 = some (code0 true) ∧
        (sameGates.begin.selCounted .s16).canPushAll .s16 [selDrawn .s16 s0.freeCtr s0.segs.cs.sel, s0.nextEip] = true) ∧
      s0.begin.sameLevelCode 8 0x200 = some (code0 false) ∧
      (s0.begin.selCounted .s16).canPushAll .s16 [selDrawn .s16 s0.freeCtr s0.segs.cs.sel, s0.nextEip] = true ∧
      (s0.begin.selCounted .s32).canPushAll .s32 [selDrawn .s32 s0.freeCtr s0.segs.cs.sel, s0.nextEip] = true := by decide +kernel

def code3 : SegDesc := { base := 0, limit := 0xFFFFFFFF, kind := .code false true, dpl := 3, big := true }
def data3 : SegDesc := { base := 0, limit := 0xFFFFFFFF, kind := .data true false, dpl := 3, big := true }

/-- Level 3 with a call gate at 0x50 to 0x08:0x200 that copies one parameter, and the stack of level 0 in the TSS. -/
def gated (access : Word32) (esp0 : Word32) (ss0 : Word16) : State :=
  withMem (user []) [(0x1050, desc (access ||| 1) 0x00080200), (0x3004, dwordBytes esp0), (0x3008, wordBytes ss0), (0x8000, [0x34, 0x12])]

/-- The state as the gate's code segment is loaded. -/
def inGate (s : State) : State := s.begin.setCs { sel := withRpl 8 0, desc := code0 false, checked := true }

/-- The same on the stack of level 0. -/
def onInner (s : State) (esp : Word32) : State := ((inGate s).withSeg .ss { sel := 0x10, desc := data0, checked := true }).withSp esp

/-- A 16-bit gate that goes through; a 32-bit one whose new stack overflows; one whose stack segment is absent. -/
theorem witness_InterlevelCall :
    (let s := gated 0xE400 0x7000 0x10
     s.pe = true ∧ s.flag flagVM = false ∧ s.segs.ss.checked = true ∧ isNull 0x53 = false ∧ s.begin.descOf 0x53 = some (.callGate true 3 .s16 1 8 0x200) ∧
        s.cpl ≤ 3 ∧ rpl 0x53 ≤ 3 ∧ isNull 8 = false ∧ s.begin.descOf 8 = some (.seg true (code0 false)) ∧ (code0 false).dpl < s.cpl ∧
        (0x200 : Word32).toNat ≤ (code0 false).limit.toNat ∧ s.begin.params .s16 1 s.begin.sp = some [0x1234] ∧ s.begin.tssStack 0 = some (0x10, 0x7000) ∧
        (inGate s).segLoad .ss 0x10 = some { sel := 0x10, desc := data0, checked := true } ∧
        (((onInner s 0x7000).selCounted .s16).selCounted .s16).canPushAll .s16 [0x23, 0x8000, 0x1234, 0x1B, 0x100] = true) ∧
      (let s := gated 0xEC00 2 0x10
       s.begin.descOf 0x53 = some (.callGate true 3 .s32 1 8 0x200) ∧ s.begin.tssStack 0 = some (0x10, 2) ∧
          data0.inLimit ((((onInner s 2).selCounted .s32).selCounted .s32).pushAt .s32) 4 = false) ∧
      (let s := gated 0xE400 0x7000 0x38
       s.begin.tssStack 0 = some (0x38, 0x7000) ∧ isNull 0x38 = false ∧ (inGate s).descOf 0x38 = some (.seg false data0) ∧ rpl 0x38 = 0 ∧ data0.dpl = 0) := by
  decide +kernel

/-- A return to the same level, and one to level 3. -/
theorem witness_RetfReturns :
    (let s := withMem s0 [(0x8000, [0x34, 0x12, 0x08, 0x00])]
     s.begin.canPop 0x8000 2 = true ∧ s.begin.canPop 0x8002 2 = true ∧ s.begin.onStack 0x8000 2 = 0x1234 ∧ s.begin.onStack 0x8002 2 = 8 ∧
        s.begin.returnSeg 8 0x1234 = some (code0 false) ∧ rpl 8 = s.cpl) ∧
      (let s := withMem s0 [(0x8000, [0x34, 0x12, 0x1B, 0x00, 0x00, 0x70, 0x23, 0x00])]
       s.begin.onStack 0x8002 2 = 0x1B ∧ s.begin.returnSeg 0x1B 0x1234 = some code3 ∧ rpl 0x1B ≠ s.cpl ∧ s.begin.canPop 0x8004 2 = true ∧
          s.begin.canPop 0x8006 2 = true ∧ s.begin.onStack 0x8006 2 = 0x23 ∧
          (s.begin.setCs { sel := 0x1B, desc := code3, checked := true }).segLoad .ss 0x23 = some { sel := 0x23, desc := data3, checked := true }) := by decide +kernel

theorem witness_IretReturns :
    (let s := withMem s0 [(0x8000, [0x34, 0x12, 0x08, 0x00, 0x03, 0x08])]
     s.flag flagNT = false ∧ s.abortFrames.contains s.irets = false ∧ s.begin.canPop 0x8000 2 = true ∧
        s.begin.canPop 0x8002 2 = true ∧ s.begin.canPop 0x8004 2 = true ∧ s.begin.sp = 0x8000 ∧ s.begin.returnSeg 8 0x1234 = some (code0 false) ∧ rpl 8 = s.cpl) ∧
      (let s := withMem s0 [(0x8000, [0x34, 0x12, 0, 0, 0x1B, 0x00, 0, 0, 0x03, 0x08, 0, 0, 0x00, 0x70, 0, 0, 0x23, 0x00])]
       (s.begin.onStack 0x8008 4).getLsbD flagVM = false ∧ s.begin.returnSeg 0x1B 0x1234 = some code3 ∧ rpl 0x1B ≠ s.cpl ∧ s.begin.canPop 0x800C 4 = true ∧
          s.begin.canPop 0x8010 4 = true ∧
          (s.begin.setCs { sel := 0x1B, desc := code3, checked := true }).segLoad .ss 0x23 = some { sel := 0x23, desc := data3, checked := true }) := by decide +kernel

theorem witness_LoadFarPointerCompletes :
    (let s := withMem s0 [(0x3100, [0xF0, 0, 0x10, 0])]
     s.begin.farReadable .s16 { ovr := none, ea := .direct32 0x3100 } = true ∧ s.begin.farSel .s16 { ovr := none, ea := .direct32 0x3100 } = 0x10) ∧
      (∀ g, g ≠ .cs → s0.begin.segLoad g 0x10 = some { sel := 0x10, desc := data0, checked := true }) ∧ s0.begin.segLoad .gs 0 = some (nullSeg 0) :=
  ⟨by decide +kernel, fun g hg => by cases g <;> first | exact absurd rfl hg | decide +kernel, rfl⟩

/-- An LDT, a null selector; a selector of the LDT, one outside the GDT, a TSS, an absent LDT; level 3. -/
theorem witness_LldtLoads :
    (s0.cpl = 0 ∧ s0.begin.rmReadable 2 (.reg .eax) = true ∧ s0.begin.ldtLoad 0x30 = some { sel := 0x30, base := 0x4000, limit := 0xF, usable := true } ∧
      s0.begin.ldtLoad 0 = some { sel := 0, base := 0, limit := 0, usable := false }) ∧
      (isNull 0x34 = false ∧ inLdt 0x34 = true ∧ descAddr s0 0x78 = none ∧ s0.begin.descOf 0x28 = some (.tss false true 0 0x3000 0x67) ∧
        (withMem s0 [(0x1030, desc 0x00000200 0x4000000F)]).begin.descOf 0x30 = some (.ldt false 0x4000 0xF)) ∧ (user []).cpl ≠ 0 := by decide +kernel

theorem witness_MovToSegmentCompletes :
    SegReg.ofBits 2 = some .ss ∧ (withGpr s0 .eax 0x10).begin.rmReadable 2 (.reg .eax) = true ∧
      (withGpr s0 .eax 0x10).begin.segLoad .ss (((withGpr s0 .eax 0x10).begin.rmValue .s16 (.reg .eax)).setWidth 16) =
        some { sel := 0x10, desc := data0, checked := true } := by decide +kernel

/-- Selector by selector: null; outside the GDT; no LDT; a TSS; for SS code, read-only data, a wrong RPL, an absent and a good segment; for DS
execute-only code, too privileged data, an absent segment, data and conforming code. -/
theorem witness_SegmentLoadTests :
    isNull 3 = true ∧ descAddr s0 0x78 = none ∧ descAddr s0 0x0C = none ∧ s0.begin.descOf 0x28 = some (.tss false true 0 0x3000 0x67) ∧
      s0.begin.descOf 8 = some (.seg true (code0 false)) ∧ s0.begin.descOf 0x68 = some (.seg true { data0 with kind := .data false false }) ∧ rpl 0x13 ≠ s0.cpl ∧
      s0.begin.descOf 0x38 = some (.seg false data0) ∧ s0.begin.descOf 0x10 = some (.seg true data0) ∧ rpl 0x10 = s0.cpl ∧
      s0.begin.descOf 0x60 = some (.seg true { code0 false with kind := .code false false }) ∧ data0.dpl < (user []).cpl ∧ data0.dpl < rpl 0x13 ∧
      (s0.cpl ≤ data0.dpl ∧ rpl 0x10 ≤ data0.dpl) ∧ s0.begin.descOf 0x58 = some (.seg true (code0 true)) := by decide +kernel

theorem witness_MovFromSegmentCompletes :
    SegReg.ofBits 5 = some .gs ∧ SegReg.ofBits 6 = none ∧ s0.begin.rmWritable 2 (.reg .ecx) = true ∧ s0.begin.rmWritable 2 (.mem { ovr := none, ea := .direct32 0xFFFFFFFE }) = true := by
  decide +kernel

theorem witness_PopSegmentCompletes :
    let s := withMem s0 [(0x8000, [0x10, 0x00])]
    s.begin.canPop s.begin.sp 2 = true ∧ ((s.begin.onStack s.begin.sp 2).setWidth 16 : Word16) = 0x10 ∧
      s.begin.segLoad .ss 0x10 = some { sel := 0x10, desc := data0, checked := true } := by decide +kernel

theorem witness_PushSegmentCompletes : (s0.begin.selCounted .s32).canPush .s32 = true ∧ (s0.begin.selCounted .s16).canPush .s16 = true := by decide +kernel

theorem witness_MovToControlRegister :
    (user []).cpl ≠ 0 ∧ s0.cpl = 0 ∧ (0x80000000 : Word32).getLsbD 31 = true ∧ (0x80000000 : Word32).getLsbD 0 = false ∧ (0x80000001 : Word32).getLsbD 0 = true := by
  decide

theorem witness_MovFromControlRegister : s0.cpl = 0 ∧ (user []).ready ∧ (user []).cpl ≠ 0 := ⟨rfl, ⟨rfl, rfl⟩, by decide⟩

theorem witness_InvalidOperandFaults : s0.ready ∧ ∃ sz r, Instr.jmpMem .s32 (.reg .eax) = .jmpMem sz (.reg r) := ⟨s0_ready, _, _, rfl⟩

/-- At the bottom of the stack. -/
theorem witness_PushCompletes :
    (shortStack 2 0).begin.canPush .s16 = true ∧ (shortStack 2 0).begin.rmReadable 2 (.mem { ovr := none, ea := .direct32 0x3100 }) = true := by decide +kernel

/-- At the top of the stack. -/
theorem witness_PopCompletes :
    (shortStack 0xFFE 0).begin.canPop (shortStack 0xFFE 0).begin.sp 2 = true ∧
      ((shortStack 0xFFE 0).begin.withSp 0x1000).rmWritable 2 (.mem { ovr := none, ea := .direct32 0x3100 }) = true := by decide +kernel

/-- Levels 0, 1 and 31; local space down to the bottom of the stack, and past it. -/
theorem witness_EnterCompletes :
    (let b := s0.begin
     b.canPush .s16 = true ∧ (b.pushed .s16 0).canNest .s16 0 0x9000 = true ∧ (b.pushed .s16 0).canNest .s16 1 0x9000 = true ∧
        (b.pushed .s16 0).canNest .s16 31 0x9000 = true ∧ b.segs.ss.desc.inLimit 0 1 = true) ∧
      (let b := (shortStack 0x800 0).begin
       b.canPush .s16 = true ∧ (b.pushed .s16 0).canNest .s16 0 0 = true ∧ b.segs.ss.desc.inLimit (b.stackAt ((b.pushed .s16 0).sp - 0x7FE)) 1 = true ∧
          b.segs.ss.desc.inLimit (b.stackAt ((b.pushed .s16 0).sp - 0x7FF)) 1 = false) := by decide +kernel

theorem witness_LeaveCompletes : (shortStack 0x800 0xFFE).begin.canPop ((shortStack 0x800 0xFFE).begin.reg .s16 .ebp) 2 = true := by decide +kernel

/-- The last doubleword of DS and a register; a byte past the limit of DS, and one past that of SS. -/
theorem witness_MovRegisterCompletes :
    (s0.begin.rmReadable 4 (.mem { ovr := none, ea := .direct32 0xFFFFFFFC }) = true ∧ s0.begin.rmReadable 4 (.reg .esp) = true) ∧
      (let m : MemOp := { ovr := none, ea := .direct32 0x1000 }
       let d := ((dsTo 0x1002).segs.get (opSeg m)).desc
       opSeg m = .ds ∧ d.allows .read = true ∧ d.inLimit (eaOffset (dsTo 0x1002).begin m.ea) 4 = false) ∧
      (let m : MemOp := { ovr := none, ea := .a16 .bp (.d8 6) }
       let d := ((shortStack 0 0xFF9).segs.get (opSeg m)).desc
       opSeg m = .ss ∧ d.allows .read = true ∧ d.inLimit (eaOffset (shortStack 0 0xFF9).begin m.ea) 2 = false) := by decide +kernel

/-- One byte past the stack's last word, and below its bottom. -/
theorem witness_StackLimitFaults :
    let d := (shortStack 0 0).segs.ss.desc
    (shortStack 0 0).segs.ss.checked = true ∧ d.allows .write = true ∧ d.allows .read = true ∧
      d.inLimit ((shortStack 0 0).begin.pushAt .s16) 2 = false ∧ d.inLimit ((shortStack 0xFFF 0).begin.stackAt (shortStack 0xFFF 0).begin.sp) 2 = false ∧
      d.inLimit ((shortStack 0 0x1000).begin.stackAt ((shortStack 0 0x1000).begin.reg .s16 .ebp)) 2 = false ∧
      d.inLimit (eaOffset (shortStack 0 0xFF9).begin (.a16 .bp (.d8 6))) 2 = false := by decide +kernel

end Sys2Proof.Tests
end

section
/-! PROOFS. Scope: a step with no event at its boundary runs the instruction fetched at CS:EIP. -/

namespace Sys2Proof.Machine

/-- Fetching ends with the decoded instruction and the offset after it, where CS is checked. -/
theorem fetchDecode_ok {s : State} {i : Instr} {bs rest : List Byte} {stop : Option Stop} (hcs : s.segs.cs.checked = true)
    (hf : fetchBytes s s.segs.cs.desc Config.maxInstrLen 0 = (bs, stop)) (hd : decode s.segs.cs.desc.big bs = .ok (i, rest)) :
    fetchDecode s = .ok i (s.setNext (offsetTop s.segs.cs.desc) (bs.length - rest.length)) := by
  unfold fetchDecode
  rw [bind_ok (segView_ok (seg := .cs) hcs), bind_ok (look_run id s)]
  simp only [SegRegs.get, id_eq, hf, hd]
  rfl

/-- An instruction that is fetched and decoded is executed. -/
theorem stepInstr_ok {s t : State} {i : Instr} (h : fetchDecode s = .ok i t) : stepInstr s = exec i t := by
  unfold stepInstr
  rw [h]

/-- A boundary with no debug fault, NMI or interrupt to take goes on to the instruction (R198). -/
theorem stepEvent_eq_stepInstr {s : State} (hvm : s.flag flagVM = false) (hdebug : s.debugIn.hasFault = false)
    (hnmi : (s.nmiPending && s.nmiFrame.isNone && !s.ssShadow) = false)
    (hintr : s.intr = none ∨ (s.flag flagIF && !s.ssShadow) = false) :
    stepEvent s = stepInstr { s with ssShadow := false } := by
  simp only [stepEvent, hdebug, hnmi, hvm, Bool.false_eq_true, if_false]
  split
  next hsome htrue =>
    rcases hintr with hnone | hmasked
    · rw [hnone] at hsome
      cases hsome
    · rw [hmasked] at htrue
      cases htrue
  next => rfl

/-- A step that may run and has no task's debug trap to report is its event, the debug traps that follow and the next input. -/
theorem step_eq_event {s : State} (hrun : s.shutdown = false) (hpe : s.pe = true) (htrap : s.taskTrap = false) :
    step s = mapNext State.latch (andThen (stepEvent s.begin) (afterEvent s.begin)) := by
  simp only [step, stepBody, hrun, hpe, htrap, Bool.not_true, Bool.false_eq_true, if_false]

/-- Settles O10: no event comes before the instruction, which is fetched, decoded and executed. -/
theorem stepRunsDecodedInstruction : Obligations.StepRunsDecodedInstruction := by
  intro s i bs rest stop hrun hready hdebug hnmi hintr htrap hcs q hf hd
  obtain ⟨hpe, hvm⟩ := hready
  have hevent : stepEvent s.begin = stepInstr q := stepEvent_eq_stepInstr hvm hdebug hnmi hintr
  have hinstr : stepInstr q = exec i (q.setNext (offsetTop s.segs.cs.desc) (bs.length - rest.length)) :=
    stepInstr_ok (fetchDecode_ok (s := q) hcs hf hd)
  rw [step_eq_event hrun hpe htrap, hevent, hinstr]

end Sys2Proof.Machine
end

section
/-! PROOFS. Scope: every step keeps the invariant. -/

namespace Sys2Proof.Machine

/-! ## Registers that no access, load or transfer writes -/

/-- The system registers that the shared operations leave alone, but for TS in CR0, which a task switch sets (R25). -/
structure System where
  cr0      : Word32
  cr2      : Word32
  dbg      : DebugRegs
  gdtr     : TableReg
  idtr     : TableReg
  coproc   : Coproc
  shutdown : Bool

def State.system (s : State) : System where
  cr0 := s.cr0
  cr2 := s.cr2
  dbg := s.dbg
  gdtr := s.gdtr
  idtr := s.idtr
  coproc := s.coproc
  shutdown := s.shutdown

/-- What is said of these registers alone is kept by every shared operation, if setting TS keeps it. -/
theorem closed_of_system (Q : System → Prop) {E : Stop → Prop} (exc : ∀ e, e.isPage = false → E (.exc e)) (refuse : ∀ r, E (.refuse r))
    (page : ∀ s w u lin e, Q (State.system s) → translate s w u lin = .error e → E e) (commit : ∀ y, Q y → Q { y with cr0 := y.cr0 ||| 8 }) :
    Closed (fun s => Q s.system) E where
  drawn := fun _ h => h
  exc := exc
  refuse := refuse
  page := page
  store := fun _ _ _ h => h
  note := fun _ _ h => h
  segs := fun _ _ h _ => h
  ldtr := fun _ _ h => h
  gpr := fun _ _ h => h
  setCs := fun _ _ h => h
  eip := fun _ _ h => h
  jump := fun _ _ h => h
  eflags := fun _ _ h => h
  ssShadow := fun _ _ h => h
  abortFrames := fun _ _ h => h
  located := fun _ h => h
  commit := fun s _ _ _ h => commit s.system h
  load := fun _ _ _ h => h
  cr3 := fun _ _ h => h

/-- The same, where nothing is asked of early ends. -/
theorem closed_of_system_anyEnd (Q : System → Prop) (commit : ∀ y, Q y → Q { y with cr0 := y.cr0 ||| 8 }) :
    Closed (fun s => Q s.system) (fun _ => True) :=
  closed_of_system Q (fun _ _ => trivial) (fun _ => trivial) (fun _ _ _ _ _ _ _ => trivial) commit

/-- A report keeps it too, if the record of an exception does and shutdown does. -/
theorem reports_of_system (Q : System → Prop) {E : Stop → Prop} (C : Closed (fun s => Q s.system) E)
    (record : ∀ s e, E (.exc e) → Q (State.system s) → Q (s.record e).system) (shutdown : ∀ y b, Q y → Q { y with shutdown := b }) :
    Reports (fun s => Q s.system) E where
  toClosed := C
  record := record
  book := fun s _ _ _ _ _ x h => shutdown s.system x h
  count := fun _ _ h => h

theorem whole_of_system (Q : System → Prop) {E : Stop → Prop} (C : Reports (fun s => Q s.system) E) : Whole (fun s => Q s.system) E where
  toReports := C
  next := fun _ _ h => h
  outside := fun _ _ _ _ _ _ _ _ _ _ h => h

/-! ## The invariant -/

/-- The part of the invariant that every single update keeps: canonical memory, no paging without protection (R25), the level that CS tells (R31). -/
def State.Sound (s : State) : Prop := Memory.wf s.mem = true ∧ (s.pg = true → s.pe = true) ∧ s.cpl = rpl s.segs.cs.sel

/-- PG and PE are bits that setting TS leaves alone. -/
theorem State.commitTask_pg (s : State) (x : Word16) (b l : Word32) : (s.commitTask x b l).pg = s.pg := by
  simp [State.pg, State.commitTask]

theorem State.commitTask_pe (s : State) (x : Word16) (b l : Word32) : (s.commitTask x b l).pe = s.pe := by
  simp [State.pe, State.commitTask]

/-- A load of CR0 that R117 allows does not turn paging on without protection. -/
theorem sound_setCtl {s : State} (c : CtlReg) (v : Word32) (hv : c = .cr0 → pagingUnprotected v = false) (h : s.Sound) : (s.setCtl c v).Sound := by
  obtain ⟨hmem, hpaging, hlevel⟩ := h
  refine ⟨by simpa using hmem, ?_, by simpa using hlevel⟩
  cases c with
  | cr0 =>
    intro hpg
    have hv := hv rfl
    rw [pagingUnprotected, show v.getLsbD 31 = true from hpg, Bool.true_and, Bool.not_eq_false'] at hv
    exact hv
  | cr2 => exact hpaging
  | cr3 => exact hpaging

theorem sound_whole : Whole State.Sound (fun _ => True) where
  drawn := fun _ h => h
  exc := fun _ _ => trivial
  refuse := fun _ => trivial
  page := fun _ _ _ _ _ _ _ => trivial
  store := fun s pa b h => ⟨Memory.wf_write pa b h.1, h.2⟩
  note := fun _ _ h => h
  segs := fun s g h hg => ⟨h.1, h.2.1, h.2.2.trans (congrArg rpl hg.symm)⟩
  ldtr := fun _ _ h => h
  gpr := fun _ _ h => h
  setCs := fun s v h => ⟨h.1, h.2.1, rfl⟩
  eip := fun _ _ h => h
  jump := fun _ _ h => h
  eflags := fun _ _ h => h
  ssShadow := fun _ _ h => h
  abortFrames := fun _ _ h => h
  located := fun _ h => h
  commit := fun s x b l h => ⟨h.1, by rw [State.commitTask_pg, State.commitTask_pe]; exact h.2.1, h.2.2⟩
  load := fun s n w h => ⟨h.1, h.2.1, rfl⟩
  cr3 := fun s v h => sound_setCtl .cr3 v (fun h => by cases h) h
  record := fun s e _ h => by cases e <;> exact h
  book := fun _ _ _ _ _ _ _ h => h
  count := fun _ _ h => h
  next := fun _ _ h => h
  outside := fun _ _ _ _ _ _ _ _ _ _ h => h

theorem sound_allows (i : Instr) : Allows State.Sound i where
  movCr := fun c _ _ _ v hv h => sound_setCtl c v hv h
  iret := fun _ _ _ _ h => h

/-! ## Nothing in progress between steps -/

/-- The processor runs: it has not shut down. No update of an operation shuts it down. -/
theorem running_closed : Closed (fun s => s.shutdown = false) (fun _ => True) :=
  closed_of_system_anyEnd (fun y => y.shutdown = false) fun _ h => h

theorem running_allows (i : Instr) : Allows (fun s => s.shutdown = false) i where
  movCr := fun c _ _ _ _ _ h => by simpa using h
  iret := fun _ _ _ _ h => h

/-- No store journal and no task switch in progress, and `delivering` set exactly after shutdown (R37, R187). -/
def State.AtRest (s : State) : Prop := s.journal = [] ∧ s.switching = .idle ∧ s.delivering = if s.shutdown then some .doubleFault else none

/-- What an event may be reported from: the processor runs, with no journal and no task switch in progress. -/
def State.Quiescent (s : State) : Prop := s.shutdown = false ∧ s.journal = [] ∧ s.switching = .idle

theorem atRest_settle {s : State} (h : s.shutdown = false) : s.settle.AtRest := ⟨rfl, rfl, by simp [h]⟩

theorem atRest_shutDown {s : State} (h : s.Quiescent) : s.shutDown.AtRest := ⟨h.2.1, h.2.2, rfl⟩

theorem quiescent_begin {s : State} (h : s.shutdown = false) : s.begin.Quiescent := ⟨h, rfl, rfl⟩

theorem redo_shutdown (l : List (List Host.Cell)) : ∀ s : State, s.shutdown = false → (s.redo l).shutdown = false := by
  induction l with
  | nil => exact fun _ h => h
  | cons c r ih =>
    intro s h
    unfold State.redo
    split
    · exact ih _ (running_closed.storeCells c _ h)
    · exact ih _ h

theorem cutOff_quiescent {old t : State} (ho : old.shutdown = false) (ht : t.shutdown = false) : (cutOff old t).Quiescent := by
  unfold cutOff
  split
  · exact ⟨ht, rfl, rfl⟩
  · exact ⟨redo_shutdown _ _ ho, rfl, rfl⟩

theorem recordEvent_shutdown (s : State) (ev : Event) : (s.recordEvent ev).shutdown = s.shutdown := by
  cases ev with
  | exc e => exact State.record_shutdown s e
  | soft n => rfl
  | nmi => rfl
  | external v => rfl

theorem record_quiescent {s : State} (e : Exc) (h : s.Quiescent) : (s.record e).Quiescent := by
  simpa [State.Quiescent] using h

/-- A report leaves nothing in progress. -/
theorem report_atRest (n : Nat) : ∀ old src ev, old.Quiescent → src.shutdown = false → Answers State.AtRest (report n old src ev) := by
  induction n with
  | zero => exact fun _ _ _ ho _ => answers_next (atRest_shutDown ho)
  | succ n ih =>
    intro old src ev ho hs
    have hi := running_closed.keeps_invoke ev (fun _ _ _ h => h) { (src.recordEvent ev).begin with delivering := some ev.delivering }
      ((recordEvent_shutdown src ev).trans hs)
    unfold report
    split
    · rename_i t ht
      rw [ht] at hi
      exact answers_next (atRest_settle hi)
    · exact answers_refused
    · rename_i e t ht
      rw [ht] at hi
      have hq : ((cutOff (old.recordEvent ev) t).record e).Quiescent :=
        record_quiescent e (cutOff_quiescent ((recordEvent_shutdown old ev).trans ho.1) hi.1)
      dsimp only
      split
      · exact answers_next (atRest_shutDown hq)
      · split
        · exact ih _ _ _ hq hq.1
        · exact ih _ _ _ hq hq.1

theorem exec_atRest (i : Instr) (s : State) (h : s.shutdown = false) : Answers State.AtRest (exec i s) := by
  rcases exec_shape i s with ⟨body, hb, hk⟩ | ⟨ev, hb, -, -⟩
  · have hi := hk _ _ running_closed (running_allows i) s.begin h
    rw [hb]
    unfold runInstr
    split
    · exact answers_refused
    · split
      · rename_i t ht
        rw [ht] at hi
        exact answers_next (atRest_settle hi)
      · exact answers_refused
      · rename_i e t ht
        rw [ht] at hi
        have hq := cutOff_quiescent (old := s.begin) h hi.1
        exact report_atRest _ _ _ _ hq hq.1
  · rw [hb]
    unfold runTrap
    split
    · exact answers_refused
    · exact report_atRest _ _ _ _ (quiescent_begin h) h

theorem stepInstr_atRest (s : State) (h : s.shutdown = false) : Answers State.AtRest (stepInstr s) := by
  have hf := running_closed.keeps_fetchDecode (fun _ _ h => h) s h
  unfold stepInstr
  split
  · rename_i ht
    rw [ht] at hf
    exact exec_atRest _ _ hf
  · exact answers_refused
  · rename_i ht
    rw [ht] at hf
    have hq := cutOff_quiescent h hf.1
    exact report_atRest _ _ _ _ hq hq.1

theorem stepEvent_atRest (s : State) (h : s.Quiescent) : Answers State.AtRest (stepEvent s) := by
  unfold stepEvent
  dsimp only
  split
  · exact report_atRest _ _ _ _ h h.1
  · split
    · exact report_atRest _ _ _ _ h h.1
    · split
      · exact report_atRest _ _ _ _ h h.1
      · split
        · exact answers_refused
        · exact stepInstr_atRest _ h.1

theorem reportTraps_atRest {old src : State} (c : DebugConds) (ho : old.Quiescent) (hs : src.shutdown = false) :
    Answers State.AtRest (reportTraps old src c) := by
  unfold reportTraps
  split
  · exact report_atRest _ _ _ _ ho hs
  · exact answers_refused

theorem afterEvent_atRest {s t : State} (hs : s.Quiescent) (ht : t.AtRest) : Answers State.AtRest (afterEvent s t) := by
  unfold afterEvent
  split
  · exact answers_next ht
  · rename_i hd
    have hq : t.Quiescent := ⟨by simpa using hd, ht.1, ht.2.1⟩
    split
    · split
      · exact reportTraps_atRest _ hq hq.1
      · exact answers_next ht
    · dsimp only
      split
      · exact answers_next ht
      · split
        · exact answers_next ht
        · refine reportTraps_atRest _ ?_ hq.1
          split
          · exact hq
          · exact hs

theorem stepBody_atRest {s : State} (h : s.Quiescent) : Answers State.AtRest (stepBody s) := by
  unfold stepBody
  split
  · exact reportTraps_atRest _ h h.1
  · intro t ht
    cases he : stepEvent s.begin with
    | fault r => rw [he] at ht; cases ht
    | refused r => rw [he] at ht; cases ht
    | next u =>
      rw [he] at ht
      exact afterEvent_atRest (quiescent_begin h.1) (stepEvent_atRest _ (quiescent_begin h.1) u he) t ht

theorem latch_atRest {s : State} (h : s.AtRest) : s.latch.AtRest := by
  unfold State.latch
  split <;> exact h

/-- A step leaves nothing in progress. -/
theorem step_atRest {s : State} (h : s.journal = [] ∧ s.switching = .idle) : Answers State.AtRest (step s) := by
  unfold step
  cases hd : s.shutdown with
  | true => exact answers_fault
  | false =>
    rw [if_neg (by decide)]
    split
    · exact answers_refused
    · intro t ht
      cases hr : stepBody s with
      | fault r => rw [hr] at ht; cases ht
      | refused r => rw [hr] at ht; cases ht
      | next v =>
        rw [hr] at ht
        cases ht
        exact latch_atRest (stepBody_atRest ⟨hd, h⟩ v hr)

/-- Settles O3: each update keeps memory, paging and level, and every report and every completed meaning ends with nothing in progress. -/
theorem stepKeepsInvariant : Obligations.StepKeepsInvariant := by
  intro s t hs ht
  obtain ⟨hmem, hpaging, hlevel⟩ : t.Sound := sound_whole.step sound_allows s ⟨hs.mem, hs.paging, hs.level⟩ t ht
  obtain ⟨hjournal, hswitching, hdelivering⟩ := step_atRest ⟨hs.journal, hs.switching⟩ t ht
  exact ⟨hmem, hpaging, hlevel, hjournal, hswitching, hdelivering⟩

end Sys2Proof.Machine
end

section
/-! PROOFS. Scope: the registers that only one instruction writes; MOV to a control register; reset; the page stage. -/

namespace Sys2Proof.Machine

/-! ## DR0 to DR3, DR7, GDTR, IDTR, the coprocessor -/

/-- DR0 to DR3, DR7, GDTR, IDTR and the coprocessor are as in `s`. -/
def System.FixedAs (s : State) (y : System) : Prop :=
  (y.dbg.dr0, y.dbg.dr1, y.dbg.dr2, y.dbg.dr3, y.dbg.dr7, y.gdtr, y.idtr, y.coproc) = s.fixedRegs

theorem fixedAs_whole (s : State) : Whole (fun t => t.system.FixedAs s) (fun _ => True) :=
  whole_of_system _ (reports_of_system (System.FixedAs s) (closed_of_system_anyEnd _ fun _ h => h) (fun _ e _ h => by cases e <;> exact h) (fun _ _ h => h))

theorem fixedAs_allows (s : State) (i : Instr) : Allows (fun t => t.system.FixedAs s) i where
  movCr := fun c _ _ _ _ _ h => by cases c <;> exact h
  iret := fun _ _ _ _ h => h

/-- Settles O4: no update of a step writes one of these registers. -/
theorem stepKeepsFixedRegisters : Obligations.StepKeepsFixedRegisters :=
  fun s t ht => (fixedAs_whole s).step (fixedAs_allows s) s rfl t ht

/-! ## CR0 -/

/-- CR0 is `c`, but for TS being set (R25). -/
def System.Cr0UpToTs (c : Word32) (y : System) : Prop := y.cr0 = c ∨ y.cr0 = c ||| 8

theorem cr0UpToTs_setTs {c : Word32} {y : System} (h : y.Cr0UpToTs c) : { y with cr0 := y.cr0 ||| 8 }.Cr0UpToTs c := by
  refine .inr (show y.cr0 ||| 8 = c ||| 8 from ?_)
  rcases h with h | h
  · rw [h]
  · rw [h, BitVec.or_assoc, BitVec.or_self]

theorem cr0UpToTs_reports (c : Word32) : Reports (fun s => s.system.Cr0UpToTs c) (fun _ => True) :=
  reports_of_system (System.Cr0UpToTs c) (closed_of_system_anyEnd _ fun _ h => cr0UpToTs_setTs h) (fun _ e _ h => by cases e <;> exact h) (fun _ _ h => h)

theorem cr0UpToTs_allows {i : Instr} (hi : ∀ r, i ≠ .movCrR .cr0 r) (c : Word32) : Allows (fun s => s.system.Cr0UpToTs c) i where
  movCr := fun x r hx s v _ h => by
    cases x with
    | cr0 => exact absurd hx (hi r)
    | cr2 => exact h
    | cr3 => exact h
  iret := fun _ _ _ _ h => h

/-- Settles O5: of the updates that another instruction makes only the commit of a task switch writes CR0, and it sets TS. -/
theorem onlyMovWritesCr0 : Obligations.OnlyMovWritesCr0 :=
  fun i s t hi ht => (cr0UpToTs_reports s.cr0).exec i (cr0UpToTs_allows hi s.cr0) s (.inl rfl) t ht

/-! ## CR2 -/

/-- CR2 is `c` and paging is off. -/
def System.Unpaged (c : Word32) (y : System) : Prop := y.cr2 = c ∧ y.cr0.getLsbD 31 = false

/-- The early end is no page fault. -/
def Stop.NoPage (x : Stop) : Prop := ∀ e, x = .exc e → e.isPage = false

/-- With paging off translation raises no exception. -/
theorem translate_noPage {s : State} (h : s.pg = false) {w u : Bool} {lin : Word32} {x : Stop} (hx : translate s w u lin = .error x) : x.NoPage := by
  have hw : pageWalk s w u lin = .ok lin.toNat := by
    unfold pageWalk
    rw [h, if_neg (by decide)]
  unfold translate at hx
  rw [hw] at hx
  dsimp only at hx
  split at hx
  · cases hx
    exact fun e he => by cases he
  · cases hx

/-- Only a page fault writes CR2 (R174). -/
theorem record_cr2 (s : State) {e : Exc} (h : e.isPage = false) : (s.record e).cr2 = s.cr2 := by
  cases e with
  | pageFault lin p w u => cases h
  | _ => rfl

theorem unpaged_closed (c : Word32) : Closed (fun s => s.system.Unpaged c) Stop.NoPage :=
  closed_of_system (System.Unpaged c) (fun _ he _ hx => by cases hx; exact he) (fun _ _ hx => by cases hx)
    (fun _ _ _ _ _ h hx => translate_noPage h.2 hx) (fun _ h => ⟨h.1, by simpa using h.2⟩)

theorem unpaged_record {c : Word32} {s : State} {e : Exc} (he : e.isPage = false) (h : s.system.Unpaged c) : (s.record e).system.Unpaged c :=
  ⟨(record_cr2 s he).trans h.1, (congrArg (·.getLsbD 31) (State.record_cr0 s e)).trans h.2⟩

theorem unpaged_reports (c : Word32) : Reports (fun s => s.system.Unpaged c) Stop.NoPage :=
  reports_of_system (System.Unpaged c) (unpaged_closed c) (fun _ e he h => unpaged_record (he e rfl) h) (fun _ _ h => h)

theorem unpaged_allows {i : Instr} (hi : ∀ c r, i ≠ .movCrR c r) (c : Word32) : Allows (fun s => s.system.Unpaged c) i where
  movCr := fun x r hx => absurd hx (hi x r)
  iret := fun _ _ _ _ h => h

/-- Settles O6: with paging off no operation raises a page fault, and nothing but a page fault or a MOV writes CR2. -/
theorem cr2KeptWithoutPaging : Obligations.Cr2KeptWithoutPaging :=
  fun i s t hi hpg ht => ((unpaged_reports s.cr2).exec i (unpaged_allows hi s.cr2) s ⟨rfl, hpg⟩ t ht).1

/-! ## MOV to a control register, and reset -/

theorem openFlags_run (s : State) : openFlags s = .ok () s.flagsOpened := rfl

theorem setCtl_mem_flags (s : State) (c : CtlReg) (v : Word32) : (s.setCtl c v).flagsOpened.advance.settle.mem = s.mem :=
  State.setCtl_mem s c v

/-- Settles O52: the level, then the value, are tested before anything changes. -/
theorem movToControlRegister : Obligations.MovToControlRegister := by
  intro s cr r hready v bad
  have hbad : (cr == .cr0 && pagingUnprotected v) = true ↔ bad := by
    simp [bad, pagingUnprotected]
  refine ⟨fun hcpl => ?_, fun hcpl hb => ?_, fun hcpl hb => ⟨?_, fun a _ => ?_⟩⟩
  · have hlevel : (s.begin.cpl == 0) = false := by simpa using hcpl
    refine runInstr_raise hready ?_
    rw [bind_ok (look_run _ _), id_eq, hlevel, bind_error (require_false _ _)]
  · have hlevel : (s.begin.cpl == 0) = true := by simpa using hcpl
    refine runInstr_raise hready ?_
    rw [bind_ok (look_run _ _), id_eq, hlevel, bind_ok (require_true _ _), State.begin_gpr, hbad.mpr hb, Bool.not_true,
      bind_error (require_false _ _)]
  · have hlevel : (s.begin.cpl == 0) = true := by simpa using hcpl
    have hallowed : (cr == .cr0 && pagingUnprotected v) = false := by rwa [← Bool.not_eq_true, hbad]
    refine runInstr_ok hready ?_
    rw [bind_ok (look_run _ _), id_eq, hlevel, bind_ok (require_true _ _), State.begin_gpr, hallowed, Bool.not_false,
      bind_ok (require_true _ _), bind_ok (change_run _ _), bind_ok (openFlags_run _)]
    rfl
  · rw [setCtl_mem_flags, State.begin_mem]

/-- Settles O1: the values as `State.reset` lists them. -/
theorem resetState : Obligations.ResetState := by
  refine ⟨rfl, rfl, rfl, rfl, fun seg hseg => ?_, rfl, rfl, rfl, rfl, rfl, rfl, rfl, rfl, rfl, rfl, rfl, rfl, rfl, rfl, rfl⟩
  cases seg with
  | cs => exact absurd rfl hseg
  | _ => exact ⟨rfl, rfl, rfl⟩

/-! ## The page stage -/

/-- With both entries usable the walk fails where one is absent, then where the rights do not allow the access, else it gives the page (R57, R58). -/
theorem pageWalk_entries {s : State} {pde pte : Word32} (hpg : s.pg = true) (write user : Bool) (lin : Word32)
    (hd : pageEntry s (entryBase s.cr3 + 4 * (lin >>> 22).toNat) = .ok pde)
    (ht : pageEntry s (entryBase pde + 4 * ((lin >>> 12) &&& 0x3FF).toNat) = .ok pte) :
    pageWalk s write user lin =
      if entryPresent pde && entryPresent pte then
        if pageAllows write user pde pte then .ok (entryBase pte + (lin &&& 0xFFF).toNat) else .error (.exc (.pageFault lin true write s.user))
      else .error (.exc (.pageFault lin false write s.user)) := by
  unfold pageWalk
  rw [if_pos hpg, hd]
  dsimp only
  cases entryPresent pde with
  | false => rfl
  | true =>
    rw [if_pos rfl, ht]
    dsimp only
    cases entryPresent pte <;> rfl

/-- The rights rule: a user-level access is refused by an entry that is not the user's or, for a write, not writable (R57). -/
theorem pageAllows_eq_false (write user : Bool) (pde pte : Word32) : pageAllows write user pde pte = false ↔
    user = true ∧ (entryUser pde = false ∨ entryUser pte = false ∨ (write = true ∧ (entryWritable pde = false ∨ entryWritable pte = false))) := by
  simp only [pageAllows, Bool.or_eq_false_iff, Bool.and_eq_false_iff, Bool.not_eq_false', or_assoc]

theorem translate_of_walk_ok {s : State} {write user : Bool} {lin : Word32} {pa : Nat} (h : pageWalk s write user lin = .ok pa) :
    translate s write user lin = if write = false ∧ s.entryBits pa = true then .error (.refuse .accessedBits) else .ok pa := by
  unfold translate
  rw [h]
  simp only [Bool.and_eq_true, Bool.not_eq_true']

theorem translate_of_walk_error {s : State} {write user : Bool} {lin : Word32} {x : Stop} (h : pageWalk s write user lin = .error x) :
    translate s write user lin = .error x := by
  unfold translate
  rw [h]

/-- Settles O22: the walk by cases of the two entries, then the test of a read of accessed and dirty bits. -/
theorem pageStage : Obligations.PageStage := by
  intro s write user lin gives
  refine ⟨fun hpg => translate_of_walk_ok ?_, fun pde pte hpg hd ht => ?_⟩
  · unfold pageWalk
    rw [hpg, if_neg (by decide)]
  · intro denied
    have hwalk := pageWalk_entries hpg write user lin hd ht
    have hallows : pageAllows write user pde pte = false ↔ denied := pageAllows_eq_false write user pde pte
    refine ⟨fun habsent => translate_of_walk_error ?_, fun hpd hpt hdenied => translate_of_walk_error ?_,
      fun hpd hpt hdenied => translate_of_walk_ok ?_⟩
    · rw [hwalk, if_neg (by rcases habsent with h | h <;> simp [h])]
      rfl
    · rw [hwalk, if_pos (by rw [hpd, hpt]; rfl), hallows.mpr hdenied, if_neg (by decide)]
      rfl
    · rw [hwalk, if_pos (by rw [hpd, hpt]; rfl), if_pos]
      rwa [← Bool.not_eq_false, hallows]

end Sys2Proof.Machine
end

section
/-! PROOFS. Scope: what a task switch stores, and where. -/

namespace Sys2Proof.Machine

/-! ## Stores in a row -/

/-- What every store to a byte in a row of stores meets, the byte meets after them, if there is one. -/
theorem Memory.read_writes_mem {p : Byte → Prop} {a : Nat} (c : List Host.Cell) : ∀ {m : List Host.Cell}, Memory.wf m = true →
    (∃ b, (a, b) ∈ c) → (∀ b, (a, b) ∈ c → p b) → p (Memory.read (Memory.writes m c) a) := by
  induction c with
  | nil => intro m _ ⟨b, hb⟩; cases hb
  | cons x r ih =>
    obtain ⟨y, v⟩ := x
    intro m hm ⟨b, hb⟩ hp
    show p (Memory.read (Memory.writes (Memory.write m y v) r) a)
    by_cases hr : ∃ b, (a, b) ∈ r
    · exact ih (Memory.wf_write _ _ hm) hr fun b hb => hp b (List.mem_cons_of_mem _ hb)
    · rcases List.mem_cons.mp hb with hb | hb
      · cases hb
        rw [Memory.read_writes_other r _ a fun b hb => hr ⟨b, hb⟩, Memory.read_write hm, if_pos rfl]
        exact hp v (List.mem_cons_self ..)
      · exact absurd ⟨b, hb⟩ hr

/-- The cells of a value are its bytes, low byte first. -/
theorem mem_cells {l : List Nat} : ∀ {v : Word32} {a : Nat} {b : Byte}, (a, b) ∈ cells l v ↔
    ∃ k, ∃ h : k < l.length, a = l[k] ∧ b = (v >>> (8 * k)).setWidth 8 := by
  induction l with
  | nil => intro v a b; simp [cells]
  | cons x r ih =>
    intro v a b
    rw [cells, List.mem_cons, ih]
    constructor
    · rintro (h | ⟨k, hk, ha, hb⟩)
      · cases h
        exact ⟨0, by simp, rfl, by simp⟩
      · refine ⟨k + 1, by simpa using hk, ha, ?_⟩
        rw [hb, ← BitVec.shiftRight_add, Nat.mul_add, Nat.add_comm]
    · rintro ⟨k, hk, ha, hb⟩
      cases k with
      | zero => exact .inl (by simp [ha, hb])
      | succ k =>
        refine .inr ⟨k, by simpa using hk, ha, ?_⟩
        rw [hb, ← BitVec.shiftRight_add, Nat.mul_add, Nat.add_comm]

/-- The page tables of `s` put `n` bytes from a linear address up. -/
def State.MapsAll (s : State) (lin : Word32) (n : Nat) : Prop := ∀ k < n, ∃ pa, s.place (lin + BitVec.ofNat 32 k) = some pa

/-- What the processor stores at a linear address, where the page tables of `s` put it. -/
def State.cellsAt (s : State) (lin : Word32) (n : Nat) (v : Word32) : List Host.Cell := cells (placesOf s lin n) v

theorem mem_cellsAt {s : State} {lin v : Word32} {n : Nat} (h : s.MapsAll lin n) {a : Nat} {b : Byte} :
    (a, b) ∈ s.cellsAt lin n v ↔ ∃ k < n, s.place (lin + BitVec.ofNat 32 k) = some a ∧ b = (v >>> (8 * k)).setWidth 8 := by
  have hat : ∀ k (hk : k < (placesOf s lin n).length), k < n ∧ s.place (lin + BitVec.ofNat 32 k) = some (placesOf s lin n)[k] := by
    intro k hk
    have hk : k < n := by simpa [placesOf] using hk
    obtain ⟨pa, hpa⟩ := h k hk
    exact ⟨hk, by simp [placesOf, hpa]⟩
  rw [State.cellsAt, mem_cells]
  constructor
  · rintro ⟨k, hk, rfl, hb⟩
    exact ⟨k, (hat k hk).1, (hat k hk).2, hb⟩
  · rintro ⟨k, hk, ha, hb⟩
    have hk : k < (placesOf s lin n).length := by simpa [placesOf] using hk
    exact ⟨k, hk, Option.some.inj (ha.symm.trans (hat k hk).2), hb⟩

/-- Two offsets into a TSS that lie at one physical address are one offset: translation keeps the offset in the page. -/
theorem offset_eq_of_place {s : State} {base : Word32} {i j pa : Nat} (hi : i < 4096) (hj : j < 4096)
    (h : s.place (base + BitVec.ofNat 32 i) = some pa) (h' : s.place (base + BitVec.ofNat 32 j) = some pa) : i = j := by
  have h1 := place_mod h
  have h2 := place_mod h'
  simp only [BitVec.toNat_add, BitVec.toNat_ofNat] at h1 h2
  omega

/-! ## The fields a task saves -/

theorem withNt_false (f : Word32) : withNt false f = f &&& 0xFFFFBFFF := by
  simp [withNt, maskMerge]

theorem withNt_true (f : Word32) : withNt true f = f ||| 0x4000 := by
  apply BitVec.eq_of_getLsbD_eq
  intro i hi
  simp only [withNt, maskMerge, if_true, BitVec.getLsbD_or, BitVec.getLsbD_and, BitVec.getLsbD_not, hi, decide_true, Bool.true_and, Bool.and_self]
  cases f.getLsbD i <;> cases (0x4000#32).getLsbD i <;> rfl

/-- The flags a switch saves: a return saves them with NT clear. -/
def savedFlags (cause : SwitchCause) (f : Word32) : Word32 := if cause = .iret then withNt false f else f

theorem savedFields_eq (s : State) (cause : SwitchCause) (pc : Word16 × Word32) :
    s.savedFields cause pc = (taskFields s pc (savedFlags cause s.eflags)).map (fun f => (BitVec.ofNat 32 f.1, f.2)) := by
  unfold State.savedFields savedFlags
  rw [← withNt_false]
  rfl

/-- The fields of a TSS follow each other, all within its first 104 bytes. -/
theorem taskFields_apart (s : State) (pc : Word16 × Word32) (flags : Word32) :
    (taskFields s pc flags).Pairwise (fun f g => f.1 + f.2.1 ≤ g.1) := by
  have hplaces : (taskFields s pc flags).map (fun f => (f.1, f.2.1)) = [(0x20, 4), (0x24, 4), (0x28, 4), (0x2C, 4), (0x30, 4), (0x34, 4), (0x38, 4),
      (0x3C, 4), (0x40, 4), (0x44, 4), (0x48, 2), (0x4C, 2), (0x50, 2), (0x54, 2), (0x58, 2), (0x5C, 2)] := rfl
  refine List.Pairwise.of_map (S := fun f g => f.1 + f.2 ≤ g.1) (fun f => (f.1, f.2.1)) (fun _ _ h => h) ?_
  rw [hplaces]
  decide

theorem taskFields_end (s : State) (pc : Word16 × Word32) (flags : Word32) : ∀ f ∈ taskFields s pc flags, f.1 + f.2.1 ≤ 104 := by
  simp [taskFields]

/-- A byte of a TSS belongs to one field only. -/
theorem taskField_unique {s : State} {pc : Word16 × Word32} {flags : Word32} {f g : Nat × Nat × Word32} {i j : Nat}
    (hf : f ∈ taskFields s pc flags) (hg : g ∈ taskFields s pc flags) (hi : i < f.2.1) (hj : j < g.2.1) (h : f.1 + i = g.1 + j) : f = g ∧ i = j := by
  obtain ⟨m, hm, rfl⟩ := List.getElem_of_mem hf
  obtain ⟨n, hn, rfl⟩ := List.getElem_of_mem hg
  have hp := List.pairwise_iff_getElem.mp (taskFields_apart s pc flags)
  have hmn : m = n := by
    rcases Nat.lt_trichotomy m n with hlt | heq | hgt
    · have := hp m n hm hn hlt
      omega
    · exact heq
    · have := hp n m hn hm hgt
      omega
  subst hmn
  exact ⟨rfl, by omega⟩

/-- The cells of fields of a TSS at `base`. -/
def State.fieldCells (s : State) (base : Word32) (l : List (Nat × Nat × Word32)) : List Host.Cell :=
  l.flatMap fun f => s.cellsAt (base + BitVec.ofNat 32 f.1) f.2.1 f.2.2

/-- Fields of a TSS at `base` are mapped. -/
def State.MapsFields (s : State) (base : Word32) (l : List (Nat × Nat × Word32)) : Prop :=
  ∀ f ∈ l, s.MapsAll (base + BitVec.ofNat 32 f.1) f.2.1

theorem mem_fieldCells {s : State} {base : Word32} {l : List (Nat × Nat × Word32)} (h : s.MapsFields base l) {a : Nat} {b : Byte} :
    (a, b) ∈ s.fieldCells base l ↔
      ∃ f ∈ l, ∃ k < f.2.1, s.place (base + BitVec.ofNat 32 f.1 + BitVec.ofNat 32 k) = some a ∧ b = (f.2.2 >>> (8 * k)).setWidth 8 := by
  rw [State.fieldCells, List.mem_flatMap]
  exact exists_congr fun f => and_congr_right fun hf => mem_cellsAt (h f hf)

theorem add_ofNat_ofNat (base : Word32) (i k : Nat) : base + BitVec.ofNat 32 i + BitVec.ofNat 32 k = base + BitVec.ofNat 32 (i + k) := by
  rw [BitVec.add_assoc, BitVec.ofNat_add]

/-- Of the cells of a task's fields each address has one byte. -/
theorem fieldCells_unique {s : State} {base : Word32} {pc : Word16 × Word32} {flags : Word32} (h : s.MapsFields base (taskFields s pc flags))
    {f : Nat × Nat × Word32} (hf : f ∈ taskFields s pc flags) {k pa : Nat} (hk : k < f.2.1)
    (hpa : s.place (base + BitVec.ofNat 32 f.1 + BitVec.ofNat 32 k) = some pa) {b : Byte} (hb : (pa, b) ∈ s.fieldCells base (taskFields s pc flags)) :
    b = (f.2.2 >>> (8 * k)).setWidth 8 := by
  obtain ⟨g, hg, j, hj, hpa', rfl⟩ := (mem_fieldCells h).mp hb
  rw [add_ofNat_ofNat] at hpa hpa'
  have hfe := taskFields_end s pc flags f hf
  have hge := taskFields_end s pc flags g hg
  obtain ⟨rfl, rfl⟩ := taskField_unique hf hg hk hj (offset_eq_of_place (by omega) (by omega) hpa hpa')
  rfl

/-! ## The busy marks and the backlink -/

/-- The cell of a busy mark: the type byte of the descriptor that a selector picks, with bit 1 set or cleared. -/
def State.Marks (s : State) (busy : Bool) (sel : Word16) (c : List Host.Cell) : Prop :=
  ∃ a pa b, descAddr s sel = some a ∧ s.place (a + 5) = some pa ∧ c = [(pa, b)] ∧ b.getLsbD 1 = busy

/-- The cells of the busy marks: `left` of the task a JMP or a return leaves, `entered` of the one that is entered but by a return. -/
structure State.MarkCells (s : State) (cause : SwitchCause) (sel : Word16) (left entered : List Host.Cell) : Prop where
  left : if cause.nests = false ∧ isNull s.tr.sel = false then s.Marks false s.tr.sel left else left = []
  entered : if cause ≠ .iret then s.Marks true sel entered else entered = []

/-- The cells of the backlink. -/
def State.linkCells (s : State) (cause : SwitchCause) (base : Word32) : List Host.Cell :=
  if cause.nests then s.cellsAt base 2 (s.tr.sel.setWidth 32) else []

/-- What a switch whose new TSS lies at `base` stores after the old state lies where `MarkedAt` says. -/
theorem markedAt_of_mem {s : State} {cause : SwitchCause} {sel : Word16} {base : Word32} {left entered : List Host.Cell}
    (hm : s.MarkCells cause sel left entered) (hl : cause.nests = true → s.MapsAll base 2) {a : Nat} {b : Byte}
    (h : (a, b) ∈ left ++ (entered ++ s.linkCells cause base)) : ∃ lin, s.MarkedAt cause sel base lin ∧ s.place lin = some a := by
  obtain ⟨hleft, hentered⟩ := hm
  rcases List.mem_append.mp h with h | h
  · split at hleft
    · rename_i hc
      obtain ⟨d, pa, x, hd, hpa, rfl, -⟩ := hleft
      cases List.mem_singleton.mp h
      exact ⟨d + 5, .inl ⟨hc.1, hc.2, d, hd, rfl⟩, hpa⟩
    · rw [hleft] at h
      cases h
  · rcases List.mem_append.mp h with h | h
    · split at hentered
      · rename_i hc
        obtain ⟨d, pa, x, hd, hpa, rfl, -⟩ := hentered
        cases List.mem_singleton.mp h
        exact ⟨d + 5, .inr (.inl ⟨hc, d, hd, rfl⟩), hpa⟩
      · rw [hentered] at h
        cases h
    · unfold State.linkCells at h
      split at h
      · rename_i hc
        obtain ⟨k, hk, hpa, -⟩ := (mem_cellsAt (hl hc)).mp h
        refine ⟨base + BitVec.ofNat 32 k, .inr (.inr ⟨hc, ?_⟩), hpa⟩
        match k, hk with
        | 0, _ => exact .inl (BitVec.add_zero base)
        | 1, _ => exact .inr rfl
      · cases h

/-- All that a switch stores, in its order. -/
def State.switchCells (s : State) (cause : SwitchCause) (pc : Word16 × Word32) (base : Word32) (left entered : List Host.Cell) : List Host.Cell :=
  s.fieldCells s.tr.base (taskFields s pc (savedFlags cause s.eflags)) ++ (left ++ (entered ++ s.linkCells cause base))

/-- These are the cells that a switch to a TSS at `base` stores, each of them mapped. -/
structure State.Stores (s : State) (cause : SwitchCause) (sel : Word16) (pc : Word16 × Word32) (base : Word32) (left entered : List Host.Cell) : Prop
    extends s.MarkCells cause sel left entered where
  fields : s.MapsFields s.tr.base (taskFields s pc (savedFlags cause s.eflags))
  link : cause.nests = true → s.MapsAll base 2

section
variable {s : State} {cause : SwitchCause} {sel : Word16} {pc : Word16 × Word32} {base : Word32} {left entered : List Host.Cell}

/-- Each byte of the old state lies in the old TSS, where nothing stored later lies. -/
theorem read_switchCells_field (h : s.Stores cause sel pc base left entered) (hwf : Memory.wf s.mem = true) {f : Nat × Nat × Word32}
    (hf : f ∈ taskFields s pc (savedFlags cause s.eflags)) {k pa : Nat} (hk : k < f.2.1)
    (hpa : s.place (s.tr.base + BitVec.ofNat 32 f.1 + BitVec.ofNat 32 k) = some pa)
    (hlater : ∀ lin, s.MarkedAt cause sel base lin → s.place lin ≠ some pa) :
    Memory.read (Memory.writes s.mem (s.switchCells cause pc base left entered)) pa = (f.2.2 >>> (8 * k)).setWidth 8 := by
  refine Memory.read_writes_mem (p := (· = (f.2.2 >>> (8 * k)).setWidth 8)) _ hwf
    ⟨_, List.mem_append_left _ ((mem_fieldCells h.fields).mpr ⟨f, hf, k, hk, hpa, rfl⟩)⟩ fun b hb => ?_
  rcases List.mem_append.mp hb with hb | hb
  · exact fieldCells_unique h.fields hf hk hpa hb
  · obtain ⟨lin, hlin, hpl⟩ := markedAt_of_mem h.toMarkCells h.link hb
    exact absurd hpl (hlater lin hlin)

/-- The busy mark of the task entered is set, unless the backlink lies on it. -/
theorem read_switchCells_entered (h : s.Stores cause sel pc base left entered) (hwf : Memory.wf s.mem = true) (hc : cause ≠ .iret) :
    ∃ a pa, descAddr s sel = some a ∧ s.place (a + 5) = some pa ∧
      ((cause.nests = true → s.place base ≠ some pa ∧ s.place (base + 1) ≠ some pa) →
        (Memory.read (Memory.writes s.mem (s.switchCells cause pc base left entered)) pa).getLsbD 1 = true) := by
  have hentered := h.entered
  rw [if_pos hc] at hentered
  obtain ⟨a, pa, x, ha, hpa, rfl, hx⟩ := hentered
  refine ⟨a, pa, ha, hpa, fun hlink => ?_⟩
  rw [State.switchCells, ← List.append_assoc, Memory.writes_append]
  refine Memory.read_writes_mem (p := fun b => b.getLsbD 1 = true) _ (Memory.writes_wf _ _ hwf)
    ⟨x, List.mem_append_left _ (List.mem_singleton_self _)⟩ fun b hb => ?_
  rcases List.mem_append.mp hb with hb | hb
  · cases List.mem_singleton.mp hb
    exact hx
  · unfold State.linkCells at hb
    split at hb
    · rename_i hn
      obtain ⟨k, hk, hpl, -⟩ := (mem_cellsAt (h.link hn)).mp hb
      match k, hk with
      | 0, _ => exact absurd ((BitVec.add_zero base) ▸ hpl) (hlink hn).1
      | 1, _ => exact absurd hpl (hlink hn).2
    · cases hb

/-- The busy mark of the task left is cleared, unless it is that of the task a JMP enters. -/
theorem read_switchCells_left (h : s.Stores cause sel pc base left entered) (hwf : Memory.wf s.mem = true) (hn : cause.nests = false)
    (hold : isNull s.tr.sel = false) : ∃ a pa, descAddr s s.tr.sel = some a ∧ s.place (a + 5) = some pa ∧
      ((cause = .jmp → ∀ b, descAddr s sel = some b → s.place (b + 5) ≠ some pa) →
        (Memory.read (Memory.writes s.mem (s.switchCells cause pc base left entered)) pa).getLsbD 1 = false) := by
  have hleft := h.left
  rw [if_pos ⟨hn, hold⟩] at hleft
  obtain ⟨a, pa, x, ha, hpa, rfl, hx⟩ := hleft
  refine ⟨a, pa, ha, hpa, fun hother => ?_⟩
  have hnolink : s.linkCells cause base = [] := by rw [State.linkCells, hn, if_neg (by decide)]
  rw [State.switchCells, hnolink, List.append_nil, Memory.writes_append]
  refine Memory.read_writes_mem (p := fun b => b.getLsbD 1 = false) _ (Memory.writes_wf _ _ hwf)
    ⟨x, List.mem_append_left _ (List.mem_singleton_self _)⟩ fun b hb => ?_
  rcases List.mem_append.mp hb with hb | hb
  · cases List.mem_singleton.mp hb
    exact hx
  · have hentered := h.entered
    cases cause with
    | jmp =>
      obtain ⟨a', pa', x', ha', hpa', rfl, -⟩ := hentered
      cases List.mem_singleton.mp hb
      exact absurd hpa' (hother rfl a' ha')
    | iret =>
      rw [if_neg (by simp)] at hentered
      rw [hentered] at hb
      cases hb
    | call => cases hn
    | int => cases hn

/-- The backlink names the task left. -/
theorem read_switchCells_link (h : s.Stores cause sel pc base left entered) (hwf : Memory.wf s.mem = true) (hn : cause.nests = true) :
    s.Finds (Memory.writes s.mem (s.switchCells cause pc base left entered)) 2 base (s.tr.sel.setWidth 32) := by
  intro k hk
  obtain ⟨pa, hpa⟩ := h.link hn k hk
  refine ⟨pa, hpa, ?_⟩
  rw [State.switchCells, ← List.append_assoc, ← List.append_assoc, Memory.writes_append, State.linkCells, hn, if_pos rfl]
  refine Memory.read_writes_mem (p := (· = ((s.tr.sel.setWidth 32) >>> (8 * k)).setWidth 8)) _ (Memory.writes_wf _ _ hwf)
    ⟨_, (mem_cellsAt (h.link hn)).mpr ⟨k, hk, hpa, rfl⟩⟩ fun b hb => ?_
  obtain ⟨j, hj, hpa', rfl⟩ := (mem_cellsAt (h.link hn)).mp hb
  rw [offset_eq_of_place (by omega) (by omega) hpa hpa']

/-- Any other byte is as before. -/
theorem read_switchCells_other (h : s.Stores cause sel pc base left entered) {pa : Nat}
    (hfields : ∀ f ∈ taskFields s pc (savedFlags cause s.eflags), ∀ k < f.2.1,
      s.place (s.tr.base + BitVec.ofNat 32 f.1 + BitVec.ofNat 32 k) ≠ some pa)
    (hmarks : ∀ lin, s.MarkedAt cause sel base lin → s.place lin ≠ some pa) :
    Memory.read (Memory.writes s.mem (s.switchCells cause pc base left entered)) pa = Memory.read s.mem pa := by
  refine Memory.read_writes_other _ _ _ fun b hb => ?_
  rcases List.mem_append.mp hb with hb | hb
  · obtain ⟨f, hf, k, hk, hpa, -⟩ := (mem_fieldCells h.fields).mp hb
    exact hfields f hf k hk hpa
  · obtain ⟨lin, hlin, hpl⟩ := markedAt_of_mem h.toMarkCells h.link hb
    exact hmarks lin hlin hpl

end

/-- A switch that has stored these cells has saved the old task. -/
theorem taskSaved_of_stores {s t : State} {cause : SwitchCause} {sel : Word16} {pc : Word16 × Word32} {left entered : List Host.Cell}
    (h : s.Stores cause sel pc t.tr.base left entered) (hwf : Memory.wf s.mem = true)
    (hmem : t.mem = Memory.writes s.mem (s.switchCells cause pc t.tr.base left entered)) : s.TaskSaved t cause sel pc where
  fields := by
    rw [savedFields_eq, hmem]
    intro x hx k hk
    obtain ⟨f, hf, rfl⟩ := List.mem_map.mp hx
    obtain ⟨pa, hpa⟩ := h.fields f hf k hk
    exact ⟨pa, hpa, read_switchCells_field h hwf hf hk hpa⟩
  entered := by
    rw [hmem]
    exact read_switchCells_entered h hwf
  left := by
    rw [hmem]
    exact read_switchCells_left h hwf
  backlink := by
    rw [hmem]
    exact read_switchCells_link h hwf
  others := by
    rw [savedFields_eq, hmem]
    intro pa hfields hmarks
    exact read_switchCells_other h (fun f hf => hfields _ (List.mem_map_of_mem hf)) hmarks

end Sys2Proof.Machine
end

section
/-! PROOFS. Scope: a task switch stage by stage, from the verification to the checks. -/

namespace Sys2Proof.Machine

/-! ## Holds: pure facts, attempts -/

/-- A fact that is not about the state stays true. -/
theorem Holds.const {α : Type} {P : State → Prop} {m : M α} {Q : α → State → Prop} {X : Stop → State → Prop} (h : Holds P m Q X) (A : Prop) :
    Holds (fun v => P v ∧ A) m (fun a v => Q a v ∧ A) X := by
  intro v hv
  have h' := h v hv.1
  cases hr : m v with
  | ok a t =>
    rw [hr] at h'
    exact ⟨h', hv.2⟩
  | error e t =>
    rw [hr] at h'
    exact h'

/-- What two accounts of an operation say, together. -/
theorem Holds.both {α : Type} {P : State → Prop} {m : M α} {Q R : α → State → Prop} {X Y : Stop → State → Prop} (h : Holds P m Q X)
    (h' : Holds P m R Y) : Holds P m (fun a v => Q a v ∧ R a v) (fun e v => X e v ∧ Y e v) := by
  intro v hv
  have h1 := h v hv
  have h2 := h' v hv
  cases hr : m v with
  | ok a t =>
    rw [hr] at h1 h2
    exact ⟨h1, h2⟩
  | error e t =>
    rw [hr] at h1 h2
    exact ⟨h1, h2⟩

/-! ## How a task switch ends early -/

/-- Every register that a switch saves or loads, and the system registers, are as in `s`. -/
structure State.Untouched (s t : State) : Prop where
  tr : t.tr = s.tr
  gpr : t.gpr = s.gpr
  segs : t.segs = s.segs
  ldtr : t.ldtr = s.ldtr
  eip : t.eip = s.eip
  eflags : t.eflags = s.eflags
  cr0 : t.cr0 = s.cr0
  cr2 : t.cr2 = s.cr2
  cr3 : t.cr3 = s.cr3
  dbg : t.dbg = s.dbg
  gdtr : t.gdtr = s.gdtr
  idtr : t.idtr = s.idtr
  cpl : t.cpl = s.cpl

theorem State.Untouched.refl (s : State) : s.Untouched s := ⟨rfl, rfl, rfl, rfl, rfl, rfl, rfl, rfl, rfl, rfl, rfl, rfl, rfl⟩

/-- A change of none of these registers. -/
theorem State.Untouched.bookkeeping {s t : State} (h : s.Untouched t) (m : List Host.Cell) (j : List (List Host.Cell)) (x : List (Nat × Word32))
    (p d : List Nat) (k : Nat) (w : SwitchProgress) :
    s.Untouched { t with mem := m, journal := j, codeStores := x, ptStores := p, entryDoubts := d, freeCtr := k, switching := w } :=
  ⟨h.tr, h.gpr, h.segs, h.ldtr, h.eip, h.eflags, h.cr0, h.cr2, h.cr3, h.dbg, h.gdtr, h.idtr, h.cpl⟩

/-- How a switch from `s` to the task `sel` may raise an exception: committed, by a page fault or a check that fails, or with the registers as they were. -/
def State.SwitchFails (s : State) (cause : SwitchCause) (sel : Word16) (e : Exc) (t : State) : Prop :=
  (t.switching = .committed ∧ t.tr.sel = sel ∧ t.ts = true ∧ (e.dfClass = .pageFault ∨ (s.TaskLoaded t cause.nests ∧ t.TaskFails e))) ∨
    (t.switching ≠ .committed ∧ s.Untouched t)

/-- A switch may end so: with such an exception, or with no meaning. -/
def State.SwitchEnds (s : State) (cause : SwitchCause) (sel : Word16) (x : Stop) (t : State) : Prop := ∀ e, x = .exc e → s.SwitchFails cause sel e t

/-- A switch from `s` before it commits: memory alone may have changed, by stores. -/
structure State.Early (s v : State) : Prop where
  untouched : s.Untouched v
  switching : v.switching ≠ .committed
  past : s.Past v

/-- The same, with what has been stored. -/
def State.Stage (s : State) (c : List Host.Cell) (v : State) : Prop := s.Early v ∧ v.mem = Memory.writes s.mem c

/-- Stores, and what does not touch page translation, keep `Past`. -/
theorem early_quiet (s : State) : Quiet s.Early (fun _ => True) where
  drawn := fun _ h => ⟨h.untouched.bookkeeping _ _ _ _ _ _ _, h.switching, h.past.frame rfl rfl rfl rfl⟩
  exc := fun _ _ => trivial
  refuse := fun _ => trivial
  page := fun _ _ _ _ _ _ _ => trivial
  store := fun _ pa b h => ⟨h.untouched.bookkeeping _ _ _ _ _ _ _, h.switching, h.past.storeByte pa b⟩
  note := fun _ _ h => ⟨h.untouched.bookkeeping _ _ _ _ _ _ _, h.switching, h.past.frame rfl rfl rfl rfl⟩

theorem stage_reads (s : State) (c : List Host.Cell) : Reads (s.Stage c) (fun _ => True) where
  drawn := fun v h => ⟨(early_quiet s).drawn v h.1, h.2⟩
  exc := fun _ _ => trivial
  refuse := fun _ => trivial
  page := fun _ _ _ _ _ _ _ => trivial

section
variable {s : State} {cause : SwitchCause} {sel : Word16} {c : List Host.Cell}

theorem switchEnds_of_early {x : Stop} {t : State} (h : s.Early t) : s.SwitchEnds cause sel x t := fun _ _ => .inr ⟨h.switching, h.untouched⟩

/-- What stores nothing ends early as a switch that has not committed does. -/
theorem stage_of_reads {α : Type} {m : M α} (h : Keeps (s.Stage c) (fun _ => True) m) : Holds (s.Stage c) m (fun _ => s.Stage c) (s.SwitchEnds cause sel) :=
  Holds.weaken h (fun _ h => h) (fun _ _ h => h) (fun _ _ h => switchEnds_of_early h.1.1)

/-! ## Up to the commit -/

/-- A write on the processor's own account, after stores of `c`. -/
theorem writeLin_cells (n : Nat) (lin x : Word32) :
    Holds (fun v => s.Past v ∧ v.mem = Memory.writes s.mem c) (writeLin false n lin x)
      (fun _ v => v.mem = Memory.writes s.mem (c ++ s.cellsAt lin n x) ∧ s.MapsAll lin n) (fun y _ => ∀ e, y = .exc e → e.dfClass = .pageFault) := by
  intro v hv
  have h := writeLin_spec hv.1 n lin x
  cases hr : writeLin false n lin x v with
  | ok a t =>
    rw [hr] at h
    exact ⟨by rw [Memory.writes_append, ← hv.2]; exact h.1, h.2.2⟩
  | error y t =>
    rw [hr] at h
    intro e he
    subst he
    exact h

theorem writeLin_stage (n : Nat) (lin x : Word32) :
    Holds (s.Stage c) (writeLin false n lin x) (fun _ v => s.Stage (c ++ s.cellsAt lin n x) v ∧ s.MapsAll lin n) (s.SwitchEnds cause sel) :=
  Holds.weaken
    (Holds.both (Holds.weaken (writeLin_cells n lin x) (fun _ h => ⟨h.1.past, h.2⟩) (fun _ _ h => h) (fun _ _ h => h))
      (Holds.weaken ((early_quiet s).keeps_writeLin false n lin x) (fun _ h => h.1) (fun _ _ h => h) (fun _ _ h => h)))
    (fun _ h => h) (fun _ _ h => ⟨⟨h.2, h.1.1⟩, h.1.2⟩) (fun _ _ h => switchEnds_of_early h.2.1)

theorem writeTssFields_stage (base : Word32) (l : List (Nat × Nat × Word32)) : ∀ c,
    Holds (s.Stage c) (writeTssFields base l) (fun _ v => s.Stage (c ++ s.fieldCells base l) v ∧ s.MapsFields base l) (s.SwitchEnds cause sel) := by
  induction l with
  | nil => exact fun c v hv => ⟨by rwa [State.fieldCells, List.flatMap_nil, List.append_nil], by simp [State.MapsFields]⟩
  | cons f r ih =>
    intro c
    refine Holds.bind (writeLin_stage f.2.1 (base + BitVec.ofNat 32 f.1) f.2.2) fun _ => ?_
    refine Holds.weaken ((ih _).const _) (fun _ h => h) (fun _ v h => ?_) (fun _ _ h => h)
    obtain ⟨⟨hv, hr⟩, hf⟩ := h
    refine ⟨?_, ?_⟩
    · rwa [State.fieldCells, List.flatMap_cons, ← List.append_assoc]
    · rintro g hg
      rcases List.mem_cons.mp hg with rfl | hg
      · exact hf
      · exact hr g hg

/-- Saving the old task stores its fields. -/
theorem saveTask_stage (pc : Word16 × Word32) :
    Holds (s.Stage []) (saveTask cause pc)
      (fun _ v => s.Stage (s.fieldCells s.tr.base (taskFields s pc (savedFlags cause s.eflags))) v ∧
        s.MapsFields s.tr.base (taskFields s pc (savedFlags cause s.eflags))) (s.SwitchEnds cause sel) := by
  refine Holds.bind (Q := fun x v => x = v ∧ s.Stage [] v) (fun v hv => ⟨rfl, hv⟩) fun x v hv => ?_
  obtain ⟨rfl, hv⟩ := hv
  have huntouched := hv.1.untouched
  have hfields : taskFields x pc (savedFlags cause x.eflags) = taskFields s pc (savedFlags cause s.eflags) := by
    unfold taskFields
    rw [huntouched.gpr, huntouched.segs, huntouched.eflags]
  refine Holds.bind (R := fun _ v => s.Stage (s.fieldCells s.tr.base (taskFields s pc (savedFlags cause s.eflags))) v ∧
    s.MapsFields s.tr.base (taskFields s pc (savedFlags cause s.eflags))) (stage_of_reads ((stage_reads s []).keeps_require' _ _ rfl)) (fun _ => ?_) x hv
  show Holds _ (writeTssFields x.tr.base (taskFields x pc (savedFlags cause x.eflags))) _ _
  rw [hfields, huntouched.tr]
  exact writeTssFields_stage s.tr.base _ []

theorem cellsAt_one {lin : Word32} {pa : Nat} (h : s.place lin = some pa) (v : Word32) : s.cellsAt lin 1 v = [(pa, v.setWidth 8)] := by
  simp [State.cellsAt, placesOf, cells, h]

/-- The type byte with the busy mark set or cleared. -/
theorem busyByte_bit (busy : Bool) (b : Word32) : ((if busy then b ||| 2 else b &&& 0xFD).setWidth 8).getLsbD 1 = busy := by
  cases busy <;> simp

theorem descAddr_untouched {v : State} (h : s.Untouched v) (x : Word16) : descAddr v x = descAddr s x := by
  unfold descAddr
  rw [h.ldtr, h.gdtr]

/-- A busy mark is one cell. -/
theorem markBusy_stage (busy : Bool) (x : Word16) :
    Holds (s.Stage c) (markBusy busy x) (fun _ v => ∃ m, s.Marks busy x m ∧ s.Stage (c ++ m) v) (s.SwitchEnds cause sel) := by
  intro v hv
  unfold markBusy
  rw [descAddr_untouched hv.1.untouched]
  cases ha : descAddr s x with
  | none => exact switchEnds_of_early hv.1
  | some a =>
    refine Holds.bind (stage_of_reads ((stage_reads s c).keeps_readLin false 1 (a + 5))) (fun b => ?_) v hv
    refine Holds.weaken (writeLin_stage 1 (a + 5) (if busy then b ||| 2 else b &&& 0xFD)) (fun _ h => h) (fun _ t ht => ?_) (fun _ _ h => h)
    obtain ⟨pa, hpa⟩ := ht.2 0 (by decide)
    have hpa : s.place (a + 5) = some pa := (BitVec.add_zero (a + 5)) ▸ hpa
    exact ⟨_, ⟨a, pa, _, ha, hpa, cellsAt_one hpa _, busyByte_bit busy b⟩, ht.1⟩

/-- An operation that is done or not, and what it stores. -/
theorem onlyIf_stage {b : Bool} {m : M Unit} {A : List Host.Cell → Prop}
    (h : Holds (s.Stage c) m (fun _ v => ∃ l, A l ∧ s.Stage (c ++ l) v) (s.SwitchEnds cause sel)) :
    Holds (s.Stage c) (onlyIf b m) (fun _ v => ∃ l, (if b = true then A l else l = []) ∧ s.Stage (c ++ l) v) (s.SwitchEnds cause sel) := by
  cases b with
  | true => exact h
  | false => exact fun v hv => ⟨[], rfl, by rwa [List.append_nil]⟩

/-- The busy marks are stored after what was stored before, the one of the task left first. -/
theorem markTasks_stage :
    Holds (s.Stage c) (markTasks cause sel) (fun _ v => ∃ left entered, s.MarkCells cause sel left entered ∧ s.Stage (c ++ (left ++ entered)) v)
      (s.SwitchEnds cause sel) := by
  refine Holds.bind (Q := fun x v => x = s.tr.sel ∧ s.Stage c v) (fun v hv => ⟨congrArg TaskReg.sel hv.1.untouched.tr, hv⟩) fun x v hv => ?_
  obtain ⟨rfl, hv⟩ := hv
  refine Holds.bind (R := fun _ v => ∃ left entered, s.MarkCells cause sel left entered ∧ s.Stage (c ++ (left ++ entered)) v)
    (onlyIf_stage (markBusy_stage false s.tr.sel)) (fun _ v hv => ?_) v hv
  obtain ⟨left, hleft, hv⟩ := hv
  refine Holds.weaken (onlyIf_stage (b := cause != .iret) (markBusy_stage true sel)) (fun _ h => h) (fun _ t ht => ?_) (fun _ _ h => h) v hv
  obtain ⟨entered, hentered, ht⟩ := ht
  refine ⟨left, entered, ⟨?_, ?_⟩, by rwa [← List.append_assoc]⟩
  · simpa only [Bool.and_eq_true, Bool.not_eq_true'] using hleft
  · simpa only [bne_iff_ne] using hentered

end

/-! ## The commit -/

/-- A switch that has committed to the task `sel`, whose TSS lies at `base`. -/
structure State.Entering (sel : Word16) (base : Word32) (v : State) : Prop where
  sel : v.tr.sel = sel
  base : v.tr.base = base
  ts : v.ts = true
  switching : v.switching = .committed
  stepKind : v.stepKind = .switched

theorem State.Entering.frame {sel : Word16} {base : Word32} {v t : State} (h : v.Entering sel base) (htr : t.tr = v.tr) (hcr0 : t.cr0 = v.cr0)
    (hswitching : t.switching = v.switching) (hkind : t.stepKind = v.stepKind) : t.Entering sel base where
  sel := htr ▸ h.sel
  base := htr ▸ h.base
  ts := (congrArg (·.getLsbD 3) hcr0).trans h.ts
  switching := hswitching.trans h.switching
  stepKind := hkind.trans h.stepKind

theorem entering_commit (v : State) (sel : Word16) (base limit : Word32) : (v.commitTask sel base limit).Entering sel base where
  sel := rfl
  base := rfl
  ts := by simp [State.ts, State.commitTask]
  switching := rfl
  stepKind := rfl

/-- The same, by stores alone since the start in `s`. -/
def State.Reading (s : State) (sel : Word16) (base : Word32) (v : State) : Prop := v.Entering sel base ∧ s.Past v

theorem reading_quiet (s : State) (sel : Word16) (base : Word32) : Quiet (s.Reading sel base) (fun _ => True) where
  drawn := fun _ h => ⟨h.1.frame rfl rfl rfl rfl, h.2.frame rfl rfl rfl rfl⟩
  exc := fun _ _ => trivial
  refuse := fun _ => trivial
  page := fun _ _ _ _ _ _ _ => trivial
  store := fun _ pa b h => ⟨h.1.frame rfl rfl rfl rfl, h.2.storeByte pa b⟩
  note := fun _ _ h => ⟨h.1.frame rfl rfl rfl rfl, h.2.frame rfl rfl rfl rfl⟩

theorem past_commit {s v : State} (h : s.Past v) (sel : Word16) (base limit : Word32) : s.Past (v.commitTask sel base limit) :=
  h.frame rfl (State.commitTask_pg v sel base limit) rfl rfl

section
variable {s : State} {cause : SwitchCause} {sel : Word16} {base : Word32} {c : List Host.Cell}

/-- The backlink's cells are stored, or a page fault is told. -/
theorem linkBack_reading :
    Holds (fun v => s.Reading sel base v ∧ v.mem = Memory.writes s.mem c) (attempt (linkBack cause base s.tr.sel))
      (fun r v => s.Reading sel base v ∧
        (raised r = none → v.mem = Memory.writes s.mem (c ++ s.linkCells cause base) ∧ (cause.nests = true → s.MapsAll base 2)) ∧
        ∀ e, raised r = some e → e.dfClass = .pageFault)
      (s.SwitchEnds cause sel) := by
  intro v hv
  have hkeeps := (reading_quiet s sel base).keeps_linkBack cause base s.tr.sel v hv.1
  have hcells : Holds (fun v => s.Past v ∧ v.mem = Memory.writes s.mem c) (linkBack cause base s.tr.sel)
      (fun _ v => v.mem = Memory.writes s.mem (c ++ s.linkCells cause base) ∧ (cause.nests = true → s.MapsAll base 2))
      (fun y _ => ∀ e, y = .exc e → e.dfClass = .pageFault) := by
    unfold linkBack State.linkCells
    cases cause.nests with
    | false => exact fun v hv => ⟨by simpa using hv.2, fun h => by cases h⟩
    | true => exact Holds.weaken (writeLin_cells 2 base _) (fun _ h => h) (fun _ _ h => ⟨h.1, fun _ => h.2⟩) (fun _ _ h => h)
  have hcells := hcells v ⟨hv.1.2, hv.2⟩
  unfold attempt
  cases hr : linkBack cause base s.tr.sel v with
  | ok a t =>
    rw [hr] at hkeeps hcells
    exact ⟨hkeeps, fun _ => hcells, fun e he => by cases he⟩
  | error y t =>
    rw [hr] at hkeeps hcells
    cases y with
    | exc e => exact ⟨hkeeps.1, fun he => (by cases he), fun x hx => (by cases hx; exact hcells e rfl)⟩
    | refuse r => exact fun e he => by cases he

/-- The new task's words, each from its doubleword of the TSS. -/
def State.FindsWords (s : State) (m : List Host.Cell) (base : Word32) (w : List Word32) : Prop :=
  ∀ i < 26, s.Finds m 4 (base + BitVec.ofNat 32 (4 * i)) (tssWord w i)

/-- Reading the new TSS leaves memory and where the switch stands alone; its words are told, or a page fault is. -/
theorem readTss_reading (m : List Host.Cell) :
    Holds (fun v => s.Reading sel base v ∧ v.mem = m) (readTss 26 base)
      (fun r v => (s.Reading sel base v ∧ v.mem = m) ∧ (∀ e, r.2 = some e → e.dfClass = .pageFault) ∧ (r.2 = none → s.FindsWords m base r.1))
      (s.SwitchEnds cause sel) := by
  intro v hv
  have h := readTss_spec 26 base hv.1.2
  have hdrawn : ∀ k, s.Reading sel base { v with freeCtr := k } := fun k =>
    ⟨hv.1.1.frame rfl rfl rfl rfl, hv.1.2.frame rfl rfl rfl rfl⟩
  cases hr : readTss 26 base v with
  | ok r t =>
    rw [hr] at h
    obtain ⟨⟨k, rfl⟩, hfault, hwords⟩ := h
    exact ⟨⟨hdrawn k, hv.2⟩, hfault, hv.2 ▸ hwords⟩
  | error y t =>
    rw [hr] at h
    exact fun e he => absurd he (h.2 e)

/-- The state that has loaded its registers from the words `w` of the TSS at `base`, after stores of `c` and the backlink. -/
structure State.Loaded (s : State) (cause : SwitchCause) (sel : Word16) (base : Word32) (c : List Host.Cell) (w : List Word32) (v : State) : Prop where
  entering : v.Entering sel base
  mem : v.mem = Memory.writes s.mem (c ++ s.linkCells cause base)
  link : cause.nests = true → s.MapsAll base 2
  words : s.FindsWords v.mem base w
  load : ∃ u : State, v = u.loadTask cause.nests w

theorem entering_load {v : State} (h : v.Entering sel base) (n : Bool) (w : List Word32) : (v.loadTask n w).Entering sel base :=
  h.frame rfl rfl rfl rfl

/-- Steps 3 and 4: the registers are loaded from the new TSS, or a page fault is raised in the new task. -/
theorem commitSwitch_loaded (limit : Word32) :
    Holds (s.Stage c) (commitSwitch cause sel base limit) (fun w v => s.Loaded cause sel base c w v) (s.SwitchEnds cause sel) := by
  refine Holds.bind (Q := fun x v => x = s.tr.sel ∧ s.Stage c v) (fun v hv => ⟨congrArg TaskReg.sel hv.1.untouched.tr, hv⟩) fun x v hv => ?_
  obtain ⟨rfl, hv⟩ := hv
  refine Holds.bind (P := s.Stage c) (Q := fun _ v => s.Reading sel base v ∧ v.mem = Memory.writes s.mem c)
    (R := fun w v => s.Loaded cause sel base c w v)
    (fun v hv => show s.Reading sel base (v.commitTask sel base limit) ∧ v.mem = Memory.writes s.mem c from
      ⟨⟨entering_commit v sel base limit, past_commit hv.1.past sel base limit⟩, hv.2⟩) (fun _ => ?_) v hv
  refine Holds.bind linkBack_reading fun link v hv => ?_
  obtain ⟨hreading, hlink, hlinkFault⟩ := hv
  refine Holds.bind (R := fun w v => s.Loaded cause sel base c w v) (readTss_reading v.mem) (fun r t ht => ?_) v ⟨hreading, rfl⟩
  obtain ⟨w, err⟩ := r
  obtain ⟨⟨hentering, hmem⟩, hreadFault, hwords⟩ := ht
  have hloaded : (t.loadTask cause.nests w).Entering sel base := entering_load hentering.1 cause.nests w
  dsimp only
  rw [bind_ok (change_run _ _)]
  cases hx : (raised link).or err with
  | none =>
    obtain ⟨hnolink, hnoread⟩ := Option.or_eq_none_iff.mp hx
    obtain ⟨hcells, hmaps⟩ := hlink hnolink
    exact ⟨hloaded, hmem.trans hcells, hmaps, by rw [State.loadTask_mem, hmem]; exact hwords hnoread, t, rfl⟩
  | some e =>
    have hfault : e.dfClass = .pageFault := by
      rcases Option.or_eq_some_iff.mp hx with h | ⟨-, h⟩
      · exact hlinkFault e h
      · exact hreadFault e h
    intro y hy
    cases hy
    exact .inl ⟨hloaded.switching, hloaded.sel, hloaded.ts, .inl hfault⟩

end

/-! ## The new task's registers -/

theorem State.Finds.first {s : State} {m : List Host.Cell} {n k : Nat} {lin v : Word32} (h : s.Finds m n lin v) (hk : k ≤ n) : s.Finds m k lin v :=
  fun i hi => h i (Nat.lt_of_lt_of_le hi hk)

/-- The low half of a doubleword of memory. -/
theorem State.Finds.low16 {s : State} {m : List Host.Cell} {lin v : Word32} (h : s.Finds m 4 lin v) : s.Finds m 2 lin ((v.setWidth 16).setWidth 32) := by
  intro k hk
  obtain ⟨pa, hpa, hread⟩ := h k (by omega)
  refine ⟨pa, hpa, hread.trans ?_⟩
  apply BitVec.eq_of_getLsbD_eq
  intro i hi
  simp only [BitVec.getLsbD_setWidth, BitVec.getLsbD_ushiftRight, hi, decide_true, Bool.true_and, show 8 * k + i < 16 by omega, show 8 * k + i < 32 by omega]

/-- The state in which the new task's selectors are checked. -/
def State.toCheck (v : State) (w : List Word32) : State := v.setCtl .cr3 (tssWord w 7)

/-- The registers loaded from the words of the TSS are those that lie there, also after the checks. -/
theorem taskLoaded_of_words {s u t : State} {n : Bool} {w : List Word32} (hw : s.FindsWords t.mem t.tr.base w)
    (ht : ((u.loadTask n w).toCheck w).Rechecked t) : s.TaskLoaded t n := by
  obtain ⟨hgpr, heip, hflags, hcr3, -, hcpl, htrap, -⟩ := ht.regs
  have hsegs : ∀ seg, (t.segs.get seg).sel = ((taskSegs w).get seg).sel := ht.segs
  refine ⟨?_, ⟨tssWord w 9, hw 9 (by decide), ?_⟩, ?_, ?_, ?_, ?_, ⟨tssWord w 25, (hw 25 (by decide)).first (by decide), htrap⟩, ?_⟩
  · rw [heip]
    exact hw 8 (by decide)
  · rw [hflags, ← withNt_true]
    rfl
  · have hgpr : t.gpr = taskGpr w := hgpr
    simp only [List.forall_mem_cons, List.not_mem_nil, false_imp_iff, implies_true, and_true, hgpr]
    exact ⟨hw 10 (by decide), hw 11 (by decide), hw 12 (by decide), hw 13 (by decide), hw 14 (by decide), hw 15 (by decide), hw 16 (by decide),
      hw 17 (by decide)⟩
  · simp only [List.forall_mem_cons, List.not_mem_nil, false_imp_iff, implies_true, and_true, hsegs]
    exact ⟨(hw 18 (by decide)).low16, (hw 19 (by decide)).low16, (hw 20 (by decide)).low16, (hw 21 (by decide)).low16, (hw 22 (by decide)).low16,
      (hw 23 (by decide)).low16⟩
  · rw [ht.ldtr]
    exact (hw 24 (by decide)).low16
  · rw [hcr3]
    exact hw 7 (by decide)
  · rw [hcpl, hsegs]
    rfl

/-! ## The whole switch -/

/-- What a completed switch from `s` leaves. -/
structure State.Switched (s : State) (cause : SwitchCause) (sel : Word16) (pc : Word16 × Word32) (t : State) : Prop where
  tr : t.tr.sel = sel
  ts : t.ts = true
  nested : cause.nests = true → t.flag flagNT = true
  saved : Memory.wf s.mem = true → s.TaskSaved t cause sel pc
  loaded : s.TaskLoaded t cause.nests
  checked : t.TaskChecked
  stepKind : t.stepKind = .switched

theorem nested_flag {s t : State} (h : s.TaskLoaded t true) : t.flag flagNT = true := by
  obtain ⟨f, -, hf⟩ := h.eflags
  simp [State.flag, flagNT, hf]

/-- The checks leave the kind of the step alone. -/
theorem stepKind_loads (k : StepKind) : Loads (fun s => s.stepKind = k) (fun _ => True) where
  drawn := fun _ h => h
  exc := fun _ _ => trivial
  refuse := fun _ => trivial
  page := fun _ _ _ _ _ _ _ => trivial
  segs := fun _ _ h _ => h
  ldtr := fun _ _ h => h

/-- The checks leave the switch committed and the new task's registers loaded. -/
theorem State.Loaded.rechecked {s u t : State} {cause : SwitchCause} {sel : Word16} {base : Word32} {c : List Host.Cell} {w : List Word32}
    (hu : s.Loaded cause sel base c w u) (ht : (u.toCheck w).Rechecked t) :
    t.tr.sel = sel ∧ t.tr.base = base ∧ t.ts = true ∧ t.switching = .committed ∧ t.mem = u.mem ∧ s.TaskLoaded t cause.nests := by
  obtain ⟨-, -, -, -, hcr0, -, -, htr, hswitching⟩ := ht.regs
  have htr : t.tr = u.tr := htr
  have hmem : t.mem = u.mem := ht.mem
  have hloaded : s.TaskLoaded t cause.nests := by
    obtain ⟨v, rfl⟩ := hu.load
    refine taskLoaded_of_words ?_ ht
    rw [hmem, htr, hu.entering.base]
    exact hu.words
  exact ⟨htr ▸ hu.entering.sel, htr ▸ hu.entering.base, (congrArg (·.getLsbD 3) hcr0).trans hu.entering.ts,
    hswitching.trans hu.entering.switching, hmem, hloaded⟩

/-- Step 5: the selectors are checked in the state loaded. -/
theorem checkTask_switched {s u : State} {cause : SwitchCause} {sel : Word16} {pc : Word16 × Word32} {base : Word32} {left entered : List Host.Cell}
    {w : List Word32} (hstores : s.Stores cause sel pc base left entered)
    (hu : s.Loaded cause sel base (s.fieldCells s.tr.base (taskFields s pc (savedFlags cause s.eflags)) ++ (left ++ entered)) w u) :
    Holds (fun v => v = u.toCheck w) checkTask (fun _ t => s.Switched cause sel pc t) (s.SwitchEnds cause sel) := by
  rintro _ rfl
  have hcheck := checkTask_spec (u.toCheck w)
  have hkind := (stepKind_loads .switched).keeps_checkTask (u.toCheck w) hu.entering.stepKind
  cases hr : checkTask (u.toCheck w) with
  | ok a t =>
    rw [hr] at hcheck hkind
    obtain ⟨hsel, hbase, hts, hswitching, hmem, hloaded⟩ := hu.rechecked hcheck.1
    refine ⟨hsel, hts, fun hn => nested_flag (hn ▸ hloaded), fun hwf => ?_, hloaded, hcheck.2, hkind⟩
    refine taskSaved_of_stores (left := left) (entered := entered) (hbase ▸ hstores) hwf ?_
    rw [hmem, hu.mem, hbase, State.switchCells, List.append_assoc, List.append_assoc]
  | error x t =>
    rw [hr] at hcheck
    cases x with
    | refuse r => exact fun e he => by cases he
    | exc e =>
      obtain ⟨hsel, hbase, hts, hswitching, hmem, hloaded⟩ := hu.rechecked hcheck.1
      intro y hy
      cases hy
      exact .inl ⟨hswitching, hsel, hts, hcheck.2.imp_right fun h => ⟨hloaded, h⟩⟩

theorem stage_located {s v : State} {c : List Host.Cell} (h : s.Stage c v) : s.Stage c { v with switching := .located } :=
  ⟨⟨h.1.untouched.bookkeeping _ _ _ _ _ _ _, by simp, h.1.past.frame rfl rfl rfl rfl⟩, h.2⟩

/-- The five steps of a task switch (R156). -/
theorem taskSwitch_holds (cause : SwitchCause) (sel : Word16) (pc : Word16 × Word32) (s : State) :
    Holds (s.Stage []) (taskSwitch cause sel pc) (fun _ t => s.Switched cause sel pc t) (s.SwitchEnds cause sel) := by
  refine Holds.bind (stage_of_reads ((stage_reads s []).keeps_locateTss cause sel)) fun p => ?_
  obtain ⟨base, limit⟩ := p
  refine Holds.bind (Q := fun _ v => s.Stage [] v) (fun v hv => stage_located hv) fun _ => ?_
  refine Holds.bind (saveTask_stage pc) fun _ v hv => ?_
  obtain ⟨hv, hfields⟩ := hv
  refine Holds.bind (R := fun _ t => s.Switched cause sel pc t) markTasks_stage (fun _ v hv => ?_) v hv
  obtain ⟨left, entered, hmarks, hv⟩ := hv
  refine Holds.bind (R := fun _ t => s.Switched cause sel pc t) (commitSwitch_loaded limit) (fun w v hv => ?_) v hv
  have hstores : s.Stores cause sel pc base left entered := ⟨hmarks, hfields, hv.link⟩
  dsimp only
  cases hvm : (!(tssWord w 9).getLsbD flagVM) with
  | true =>
    rw [bind_ok (covered_true _ _), bind_ok (change_run _ _)]
    exact checkTask_switched hstores hv _ rfl
  | false =>
    rw [bind_error (covered_false _ _)]
    exact fun e he => by cases he

theorem stage_start {s : State} (hs : s.switching ≠ .committed) : s.Stage [] s :=
  ⟨⟨State.Untouched.refl s, hs, ⟨rfl, rfl, fun _ _ h => h, fun _ _ _ => rfl⟩⟩, rfl⟩

/-- A switch that completes. -/
theorem taskSwitch_switched {cause : SwitchCause} {sel : Word16} {pc : Word16 × Word32} {s t : State} (hs : s.switching ≠ .committed)
    (h : taskSwitch cause sel pc s = .ok () t) : s.Switched cause sel pc t := by
  have hholds := taskSwitch_holds cause sel pc s s (stage_start hs)
  rwa [h] at hholds

/-- Settles O25: the switch stage by stage, from the verification to the checks. -/
theorem taskSwitchCommits : Obligations.TaskSwitchCommits := by
  intro cause sel pc s hs
  have hstart : s.switching ≠ .committed := by
    rw [hs]
    decide
  refine ⟨fun t ht => ?_, fun e t ht => ?_⟩
  · have h := taskSwitch_switched hstart ht
    exact ⟨h.tr, h.ts, h.nested, h.saved, h.loaded, h.checked⟩
  · have h := taskSwitch_holds cause sel pc s s (stage_start hstart)
    rw [ht] at h
    exact (h e rfl).imp_right fun ⟨hc, hu⟩ =>
      ⟨hc, hu.tr, hu.gpr, hu.segs, hu.ldtr, hu.eip, hu.eflags, hu.cr0, hu.cr2, hu.cr3, hu.dbg, hu.gdtr, hu.idtr, hu.cpl⟩

end Sys2Proof.Machine
end

section
/-! PROOFS. Scope: an event enters its handler, through a trap or interrupt gate or through a task gate. -/

namespace Sys2Proof.Machine

/-! ## What the entry of a handler leaves alone -/

/-- The kind of the step, the debug registers and every general register but ESP are as in `s`. -/
structure State.EntryKeeps (s t : State) : Prop where
  stepKind : t.stepKind = s.stepKind
  dbg : t.dbg = s.dbg
  gpr : ∀ r, r ≠ .esp → t.gpr.get r = s.gpr.get r

theorem State.EntryKeeps.trans {s t u : State} (h : s.EntryKeeps t) (h' : t.EntryKeeps u) : s.EntryKeeps u :=
  ⟨h'.stepKind.trans h.stepKind, h'.dbg.trans h.dbg, fun r hr => (h'.gpr r hr).trans (h.gpr r hr)⟩

/-- A change of none of these registers. -/
theorem entryKeeps_of_eq {s t : State} (hkind : t.stepKind = s.stepKind) (hdbg : t.dbg = s.dbg) (hgpr : t.gpr = s.gpr) : s.EntryKeeps t :=
  ⟨hkind, hdbg, fun r _ => by rw [hgpr]⟩

theorem Gpr.get_set_other (g : Gpr) {r x : Reg} (v : Word32) (h : r ≠ x) : (g.set x v).get r = g.get r := by
  cases x <;> cases r <;> first | rfl | exact absurd rfl h

theorem entryKeeps_withSp (s : State) (v : Word32) : s.EntryKeeps (s.withSp v) where
  stepKind := State.setReg_stepKind s _ _ v
  dbg := State.setReg_dbg s _ _ v
  gpr := fun r hr => by
    unfold State.withSp
    cases s.stackOp <;> exact Gpr.get_set_other s.gpr _ hr

theorem entryKeeps_pushed (s : State) (sz : OpSize) (v : Word32) : s.EntryKeeps (s.pushed sz v) :=
  (entryKeeps_of_eq (t := s.stored .ss (s.pushAt sz) sz.bytes v) (State.storeBytes_stepKind ..) (State.storeBytes_dbg ..) (State.storeBytes_gpr ..)).trans
    (entryKeeps_withSp _ _)

theorem entryKeeps_pushedAll (sz : OpSize) (l : List Word32) : ∀ s : State, s.EntryKeeps (s.pushedAll sz l) := by
  induction l with
  | nil => exact fun _ => entryKeeps_of_eq rfl rfl rfl
  | cons v r ih => exact fun s => (entryKeeps_pushed s sz v).trans (ih _)

theorem entryKeeps_selCounted (s : State) (sz : OpSize) : s.EntryKeeps (s.selCounted sz) :=
  entryKeeps_of_eq (State.selCounted_stepKind s sz) (State.selCounted_dbg s sz) (State.selCounted_gpr s sz)

theorem entryKeeps_errCounted (s : State) (ec : ErrCode) : s.EntryKeeps (s.errCounted ec) := by
  cases ec <;> exact entryKeeps_of_eq rfl rfl rfl

/-- CS is loaded and, for a more privileged handler, its stack; memory stays. -/
theorem handlerStack_keeps {s t : State} {h : Handler} (ht : s.handlerStack h = some t) : s.EntryKeeps t ∧ t.mem = s.mem := by
  unfold State.handlerStack at ht
  dsimp only at ht
  split at ht
  · cases ht
    exact ⟨entryKeeps_of_eq rfl rfl rfl, rfl⟩
  · split at ht
    · cases ht
    · split at ht
      · cases ht
      · rename_i v _
        cases ht
        have hloaded : s.EntryKeeps ((s.setCs { sel := withRpl h.sel (h.level s.cpl), desc := h.desc, checked := true }).withSeg .ss v) :=
          entryKeeps_of_eq rfl rfl rfl
        exact ⟨hloaded.trans (entryKeeps_withSp _ _), State.withSp_mem _ _⟩

theorem based_keeps (s : State) (h : Handler) : s.EntryKeeps (s.based h) ∧ (s.based h).mem = s.mem := by
  unfold State.based
  cases ht : s.handlerStack h with
  | none => exact ⟨entryKeeps_of_eq rfl rfl rfl, rfl⟩
  | some t => exact handlerStack_keeps ht

theorem entryKeeps_framing (s : State) (h : Handler) : s.EntryKeeps (s.framing h) :=
  ((based_keeps s h).1.trans (entryKeeps_selCounted _ _)).trans (entryKeeps_selCounted _ _)

@[simp] theorem State.errCounted_mem (s : State) (ec : ErrCode) : (s.errCounted ec).mem = s.mem := by cases ec <;> rfl

theorem framing_mem (s : State) (h : Handler) : (s.framing h).mem = s.mem := by
  rw [State.framing, State.selCounted_mem, State.selCounted_mem, (based_keeps s h).2]

theorem entryKeeps_coding (s : State) (ev : Event) (h : Handler) (pc : Word16 × Word32) : s.EntryKeeps (s.coding ev h pc) :=
  (((entryKeeps_framing s h).trans (entryKeeps_pushedAll _ _ _)).trans (entryKeeps_of_eq (t := s.entryNoted ev h pc) rfl rfl rfl)).trans
    (entryKeeps_errCounted _ _)

theorem coding_mem (s : State) (ev : Event) (h : Handler) (pc : Word16 × Word32) : (s.coding ev h pc).mem = (s.framed h pc).mem := by
  rw [State.coding, State.errCounted_mem]
  rfl

theorem entryKeeps_entered (s : State) (ev : Event) (h : Handler) (pc : Word16 × Word32) : s.EntryKeeps (s.entered ev h pc) :=
  ((entryKeeps_coding s ev h pc).trans (entryKeeps_pushedAll h.size (errDrawn (s.framed h pc).freeCtr ev.errCode) _)).trans
    (entryKeeps_of_eq rfl rfl rfl)

/-- The entry stores to the addresses of its frame and its error code alone. -/
theorem read_entered_other (s : State) (ev : Event) (h : Handler) (pc : Word16 × Word32) {a : Nat} (ha : a ∉ s.entryTargets ev h pc) :
    Memory.read (s.entered ev h pc).mem a = Memory.read s.mem a := by
  rw [State.entryTargets, List.mem_append, not_or] at ha
  obtain ⟨hframe, hcode⟩ := ha
  show Memory.read ((s.coding ev h pc).pushedAll h.size (errDrawn (s.framed h pc).freeCtr ev.errCode)).mem a = _
  rw [read_pushedAll_other _ _ _ hcode, coding_mem, State.framed, read_pushedAll_other _ _ _ hframe, framing_mem]

/-! ## The state that a handler faces -/

theorem recordEvent_mem (s : State) (ev : Event) : (s.recordEvent ev).mem = s.mem := by
  cases ev with
  | exc e => exact State.record_mem s e
  | _ => rfl

theorem recordEvent_gpr (s : State) (ev : Event) : (s.recordEvent ev).gpr = s.gpr := by
  cases ev with
  | exc e => exact State.record_gpr s e
  | _ => rfl

theorem recordEvent_eflags (s : State) (ev : Event) : (s.recordEvent ev).eflags = s.eflags := by
  cases ev with
  | exc e => exact State.record_eflags s e
  | _ => rfl

theorem attempt_vm (s : State) (ev : Event) : (s.attempt ev).flag flagVM = s.flag flagVM :=
  congrArg (·.getLsbD flagVM) (recordEvent_eflags s ev)

theorem faced_attempt_mem (s : State) (ev : Event) : ((s.attempt ev).faced ev).mem = s.mem := by
  unfold State.faced
  split <;> exact recordEvent_mem s ev

theorem faced_attempt_dbg (s : State) (ev : Event) : ((s.attempt ev).faced ev).dbg = (s.recordEvent ev).dbg := by
  unfold State.faced
  split <;> rfl

theorem faced_attempt_stepKind (s : State) (ev : Event) : ((s.attempt ev).faced ev).stepKind = .plain := by
  unfold State.faced
  split <;> rfl

theorem faced_attempt_switching (s : State) (ev : Event) : ((s.attempt ev).faced ev).switching = .idle := by
  unfold State.faced
  split <;> rfl

theorem faced_attempt_gpr {s : State} {ev : Event} (h : ev.isAbort = false) : ((s.attempt ev).faced ev).gpr = s.gpr := by
  unfold State.faced
  rw [h, if_neg (by decide)]
  exact recordEvent_gpr s ev

/-! ## DR6 -/

theorem getLsbD_flagBit (b : Bool) {i : Nat} (hi : i < 32) (k : Nat) : (if b then BitVec.twoPow 32 i else 0).getLsbD k = (k == i && b) := by
  cases b with
  | false => simp
  | true =>
    simp only [if_true, BitVec.getLsbD_twoPow, hi, decide_true, Bool.true_and, Bool.and_true, beq_eq_decide]
    exact decide_eq_decide.mpr eq_comm

/-- The status bits of a set of debug conditions (R29). -/
theorem status_getLsbD (c : DebugConds) (k : Nat) : c.status.getLsbD k =
    (c.instrBp.getLsbD k || c.dataBp.getLsbD k || (k == 13 && c.generalDetect) || (k == 14 && c.singleStep) || (k == 15 && c.taskSwitch)) := by
  have hbp : ((c.instrBp ||| c.dataBp).setWidth 32).getLsbD k = (c.instrBp.getLsbD k || c.dataBp.getLsbD k) := by
    rw [BitVec.getLsbD_setWidth, BitVec.getLsbD_or]
    by_cases hk : k < 32
    · rw [decide_eq_true hk, Bool.true_and]
    · rw [BitVec.getLsbD_of_ge _ _ (by omega), BitVec.getLsbD_of_ge _ _ (by omega)]
      simp
  unfold DebugConds.status
  rw [show (0x2000 : Word32) = BitVec.twoPow 32 13 from rfl, show (0x4000 : Word32) = BitVec.twoPow 32 14 from rfl,
    show (0x8000 : Word32) = BitVec.twoPow 32 15 from rfl, BitVec.getLsbD_or, BitVec.getLsbD_or, BitVec.getLsbD_or, hbp,
    getLsbD_flagBit _ (by decide), getLsbD_flagBit _ (by decide), getLsbD_flagBit _ (by decide)]

/-! ## Through a task gate -/

/-- The IDT lookup of an event whose entry is any present gate that the event may use. -/
theorem readGate_present {s : State} {ev : Event} {g : Desc} {dpl : BitVec 2} (h : s.idtEntry ev.vector = some g)
    (hg : handlerGate g = some (true, dpl)) (hd : ev.software = false ∨ s.cpl ≤ dpl) : readGate ev s = .ok g s := by
  obtain ⟨hlimit, hread⟩ := idtEntry_spec h
  have hallowed : (!ev.software || decide (s.cpl ≤ dpl)) = true := by
    rcases hd with hd | hd
    · rw [hd]
      rfl
    · rw [decide_eq_true hd, Bool.or_true]
  unfold readGate
  rw [bind_ok (look_run _ _), decide_eq_true hlimit, bind_ok (require_true _ _), bind_ok hread, hg]
  dsimp only
  rw [bind_ok (look_run _ _), hallowed, bind_ok (require_true _ _), bind_ok (require_true _ _)]
  rfl

/-- The task switch of a handler, and the error code on the new task's stack. -/
theorem taskHandler_ok {s t : State} {ev : Event} {sel : Word16} {pc : Word16 × Word32}
    (ht : taskSwitch .int sel pc (s.noted ev (.task sel)) = .ok () t)
    (hp : (t.errCounted ev.errCode).canPushAll .s32 (errDrawn t.freeCtr ev.errCode) = true) :
    taskHandler ev sel pc s = .ok () ((t.errCounted ev.errCode).pushedAll .s32 (errDrawn t.freeCtr ev.errCode)) := by
  unfold taskHandler noteFrame
  rw [bind_ok (change_run _ _), bind_ok ht, bind_ok (errImage_run _ _)]
  exact pushAll_ok _ hp

theorem invoke_task {s t : State} {ev : Event} {sel : Word16} {dpl : BitVec 2} (hi : (s.faced ev).idtEntry ev.vector = some (.taskGate true dpl sel))
    (hd : ev.software = false ∨ (s.faced ev).cpl ≤ dpl) (ht : taskSwitch .int sel (s.eventPc ev) ((s.faced ev).noted ev (.task sel)) = .ok () t)
    (hp : (t.errCounted ev.errCode).canPushAll .s32 (errDrawn t.freeCtr ev.errCode) = true) :
    invoke ev s = .ok () ((t.errCounted ev.errCode).pushedAll .s32 (errDrawn t.freeCtr ev.errCode)) := by
  rw [invoke_start, bind_ok (readGate_present hi rfl hd)]
  exact taskHandler_ok ht hp

/-- No task switch writes a debug register (log entry 20). -/
theorem taskSwitch_dbg {cause : SwitchCause} {sel : Word16} {pc : Word16 × Word32} {s t : State} (h : taskSwitch cause sel pc s = .ok () t) :
    t.dbg = s.dbg := by
  have hk := (closed_of_system_anyEnd (fun y => y.dbg = s.dbg) fun _ h => h).keeps_taskSwitch cause sel pc s rfl
  rwa [h] at hk

/-! ## The report -/

/-- A handler that is entered at the first attempt is the outcome. -/
theorem report_ok {src t : State} {ev : Event} (h : invoke ev (src.attempt ev) = .ok () t) (n : Nat) (old : State) :
    report (n + 1) old src ev =
      .next { t.settle with stepKind := if ev.kind = .plain ∧ t.stepKind = .switched then .switched else ev.kind } := by
  unfold State.attempt at h
  rw [report, h]

theorem report_refused {src t : State} {ev : Event} {r : Refusal} (h : invoke ev (src.attempt ev) = .error (.refuse r) t) (n : Nat) (old : State) :
    report (n + 1) old src ev = .refused r := by
  unfold State.attempt at h
  rw [report, h]

theorem needsTask_eq_false {ev : Event} (h : ∀ ec, ev ≠ .exc (.invalidTss ec)) : ev.needsTask = false := by
  cases ev with
  | exc e =>
    cases e with
    | invalidTss ec => exact absurd rfl (h ec)
    | _ => rfl
  | _ => rfl

/-- Settles O17: one attempt at the gate's handler, or at the gate's task, goes through; what the entry stores, keeps and tells in DR6. -/
theorem eventEntersHandler : Obligations.EventEntersHandler := by
  intro n old src ev hvm b pc told
  have htold : ∀ t : State, t.dbg = b.dbg → told t.dbg.dr6 := by
    intro t ht k
    rw [ht, faced_attempt_dbg]
    cases ev with
    | exc e =>
      cases e with
      | debug c =>
        show (src.dbg.dr6 ||| c.status).getLsbD k = _
        rw [BitVec.getLsbD_or, status_getLsbD]
        simp only [Bool.or_assoc]
      | _ => rfl
    | _ => rfl
  refine ⟨fun h hh hp => ?_, fun dpl sel t hi hd ht => ?_⟩
  · have hinvoke := invoke_gate ((attempt_vm src ev).trans hvm) hh hp
    have hkeeps := entryKeeps_entered b ev h pc
    refine ⟨?_, fun hev => ?_, fun a ha => ?_, fun habort r hr => ?_, rfl, htold _ hkeeps.dbg⟩
    · rintro ec rfl
      exact report_refused (hinvoke.trans (covered_false _ _)) n old
    · rw [needsTask_eq_false hev] at hinvoke
      have hkind : (b.entered ev h pc).stepKind = .plain := hkeeps.stepKind.trans (faced_attempt_stepKind src ev)
      rw [report_ok (hinvoke.trans (covered_true _ _)), if_neg (fun hc => by rw [hkind] at hc; cases hc.2)]
    · rw [read_entered_other b ev h pc ha, faced_attempt_mem]
    · rw [hkeeps.gpr r hr, faced_attempt_gpr habort]
  · intro c l hp
    have hstart : (b.noted ev (.task sel)).switching ≠ .committed := by
      show b.switching ≠ .committed
      rw [faced_attempt_switching]
      decide
    have hkeeps : t.EntryKeeps (c.pushedAll .s32 l) := (entryKeeps_errCounted t ev.errCode).trans (entryKeeps_pushedAll _ _ _)
    have hkind : (c.pushedAll .s32 l).stepKind = .switched := hkeeps.stepKind.trans (taskSwitch_switched hstart ht).stepKind
    have hdbg : t.dbg = b.dbg := taskSwitch_dbg (s := b.noted ev (.task sel)) ht
    refine ⟨?_, htold _ (hkeeps.dbg.trans hdbg)⟩
    rw [report_ok (invoke_task hi hd ht hp)]
    simp only [c, l] at hkind ⊢
    simp only [hkind, and_true]

end Sys2Proof.Machine
end

section
/-! PROOFS. Scope: the segment stage of an access, and a limit violation on the stack. -/

namespace Sys2Proof.Machine

/-! ## The segment stage -/

theorem nullMatters_iff (seg : SegReg) : nullMatters seg = true ↔ seg ≠ .cs ∧ seg ≠ .ss := by
  cases seg <;> decide

/-- What a segment's type forbids (R55): a write to read-only data or to code, a read of execute-only code. -/
theorem allows_eq_false (d : SegDesc) (kind : Access) : d.allows kind = false ↔
    (kind = .write ∧ ((∃ x, d.kind = .data false x) ∨ ∃ c r, d.kind = .code c r)) ∨ (kind = .read ∧ ∃ c, d.kind = .code c false) := by
  obtain ⟨base, limit, type, dpl, big⟩ := d
  cases kind <;> rcases type with ⟨c, _ | _⟩ | ⟨_ | _, e⟩ <;> simp [SegDesc.allows]

section
variable {s : State} {seg : SegReg}

theorem segLin_null (hnull : (nullMatters seg && isNull (s.segs.get seg).sel) = true) (off : Word32) (n : Nat) (kind : Access) :
    segLin seg off n kind s = .error (.exc (.generalProtection 0)) s := by
  unfold segLin
  rw [bind_ok (look_run _ _), hnull, Bool.not_true, bind_error (require_false _ _)]

/-- The segment stage through a checked register whose selector is no bar: the limit test and the type test, in an open order (R55, D6). -/
theorem segLin_checked (hc : (s.segs.get seg).checked = true) (hnull : (nullMatters seg && isNull (s.segs.get seg).sel) = false)
    (off : Word32) (n : Nat) (kind : Access) :
    segLin seg off n kind s =
      if (s.segs.get seg).desc.inLimit off n then
        if (s.segs.get seg).desc.allows kind then .ok ((s.segs.get seg).desc.base + off) s else .error (.exc (.generalProtection 0)) s
      else if (s.segs.get seg).desc.allows kind then .error (.exc (limitExc seg)) s
      else .error (.exc (if Config.freeBit s.freeCtr then limitExc seg else .generalProtection 0)) s.drawn := by
  unfold segLin
  rw [bind_ok (look_run _ _), hnull, Bool.not_false, bind_ok (require_true _ _), bind_ok (segView_ok hc)]
  cases (s.segs.get seg).desc.inLimit off n <;> cases (s.segs.get seg).desc.allows kind <;> rfl

end

/-- Settles O21: a null selector comes first, then the limit and the type test by their four outcomes. -/
theorem segmentStage : Obligations.SegmentStage := by
  intro s seg off n kind hc d null outside forbidden
  have hnull : (nullMatters seg && isNull (s.segs.get seg).sel) = true ↔ null := by
    rw [Bool.and_eq_true, nullMatters_iff, and_assoc]
  have hforbidden : d.allows kind = false ↔ forbidden := allows_eq_false d kind
  have hstage := fun h : ¬null => segLin_checked hc (by rwa [← Bool.not_eq_true, hnull]) off n kind
  have hinside : ¬outside → d.inLimit off n = true := Bool.of_not_eq_false
  have hallowed : ¬forbidden → d.allows kind = true := fun h => Bool.of_not_eq_false (hforbidden.not.mpr h)
  refine ⟨fun h => segLin_null (hnull.mpr h) off n kind, fun h ho hf => ?_, fun h ho hf => ?_, fun h ho hf => ?_, fun h ho hf => ?_⟩
  · rw [hstage h, show d.inLimit off n = false from ho, hallowed hf]
    rfl
  · rw [hstage h, hinside ho, hforbidden.mpr hf]
    rfl
  · rw [hstage h, show d.inLimit off n = false from ho, hforbidden.mpr hf]
    simp only [Bool.false_eq_true, if_false, limitExc, ite_and]
  · rw [hstage h, hinside ho, hallowed hf]
    rfl

/-! ## A limit violation -/

section
variable {s : State} {seg : SegReg} {off : Word32} {n : Nat}

theorem segLin_outside {kind : Access} (hc : (s.segs.get seg).checked = true)
    (hnull : (nullMatters seg && isNull (s.segs.get seg).sel) = false) (ha : (s.segs.get seg).desc.allows kind = true)
    (ho : (s.segs.get seg).desc.inLimit off n = false) : segLin seg off n kind s = .error (.exc (limitExc seg)) s := by
  rw [segLin_checked hc hnull, ho, ha]
  rfl

theorem memRead_outside (hc : (s.segs.get seg).checked = true) (hnull : (nullMatters seg && isNull (s.segs.get seg).sel) = false)
    (ha : (s.segs.get seg).desc.allows .read = true) (ho : (s.segs.get seg).desc.inLimit off n = false) :
    memRead seg off n s = .error (.exc (limitExc seg)) s := by
  unfold memRead
  exact bind_error (segLin_outside hc hnull ha ho)

theorem memWrite_outside (hc : (s.segs.get seg).checked = true) (hnull : (nullMatters seg && isNull (s.segs.get seg).sel) = false)
    (ha : (s.segs.get seg).desc.allows .write = true) (ho : (s.segs.get seg).desc.inLimit off n = false) (v : Word32) :
    memWrite seg off n v s = .error (.exc (limitExc seg)) s := by
  unfold memWrite
  exact bind_error (segLin_outside hc hnull ha ho)

/-- A memory operand outside its segment's limit is not read. -/
theorem readRM_outside {m : MemOp} {sz : OpSize} (hc : (s.segs.get (opSeg m)).checked = true)
    (hnull : (nullMatters (opSeg m) && isNull (s.segs.get (opSeg m)).sel) = false) (ha : (s.segs.get (opSeg m)).desc.allows .read = true)
    (ho : (s.segs.get (opSeg m)).desc.inLimit (eaOffset s m.ea) sz.bytes = false) :
    readRM sz (.mem m) s = .error (.exc (limitExc (opSeg m))) s := by
  show opRead m 0 sz.bytes s = _
  unfold opRead
  rw [bind_ok (look_run _ _), show eaOffset s m.ea + 0 = eaOffset s m.ea from BitVec.add_zero _]
  exact memRead_outside hc hnull ha ho

/-- A read of the stack outside the limit of SS. -/
theorem stackRead_outside (hc : s.segs.ss.checked = true) (ha : s.segs.ss.desc.allows .read = true)
    (ho : s.segs.ss.desc.inLimit (s.stackAt off) n = false) : stackRead off n s = .error (.exc (.stackFault 0)) s := by
  unfold stackRead
  rw [bind_ok (stackBig_ok hc)]
  exact memRead_outside (seg := .ss) hc rfl ha ho

theorem push_outside {sz : OpSize} (hc : s.segs.ss.checked = true) (ha : s.segs.ss.desc.allows .write = true)
    (ho : s.segs.ss.desc.inLimit (s.pushAt sz) sz.bytes = false) (v : Word32) : push sz v s = .error (.exc (.stackFault 0)) s := by
  unfold push
  rw [bind_ok (getSp_ok hc), bind_ok (stackBig_ok hc)]
  exact bind_error (memWrite_outside (seg := .ss) hc rfl ha ho v)

theorem pop_outside {sz : OpSize} (hc : s.segs.ss.checked = true) (ha : s.segs.ss.desc.allows .read = true)
    (ho : s.segs.ss.desc.inLimit (s.stackAt s.sp) sz.bytes = false) : pop sz s = .error (.exc (.stackFault 0)) s := by
  unfold pop
  rw [bind_ok (getSp_ok hc)]
  exact bind_error (stackRead_outside hc ha ho)

end

/-- Settles O60: the access comes before any register changes, and its segment stage fails the limit test of SS. -/
theorem stackLimitFaults : Obligations.StackLimitFaults := by
  intro s sz r hready hc b d
  have hc : b.segs.ss.checked = true := hc
  refine ⟨fun ha ho => ?_, fun ha ho => ?_, fun ha ho => ?_, fun m hseg ha ho => ?_⟩ <;> refine runInstr_raise hready ?_
  · rw [bind_ok (look_run _ _)]
    exact bind_error (push_outside hc ha ho _)
  · exact bind_error (pop_outside hc ha ho)
  · rw [bind_ok (stackBig_ok hc), bind_ok (look_run _ _)]
    exact bind_error (stackRead_outside hc ha ho)
  · have hread : readRM sz (.mem m) b = .error (.exc (limitExc (opSeg m))) b :=
      readRM_outside (by rwa [hseg]) (by rw [hseg]; rfl) (by rwa [hseg]) (by rwa [hseg])
    rw [hseg] at hread
    exact bind_error hread

end Sys2Proof.Machine
end

section
/-! PROOFS. Scope: where the bytes of a write lie, and the bytes a push stores. -/

namespace Sys2Proof.Machine

/-! ## Translation keeps the offset in the page -/

/-- What a level may access lies where the supervisor finds it (R57). -/
theorem pageWalk_supervisor {s : State} {write user : Bool} {lin : Word32} {pa : Nat} (h : pageWalk s write user lin = .ok pa) :
    pageWalk s write false lin = .ok pa := by
  have hall : ∀ pde pte, pageAllows write false pde pte = true := fun _ _ => rfl
  unfold pageWalk at h ⊢
  split at h
  next hpg =>
    split at h
    next => cases h
    next pde hd =>
      split at h
      next hpd =>
        split at h
        next => cases h
        next pte ht =>
          split at h
          next hpt =>
            split at h
            next => simpa only [hpg, hd, hpd, ht, hpt, hall, if_true] using h
            next => cases h
          next => cases h
      next => cases h
  next hpg => rwa [if_neg hpg]

/-- A page begins at a multiple of 4096 in both address spaces. -/
theorem translate_mod {s : State} {write user : Bool} {lin : Word32} {pa : Nat} (h : translate s write user lin = .ok pa) :
    pa % 4096 = lin.toNat % 4096 := by
  unfold translate at h
  split at h
  next => cases h
  next p hwalk =>
    split at h
    next => cases h
    next =>
      cases h
      have hpast : s.Past s := ⟨rfl, rfl, fun _ _ ha => ha, fun _ _ _ => rfl⟩
      exact place_mod (place_of_pageWalk hpast (pageWalk_supervisor hwalk))

/-- These addresses have, one after the other, the offsets in their pages of the bytes from `lin` up. -/
def FollowsPages (lin : Word32) (l : List Nat) : Prop := ∀ k (h : k < l.length), l[k] % 4096 = (lin.toNat + k) % 4096

theorem followsPages_nil (lin : Word32) : FollowsPages lin [] := fun _ h => absurd h (Nat.not_lt_zero _)

theorem followsPages_cons {lin : Word32} {pa : Nat} {l : List Nat} (hpa : pa % 4096 = lin.toNat % 4096) (hl : FollowsPages (lin + 1) l) :
    FollowsPages lin (pa :: l) := by
  intro k hk
  cases k with
  | zero => exact hpa
  | succ k =>
    rw [List.getElem_cons_succ, hl k (Nat.lt_of_succ_lt_succ hk), BitVec.toNat_add, show (1 : Word32).toNat = 1 from rfl]
    omega

theorem translateAll_followsPages (s : State) (write user : Bool) (n : Nat) : ∀ lin, FollowsPages lin (translateAll s write user n lin).1 := by
  induction n with
  | zero => exact followsPages_nil
  | succ n ih =>
    intro lin
    unfold translateAll
    cases ht : translate s write user lin with
    | error e => exact followsPages_nil lin
    | ok pa => exact followsPages_cons (translate_mod ht) (ih (lin + 1))

theorem translateEach_followsPages (user : Bool) (n : Nat) : ∀ (s : State) (lin : Word32), FollowsPages lin (translateEach user n s lin).1 := by
  induction n with
  | zero => exact fun _ => followsPages_nil
  | succ n ih =>
    intro s lin
    unfold translateEach
    cases ht : translate s true user lin with
    | error e => exact followsPages_nil lin
    | ok pa => exact followsPages_cons (translate_mod ht) (ih _ (lin + 1))

theorem translateWrite_followsPages (s : State) (user : Bool) (n : Nat) (lin : Word32) : FollowsPages lin (translateWrite s user n lin).1 := by
  unfold translateWrite
  split
  · exact translateAll_followsPages s true user n lin
  · exact translateEach_followsPages user n s lin

/-- At most a page of such addresses lies at addresses that differ. -/
theorem followsPages_injective {lin : Word32} {l : List Nat} (h : FollowsPages lin l) (hlen : l.length ≤ 4096) {i j : Nat} (hi : i < l.length)
    (hj : j < l.length) (heq : l[i] = l[j]) : i = j := by
  have h1 := h i hi
  have h2 := h j hj
  omega

/-! ## What a write stores -/

/-- Bytes stored at addresses that differ are read back, low byte first (R50). -/
theorem read_storeBytes_same {s : State} {l : List Nat} (hwf : Memory.wf s.mem = true) (v : Word32) {k : Nat} (hk : k < l.length)
    (hne : ∀ j (hj : j < l.length), l[k] = l[j] → k = j) : Memory.read (s.storeBytes l v).mem l[k] = (v >>> (8 * k)).setWidth 8 := by
  show Memory.read (s.storeCells (cells l v)).mem l[k] = _
  rw [State.storeCells_mem]
  refine Memory.read_writes_mem (p := (· = (v >>> (8 * k)).setWidth 8)) _ hwf ⟨_, mem_cells.mpr ⟨k, hk, rfl, rfl⟩⟩ fun b hb => ?_
  obtain ⟨j, hj, ha, rfl⟩ := mem_cells.mp hb
  rw [hne j hj ha]

theorem targets_length {s : State} {seg : SegReg} {off : Word32} {n : Nat} (h : s.writable seg off n = true) : (s.targets seg off n).length = n := by
  simp only [State.writable, State.mapped, Bool.and_eq_true, beq_iff_eq] at h
  exact translateWrite_length h.2

/-- A write of at most a page stores byte `k` of its value at the `k`-th of its addresses (R50). -/
theorem read_stored {s : State} {seg : SegReg} {off : Word32} {n : Nat} (hwf : Memory.wf s.mem = true) (hw : s.writable seg off n = true)
    (hn : n ≤ 4096) (v : Word32) {k : Nat} (hk : k < (s.targets seg off n).length) :
    Memory.read (s.stored seg off n v).mem (s.targets seg off n)[k] = (v >>> (8 * k)).setWidth 8 :=
  read_storeBytes_same hwf v hk fun _ hj =>
    followsPages_injective (translateWrite_followsPages s s.user n (s.lin seg off)) ((targets_length hw).trans_le hn) hk hj

/-- Settles O23: the addresses of a push have different offsets in their pages, so that no byte of it is stored over another. -/
theorem pushStoresLittleEndian : Obligations.PushStoresLittleEndian := by
  intro s sz v hwf hpush
  simp only [State.canPush, Bool.and_eq_true] at hpush
  refine ⟨targets_length hpush.2, fun k hk => ?_⟩
  have hsize : sz.bytes ≤ 4096 := by cases sz <;> decide
  rw [State.pushed, State.withSp_mem]
  exact read_stored hwf hpush.2 hsize v hk

end Sys2Proof.Machine
end

section
/-! PROOFS. Scope: ESC: its tests, the move of its operand, a violation in a portion. -/

namespace Sys2Proof.Machine

/-! ## The tests -/

theorem runInstr_congr {body body' : M Unit} {s : State} (h : body s.begin = body' s.begin) : runInstr body s = runInstr body' s := by
  unfold runInstr
  rw [h]

/-- A body that raises an exception is a fault, from where its attempt leaves the machine (R131). -/
theorem runInstr_exc {body : M Unit} {s t : State} {e : Exc} (h : s.ready) (hb : body s.begin = .error (.exc e) t) :
    runInstr body s = reportFault (cutOff s.begin t) e := by
  unfold runInstr
  rw [ready_modeRefusal h, hb]

theorem runInstr_refuse {body : M Unit} {s t : State} {r : Refusal} (h : s.ready) (hb : body s.begin = .error (.refuse r) t) :
    runInstr body s = .refused r := by
  unfold runInstr
  rw [ready_modeRefusal h, hb]

/-- What an ESC does once its tests let it: the operand, AX, the next instruction (R100). -/
def escMove (rm : RM) : M Unit := do
  let c ← look State.coproc
  covered (c != .none) .noCoprocessor
  escTransfer rm
  change State.takeNpxAx
  change State.advance

theorem exec_esc (op reg : BitVec 3) (rm : RM) (s : State) :
    exec (.esc op reg rm) s = runInstr (escAvailable >>= fun _ => escErrorPin op reg rm >>= fun _ => escMove rm) s := rfl

section
variable {s : State}

theorem escAvailable_ok (hem : s.em = false) (hts : s.ts = false) : escAvailable s = .ok () s := by
  unfold escAvailable
  rw [bind_ok (look_run _ _), id_eq, hem, hts, Bool.and_false, Bool.not_false, bind_ok (require_true _ _), bind_ok (require_true _ _)]
  rfl

/-- With TS alone set an open choice lets the ESC run or stops it (D12). -/
theorem escAvailable_ts (hem : s.em = false) (hmp : s.mp = false) (hts : s.ts = true) :
    escAvailable s = require (Config.freeBit s.freeCtr) .coprocNotAvailable s.drawn := by
  unfold escAvailable
  rw [bind_ok (look_run _ _), id_eq, hem, hmp, hts, Bool.false_and, Bool.not_false, bind_ok (require_true _ _), bind_ok (require_true _ _),
    onlyIf_true, bind_ok (drawBit_run _)]

theorem escErrorPin_ok {op reg : BitVec 3} {rm : RM} (hpin : (s.errorPin && Config.checksError op reg rm) = false) :
    escErrorPin op reg rm s = .ok () s := by
  unfold escErrorPin
  rw [bind_ok (look_run _ _), id_eq, hpin]
  rfl

/-- Where the tests pass the move begins, in the state that the draw leaves. -/
theorem escTests_ok {t : State} {op reg : BitVec 3} {rm : RM} (havail : escAvailable s = .ok () t)
    (hpin : (t.errorPin && Config.checksError op reg rm) = false) :
    (escAvailable >>= fun _ => escErrorPin op reg rm >>= fun _ => escMove rm) s = escMove rm t := by
  rw [bind_ok havail, bind_ok (escErrorPin_ok hpin)]

end

/-! ## Moving the operand portion by portion -/

theorem laterPortion_ok {m : M Unit} {last : Bool} {s t : State} : laterPortion last m s = .ok () t ↔ m s = .ok () t := by
  unfold laterPortion
  cases hm : m s with
  | ok a u => rfl
  | error e u => cases e <;> simp

theorem laterPortion_exc {m : M Unit} {s t : State} {e : Exc} (last : Bool) (h : m s = .error (.exc e) t) :
    laterPortion last m s = .error (.exc (portionExc last e)) t := by
  unfold laterPortion
  rw [h]

/-- Portions that all go through, one after the other. -/
inductive PortionsRun : List (M Unit) → State → State → Prop
  | nil (s : State) : PortionsRun [] s s
  | cons {m : M Unit} {r : List (M Unit)} {s t u : State} : m s = .ok () t → PortionsRun r t u → PortionsRun (m :: r) s u

theorem PortionsRun.movePortions_ok {l : List (M Unit)} {s t : State} (h : PortionsRun l s t) : movePortions l s = .ok () t := by
  induction h with
  | nil s => rfl
  | cons hm _ ih =>
    unfold movePortions
    rw [bind_ok (laterPortion_ok.mpr hm), ih]

theorem PortionsRun.moveOperand_ok {l : List (M Unit)} {s t : State} (h : PortionsRun l s t) : moveOperand l s = .ok () t := by
  cases h with
  | nil => rfl
  | cons hm hr => exact (bind_ok hm).trans hr.movePortions_ok

section
variable {s t u : State} {e : Exc}

/-- After the first portion a violation is reported as it is in the last one only (R151). -/
theorem PortionsRun.movePortions_exc {m : M Unit} {front rest : List (M Unit)} (hf : PortionsRun front s u) (hm : m u = .error (.exc e) t) :
    movePortions (front ++ m :: rest) s = .error (.exc (portionExc rest.isEmpty e)) t := by
  induction hf with
  | nil s => exact bind_error (laterPortion_exc _ hm)
  | cons hm' _ ih =>
    rw [List.cons_append, movePortions, bind_ok (laterPortion_ok.mpr hm')]
    exact ih hm

/-- A violation in the first or the last portion is reported as it is, one between them as exception 9 (R52, R100, R151). -/
theorem moveOperand_exc {α : Type} {f : α → M Unit} {q : α} {front rest : List α} (hf : PortionsRun (front.map f) s u)
    (hq : f q u = .error (.exc e) t) :
    moveOperand ((front ++ q :: rest).map f) s = .error (.exc (if front = [] ∨ rest = [] then e else .coprocOverrun)) t := by
  rw [List.map_append, List.map_cons]
  cases front with
  | nil =>
    cases hf
    rw [if_pos (.inl rfl)]
    exact bind_error hq
  | cons x r =>
    cases hf with
    | cons hx hr =>
      rw [List.map_cons, List.cons_append, moveOperand, bind_ok hx, hr.movePortions_exc hq]
      cases rest <;> rfl

end

/-! ## Reads and stores of portions -/

section
variable {s : State} {seg : SegReg}

theorem portionsRun_take {l : List (Word32 × Nat)} (h : ∀ q ∈ l, s.readable seg q.1 q.2 = true) :
    PortionsRun (l.map fun q => takePortion seg q.1 q.2) s s := by
  induction l with
  | nil => exact .nil s
  | cons q r ih =>
    have hq : takePortion seg q.1 q.2 s = .ok () s := bind_ok (memRead_ok (h q (List.mem_cons_self ..)))
    exact .cons hq (ih fun x hx => h x (List.mem_cons_of_mem _ hx))

theorem portionsRun_give (l : List (Word32 × List Byte)) : ∀ {s : State}, s.canGive seg l = true →
    PortionsRun (l.map fun q => givePortion seg q.1 q.2) s (s.given seg l) := by
  induction l with
  | nil => exact fun {s} _ => .nil s
  | cons q r ih =>
    intro s h
    simp only [State.canGive, Bool.and_eq_true] at h
    exact .cons (memWrite_ok h.1) (ih h.2)

/-- Bytes that no portion is stored to are as before. -/
theorem read_given_other (l : List (Word32 × List Byte)) : ∀ {s : State} {a : Nat}, a ∉ s.giveTargets seg l →
    Memory.read (s.given seg l).mem a = Memory.read s.mem a := by
  induction l with
  | nil => exact fun _ => rfl
  | cons q r ih =>
    intro s a ha
    rw [State.giveTargets, List.mem_append, not_or] at ha
    rw [State.given, ih ha.2]
    exact read_storeBytes_other _ _ _ ha.1

end

@[simp] theorem State.takeNpxAx_mem (s : State) : s.takeNpxAx.mem = s.mem := by
  unfold State.takeNpxAx
  split
  · exact State.setReg_mem ..
  · rfl

/-- With nothing to move the transfer does nothing. -/
theorem escTransfer_none {s : State} {rm : RM} (h : (∃ r, rm = .reg r) ∨ s.npx.transfer = .none) : escTransfer rm s = .ok () s := by
  cases rm with
  | reg r => rfl
  | mem m =>
    have h : s.npx.transfer = .none := h.resolve_left fun ⟨_, hr⟩ => nomatch hr
    show transferOperand m s = _
    unfold transferOperand
    rw [bind_ok (look_run _ _), bind_ok (look_run _ _), h]
    rfl

theorem escTransfer_load {s : State} {m : MemOp} {n : Nat} (h : s.npx.transfer = .load n) :
    escTransfer (.mem m) s = moveOperand ((portions (portion n) n (eaOffset s m.ea) n).map fun q => takePortion (opSeg m) q.1 q.2) s := by
  show transferOperand m s = _
  unfold transferOperand
  rw [bind_ok (look_run _ _), bind_ok (look_run _ _), h]

theorem escTransfer_store {s : State} {m : MemOp} {data : List Byte} (h : s.npx.transfer = .store data) :
    escTransfer (.mem m) s =
      moveOperand ((dataPortions (portion data.length) data.length (eaOffset s m.ea) data).map fun q => givePortion (opSeg m) q.1 q.2) s := by
  show transferOperand m s = _
  unfold transferOperand
  rw [bind_ok (look_run _ _), bind_ok (look_run _ _), h]

/-! ## The whole instruction -/

/-- With EM and TS clear and no tested error pin the tests pass. -/
theorem exec_esc_eq_move {s : State} {op reg : BitVec 3} {rm : RM} (hem : s.em = false) (hts : s.ts = false)
    (hpin : (s.errorPin && Config.checksError op reg rm) = false) : exec (.esc op reg rm) s = runInstr (escMove rm) s :=
  runInstr_congr (escTests_ok (s := s.begin) (escAvailable_ok hem hts) hpin)

section
variable {s t : State} {rm : RM}

theorem escMove_noCoprocessor (hc : s.coproc = .none) : escMove rm s = .error (.refuse .noCoprocessor) s := by
  unfold escMove
  rw [bind_ok (look_run _ _), hc, bne_self_eq_false, bind_error (covered_false _ _)]

theorem escMove_ok (hc : s.coproc ≠ .none) (h : escTransfer rm s = .ok () t) : escMove rm s = .ok () t.takeNpxAx.advance := by
  unfold escMove
  rw [bind_ok (look_run _ _), bne_iff_ne.mpr hc, bind_ok (covered_true _ _), bind_ok h, bind_ok (change_run _ _)]
  rfl

theorem escMove_exc {e : Exc} (hc : s.coproc ≠ .none) (h : escTransfer rm s = .error (.exc e) t) : escMove rm s = .error (.exc e) t := by
  unfold escMove
  rw [bind_ok (look_run _ _), bne_iff_ne.mpr hc, bind_ok (covered_true _ _), bind_error h]

end

/-- With TS alone set an ESC with no memory operand goes on or raises exception 7, by an open choice (D12). -/
theorem exec_esc_ts {s : State} {op reg : BitVec 3} {r : Reg} (hready : s.ready) (hem : s.em = false) (hmp : s.mp = false) (hts : s.ts = true)
    (hpin : s.errorPin = false) (hc : s.coproc ≠ .none) :
    exec (.esc op reg (.reg r)) s =
      if Config.freeBit s.freeCtr = true then .next s.begin.drawn.takeNpxAx.advance.settle else reportFault s.begin.drawn .coprocNotAvailable := by
  have havail : escAvailable s.begin = require (Config.freeBit s.freeCtr) .coprocNotAvailable s.begin.drawn := escAvailable_ts hem hmp hts
  have hpin : (s.begin.drawn.errorPin && Config.checksError op reg (.reg r)) = false := by simp [hpin]
  rw [exec_esc]
  cases hbit : Config.freeBit s.freeCtr with
  | true =>
    rw [hbit, require_true] at havail
    exact runInstr_ok hready ((escTests_ok havail hpin).trans (escMove_ok hc (escTransfer_none (.inl ⟨r, rfl⟩))))
  | false =>
    rw [hbit, require_false] at havail
    exact runInstr_exc hready (bind_error havail)

/-- Settles O33: the tests pass, the operand moves portion by portion, and AX and EIP are written last. -/
theorem escCompletes : Obligations.EscCompletes := by
  refine ⟨fun s op reg rm hready hem hts hpin => ?_, fun s op reg r => exec_esc_ts⟩
  have hrun := exec_esc_eq_move hem hts hpin
  refine ⟨fun hnone => hrun.trans (runInstr_refuse hready (escMove_noCoprocessor hnone)), fun hc => ?_⟩
  have hmove := fun {t} (h : escTransfer rm s.begin = .ok () t) => hrun.trans (runInstr_ok hready (escMove_ok hc h))
  refine ⟨fun hnone => ⟨hmove (escTransfer_none hnone), fun a _ => by simp⟩, fun m n hrm hload hread => ⟨hmove ?_, fun a _ => by simp⟩,
    fun m data hrm hstore => ?_⟩
  · rw [hrm]
    exact (escTransfer_load (s := s.begin) hload).trans (portionsRun_take hread).moveOperand_ok
  · intro ps hgive
    refine ⟨hmove ?_, fun a ha => by simpa using read_given_other ps ha⟩
    rw [hrm]
    exact (escTransfer_store (s := s.begin) hstore).trans (portionsRun_give ps hgive).moveOperand_ok

/-! ## A violation in a portion -/

/-- Two portions leave something of an operand of three bytes or more (R52). -/
theorem two_portions_lt {n : Nat} (h : 3 ≤ n) : 2 * portion n < n := by
  unfold portion
  rw [if_neg (by omega)]
  omega

theorem portions_cons {p k n : Nat} (off : Word32) (h : p < n) :
    portions p (k + 1) off n = (off, p) :: portions p k (off + BitVec.ofNat 32 p) (n - p) := by
  rw [portions, if_neg (by omega), Nat.min_eq_left (by omega)]

theorem portions_ne_nil {p k n : Nat} (off : Word32) (h : 0 < n) : portions p (k + 1) off n ≠ [] := by
  rw [portions, if_neg (by omega)]
  exact List.cons_ne_nil _ _

/-- An operand of three bytes or more has three portions or more. -/
theorem three_le_portions {n : Nat} (off : Word32) (h : 3 ≤ n) : 3 ≤ (portions (portion n) n off n).length := by
  have hlt := two_portions_lt h
  obtain ⟨k, hk⟩ : ∃ k, n = k + 3 := ⟨n - 3, by omega⟩
  have hfuel : portions (portion n) n off n = portions (portion n) (k + 1 + 1 + 1) off n := by rw [← hk]
  rw [hfuel, portions_cons off (by omega), portions_cons _ (by omega)]
  have hlast := List.length_pos_of_ne_nil (portions_ne_nil (p := portion n) (k := k)
    (off + BitVec.ofNat 32 (portion n) + BitVec.ofNat 32 (portion n)) (show 0 < n - portion n - portion n by omega))
  simp only [List.length_cons]
  omega

/-- Settles O36: the portions before the one that fails go through, and its place among them says what is reported. -/
theorem escPortionFaults : Obligations.EscPortionFaults := by
  refine ⟨fun n off hn => three_le_portions off hn, fun s t op reg m e hready hem hts hpin hc =>
    ⟨fun n front rest q hload hsplit hread hfail => ?_, fun data front rest q hstore hsplit hgive hfail => ?_⟩⟩ <;>
    refine (exec_esc_eq_move hem hts hpin).trans (runInstr_exc hready (escMove_exc hc ?_))
  · refine (escTransfer_load (s := s.begin) hload).trans ?_
    rw [hsplit]
    exact moveOperand_exc (portionsRun_take hread) (bind_error hfail)
  · refine (escTransfer_store (s := s.begin) hstore).trans ?_
    rw [hsplit]
    exact moveOperand_exc (portionsRun_give front hgive) hfail

end Sys2Proof.Machine
end

section
/-! PROOFS. Scope: a MOV to a segment register that fails a test. -/

namespace Sys2Proof.Machine

/-! ## The tests of a descriptor -/

section
variable {seg : SegReg} {cpl : BitVec 2} {sel : Word16} {d : Desc} {x : SegDesc}

theorem segTest_unfit (h : Unfit seg cpl sel d) : segTest seg cpl sel d = .error .protection := by
  have hspec := segTest_spec seg cpl sel d
  cases ht : segTest seg cpl sel d with
  | ok sd => rw [ht] at hspec; exact absurd h hspec.1
  | error f =>
    cases f with
    | protection => rfl
    | notPresent => rw [ht] at hspec; exact absurd h hspec.1

theorem segTest_absent (h : ¬Unfit seg cpl sel (.seg false x)) : segTest seg cpl sel (.seg false x) = .error .notPresent := by
  have hspec := segTest_spec seg cpl sel (.seg false x)
  cases ht : segTest seg cpl sel (.seg false x) with
  | ok sd => rw [ht] at hspec; cases hspec.2
  | error f =>
    cases f with
    | protection => rw [ht] at hspec; exact absurd hspec h
    | notPresent => rfl

theorem segTest_ok (h : ¬Unfit seg cpl sel (.seg true x)) : segTest seg cpl sel (.seg true x) = .ok x := by
  have hspec := segTest_spec seg cpl sel (.seg true x)
  cases ht : segTest seg cpl sel (.seg true x) with
  | ok sd => rw [ht] at hspec; cases hspec.2; rfl
  | error f =>
    cases f with
    | protection => rw [ht] at hspec; exact absurd hspec h
    | notPresent => rw [ht] at hspec; obtain ⟨-, y, hy⟩ := hspec; cases hy

end

/-! ## The load of a selector -/

section
variable {s : State} {w : Word16 → Exc} {seg : SegReg} {sel : Word16} {d : Desc} {x : SegDesc}

theorem checkSelector_outside (hn : isNull sel = false) (ha : descAddr s sel = none) :
    checkSelector w seg sel s = .error (.exc (w (selError sel))) s := by
  have hread : readDesc (w (selError sel)) sel s = .error (.exc (w (selError sel))) s := by
    unfold readDesc
    rw [ha]
  unfold checkSelector
  rw [hn, if_neg (by decide), bind_error hread]

theorem checkSelector_unfit (hn : isNull sel = false) (hd : s.descOf sel = some d) (hu : Unfit seg s.cpl sel d) :
    checkSelector w seg sel s = .error (.exc (w (selError sel))) s := by
  unfold checkSelector
  rw [hn, if_neg (by decide), bind_ok (readDesc_ok hd), bind_ok (look_run _ _), segTest_unfit hu]
  rfl

theorem checkSelector_absent (hn : isNull sel = false) (hd : s.descOf sel = some (.seg false x)) (hu : ¬Unfit seg s.cpl sel (.seg false x)) :
    checkSelector w seg sel s = .error (.exc (absentExc seg sel)) s := by
  unfold checkSelector
  rw [hn, if_neg (by decide), bind_ok (readDesc_ok hd), bind_ok (look_run _ _), segTest_absent hu]
  rfl

theorem segLoad_fit (hn : isNull sel = false) (hd : s.descOf sel = some (.seg true x)) (hu : ¬Unfit seg s.cpl sel (.seg true x)) :
    s.segLoad seg sel = some { sel := sel, desc := x, checked := true } := by
  unfold State.segLoad
  rw [hn, if_neg (by decide), hd]
  dsimp only
  rw [segTest_ok hu]

theorem segLoad_null (hn : isNull sel = true) (hcs : seg ≠ .cs) (hss : seg ≠ .ss) :
    s.segLoad seg sel = some { sel := sel, desc := nullDesc, checked := true } := by
  unfold State.segLoad
  rw [if_pos hn]
  cases seg with
  | cs => exact absurd rfl hcs
  | ss => exact absurd rfl hss
  | _ => rfl

end

/-! ## What does not fit -/

section
variable {seg : SegReg} {cpl : BitVec 2} {sel : Word16} {p : Bool} {x : SegDesc}

/-- SS takes a writable data segment of its own level alone (R118, R164). -/
theorem unfit_ss : Unfit .ss cpl sel (.seg p x) ↔
    (∃ c r, x.kind = .code c r) ∨ (∃ e, x.kind = .data false e) ∨ rpl sel ≠ cpl ∨ x.dpl ≠ cpl := by
  rw [unfit_seg]
  obtain ⟨base, limit, type, dpl, big⟩ := x
  rcases type with ⟨c, r⟩ | ⟨_ | _, e⟩ <;> simp [UnfitIn, or_comm]

/-- DS, ES, FS and GS do not take execute-only code, nor, but for conforming code, what is more privileged than CPL or RPL (R118). -/
theorem unfit_data (hcs : seg ≠ .cs) (hss : seg ≠ .ss) : Unfit seg cpl sel (.seg p x) ↔
    (∃ c, x.kind = .code c false) ∨ ((∀ r, x.kind ≠ .code true r) ∧ (x.dpl < cpl ∨ x.dpl < rpl sel)) := by
  rw [unfit_seg]
  simp [UnfitIn, hcs, hss]

end

/-! ## MOV to a segment register -/

/-- An exception of the load is a fault of the MOV. -/
theorem movSregRm_faults {s : State} {sreg : BitVec 3} {seg : SegReg} {rm : RM} {e : Exc} (hready : s.ready)
    (hseg : SegReg.ofBits sreg = some seg) (hcs : seg ≠ .cs) (hread : s.begin.rmReadable 2 rm = true)
    (h : checkSelector .generalProtection seg ((s.begin.rmValue .s16 rm).setWidth 16) s.begin = .error (.exc e) s.begin) :
    Faults (.movSregRm sreg rm) s e := by
  have hvalue : readRM .s16 rm s.begin = .ok (s.begin.rmValue .s16 rm) s.begin := readRM_ok hread
  have hload : loadSegReg seg ((s.begin.rmValue .s16 rm).setWidth 16) s.begin = .error (.exc e) s.begin := bind_error h
  refine runInstr_raise hready ?_
  rw [hseg]
  cases seg with
  | cs => exact absurd rfl hcs
  | _ => exact (bind_ok hvalue).trans (bind_error hload)

/-- Settles O48: each test that fails ends the load, the present bit being tested last. -/
theorem segmentLoadTests : Obligations.SegmentLoadTests := by
  intro s sreg seg rm hready hseg hcs hread sel i
  have hfault : ∀ {e}, checkSelector .generalProtection seg sel s.begin = .error (.exc e) s.begin → Faults i s e :=
    movSregRm_faults hready hseg hcs hread
  refine ⟨fun hn hss => hfault ?_, fun hn hss => segLoad_null hn hcs hss, fun hn ha => hfault (checkSelector_outside hn ha),
    fun d hn hd hsys => hfault (checkSelector_unfit hn hd (.inl hsys)), fun p x hn hd => ⟨?_, fun hss => ?_⟩⟩
  · unfold checkSelector
    rw [if_pos hn, hss]
    rfl
  · rintro rfl
    refine ⟨fun hbad => hfault (checkSelector_unfit hn hd (unfit_ss.mpr hbad)), fun ⟨e, he⟩ hrpl hdpl => ?_⟩
    have hfit : ¬Unfit .ss s.cpl sel (.seg p x) := by
      rw [unfit_ss]
      simp [he, hrpl, hdpl]
    refine ⟨?_, ?_⟩ <;> rintro rfl
    · exact hfault (checkSelector_absent hn hd hfit)
    · exact segLoad_fit hn hd hfit
  · refine ⟨fun hbad => hfault (checkSelector_unfit hn hd ((unfit_data hcs hss).mpr hbad)), fun hcode hpriv => ?_⟩
    have hfit : ¬Unfit seg s.cpl sel (.seg p x) := by
      rw [unfit_data hcs hss]
      rintro (⟨c, hc⟩ | ⟨hnot, hlow⟩)
      · exact hcode c hc
      · rcases hpriv with ⟨r, hr⟩ | ⟨hc, hr⟩
        · exact hnot r hr
        · exact hlow.elim (BitVec.not_lt.mpr hc) (BitVec.not_lt.mpr hr)
    refine ⟨?_, ?_⟩ <;> rintro rfl
    · have habsent : absentExc seg sel = .notPresent (selError sel) := by
        cases seg with
        | ss => exact absurd rfl hss
        | _ => rfl
      exact habsent ▸ hfault (checkSelector_absent hn hd hfit)
    · exact segLoad_fit hn hd hfit

end Sys2Proof.Machine
end

section
/-! PROOFS. Scope: the decoder reads back what the encoder wrote. -/

namespace Sys2Proof

/-! ## Readers and the bytes they read -/

/-- The reader takes exactly these bytes, whatever follows them, and answers `a`. -/
def Parses {α : Type} (m : Reader α) (bs : List Byte) (a : α) : Prop := ∀ rest, m (bs ++ rest) = .ok (a, rest)

theorem parses_pure {α : Type} (a : α) : Parses (pure a) [] a := fun _ => rfl

theorem Parses.bind {α β : Type} {m : Reader α} {f : α → Reader β} {bs cs : List Byte} {a : α} {b : β} (hm : Parses m bs a)
    (hf : Parses (f a) cs b) : Parses (m >>= f) (bs ++ cs) b := by
  intro rest
  show (m (bs ++ cs ++ rest)).bind (fun p => f p.1 p.2) = _
  rw [List.append_assoc, hm]
  exact hf rest

/-- A reader whose answer is then only wrapped up. -/
theorem Parses.map {α β : Type} {m : Reader α} {bs : List Byte} {a : α} (hm : Parses m bs a) (f : α → β) :
    Parses (m >>= fun x => pure (f x)) bs (f a) := by
  have h : Parses (m >>= fun x => pure (f x)) (bs ++ []) (f a) := hm.bind (parses_pure (f a))
  rwa [List.append_nil] at h

theorem parses_byte (b : Byte) : Parses nextByte [b] b := fun _ => rfl

/-- A first byte picks the reader of the others. -/
theorem parses_cons {α : Type} {f : Byte → Reader α} {b : Byte} {bs : List Byte} {a : α} (h : Parses (f b) bs a) :
    Parses (nextByte >>= f) (b :: bs) a := (parses_byte b).bind h

theorem word_of_bytes (w : Word16) : w.extractLsb' 8 8 ++ w.extractLsb' 0 8 = w := by
  rw [BitVec.extractLsb'_append_extractLsb'_eq_extractLsb' (by rfl)]
  exact BitVec.extractLsb'_eq_self

theorem dword_of_words (w : Word32) : w.extractLsb' 16 16 ++ w.extractLsb' 0 16 = w := by
  rw [BitVec.extractLsb'_append_extractLsb'_eq_extractLsb' (by rfl)]
  exact BitVec.extractLsb'_eq_self

theorem parses_word (w : Word16) : Parses nextWord (wordBytes w) w := by
  have h : Parses nextWord (wordBytes w) (w.extractLsb' 8 8 ++ w.extractLsb' 0 8) := fun _ => rfl
  rwa [word_of_bytes] at h

theorem parses_dword (w : Word32) : Parses nextDword (dwordBytes w) w := by
  have h : Parses nextDword (dwordBytes w) (w.extractLsb' 16 16 ++ w.extractLsb' 0 16) :=
    (parses_word _).bind ((parses_word _).map _)
  rwa [dword_of_words] at h

theorem parses_immV (i : ImmV) : Parses (nextImmV i.size) i.toBytes i := by
  cases i with
  | i16 w => exact (parses_word w).map _
  | i32 w => exact (parses_dword w).map _

/-! ## ModRM and SIB (R72) -/

@[simp] theorem modOf_modrm (md : BitVec 2) (reg rm : BitVec 3) : modOf (modrm md reg rm) = md := by decide +revert
@[simp] theorem regOf_modrm (md : BitVec 2) (reg rm : BitVec 3) : regOf (modrm md reg rm) = reg := by decide +revert
@[simp] theorem rmOf_modrm (md : BitVec 2) (reg rm : BitVec 3) : rmOf (modrm md reg rm) = rm := by decide +revert

@[simp] theorem Reg.ofBits_toBits (r : Reg) : Reg.ofBits r.toBits = r := by cases r <;> rfl
@[simp] theorem CtlReg.ofBits_toBits (c : CtlReg) : CtlReg.ofBits c.toBits = some c := by cases c <;> rfl
@[simp] theorem Base16.ofBits_toBits (b : Base16) : Base16.ofBits b.toBits = b := by cases b <;> rfl

theorem Reg.eq_of_toBits {r : Reg} {n : BitVec 3} (h : r.toBits = n) : r = Reg.ofBits n := by rw [← h, Reg.ofBits_toBits]
theorem Base16.eq_of_toBits {b : Base16} {n : BitVec 3} (h : b.toBits = n) : b = Base16.ofBits n := by rw [← h, Base16.ofBits_toBits]

theorem Disp16.md_eq_zero {d : Disp16} : d.md = 0#2 ↔ d = .none := by cases d <;> simp [Disp16.md]
theorem Disp32.md_eq_zero {d : Disp32} : d.md = 0#2 ↔ d = .none := by cases d <;> simp [Disp32.md]
theorem Disp16.md_ne_three (d : Disp16) : d.md ≠ 3#2 := by cases d <;> simp [Disp16.md]
theorem Disp32.md_ne_three (d : Disp32) : d.md ≠ 3#2 := by cases d <;> simp [Disp32.md]

theorem parses_disp16 (d : Disp16) : Parses (nextDisp16 d.md) d.toBytes d := by
  cases d with
  | none => exact parses_pure _
  | d8 b => exact (parses_byte b).map _
  | d16 w => exact (parses_word w).map _

theorem parses_disp32 (d : Disp32) : Parses (nextDisp32 d.md) d.toBytes d := by
  cases d with
  | none => exact parses_pure _
  | d8 b => exact (parses_byte b).map _
  | d32 w => exact (parses_dword w).map _

theorem parses_a16 {b : Base16} {d : Disp16} (h : (EA.a16 b d).wf = true) : Parses (nextEA16 d.md b.toBits) d.toBytes (.a16 b d) := by
  have hbase : ¬(d.md = 0#2 ∧ b.toBits = 6#3) := by
    rintro ⟨hd, hb⟩
    rw [Disp16.md_eq_zero.mp hd, Base16.eq_of_toBits hb] at h
    cases h
  unfold nextEA16
  rw [if_neg hbase, Base16.ofBits_toBits]
  exact (parses_disp16 d).map _

theorem parses_direct16 (w : Word16) : Parses (nextEA16 0#2 6#3) (wordBytes w) (.direct16 w) := (parses_word w).map _

theorem parses_direct32 (w : Word32) : Parses (nextEA32 0#2 5#3) (dwordBytes w) (.direct32 w) := (parses_dword w).map _

theorem parses_a32 {b : Reg} {d : Disp32} (h : (EA.a32 b d).wf = true) : Parses (nextEA32 d.md b.toBits) d.toBytes (.a32 b d) := by
  have hsib : b.toBits ≠ 4#3 := by
    intro hb
    rw [Reg.eq_of_toBits hb] at h
    cases h
  have hbase : ¬(d.md = 0#2 ∧ b.toBits = 5#3) := by
    rintro ⟨hd, hb⟩
    rw [Disp32.md_eq_zero.mp hd, Reg.eq_of_toBits hb] at h
    cases h
  unfold nextEA32
  rw [if_neg hsib, if_neg hbase, Reg.ofBits_toBits]
  exact (parses_disp32 d).map _

theorem parses_sib {s : BitVec 2} {i b : Reg} {d : Disp32} (h : (EA.sib s i b d).wf = true) :
    Parses (nextEA32 d.md 4#3) (modrm s i.toBits b.toBits :: d.toBytes) (.sib s i b d) := by
  have hbase : ¬(d.md = 0#2 ∧ b.toBits = 5#3) := by
    rintro ⟨hd, hb⟩
    rw [Disp32.md_eq_zero.mp hd, Reg.eq_of_toBits hb] at h
    cases h
  refine parses_cons ?_
  simp only [modOf_modrm, regOf_modrm, rmOf_modrm, Reg.ofBits_toBits, if_neg hbase]
  exact (parses_disp32 d).map _

theorem parses_sibDirect (s : BitVec 2) (i : Reg) (w : Word32) :
    Parses (nextEA32 0#2 4#3) (modrm s i.toBits 5#3 :: dwordBytes w) (.sibDirect s i w) := by
  refine parses_cons ?_
  simp only [modOf_modrm, regOf_modrm, rmOf_modrm, Reg.ofBits_toBits, and_self, if_true]
  exact (parses_dword w).map _

/-- A ModRM byte and the tail of its operand. -/
theorem parses_tail {a32 : Bool} {ovr : Option SegReg} {md : BitVec 2} {reg n : BitVec 3} {bs : List Byte} {rm : RM}
    (h : Parses (nextRM a32 ovr (modrm md reg n)) bs rm) : Parses (nextModRM a32 ovr) (modrm md reg n :: bs) (reg, rm) := by
  have h' := h.map fun x => (reg, x)
  refine parses_cons ?_
  rwa [regOf_modrm]

theorem parses_mem16 {md : BitVec 2} {n : BitVec 3} {bs : List Byte} {ea : EA} (hmd : md ≠ 3#2) (h : Parses (nextEA16 md n) bs ea)
    (ovr : Option SegReg) (reg : BitVec 3) : Parses (nextModRM false ovr) (modrm md reg n :: bs) (reg, .mem { ovr := ovr, ea := ea }) := by
  refine parses_tail ?_
  unfold nextRM
  rw [modOf_modrm, rmOf_modrm, if_neg hmd]
  exact h.map _

theorem parses_mem32 {md : BitVec 2} {n : BitVec 3} {bs : List Byte} {ea : EA} (hmd : md ≠ 3#2) (h : Parses (nextEA32 md n) bs ea)
    (ovr : Option SegReg) (reg : BitVec 3) : Parses (nextModRM true ovr) (modrm md reg n :: bs) (reg, .mem { ovr := ovr, ea := ea }) := by
  refine parses_tail ?_
  unfold nextRM
  rw [modOf_modrm, rmOf_modrm, if_neg hmd]
  exact h.map _

theorem parses_ea {ea : EA} (h : ea.wf = true) (ovr : Option SegReg) (reg : BitVec 3) :
    Parses (nextModRM ea.is32 ovr) (ea.toBytes reg) (reg, .mem { ovr := ovr, ea := ea }) := by
  cases ea with
  | a16 b d => exact parses_mem16 d.md_ne_three (parses_a16 h) ovr reg
  | direct16 w => exact parses_mem16 (by decide) (parses_direct16 w) ovr reg
  | a32 b d => exact parses_mem32 d.md_ne_three (parses_a32 h) ovr reg
  | direct32 w => exact parses_mem32 (by decide) (parses_direct32 w) ovr reg
  | sib s i b d => exact parses_mem32 d.md_ne_three (parses_sib h) ovr reg
  | sibDirect s i w => exact parses_mem32 (by decide) (parses_sibDirect s i w) ovr reg

/-- The decoder's address size and override are those this operand is spelt with. -/
def RM.SpeltWith (a32 : Bool) (ovr : Option SegReg) : RM → Prop
  | .reg _ => True
  | .mem m => m.ea.is32 = a32 ∧ m.ovr = ovr

theorem parses_modRM {a32 : Bool} {ovr : Option SegReg} {rm : RM} (hwf : rm.wf = true) (h : rm.SpeltWith a32 ovr) (reg : BitVec 3) :
    Parses (nextModRM a32 ovr) (rm.toBytes reg) (reg, rm) := by
  cases rm with
  | reg r =>
    refine parses_tail ?_
    unfold nextRM
    rw [modOf_modrm, rmOf_modrm, if_pos (by decide), Reg.ofBits_toBits]
    exact parses_pure _
  | mem m =>
    obtain ⟨rfl, rfl⟩ := h
    exact parses_ea hwf m.ovr reg

/-! ## Opcodes (R75) -/

/-- An instruction made of a register and an operand. -/
theorem Parses.regRm {a32 : Bool} {ovr : Option SegReg} {bs : List Byte} {r : Reg} {rm : RM}
    (h : Parses (nextModRM a32 ovr) bs (r.toBits, rm)) (f : Reg → RM → Instr) :
    Parses (nextModRM a32 ovr >>= fun p => pure (f (Reg.ofBits p.1) p.2)) bs (f r rm) := by
  have h' := h.map (fun p => f (Reg.ofBits p.1) p.2)
  rwa [Reg.ofBits_toBits] at h'

theorem parses_group {op : Nat} {sz : OpSize} {a32 : Bool} {ovr : Option SegReg} {digit : BitVec 3} {rm : RM} {i : Instr}
    (h : Parses (nextModRM a32 ovr) (rm.toBytes digit) (digit, rm)) (hi : groupInstr op sz digit rm = some i) :
    Parses (nextGroup op sz a32 ovr) (rm.toBytes digit) i := by
  have hread : Parses (nextGroup op sz a32 ovr) (rm.toBytes digit ++ []) i := by
    refine h.bind ?_
    dsimp only
    rw [hi]
    exact parses_pure i
  rwa [List.append_nil] at hread

theorem append_and_high (high : BitVec 5) (lo : BitVec 3) : ((high ++ lo : BitVec 8) &&& 0xF8#8) = high ++ 0#3 := by decide +revert
@[simp] theorem rmOf_append (high : BitVec 5) (lo : BitVec 3) : rmOf (high ++ lo) = lo := by decide +revert

theorem parses_oneByte {op : Byte} {sz : OpSize} {a32 : Bool} {ovr : Option SegReg} {bs : List Byte} {i : Instr}
    (hop : [0x50#8, 0x58#8, 0xD8#8].contains (op &&& 0xF8#8) = false) (h : Parses (nextOneByte op.toNat sz a32 ovr) bs i) :
    Parses (nextInstr sz a32 ovr) (op :: bs) i := by
  have hnot : op &&& 0xF8#8 ≠ 0x50#8 ∧ op &&& 0xF8#8 ≠ 0x58#8 ∧ op &&& 0xF8#8 ≠ 0xD8#8 := by simpa using hop
  obtain ⟨hpush, hpop, hesc⟩ := hnot
  refine parses_cons ?_
  rwa [if_neg hpush, if_neg hpop, if_neg hesc]

theorem parses_twoByte {sz : OpSize} {a32 : Bool} {ovr : Option SegReg} {bs : List Byte} {i : Instr}
    (h : Parses (nextTwoByte sz a32 ovr) bs i) : Parses (nextInstr sz a32 ovr) (0x0F :: bs) i := parses_oneByte rfl h

theorem parses_pushReg (sz : OpSize) (a32 : Bool) (ovr : Option SegReg) (r : Reg) :
    Parses (nextInstr sz a32 ovr) [(0x0A#5 ++ r.toBits : BitVec 8)] (.pushReg sz r) := by
  refine parses_cons ?_
  rw [append_and_high, if_pos (by decide), rmOf_append, Reg.ofBits_toBits]
  exact parses_pure _

theorem parses_popReg (sz : OpSize) (a32 : Bool) (ovr : Option SegReg) (r : Reg) :
    Parses (nextInstr sz a32 ovr) [(0x0B#5 ++ r.toBits : BitVec 8)] (.popReg sz r) := by
  refine parses_cons ?_
  rw [append_and_high, if_neg (by decide), if_pos (by decide), rmOf_append, Reg.ofBits_toBits]
  exact parses_pure _

theorem parses_esc {sz : OpSize} {a32 : Bool} {ovr : Option SegReg} {bs : List Byte} {op reg : BitVec 3} {rm : RM}
    (h : Parses (nextModRM a32 ovr) bs (reg, rm)) : Parses (nextInstr sz a32 ovr) ((0x1B#5 ++ op : BitVec 8) :: bs) (.esc op reg rm) := by
  refine parses_cons ?_
  rw [append_and_high, if_neg (by decide), if_neg (by decide), if_pos (by decide), rmOf_append]
  exact h.map fun p => Instr.esc op p.1 p.2

theorem parses_movCrR (sz : OpSize) (a32 : Bool) (ovr : Option SegReg) (c : CtlReg) (r : Reg) :
    Parses (nextInstr sz a32 ovr) [0x0F, 0x22, modrm 3 c.toBits r.toBits] (.movCrR c r) := by
  refine parses_twoByte (parses_cons (parses_cons ?_))
  rw [regOf_modrm, rmOf_modrm, CtlReg.ofBits_toBits, Reg.ofBits_toBits]
  exact parses_pure _

theorem parses_movRCr (sz : OpSize) (a32 : Bool) (ovr : Option SegReg) (r : Reg) (c : CtlReg) :
    Parses (nextInstr sz a32 ovr) [0x0F, 0x20, modrm 3 c.toBits r.toBits] (.movRCr r c) := by
  refine parses_twoByte (parses_cons (parses_cons ?_))
  rw [regOf_modrm, rmOf_modrm, CtlReg.ofBits_toBits, Reg.ofBits_toBits]
  exact parses_pure _

/-- The body of an instruction is read back, at its own operand size and with the address size and override of its operand. -/
theorem parses_body {i : Instr} {sz : OpSize} {a32 : Bool} {ovr : Option SegReg} (hwf : i.wf = true) (hsz : ∀ z ∈ i.opSize?, z = sz)
    (hrm : ∀ rm ∈ i.rm?, rm.SpeltWith a32 ovr) : Parses (nextInstr sz a32 ovr) i.body i := by
  have hop : ∀ reg, ∀ rm ∈ i.rm?, Parses (nextModRM a32 ovr) (rm.toBytes reg) (reg, rm) := by
    intro reg rm h
    refine parses_modRM ?_ (hrm rm h) reg
    unfold Instr.wf at hwf
    rwa [h] at hwf
  cases i with
  | divRm8 rm | idivRm8 rm => exact parses_oneByte rfl (parses_group (hop _ rm rfl) rfl)
  | divRmv z rm | idivRmv z rm | jmpRmv z rm | jmpMem z rm | callRmv z rm | callMem z rm | pushRm z rm | popRm z rm =>
    obtain rfl := hsz z rfl
    exact parses_oneByte rfl (parses_group (hop _ rm rfl) rfl)
  | lldt rm => exact parses_twoByte (parses_cons (parses_group (hop _ rm rfl) rfl))
  | bound z r rm =>
    obtain rfl := hsz z rfl
    exact parses_oneByte rfl ((hop _ rm rfl).regRm (.bound z))
  | lds z r rm =>
    obtain rfl := hsz z rfl
    exact parses_oneByte rfl ((hop _ rm rfl).regRm (.lds z))
  | les z r rm =>
    obtain rfl := hsz z rfl
    exact parses_oneByte rfl ((hop _ rm rfl).regRm (.les z))
  | movRRm z r rm =>
    obtain rfl := hsz z rfl
    exact parses_oneByte rfl ((hop _ rm rfl).regRm (.movRRm z))
  | lss z r rm =>
    obtain rfl := hsz z rfl
    exact parses_twoByte (parses_cons ((hop _ rm rfl).regRm (.lss z)))
  | lfs z r rm =>
    obtain rfl := hsz z rfl
    exact parses_twoByte (parses_cons ((hop _ rm rfl).regRm (.lfs z)))
  | lgs z r rm =>
    obtain rfl := hsz z rfl
    exact parses_twoByte (parses_cons ((hop _ rm rfl).regRm (.lgs z)))
  | movSregRm n rm => exact parses_oneByte rfl ((hop n rm rfl).map fun p => Instr.movSregRm p.1 p.2)
  | movRmSreg rm n => exact parses_oneByte rfl ((hop n rm rfl).map fun p => Instr.movRmSreg p.2 p.1)
  | int3 | into | wait => exact parses_oneByte rfl (parses_pure _)
  | retf z | iret z | leave z | popEs z | popSs z | popDs z | pushEs z | pushCs z | pushSs z | pushDs z =>
    obtain rfl := hsz z rfl
    exact parses_oneByte rfl (parses_pure _)
  | popFs z | popGs z | pushFs z | pushGs z =>
    obtain rfl := hsz z rfl
    exact parses_twoByte (parses_cons (parses_pure _))
  | intImm n => exact parses_oneByte rfl ((parses_byte n).map _)
  | jmpRel8 z b | pushImm8 z b =>
    obtain rfl := hsz z rfl
    exact parses_oneByte rfl ((parses_byte b).map _)
  | retfImm z n =>
    obtain rfl := hsz z rfl
    exact parses_oneByte rfl ((parses_word n).map _)
  | enter z size level =>
    obtain rfl := hsz z rfl
    exact parses_oneByte rfl ((parses_word size).bind ((parses_byte level).map _))
  | jmpRelv d | callRelv d | pushImmv d =>
    obtain rfl := hsz _ rfl
    exact parses_oneByte rfl ((parses_immV d).map _)
  | jmpPtr o sel | callPtr o sel =>
    obtain rfl := hsz _ rfl
    exact parses_oneByte rfl ((parses_immV o).bind ((parses_word sel).map _))
  | esc op reg rm => exact parses_esc (hop reg rm rfl)
  | pushReg z r =>
    obtain rfl := hsz z rfl
    exact parses_pushReg z a32 ovr r
  | popReg z r =>
    obtain rfl := hsz z rfl
    exact parses_popReg z a32 ovr r
  | movCrR c r => exact parses_movCrR sz a32 ovr c r
  | movRCr r c => exact parses_movRCr sz a32 ovr r c

/-! ## The bytes before the opcode (R73, R74) -/

/-- The bytes that may precede an opcode (R73). -/
def leadBytes : List Byte := [0x66#8, 0x67#8, 0x26#8, 0x2E#8, 0x36#8, 0x3E#8, 0x64#8, 0x65#8, 0xF0#8, 0xF2#8, 0xF3#8]

theorem leadByte_eq_none {b : Byte} (h : leadBytes.contains b = false) (l : Lead) : leadByte l b = none := by
  have hnot : b ∉ leadBytes := by simpa using h
  simp only [leadBytes, List.mem_cons, List.not_mem_nil, or_false, not_or] at hnot
  simp [leadByte, hnot]

theorem splitLead_opcode {b : Byte} (h : leadBytes.contains b = false) (l : Lead) (bs : List Byte) : splitLead l (b :: bs) = (l, b :: bs) := by
  unfold splitLead
  rw [leadByte_eq_none h l]

theorem leadBytes_append {high : BitVec 5} (h : high ∈ [0x0A#5, 0x0B#5, 0x1B#5]) (lo : BitVec 3) :
    leadBytes.contains (high ++ lo : BitVec 8) = false := by
  decide +revert

/-- No opcode of the map is one of the bytes that may precede it. -/
theorem body_opens (i : Instr) : ∃ b bs, i.body = b :: bs ∧ leadBytes.contains b = false := by
  cases i with
  | esc op reg rm => exact ⟨_, _, rfl, leadBytes_append (by decide) op⟩
  | pushReg z r | popReg z r => exact ⟨_, _, rfl, leadBytes_append (by decide) r.toBits⟩
  | _ => exact ⟨_, _, rfl, rfl⟩

/-- Whether an operand size needs the byte 66 in a segment of default size `d32`. -/
def sizeSwitched (d32 : Bool) : Option OpSize → Bool
  | some .s16 => d32
  | some .s32 => !d32
  | none => false

/-- Whether an operand's address needs the byte 67 in a segment of default size `d32`. -/
def addrSwitched (d32 : Bool) : Option RM → Bool
  | some (.mem m) => m.ea.is32 != d32
  | _ => false

/-- The segment override of an operand. -/
def overrideOf : Option RM → Option SegReg
  | some (.mem m) => m.ovr
  | _ => none

theorem splitLead_opLead (d32 : Bool) (o : Option OpSize) (bs : List Byte) :
    splitLead {} (opLead d32 o ++ bs) = splitLead { op66 := sizeSwitched d32 o } bs := by
  cases o with
  | none => rfl
  | some z => cases z <;> cases d32 <;> rfl

theorem splitLead_segLead (op66 ad67 : Bool) (o : Option SegReg) (bs : List Byte) :
    splitLead { op66 := op66, ad67 := ad67 } (segLead o ++ bs) = splitLead { op66 := op66, ad67 := ad67, ovr := o } bs := by
  cases o with
  | none => rfl
  | some g => cases g <;> rfl

theorem splitLead_addrLead (op66 c : Bool) (bs : List Byte) :
    splitLead { op66 := op66 } ((if c then [0x67] else []) ++ bs) = splitLead { op66 := op66, ad67 := c } bs := by
  cases c <;> rfl

theorem splitLead_rmLead (d32 op66 : Bool) (o : Option RM) (bs : List Byte) :
    splitLead { op66 := op66 } (rmLead d32 o ++ bs) = splitLead { op66 := op66, ad67 := addrSwitched d32 o, ovr := overrideOf o } bs := by
  match o with
  | none | some (.reg _) => rfl
  | some (.mem m) =>
    unfold rmLead
    rw [List.append_assoc, splitLead_addrLead, splitLead_segLead]
    rfl

/-- What the bytes before an instruction's opcode ask for. -/
def leadOf (d32 : Bool) (i : Instr) : Lead where
  op66 := sizeSwitched d32 i.opSize?
  ad67 := addrSwitched d32 i.rm?
  ovr := overrideOf i.rm?

/-- The decoder finds the opcode behind the bytes that the encoder put before it. -/
theorem splitLead_encode (d32 : Bool) (i : Instr) (rest : List Byte) : splitLead {} (encode d32 i ++ rest) = (leadOf d32 i, i.body ++ rest) := by
  obtain ⟨b, bs, hbody, hb⟩ := body_opens i
  unfold encode
  rw [List.append_assoc, List.append_assoc, splitLead_opLead, splitLead_rmLead, hbody]
  exact splitLead_opcode hb _ _

theorem leadOf_opSize (d32 : Bool) (i : Instr) : ∀ z ∈ i.opSize?, z = (leadOf d32 i).opSize d32 := by
  intro z hz
  have ho : i.opSize? = some z := hz
  unfold leadOf Lead.opSize
  rw [ho]
  cases z <;> cases d32 <;> rfl

theorem leadOf_spelt (d32 : Bool) (i : Instr) : ∀ rm ∈ i.rm?, rm.SpeltWith ((leadOf d32 i).addr32 d32) (leadOf d32 i).ovr := by
  intro rm hrm
  have ho : i.rm? = some rm := hrm
  unfold leadOf Lead.addr32
  rw [ho]
  cases rm with
  | reg r => trivial
  | mem m => exact ⟨by simp [addrSwitched], rfl⟩

/-- Settles O8: the bytes before the opcode give the sizes and the override back, and the opcode with what follows gives the instruction. -/
theorem decodeReadsEncoded : Obligations.DecodeReadsEncoded := by
  intro d32 i rest hwf
  have hbody : Parses (nextInstr ((leadOf d32 i).opSize d32) ((leadOf d32 i).addr32 d32) (leadOf d32 i).ovr) i.body i :=
    parses_body hwf (leadOf_opSize d32 i) (leadOf_spelt d32 i)
  unfold decode
  rw [splitLead_encode]
  exact hbody rest

/-- Bytes that are an instruction's encoding decode to it, with none left. -/
theorem decode_of_encode {d32 : Bool} {i : Instr} {bs : List Byte} (hwf : i.wf = true) (hbs : encode d32 i = bs) : decode d32 bs = .ok (i, []) := by
  have h := decodeReadsEncoded d32 i [] hwf
  rwa [List.append_nil, hbs] at h

/-- Settles O9: each of the words is the encoding of its instruction. -/
theorem wordsDecodeAsTheTableSays : Obligations.WordsDecodeAsTheTableSays := by
  unfold Obligations.WordsDecodeAsTheTableSays
  refine ⟨?_, ?_, ?_, ?_, ?_, ?_, ?_, ?_, ?_, ?_, ?_, ?_, ?_, ?_⟩ <;> exact decode_of_encode rfl rfl

end Sys2Proof
end

section
/-! PROOFS. Scope: bytes that are no whole instruction. -/

namespace Sys2Proof.Machine

/-- Bytes that can be fetched but are no whole instruction end the fetch with exception 13 (R73). -/
theorem fetchDecode_more {s : State} {bs : List Byte} (hcs : s.segs.cs.checked = true)
    (hf : fetchBytes s s.segs.cs.desc Config.maxInstrLen 0 = (bs, none)) (hd : decode s.segs.cs.desc.big bs = .error .more) :
    fetchDecode s = .error (.exc (.generalProtection 0)) s := by
  unfold fetchDecode
  rw [bind_ok (segView_ok (seg := .cs) hcs), bind_ok (look_run id s)]
  simp only [SegRegs.get, id_eq, hf, hd]
  rfl

/-- An exception of the fetch is a fault at the instruction. -/
theorem stepInstr_exc {s t : State} {e : Exc} (h : fetchDecode s = .error (.exc e) t) : stepInstr s = reportFault (cutOff s t) e := by
  unfold stepInstr
  rw [h]

/-- Settles O11: the decoder asks for a sixteenth byte, also after fifteen bytes 66. -/
theorem lengthLimitFaults : Obligations.LengthLimitFaults := by
  refine ⟨fun s bs hcs hf hd => ?_, fun d32 => ?_⟩
  · exact stepInstr_exc (fetchDecode_more (s := s.begin) hcs hf hd)
  · have hsplit : splitLead {} (List.replicate 15 0x66) = ({ op66 := true }, []) := rfl
    unfold decode
    rw [hsplit]
    rfl

end Sys2Proof.Machine
end

section
/-! PROOFS. Scope: near JMP and CALL, and operands of a type the opcode does not allow. -/

namespace Sys2Proof.Machine

section
variable {s : State} {t : Word32} {sz : OpSize}

/-- A target in the limit of CS passes the test that comes first in a near transfer. -/
theorem codeLimit_ok {m : M Unit} (hc : s.segs.cs.checked = true) (ht : t.toNat ≤ s.segs.cs.desc.limit.toNat) :
    (segView .cs >>= fun d => require (decide (t.toNat ≤ d.limit.toNat)) (.generalProtection 0) >>= fun _ => m) s = m s := by
  have hview : segView .cs s = .ok s.segs.cs.desc s := segView_ok (seg := .cs) hc
  rw [bind_ok hview, decide_eq_true ht, bind_ok (require_true _ _)]

theorem codeLimit_outside {m : M Unit} (hc : s.segs.cs.checked = true) (ht : s.segs.cs.desc.limit.toNat < t.toNat) :
    (segView .cs >>= fun d => require (decide (t.toNat ≤ d.limit.toNat)) (.generalProtection 0) >>= fun _ => m) s =
      .error (.exc (.generalProtection 0)) s := by
  have hview : segView .cs s = .ok s.segs.cs.desc s := segView_ok (seg := .cs) hc
  rw [bind_ok hview, decide_eq_false (Nat.not_le.mpr ht), bind_error (require_false _ _)]

theorem jumpNear_outside (hc : s.segs.cs.checked = true) (ht : s.segs.cs.desc.limit.toNat < t.toNat) :
    jumpNear t s = .error (.exc (.generalProtection 0)) s :=
  codeLimit_outside hc ht

theorem callNear_ok (hc : s.segs.cs.checked = true) (ht : t.toNat ≤ s.segs.cs.desc.limit.toNat) (hp : s.canPush sz = true) :
    callNear sz t s = .ok () ((s.pushed sz s.nextEip).jump t) := by
  refine (codeLimit_ok hc ht).trans ?_
  rw [bind_ok (look_run _ _), bind_ok (push_ok hp _), change_run]

theorem callNear_outside (hc : s.segs.cs.checked = true) (ht : s.segs.cs.desc.limit.toNat < t.toNat) :
    callNear sz t s = .error (.exc (.generalProtection 0)) s :=
  codeLimit_outside hc ht

theorem exec_jmpRmv {rm : RM} (h : s.begin.rmReadable sz.bytes rm = true) :
    exec (.jmpRmv sz rm) s = runInstr (jumpNear (s.begin.rmValue sz rm)) s :=
  runInstr_congr (bind_ok (readRM_ok h))

theorem exec_callRmv {rm : RM} (h : s.begin.rmReadable sz.bytes rm = true) :
    exec (.callRmv sz rm) s = runInstr (callNear sz (s.begin.rmValue sz rm)) s :=
  runInstr_congr (bind_ok (readRM_ok h))

end

/-- Settles O38: each form goes to its target by the same transfer, which tests the limit of CS first. -/
theorem jmpNearGoesToTarget : Obligations.JmpNearGoesToTarget := by
  intro s i t hready hcs hform
  have hc : s.begin.segs.cs.checked = true := hcs
  have hexec : exec i s = runInstr (jumpNear t) s := by
    rcases hform with ⟨sz, d, rfl, rfl⟩ | ⟨w, rfl, rfl⟩ | ⟨w, rfl, rfl⟩ | ⟨sz, rm, rfl, hread, rfl⟩
    · rfl
    · rfl
    · rfl
    · exact exec_jmpRmv hread
  refine ⟨fun ht => ⟨?_, fun _ _ => rfl⟩, fun ht => ?_⟩
  · rw [hexec]
    exact runInstr_ok hready (jumpNear_ok hc ht)
  · exact hexec.trans (runInstr_raise hready (jumpNear_outside hc ht))

/-- Settles O39: each form calls its target by the same transfer, which tests the limit of CS before it pushes. -/
theorem callNearPushesAndGoes : Obligations.CallNearPushesAndGoes := by
  intro s i sz t hready hcs hform
  have hc : s.begin.segs.cs.checked = true := hcs
  have hexec : exec i s = runInstr (callNear sz t) s := by
    rcases hform with ⟨w, rfl, rfl, rfl⟩ | ⟨w, rfl, rfl, rfl⟩ | ⟨rm, rfl, hread, rfl⟩
    · rfl
    · rfl
    · exact exec_callRmv hread
  refine ⟨fun ht hp => ⟨?_, fun a ha => ?_⟩, fun ht => ?_⟩
  · rw [hexec]
    exact runInstr_ok hready (callNear_ok hc ht hp)
  · exact read_pushed_other s.begin sz s.nextEip ha
  · exact hexec.trans (runInstr_raise hready (callNear_outside hc ht))

/-! ## Operands of a type the opcode does not allow (R78) -/

theorem memOnly_reg {r : Reg} {rm : RM} (h : .reg r = rm) (s : State) : memOnly rm s = .error (.exc .invalidOpcode) s := by
  rw [← h]
  rfl

theorem movSregRm_unnamed {s : State} {n : BitVec 3} {rm : RM} (hready : s.ready) (h : SegReg.ofBits n = none ∨ SegReg.ofBits n = some .cs) :
    Faults (.movSregRm n rm) s .invalidOpcode := by
  refine runInstr_raise hready ?_
  rcases h with h | h
  · rw [h]
    rfl
  · rw [h]
    rfl

theorem movRmSreg_unnamed {s : State} {n : BitVec 3} {rm : RM} (hready : s.ready) (h : SegReg.ofBits n = none) :
    Faults (.movRmSreg rm n) s .invalidOpcode := by
  refine runInstr_raise hready ?_
  rw [h]
  rfl

/-- Settles O54: the operand's type is judged before anything is read or written. -/
theorem invalidOperandFaults : Obligations.InvalidOperandFaults := by
  refine ⟨fun s i hready hform => ?_, rfl, rfl, rfl⟩
  rcases hform with ⟨_, r, rfl⟩ | ⟨_, r, rfl⟩ | ⟨_, _, r, rfl⟩ | ⟨_, _, r, rfl⟩ | ⟨_, _, r, rfl⟩ | ⟨_, _, r, rfl⟩ | ⟨_, _, r, rfl⟩ |
    ⟨_, _, r, rfl⟩ | ⟨rm, rfl | rfl | rfl⟩ | ⟨rm, rfl | rfl⟩
  -- the operand gets a name, so that the meaning does not run while it is matched
  iterate 8
    generalize hrm : RM.reg r = rm
    refine runInstr_raise hready ?_
    exact bind_error (memOnly_reg hrm s.begin)
  · exact movSregRm_unnamed hready (.inr rfl)
  · exact movSregRm_unnamed hready (.inl rfl)
  · exact movSregRm_unnamed hready (.inl rfl)
  · exact movRmSreg_unnamed hready rfl
  · exact movRmSreg_unnamed hready rfl

end Sys2Proof.Machine
end

section
/-! PROOFS. Scope: DIV and IDIV, INT 3, INT n and INTO entering their handler, BOUND. -/

namespace Sys2Proof.Machine

/-! ## Instructions that store nothing, or fault at once -/

/-- An instruction whose body answers with memory as it was completes, storing nowhere. -/
theorem completes_of_run {i : Instr} {body : M Unit} {s t : State} (hready : s.ready) (hexec : exec i s = runInstr body s)
    (hrun : body s.begin = .ok () t) (hmem : t.mem = s.mem) : Completes i s t.settle [] :=
  ⟨hexec.trans (runInstr_ok hready hrun), fun a _ => congrArg (Memory.read · a) hmem⟩

theorem faults_of_raise {i : Instr} {body : M Unit} {s : State} {e : Exc} (hready : s.ready) (hexec : exec i s = runInstr body s)
    (hraise : body s.begin = .error (.exc e) s.begin) : Faults i s e :=
  hexec.trans (runInstr_raise hready hraise)

/-! ## The results of a division (R90, R91) -/

theorem divUnsigned_fits {w : DivWidth} {n d : Nat} (hd : d ≠ 0) (hq : n / d < 2 ^ w.bits) :
    divUnsigned w n d = some (BitVec.ofNat 32 (n / d), BitVec.ofNat 32 (n % d)) := by
  rw [divUnsigned, if_neg hd, if_pos hq]

theorem divUnsigned_none {w : DivWidth} {n d : Nat} (h : d = 0 ∨ 2 ^ w.bits ≤ n / d) : divUnsigned w n d = none := by
  rcases h with hd | hq
  · rw [divUnsigned, if_pos hd]
  · rw [divUnsigned, if_neg (Nat.not_lt.mpr hq), ite_self]

section
variable {w : DivWidth} {n d : Int}

theorem divSigned_result (hd : d ≠ 0) (hlow : -(2 ^ (w.bits - 1)) < n.tdiv d) (hhigh : n.tdiv d < 2 ^ (w.bits - 1)) :
    divSigned w n d = .result (BitVec.ofInt 32 (n.tdiv d)) (BitVec.ofInt 32 (n.tmod d)) := by
  have hfits : ¬(2 ^ (w.bits - 1) ≤ n.tdiv d ∨ n.tdiv d < -(2 ^ (w.bits - 1))) := not_or.mpr ⟨hhigh.not_ge, hlow.not_gt⟩
  rw [divSigned, if_neg hd]
  dsimp only
  rw [if_neg hfits, if_neg hlow.ne']

theorem divSigned_either (hd : d ≠ 0) (hq : n.tdiv d = -(2 ^ (w.bits - 1))) :
    divSigned w n d = .either (BitVec.ofInt 32 (n.tdiv d)) (BitVec.ofInt 32 (n.tmod d)) := by
  have hpos : (0 : Int) < 2 ^ (w.bits - 1) := Int.pow_pos (by decide)
  have hfits : ¬(2 ^ (w.bits - 1) ≤ n.tdiv d ∨ n.tdiv d < -(2 ^ (w.bits - 1))) := by omega
  rw [divSigned, if_neg hd]
  dsimp only
  rw [if_neg hfits, if_pos hq]

theorem divSigned_fault (h : d = 0 ∨ 2 ^ (w.bits - 1) ≤ n.tdiv d ∨ n.tdiv d < -(2 ^ (w.bits - 1))) : divSigned w n d = .fault := by
  rcases h with hd | hq
  · rw [divSigned, if_pos hd]
  · rw [divSigned]
    dsimp only
    rw [if_pos hq, ite_self]

end

/-! ## Dividing by a value already read -/

@[simp] theorem State.setQuotRem_mem (s : State) (w : DivWidth) (q r : Word32) : (s.setQuotRem w q r).mem = s.mem := by cases w <;> rfl

/-- The state after a division: the results written, the flags open, EIP at the next instruction (R90). -/
theorem finishDiv_run (w : DivWidth) (q r : Word32) (s : State) : finishDiv w q r s = .ok () (s.setQuotRem w q r).flagsOpened.advance := rfl

section
variable {s : State} {w : DivWidth} {v : Word32}

theorem divideBy_ok (hd : v.toNat ≠ 0) (hq : dividend s w / v.toNat < 2 ^ w.bits) :
    divideBy w v s = .ok ()
      (s.setQuotRem w (BitVec.ofNat 32 (dividend s w / v.toNat)) (BitVec.ofNat 32 (dividend s w % v.toNat))).flagsOpened.advance := by
  rw [divideBy, bind_ok (look_run _ _), divUnsigned_fits hd hq]
  exact finishDiv_run ..

theorem divideBy_fault (h : v.toNat = 0 ∨ 2 ^ w.bits ≤ dividend s w / v.toNat) : divideBy w v s = .error (.exc .divideError) s := by
  rw [divideBy, bind_ok (look_run _ _), divUnsigned_none h]
  rfl

theorem idivideBy_ok {q r : Word32} (h : divSigned w (signed (2 * w.bits) (dividend s w)) (signed w.bits v.toNat) = .result q r) :
    idivideBy w v s = .ok () (s.setQuotRem w q r).flagsOpened.advance := by
  rw [idivideBy, bind_ok (look_run _ _), h]
  exact finishDiv_run ..

/-- At the most negative quotient an open choice delivers the results or raises exception 0 (D11). -/
theorem idivideBy_either {q r : Word32} (h : divSigned w (signed (2 * w.bits) (dividend s w)) (signed w.bits v.toNat) = .either q r) :
    idivideBy w v s = if Config.freeBit s.freeCtr = true then .ok () (s.drawn.setQuotRem w q r).flagsOpened.advance
      else .error (.exc .divideError) s.drawn := by
  rw [idivideBy, bind_ok (look_run _ _), h]
  dsimp only
  rw [bind_ok (drawBit_run _)]
  cases Config.freeBit s.freeCtr with
  | true =>
    rw [bind_ok (require_true _ _)]
    exact finishDiv_run ..
  | false => exact bind_error (require_false _ _)

theorem idivideBy_fault (h : divSigned w (signed (2 * w.bits) (dividend s w)) (signed w.bits v.toNat) = .fault) :
    idivideBy w v s = .error (.exc .divideError) s := by
  rw [idivideBy, bind_ok (look_run _ _), h]
  rfl

end

/-! ## DIV and IDIV -/

section
variable {s : State} {i : Instr} {w : DivWidth} {rm : RM} {v : Word32}

/-- DIV of either form is an unsigned division by the operand's value. -/
theorem exec_div (h : (i = .divRm8 rm ∧ w = .b8 ∧ s.begin.rmReadable 1 rm = true ∧ v = s.begin.rmValue8 rm) ∨
    (∃ sz, i = .divRmv sz rm ∧ w = divWidth sz ∧ s.begin.rmReadable sz.bytes rm = true ∧ v = s.begin.rmValue sz rm)) :
    exec i s = runInstr (divideBy w v) s := by
  rcases h with ⟨rfl, rfl, hread, rfl⟩ | ⟨sz, rfl, rfl, hread, rfl⟩
  · exact runInstr_congr (bind_ok (readRM8_ok hread))
  · exact runInstr_congr (bind_ok (readRM_ok hread))

/-- IDIV of either form is a signed division by the operand's value. -/
theorem exec_idiv (h : (i = .idivRm8 rm ∧ w = .b8 ∧ s.begin.rmReadable 1 rm = true ∧ v = s.begin.rmValue8 rm) ∨
    (∃ sz, i = .idivRmv sz rm ∧ w = divWidth sz ∧ s.begin.rmReadable sz.bytes rm = true ∧ v = s.begin.rmValue sz rm)) :
    exec i s = runInstr (idivideBy w v) s := by
  rcases h with ⟨rfl, rfl, hread, rfl⟩ | ⟨sz, rfl, rfl, hread, rfl⟩
  · exact runInstr_congr (bind_ok (readRM8_ok hread))
  · exact runInstr_congr (bind_ok (readRM_ok hread))

/-- DIV with a quotient that fits. -/
theorem completes_div (hready : s.ready) (hexec : exec i s = runInstr (divideBy w v) s) (hd : v.toNat ≠ 0)
    (hq : dividend s.begin w / v.toNat < 2 ^ w.bits) :
    Completes i s (s.begin.setQuotRem w (BitVec.ofNat 32 (dividend s.begin w / v.toNat))
      (BitVec.ofNat 32 (dividend s.begin w % v.toNat))).flagsOpened.advance.settle [] :=
  completes_of_run hready hexec (divideBy_ok hd hq) (State.setQuotRem_mem ..)

end

theorem divWidth_bits (sz : OpSize) : (divWidth sz).bits = sz.bits := by cases sz <;> rfl

/-- Settles O26: the divisor is read, the quotient fits, and the results are written. -/
theorem divCompletes : Obligations.DivCompletes := by
  intro s rm hready
  refine ⟨fun hread hd hq => ?_, fun sz hread hd hq => ?_⟩
  · exact completes_div hready (exec_div (.inl ⟨rfl, rfl, hread, rfl⟩)) hd hq
  · exact completes_div hready (exec_div (.inr ⟨sz, rfl, rfl, hread, rfl⟩)) hd (by rwa [divWidth_bits])

/-- Settles O27: a quotient above the most negative value is written; at that value the draw decides. -/
theorem idivCompletes : Obligations.IdivCompletes := by
  intro s i w rm v hready hform n d q r
  have hexec := exec_idiv hform
  refine ⟨fun hd hlow hhigh => ?_, fun hd hq => ?_⟩
  · exact completes_of_run hready hexec (idivideBy_ok (divSigned_result hd hlow hhigh)) (State.setQuotRem_mem ..)
  · have hrun : idivideBy w v s.begin = _ := idivideBy_either (divSigned_either hd hq)
    split
    · next hbit => exact completes_of_run hready hexec (hrun.trans (if_pos hbit)) (State.setQuotRem_mem ..)
    · next hbit => exact hexec.trans (runInstr_exc hready (hrun.trans (if_neg hbit)))

/-- Settles O28: both divisions test their divisor and their quotient before they write anything. -/
theorem divideErrorFaults : Obligations.DivideErrorFaults := by
  refine ⟨fun s i w rm v hready hform hbad => ?_, fun s i w rm v hready hform hbad => ?_, rfl, rfl, rfl⟩
  · exact faults_of_raise hready (exec_div hform) (divideBy_fault hbad)
  · exact faults_of_raise hready (exec_idiv hform) (idivideBy_fault (divSigned_fault hbad))

/-! ## INT 3, INT n and INTO -/

theorem runTrap_ready {s : State} (ev : Event) (h : s.ready) : runTrap ev s = report reportFuel s.begin s.begin.advance ev := by
  unfold runTrap
  rw [ready_modeRefusal h]

theorem exec_into_set {s : State} (h : s.flag flagOF = true) : exec .into s = runTrap (.exc .overflow) s := if_pos h

theorem exec_into_clear {s : State} (h : s.flag flagOF = false) : exec .into s = runInstr (change State.advance) s :=
  if_neg (by rw [h]; decide)

/-- The events that an instruction asks for itself. -/
theorem software_cases {ev : Event} (h : ev.software = true) : ev = .exc .breakpoint ∨ (∃ n, ev = .soft n) ∨ ev = .exc .overflow := by
  cases ev with
  | soft n => exact .inr (.inl ⟨n, rfl⟩)
  | exc e =>
    cases e with
    | breakpoint => exact .inl rfl
    | overflow => exact .inr (.inr rfl)
    | _ => cases h
  | _ => cases h

/-- INT 3, INT n and INTO with OF set report an event of their own. -/
theorem exec_trap {s : State} {i : Instr} {ev : Event}
    (h : (i = .int3 ∧ ev = .exc .breakpoint) ∨ (∃ n, i = .intImm n ∧ ev = .soft n) ∨ (i = .into ∧ s.flag flagOF = true ∧ ev = .exc .overflow)) :
    exec i s = runTrap ev s ∧ ev.software = true := by
  rcases h with ⟨rfl, rfl⟩ | ⟨n, rfl, rfl⟩ | ⟨rfl, hof, rfl⟩
  · exact ⟨rfl, rfl⟩
  · exact ⟨rfl, rfl⟩
  · exact ⟨exec_into_set hof, rfl⟩

section
variable {ev : Event} (h : ev.software = true)
include h

/-- An event that an instruction asks for pushes no error code, is no abort, and leaves its instruction complete (R132, R179, R197). -/
theorem software_trap : ev.errCode = .none ∧ ev.isAbort = false ∧ ev.kind = .plain ∧ ∀ ec, ev ≠ .exc (.invalidTss ec) := by
  rcases software_cases h with rfl | ⟨n, rfl⟩ | rfl
  all_goals exact ⟨rfl, rfl, rfl, nofun⟩

theorem faced_software (s : State) : s.faced ev = s := by
  obtain ⟨-, habort, -⟩ := software_trap h
  rw [State.faced, habort, if_neg (by decide)]

/-- It saves the CS:EIP of the state it is reported in. -/
theorem attempt_eventPc_software (s : State) : (s.attempt ev).eventPc ev = (s.segs.cs.sel, s.eip) := by
  rcases software_cases h with rfl | ⟨n, rfl⟩ | rfl
  all_goals rfl

end

/-- Settles O29: the instruction completes, and its event enters the handler from there (O17). -/
theorem intEntersHandler : Obligations.IntEntersHandler := by
  intro s i ev h hready hform
  obtain ⟨hexec, hsoft⟩ := exec_trap hform
  obtain ⟨hcode, -, hkind, hnotTss⟩ := software_trap hsoft
  refine ⟨hcode, ?_⟩
  intro b pc hh hp
  have hfaced : b.faced ev = b := faced_software hsoft b
  have hpc : b.eventPc ev = pc := attempt_eventPc_software hsoft s.begin.advance
  obtain ⟨hgate, -⟩ := eventEntersHandler 4 s.begin s.begin.advance ev hready.2
  rw [hfaced, hsoft, hpc, hkind] at hgate
  obtain ⟨-, hreport, hmem, -⟩ := hgate h hh hp
  exact ⟨(hexec.trans (runTrap_ready ev hready)).trans (hreport hnotTss), hmem⟩

/-- Settles O31: INTO looks at OF alone. -/
theorem intoGoesOn : Obligations.IntoGoesOn := fun _ hready hof => completes_of_run hready (exec_into_clear hof) (change_run _ _) rfl

/-! ## BOUND -/

/-- What BOUND does once both limits are read (R95). -/
theorem exec_bound {s : State} {sz : OpSize} {r : Reg} {m : MemOp} (hlow : s.begin.memReadable m 0 sz.bytes = true)
    (hhigh : s.begin.memReadable m (BitVec.ofNat 32 sz.bytes) sz.bytes = true) :
    exec (.bound sz r (.mem m)) s = runInstr (do
      require (decide (signedOf sz (s.begin.memLoaded m 0 sz.bytes) ≤ signedOf sz (s.begin.reg sz r)) &&
        decide (signedOf sz (s.begin.reg sz r) ≤ signedOf sz (s.begin.memLoaded m (BitVec.ofNat 32 sz.bytes) sz.bytes))) .boundsCheck
      change State.advance) s :=
  runInstr_congr ((bind_ok (opRead_ok hlow)).trans (bind_ok (opRead_ok hhigh)))

/-- Settles O32: with both limits read the index is the only test. -/
theorem boundChecksIndex : Obligations.BoundChecksIndex := by
  intro s sz r m hready hlow hhigh idx lower upper
  have hexec := exec_bound (r := r) hlow hhigh
  refine ⟨fun hl hu => ?_, fun hout => ?_, rfl, rfl, rfl⟩
  · refine completes_of_run hready hexec (t := s.begin.advance) ?_ rfl
    rw [decide_eq_true hl, decide_eq_true hu]
    rfl
  · refine faults_of_raise hready hexec (bind_error ?_)
    rw [← Bool.decide_and, decide_eq_false (by omega)]
    rfl

end Sys2Proof.Machine
end

section
/-! PROOFS. Scope: the ERROR# pin: exception 16 at ESC and WAIT, and a WAIT that goes on. -/

namespace Sys2Proof.Machine

/-! ## ESC -/

/-- An ESC that tests the pin stops there, if exception 7 did not stop it (R100). -/
theorem escErrorPin_raise {s : State} {op reg : BitVec 3} {rm : RM} (hpin : s.errorPin = true) (hcheck : Config.checksError op reg rm = true) :
    escErrorPin op reg rm s = .error (.exc .coprocError) s := by
  unfold escErrorPin
  rw [bind_ok (look_run _ _), id_eq, hpin, hcheck]
  rfl

theorem esc_faults_of_errorPin {s : State} {op reg : BitVec 3} {rm : RM} (hready : s.ready) (hem : s.em = false) (hts : s.ts = false)
    (hpin : s.errorPin = true) (hcheck : Config.checksError op reg rm = true) : Faults (.esc op reg rm) s .coprocError :=
  faults_of_raise hready (exec_esc op reg rm s)
    ((bind_ok (escAvailable_ok (s := s.begin) hem hts)).trans (bind_error (escErrorPin_raise hpin hcheck)))

/-- A register form that does not test the pin has no operand to move. -/
theorem exec_esc_reg_unchecked {s : State} {op reg : BitVec 3} {r : Reg} (hready : s.ready) (hem : s.em = false) (hts : s.ts = false)
    (hcheck : Config.checksError op reg (.reg r) = false) (hc : s.coproc ≠ .none) :
    exec (.esc op reg (.reg r)) s = .next s.begin.takeNpxAx.advance.settle :=
  (exec_esc_eq_move hem hts (by rw [hcheck, Bool.and_false])).trans
    (runInstr_ok hready (escMove_ok hc (escTransfer_none (.inl ⟨r, rfl⟩))))

/-! ## WAIT -/

/-- With MP or TS clear the pin is the only test left to WAIT (R101). -/
theorem exec_wait_available {s : State} (h : s.mp = false ∨ s.ts = false) :
    exec .wait s = runInstr (require (!(!s.em && s.errorPin)) .coprocError >>= fun _ => change State.advance) s := by
  have havail : require (!(s.mp && s.ts)) .coprocNotAvailable s.begin = .ok () s.begin := by
    rcases h with h | h <;> simp [h]
  exact runInstr_congr ((bind_ok (look_run _ _)).trans (bind_ok havail))

/-- Settles O35: with exception 7 ruled out the pin is the next test, of ESC and of WAIT. -/
theorem coprocessorErrorFaults : Obligations.CoprocessorErrorFaults := by
  refine ⟨fun s op reg rm hready hem hts hpin => ⟨esc_faults_of_errorPin hready hem hts hpin, fun r hrm hc => ?_⟩,
    fun s hready havail hem hpin => ?_, rfl, rfl, rfl⟩
  · subst hrm
    split
    case isTrue hcheck => exact esc_faults_of_errorPin hready hem hts hpin hcheck
    case isFalse hcheck => exact exec_esc_reg_unchecked hready hem hts (Bool.eq_false_of_not_eq_true hcheck) hc
  · refine faults_of_raise hready (exec_wait_available havail) (bind_error ?_)
    rw [hem, hpin]
    rfl

/-- Settles O37: past the test for exception 7, EM set or ERROR# not asserted passes the test of the pin. -/
theorem waitCompletes : Obligations.WaitCompletes := by
  intro s hready havail hpin
  have hpass : (!(!s.em && s.errorPin)) = true := by rcases hpin with h | h <;> simp [h]
  refine completes_of_run hready (exec_wait_available havail) (t := s.begin.advance) ?_ rfl
  rw [hpass]
  rfl

end Sys2Proof.Machine
end

section
/-! PROOFS. Scope: what a loaded segment register or stack pointer leaves alone, a far pointer's read, an attempt that stored nothing. -/

namespace Sys2Proof.Machine

/-! ## `State.withSeg` and `State.withSp` -/

@[simp] theorem State.withSeg_mem (s : State) (seg : SegReg) (v : SegState) : (s.withSeg seg v).mem = s.mem := rfl
@[simp] theorem State.withSeg_switching (s : State) (seg : SegReg) (v : SegState) : (s.withSeg seg v).switching = s.switching := rfl
@[simp] theorem State.withSeg_journal (s : State) (seg : SegReg) (v : SegState) : (s.withSeg seg v).journal = s.journal := rfl
@[simp] theorem State.withSeg_freeCtr (s : State) (seg : SegReg) (v : SegState) : (s.withSeg seg v).freeCtr = s.freeCtr := rfl
@[simp] theorem State.withSeg_eflags (s : State) (seg : SegReg) (v : SegState) : (s.withSeg seg v).eflags = s.eflags := rfl
@[simp] theorem State.withSp_switching (s : State) (v : Word32) : (s.withSp v).switching = s.switching := State.setReg_switching ..
@[simp] theorem State.withSp_journal (s : State) (v : Word32) : (s.withSp v).journal = s.journal := State.setReg_journal ..
@[simp] theorem State.withSp_eflags (s : State) (v : Word32) : (s.withSp v).eflags = s.eflags := State.setReg_eflags ..

/-! ## Reads and attempts -/

theorem ss_checked_of_canPop {s : State} {off : Word32} {n : Nat} (h : s.canPop off n = true) : s.segs.ss.checked = true := by
  simp only [State.canPop, Bool.and_eq_true] at h
  exact h.1

theorem readDesc_outside {s : State} {e : Exc} {sel : Word16} (h : descAddr s sel = none) : readDesc e sel s = .error (.exc e) s := by
  unfold readDesc
  rw [h]

/-- A far pointer in memory is read, and its parts are handed on (R76). -/
theorem farOperand_ok {α : Type} {s : State} {sz : OpSize} {m : MemOp} (h : s.farReadable sz m = true) (f : Word32 × Word16 → M α) :
    (memOnly (.mem m) >>= fun m => readFar sz m >>= f) s = f (s.farOff sz m, s.farSel sz m) s := by
  have hmem : memOnly (.mem m) s = .ok m s := rfl
  rw [bind_ok hmem, bind_ok (readFar_ok h)]

/-- An attempt that has stored nothing and entered no task leaves the registers as they were and the open values it drew (R131). -/
theorem cutOff_begin {s t : State} (hswitch : t.switching = .idle) (hjournal : t.journal = []) :
    cutOff s.begin t = { s.begin with freeCtr := t.freeCtr } := by
  unfold cutOff rollback
  rw [hswitch, hjournal]
  rfl

end Sys2Proof.Machine
end

section
/-! PROOFS. Scope: NMI and external interrupts at an instruction boundary. -/

namespace Sys2Proof.Machine

theorem State.with_ssShadow_same {s : State} {b : Bool} (h : s.ssShadow = b) : { s with ssShadow := b } = s := by
  subst h
  rfl

section
variable {s : State} (hdebug : s.debugIn.hasFault = false) (hshadow : s.ssShadow = false)
include hdebug hshadow

/-- An NMI that is not held off is the first event after the debug faults (R198). -/
theorem stepEvent_nmi (hnmi : s.nmiPending = true) (hframe : s.nmiFrame = none) :
    stepEvent s = report reportFuel { s with nmiPending := false } { s with nmiPending := false } .nmi := by
  have htake : (s.nmiPending && s.nmiFrame.isNone && !s.ssShadow) = true := by simp [hnmi, hframe, hshadow]
  unfold stepEvent
  rw [State.with_ssShadow_same hshadow, hdebug, htake]
  rfl

/-- With no NMI to take, an external interrupt comes before the instruction where IF lets it (R196, R198). -/
theorem stepEvent_external {v : Byte} (hnmi : s.nmiPending = false ∨ s.nmiFrame ≠ none) (hintr : s.intr = some v) (hif : s.flag flagIF = true) :
    stepEvent s = report reportFuel { s with intr := none } { s with intr := none } (.external v) := by
  have hpass : (s.nmiPending && s.nmiFrame.isNone && !s.ssShadow) = false := by
    rcases hnmi with hnone | hheld
    · simp [hnone]
    · simp [Option.isNone_eq_false_iff.mpr (Option.isSome_iff_ne_none.mpr hheld)]
  have htake : (s.flag flagIF && !s.ssShadow) = true := by rw [hif, hshadow]; rfl
  unfold stepEvent
  rw [State.with_ssShadow_same hshadow, hdebug, hpass, hintr, htake]
  rfl

end

/-- Settles O20: NMI, then the external interrupt, then the instruction; a load of SS lets only the instruction through. -/
theorem interruptsAtBoundary : Obligations.InterruptsAtBoundary := by
  refine ⟨fun s hdebug hnmi hframe hshadow => stepEvent_nmi hdebug hshadow hnmi hframe,
    fun s v hdebug hnmi hintr hif hshadow => stepEvent_external hdebug hshadow hnmi hintr hif, fun s hdebug hshadow hvm => ?_⟩
  exact stepEvent_eq_stepInstr hvm hdebug (by simp [hshadow]) (.inr (by simp [hshadow]))

end Sys2Proof.Machine
end

section
/-! PROOFS. Scope: loads and stores of segment registers, LLDT, MOV from a control register. -/

namespace Sys2Proof.Machine

/-! ## Loads of a segment register -/

theorem loadFar_ok {s : State} {seg : SegReg} {sz : OpSize} {m : MemOp} {v : SegState} (hread : s.farReadable sz m = true)
    (hload : s.segLoad seg (s.farSel sz m) = some v) (r : Reg) :
    loadFar seg sz r (.mem m) s = .ok () ((s.withSeg seg v).setReg sz r (s.farOff sz m)).advance :=
  (farOperand_ok hread _).trans (bind_ok (loadSegReg_ok hload))

/-- Settles O45: the five instructions are one load, of their own segment register. -/
theorem loadFarPointerCompletes : Obligations.LoadFarPointerCompletes := by
  intro s i seg sz r m v hready hform hread hload
  have hexec : exec i s = runInstr (loadFar seg sz r (.mem m)) s := by
    rcases hform with ⟨rfl, rfl⟩ | ⟨rfl, rfl⟩ | ⟨rfl, rfl⟩ | ⟨rfl, rfl⟩ | ⟨rfl, rfl⟩
    all_goals rfl
  exact completes_of_run hready hexec (loadFar_ok hread hload r) (by simp)

/-- A MOV to a segment register that the ModRM byte can name (R112). -/
theorem exec_movSregRm {sreg : BitVec 3} {seg : SegReg} (hseg : SegReg.ofBits sreg = some seg) (hcs : seg ≠ .cs) (rm : RM) (s : State) :
    exec (.movSregRm sreg rm) s = runInstr (do
      let v ← readRM .s16 rm
      loadSegReg seg (v.setWidth 16)
      change (fun s => { s with ssShadow := s.ssShadow || decide (seg = SegReg.ss) }.advance)) s := by
  refine runInstr_congr ?_
  rw [hseg]
  cases seg with
  | cs => exact absurd rfl hcs
  | _ => rfl

/-- Settles O47: the operand is read, its selector loaded, and the hold-off noted. -/
theorem movToSegmentCompletes : Obligations.MovToSegmentCompletes := by
  intro s sreg seg rm v hready hseg hcs hread hload
  have hvalue : readRM .s16 rm s.begin = .ok (s.begin.rmValue .s16 rm) s.begin := readRM_ok hread
  refine completes_of_run hready (exec_movSregRm hseg hcs rm s) ?_ rfl
  rw [bind_ok hvalue, bind_ok (loadSegReg_ok hload)]
  rfl

/-- A POP to a segment register moves the stack pointer that the old SS names (log entry 28). -/
theorem popSeg_ok {s : State} {seg : SegReg} {sz : OpSize} {v : SegState} (hpop : s.canPop s.sp sz.bytes = true)
    (hload : s.segLoad seg ((s.onStack s.sp sz.bytes).setWidth 16) = some v) :
    popSeg seg sz s = .ok () ((s.withSeg seg v).setReg s.stackOp .esp (s.sp + BitVec.ofNat 32 sz.bytes)).advance := by
  have hss : s.segs.ss.checked = true := ss_checked_of_canPop hpop
  unfold popSeg
  rw [bind_ok (getSp_ok hss), bind_ok (stackRead_ok hpop), bind_ok (stackBig_ok hss), bind_ok (loadSegReg_ok hload), bind_ok (change_run _ _)]
  rfl

/-- Settles O50: all five POPs are one load; POP SS notes the hold-off after it. -/
theorem popSegmentCompletes : Obligations.PopSegmentCompletes := by
  intro s i seg sz v hready hform b hpop hload
  have hrun := popSeg_ok hpop hload
  have hkeep : ((b.withSeg seg v).setReg b.stackOp .esp (b.sp + BitVec.ofNat 32 sz.bytes)).advance.ssShadow = s.ssShadow := by
    rw [State.advance_ssShadow, State.setReg_ssShadow]
    rfl
  by_cases hss : seg = .ss
  · have hexec : exec i s = runInstr (popSeg .ss sz >>= fun _ => change (fun s => { s with ssShadow := true })) s := by
      subst hss
      rcases hform with ⟨-, h⟩ | ⟨rfl, -⟩ | ⟨-, h⟩ | ⟨-, h⟩ | ⟨-, h⟩
      case inr.inl => rfl
      all_goals cases h
    subst hss
    rw [decide_eq_true rfl, Bool.or_true]
    exact completes_of_run hready hexec (bind_ok hrun) (by simp [b])
  · have hexec : exec i s = runInstr (popSeg seg sz) s := by
      rcases hform with ⟨rfl, rfl⟩ | ⟨-, h⟩ | ⟨rfl, rfl⟩ | ⟨rfl, rfl⟩ | ⟨rfl, rfl⟩
      case inr.inl => exact absurd h hss
      all_goals rfl
    rw [decide_eq_false hss, Bool.or_false, State.with_ssShadow_same hkeep]
    exact completes_of_run hready hexec hrun (by simp [b])

/-! ## LLDT -/

theorem ldtLoad_ok {s : State} {sel : Word16} {l : LdtReg} (h : s.ldtLoad sel = some l) : ldtLoad sel s = .ok l s := by
  unfold State.ldtLoad at h
  unfold ldtLoad
  split at h
  next hn =>
    cases h
    rw [if_pos hn]
    rfl
  next hn =>
    split at h
    next => cases h
    next hgdt =>
      split at h
      next base limit hd =>
        cases h
        rw [if_neg hn, Bool.eq_false_of_not_eq_true hgdt, Bool.not_false, bind_ok (require_true _ _), bind_ok (readDesc_ok hd)]
        dsimp only
        rw [bind_ok (require_true _ _)]
        rfl
      next => cases h

section
variable {s : State} {sel : Word16} (hn : isNull sel = false)
include hn

/-- A selector that picks nothing from the GDT (R111, log entry 31). -/
theorem ldtLoad_outside (h : inLdt sel = true ∨ descAddr s sel = none) :
    ldtLoad sel s = .error (.exc (.generalProtection (selError sel))) s := by
  unfold ldtLoad
  rw [hn, if_neg (by decide)]
  cases hldt : inLdt sel with
  | true => rfl
  | false =>
    have haddr : descAddr s sel = none := h.resolve_left (by rw [hldt]; decide)
    rw [Bool.not_false, bind_ok (require_true _ _), bind_error (readDesc_outside haddr)]

theorem ldtLoad_notLdt {d : Desc} (hgdt : inLdt sel = false) (hd : s.descOf sel = some d) (hkind : ∀ p x y, d ≠ .ldt p x y) :
    ldtLoad sel s = .error (.exc (.generalProtection (selError sel))) s := by
  unfold ldtLoad
  rw [hn, if_neg (by decide), hgdt, Bool.not_false, bind_ok (require_true _ _), bind_ok (readDesc_ok hd)]
  cases d with
  | ldt p x y => exact absurd rfl (hkind p x y)
  | _ => rfl

theorem ldtLoad_absent {base limit : Word32} (hgdt : inLdt sel = false) (hd : s.descOf sel = some (.ldt false base limit)) :
    ldtLoad sel s = .error (.exc (.notPresent (selError sel))) s := by
  unfold ldtLoad
  rw [hn, if_neg (by decide), hgdt, Bool.not_false, bind_ok (require_true _ _), bind_ok (readDesc_ok hd)]
  rfl

end

/-- LLDT at level 0 is the load of its operand's selector (R111). -/
theorem exec_lldt {s : State} {rm : RM} (hcpl : s.cpl = 0) (hread : s.begin.rmReadable 2 rm = true) :
    exec (.lldt rm) s = runInstr (do
      let l ← ldtLoad ((s.begin.rmValue .s16 rm).setWidth 16)
      change (fun s => { s with ldtr := l }.advance)) s := by
  have hlevel : (s.begin.cpl == 0) = true := by simpa using hcpl
  have hvalue : readRM .s16 rm s.begin = .ok (s.begin.rmValue .s16 rm) s.begin := readRM_ok hread
  refine runInstr_congr ?_
  rw [bind_ok (look_run _ _), hlevel, bind_ok (require_true _ _), bind_ok hvalue]

/-- Settles O46: the level, the selector, the kind of its descriptor and the present bit are tested in turn. -/
theorem lldtLoads : Obligations.LldtLoads := by
  refine fun s rm hready => ⟨?_, fun hcpl => ?_⟩
  · intro hcpl hread sel
    have hexec := exec_lldt hcpl hread
    have hfault : ∀ {e}, ldtLoad sel s.begin = .error (.exc e) s.begin → Faults (.lldt rm) s e :=
      fun h => faults_of_raise hready hexec (bind_error h)
    refine ⟨fun l hl => completes_of_run hready hexec (bind_ok (ldtLoad_ok hl)) rfl, fun hn =>
      ⟨fun hout => hfault (ldtLoad_outside hn hout), fun d hgdt hd => ⟨fun hkind => hfault (ldtLoad_notLdt hn hgdt hd hkind), ?_⟩⟩⟩
    rintro x y rfl
    exact hfault (ldtLoad_absent hn hgdt hd)
  · have hlevel : (s.begin.cpl == 0) = false := by simpa using hcpl
    refine runInstr_raise hready ?_
    rw [bind_ok (look_run _ _), hlevel, bind_error (require_false _ _)]

/-! ## Stores of a segment register -/

theorem read_rmStored_other (s : State) (sz : OpSize) (v : Word32) (rm : RM) {a : Nat} (ha : a ∉ s.rmTargets sz.bytes rm) :
    Memory.read (s.rmStored sz v rm).mem a = Memory.read s.mem a := by
  cases rm with
  | reg r => exact congrArg (Memory.read · a) (State.setReg_mem ..)
  | mem m => exact read_storeBytes_other _ _ _ ha

theorem segReg_ofBits_eq_none : ∀ n : BitVec 3, SegReg.ofBits n = none ↔ n = 6 ∨ n = 7 := by decide

/-- Settles O49: a number that names a register stores its selector; 6 and 7 name none. -/
theorem movFromSegmentCompletes : Obligations.MovFromSegmentCompletes := by
  refine fun s sreg rm hready => ⟨fun seg hseg hwrite => ⟨?_, fun a ha => ?_⟩, segReg_ofBits_eq_none sreg,
    fun h => movRmSreg_unnamed hready ((segReg_ofBits_eq_none sreg).mpr h)⟩
  · have hstore := writeRM_ok (s := s.begin) (sz := .s16) (v := (s.segs.get seg).sel.setWidth 32) hwrite
    refine runInstr_ok hready ?_
    rw [hseg]
    exact (bind_ok (look_run _ _)).trans (bind_ok hstore)
  · exact read_rmStored_other s.begin .s16 _ rm ha

theorem pushSeg_ok {s : State} {seg : SegReg} {sz : OpSize} (hpush : (s.selCounted sz).canPush sz = true) :
    pushSeg seg sz s = .ok () ((s.selCounted sz).pushed sz (selDrawn sz s.freeCtr (s.segs.get seg).sel)).advance := by
  unfold pushSeg
  rw [bind_ok (look_run _ _), bind_ok (selImage_run _ _ _), bind_ok (push_ok hpush _), change_run]

/-- Settles O51: all six PUSHes are one push of the selector's image. -/
theorem pushSegmentCompletes : Obligations.PushSegmentCompletes := by
  intro s i seg sz hready hform c hpush
  have hexec : exec i s = runInstr (pushSeg seg sz) s := by
    rcases hform with ⟨rfl, rfl⟩ | ⟨rfl, rfl⟩ | ⟨rfl, rfl⟩ | ⟨rfl, rfl⟩ | ⟨rfl, rfl⟩ | ⟨rfl, rfl⟩
    all_goals rfl
  refine ⟨hexec.trans (runInstr_ok hready (pushSeg_ok hpush)), fun a ha => ?_⟩
  exact (read_pushed_other c sz _ ha).trans (congrArg (Memory.read · a) (State.selCounted_mem s.begin sz))

/-! ## MOV from a control register -/

/-- Settles O53: the level is the only test. -/
theorem movFromControlRegister : Obligations.MovFromControlRegister := by
  intro s cr r hready
  refine ⟨fun hcpl => completes_of_run hready rfl (t := (s.begin.setGpr r (s.ctl cr)).advance) ?_ rfl,
    fun hcpl => faults_of_raise hready rfl ?_⟩
  · have hlevel : (s.begin.cpl == 0) = true := by simpa using hcpl
    rw [bind_ok (look_run _ _), id_eq, hlevel, bind_ok (require_true _ _)]
    cases cr <;> rfl
  · have hlevel : (s.begin.cpl == 0) = false := by simpa using hcpl
    rw [bind_ok (look_run _ _), id_eq, hlevel, bind_error (require_false _ _)]

end Sys2Proof.Machine
end

section
/-! PROOFS. Scope: far JMP and CALL: to code of the same level, to a TSS, through a call gate to more privileged code. -/

namespace Sys2Proof.Machine

/-! ## The forms of a far JMP and a far CALL -/

section
variable {s : State} {m : MemOp} {sz : OpSize}

theorem exec_jmpMem (h : s.begin.farReadable sz m = true) :
    exec (.jmpMem sz (.mem m)) s = runInstr (farTransfer false sz (s.begin.farSel sz m) (s.begin.farOff sz m)) s :=
  runInstr_congr (farOperand_ok h _)

theorem exec_callMem (h : s.begin.farReadable sz m = true) :
    exec (.callMem sz (.mem m)) s = runInstr (farTransfer true sz (s.begin.farSel sz m) (s.begin.farOff sz m)) s :=
  runInstr_congr (farOperand_ok h _)

end

/-- Each form of a far JMP or CALL is a far transfer to its selector. -/
theorem exec_far {s : State} {i : Instr} {sel : Word16}
    (h : (∃ off, i = .jmpPtr off sel ∨ i = .callPtr off sel) ∨
      (∃ sz m, (i = .jmpMem sz (.mem m) ∨ i = .callMem sz (.mem m)) ∧ s.begin.farReadable sz m = true ∧ sel = s.begin.farSel sz m)) :
    ∃ call sz off, exec i s = runInstr (farTransfer call sz sel off) s := by
  rcases h with ⟨off, rfl | rfl⟩ | ⟨sz, m, rfl | rfl, hread, rfl⟩
  · exact ⟨false, off.size, immValue off, rfl⟩
  · exact ⟨true, off.size, immValue off, rfl⟩
  · exact ⟨_, _, _, exec_jmpMem hread⟩
  · exact ⟨_, _, _, exec_callMem hread⟩

/-! ## To the same level -/

/-- Settles O40: both forms are one transfer, which keeps the level by `FarSame` and pushes nothing. -/
theorem jmpFarSameLevel : Obligations.JmpFarSameLevel := by
  intro s i sz z sel x off o d hready hform hfar
  have hexec : exec i s = runInstr (farTransfer false sz sel off) s := by
    rcases hform with ⟨p, rfl, rfl, rfl⟩ | ⟨m, rfl, hread, rfl, rfl⟩
    · rfl
    · exact exec_jmpMem hread
  obtain ⟨hsame, hlimit⟩ := farTransfer_level (call := false) hfar
  exact completes_of_run hready hexec (hsame.trans (enterSame_jmp hlimit)) rfl

/-- Settles O41: both forms are one transfer, which keeps the level by `FarSame` and pushes CS and the next EIP before it loads CS. -/
theorem callFarSameLevel : Obligations.CallFarSameLevel := by
  intro s i sz z sel x off o d hready hform hfar c l hpush
  have hexec : exec i s = runInstr (farTransfer true sz sel off) s := by
    rcases hform with ⟨p, rfl, rfl, rfl⟩ | ⟨m, rfl, hread, rfl, rfl⟩
    · rfl
    · exact exec_callMem hread
  obtain ⟨hsame, hlimit⟩ := farTransfer_level (call := true) hfar
  refine ⟨hexec.trans (runInstr_ok hready (hsame.trans (enterSame_call hlimit hpush))), fun a ha => ?_⟩
  rw [State.settle_mem, State.jump_mem, State.sameCs, State.setCs_mem, read_pushedAll_other z l c ha, State.selCounted_mem, State.begin_mem]

/-! ## To a TSS, by selector or through a task gate -/

section
variable {s : State} {call : Bool} {sz : OpSize} {sel tsel : Word16} {off : Word32}

theorem dataPrivilege_ok {cpl dpl : BitVec 2} (hc : cpl ≤ dpl) (hr : rpl sel ≤ dpl) : dataPrivilege cpl sel dpl = true := by
  rw [dataPrivilege, decide_eq_true hc, decide_eq_true hr, Bool.and_self]

/-- The start of a far transfer whose selector picks a TSS that the privilege rules let it use (R106). -/
theorem farTransfer_tss {busy present : Bool} {dpl : BitVec 2} {base limit : Word32} (hn : isNull sel = false)
    (hd : s.descOf sel = some (.tss busy present dpl base limit)) (hc : s.cpl ≤ dpl) (hr : rpl sel ≤ dpl) :
    farTransfer call sz sel off s = taskSwitch (if call then .call else .jmp) sel (s.segs.cs.sel, s.nextEip) s := by
  unfold farTransfer
  rw [hn, Bool.not_false, bind_ok (require_true _ _), bind_ok (readDesc_ok hd), bind_ok (look_run _ _), bind_ok (look_run _ _)]
  dsimp only
  rw [dataPrivilege_ok hc hr, bind_ok (require_true _ _)]

/-- The start of a far transfer whose selector picks a task gate that the privilege rules let it use (R106). -/
theorem farTransfer_taskGate {present : Bool} {dpl : BitVec 2} (hn : isNull sel = false) (hd : s.descOf sel = some (.taskGate present dpl tsel))
    (hc : s.cpl ≤ dpl) (hr : rpl sel ≤ dpl) :
    farTransfer call sz sel off s = (require present (.notPresent (selError sel)) >>= fun _ =>
      taskSwitch (if call then .call else .jmp) tsel (s.segs.cs.sel, s.nextEip)) s := by
  unfold farTransfer
  rw [hn, Bool.not_false, bind_ok (require_true _ _), bind_ok (readDesc_ok hd), bind_ok (look_run _ _), bind_ok (look_run _ _)]
  dsimp only
  rw [dataPrivilege_ok hc hr, bind_ok (require_true _ _)]

/-- The tests of a TSS of the GDT that a JMP, a CALL or an interrupt enters: the busy mark, the present bit, the limit (R153 row 1). -/
theorem locateTss_tests {cause : SwitchCause} {busy present : Bool} {dpl : BitVec 2} {base limit : Word32} (hcause : cause ≠ .iret)
    (hgdt : inLdt tsel = false) (hd : s.descOf tsel = some (.tss busy present dpl base limit)) :
    locateTss cause tsel s = (do
      require (!busy) (.generalProtection (selError tsel))
      require present (.notPresent (selError tsel))
      require (decide (Config.tssMinLimit ≤ limit.toNat)) (.invalidTss (selError tsel))
      pure (base, limit)) s := by
  have hbusy : (busy == (cause == .iret)) = !busy := by rw [beq_false_of_ne hcause, beq_false]
  unfold locateTss
  rw [hgdt, Bool.not_false, bind_ok (require_true _ _), bind_ok (readDesc_ok hd)]
  dsimp only
  rw [hbusy]

theorem taskSwitch_unlocated {cause : SwitchCause} {pc : Word16 × Word32} {e : Exc} (h : locateTss cause tsel s = .error (.exc e) s) :
    taskSwitch cause tsel pc s = .error (.exc e) s :=
  bind_error h

end

/-- Settles O24: the selector or the gate leads to the TSS, whose tests come before the switch stores anything. -/
theorem tssVerifiedFirst : Obligations.TssVerifiedFirst := by
  intro s i sel hready hform hn
  obtain ⟨call, sz, off, hexec⟩ := exec_far hform
  refine ⟨fun tsel busy present dpl base limit hgdt hd hway => ?_, fun gdpl tsel hg hc hr => ?_⟩
  · have hswitch : farTransfer call sz sel off s.begin = taskSwitch (if call then .call else .jmp) tsel (s.segs.cs.sel, s.nextEip) s.begin := by
      rcases hway with ⟨rfl, hc, hr⟩ | ⟨gdpl, hg, hc, hr⟩
      · exact farTransfer_tss hn hd hc hr
      · exact (farTransfer_taskGate hn hg hc hr).trans (bind_ok (require_true _ _))
    have hcause : (if call then SwitchCause.call else .jmp) ≠ .iret := by cases call <;> decide
    have hfault : ∀ {e}, locateTss (if call then .call else .jmp) tsel s.begin = .error (.exc e) s.begin → Faults i s e :=
      fun h => faults_of_raise hready hexec (hswitch.trans (taskSwitch_unlocated h))
    have htests := locateTss_tests hcause hgdt hd
    refine ⟨?_, ?_, ?_⟩
    · rintro rfl
      exact hfault (htests.trans (bind_error (require_false _ _)))
    · rintro rfl rfl
      exact hfault (htests.trans ((bind_ok (require_true _ _)).trans (bind_error (require_false _ _))))
    · rintro rfl rfl hlimit
      have hshort : ¬Config.tssMinLimit ≤ limit.toNat := Nat.not_le.mpr hlimit
      rw [decide_eq_false hshort] at htests
      exact hfault (htests.trans ((bind_ok (require_true _ _)).trans ((bind_ok (require_true _ _)).trans (bind_error (require_false _ _)))))
  · exact faults_of_raise hready hexec ((farTransfer_taskGate hn hg hc hr).trans (bind_error (require_false _ _)))

/-! ## Through a call gate to more privileged code -/

/-- What an interlevel CALL does once CS is loaded: the new stack `ss:esp`, the frame with the parameters `ps` on it, the jump. `old` is the state before
the CALL (R108). -/
def enterInner (sz : OpSize) (old : State) (ps : List Word32) (ss : Word16) (esp off : Word32) : M Unit := do
  switchStack ss esp
  let ssImage ← selImage sz old.segs.ss.sel
  let csImage ← selImage sz old.segs.cs.sel
  onNewStack ss (pushAll sz ([ssImage, old.gpr.esp] ++ ps.reverse ++ [csImage, old.nextEip]))
  change (fun s => s.jump off)

section
variable {s : State} {sz : OpSize} {count : BitVec 5} {sel gsel ss : Word16} {off esp : Word32} {d : SegDesc} {ps : List Word32}

theorem throughCallGate_inner {readable : Bool} (hn : isNull gsel = false) (hd : s.descOf gsel = some (.seg true d))
    (hkind : d.kind = .code false readable) (hlevel : d.dpl < s.cpl) :
    throughCallGate true sz count gsel off s = callInner sz count gsel true d off s := by
  have hother : ¬(false || d.dpl == s.cpl) = true := by simpa using BitVec.ne_of_lt hlevel
  unfold throughCallGate
  rw [hn, Bool.not_false, bind_ok (require_true _ _), bind_ok (readDesc_ok hd), bind_ok (look_run _ _)]
  dsimp only
  rw [hkind]
  dsimp only
  rw [decide_eq_true (BitVec.le_of_lt hlevel), bind_ok (require_true _ _), if_neg hother, bind_ok (require_true _ _)]

/-- A far CALL through a present call gate that the privilege rules let it use, to more privileged code (R108). -/
theorem farTransfer_inner {z : OpSize} {o : Word32} {gdpl : BitVec 2} {readable : Bool} (hsel : isNull sel = false)
    (hg : s.descOf sel = some (.callGate true gdpl sz count gsel off)) (hc : s.cpl ≤ gdpl) (hr : rpl sel ≤ gdpl) (hn : isNull gsel = false)
    (hd : s.descOf gsel = some (.seg true d)) (hkind : d.kind = .code false readable) (hlevel : d.dpl < s.cpl) :
    farTransfer true z sel o s = callInner sz count gsel true d off s := by
  unfold farTransfer
  rw [hsel, Bool.not_false, bind_ok (require_true _ _), bind_ok (readDesc_ok hg), bind_ok (look_run _ _), bind_ok (look_run _ _)]
  dsimp only
  rw [dataPrivilege_ok hc hr, bind_ok (require_true _ _), bind_ok (require_true _ _), throughCallGate_inner hn hd hkind hlevel]

/-- The parameters and the new stack's place are read before CS is loaded. -/
theorem callInner_start (hss : s.segs.ss.checked = true) (hoff : off.toNat ≤ d.limit.toNat) (hps : s.params sz count.toNat s.sp = some ps)
    (hstack : s.tssStack d.dpl = some (ss, esp)) :
    callInner sz count gsel true d off s =
      enterInner sz s ps ss esp off (s.setCs { sel := withRpl gsel d.dpl, desc := d, checked := true }) := by
  unfold callInner
  rw [bind_ok (codeReady_ok hoff), bind_ok (look_run _ _), bind_ok (getSp_ok hss), bind_ok (readParams_ok _ _ _ _ _ hps),
    bind_ok (innerStack_ok hstack)]
  rfl

end

section
variable {s : State} {sz : OpSize}

theorem pushAll_outside {v : Word32} {r : List Word32} (hc : s.segs.ss.checked = true) (ha : s.segs.ss.desc.allows .write = true)
    (ho : s.segs.ss.desc.inLimit (s.pushAt sz) sz.bytes = false) : pushAll sz (v :: r) s = .error (.exc (.stackFault 0)) s :=
  bind_error (push_outside hc ha ho v)

theorem onNewStack_stackFault {α : Type} {ss ec : Word16} {m : M α} {t : State} (h : m s = .error (.exc (.stackFault ec)) t) :
    onNewStack ss m s = .error (.exc (.stackFault (selError ss))) t := by
  unfold onNewStack
  rw [h]

/-- A stack segment that passes its tests can be written (R118). -/
theorem segLoad_ss_allows {sel : Word16} {v : SegState} (h : s.segLoad .ss sel = some v) : v.desc.allows .write = true := by
  unfold State.segLoad at h
  split at h
  next => cases h
  next =>
    split at h
    next => cases h
    next d hd =>
      have hspec := segTest_spec .ss s.cpl sel d
      split at h
      next x hx =>
        cases h
        rw [hx] at hspec
        obtain ⟨hfit, rfl⟩ := hspec
        rw [unfit_ss, not_or, not_or] at hfit
        obtain ⟨hcode, hdata, -⟩ := hfit
        refine Bool.of_not_eq_false fun hw => ?_
        rcases (allows_eq_false _ _).mp hw with ⟨-, hd | hc⟩ | ⟨h, -⟩
        · exact hdata hd
        · exact hcode hc
        · cases h
      next => cases h

end

/-- The state in which an interlevel CALL pushes its frame: the stack `v:esp` loaded, the images of two selectors drawn (R108). -/
def State.innerFraming (c : State) (sz : OpSize) (v : SegState) (esp : Word32) : State := (((c.withSeg .ss v).withSp esp).selCounted sz).selCounted sz

/-- The frame: the SS and ESP of `old`, the parameters, the CS and the next EIP of `old` (R108). -/
def State.innerFrame (c : State) (sz : OpSize) (v : SegState) (esp : Word32) (old : State) (ps : List Word32) : List Word32 :=
  [selDrawn sz c.freeCtr old.segs.ss.sel, old.gpr.esp] ++ ps.reverse ++
    [selDrawn sz (((c.withSeg .ss v).withSp esp).selCounted sz).freeCtr old.segs.cs.sel, old.nextEip]

@[simp] theorem State.innerFraming_ss (c : State) (sz : OpSize) (v : SegState) (esp : Word32) : (c.innerFraming sz v esp).segs.ss = v := by
  simp [State.innerFraming, State.withSeg, SegRegs.set]

@[simp] theorem State.innerFraming_mem (c : State) (sz : OpSize) (v : SegState) (esp : Word32) : (c.innerFraming sz v esp).mem = c.mem := by
  simp [State.innerFraming]

/-- A frame that does not fit leaves nothing but the two draws (R131). -/
theorem cutOff_innerFraming (s : State) (cs : SegState) (sz : OpSize) (v : SegState) (esp : Word32) :
    cutOff s.begin ((s.begin.setCs cs).innerFraming sz v esp) = (s.begin.selCounted sz).selCounted sz := by
  have hctr : ((s.begin.setCs cs).innerFraming sz v esp).freeCtr = ((s.begin.selCounted sz).selCounted sz).freeCtr := by
    cases sz <;> simp [State.innerFraming, State.selCounted]
  rw [cutOff_begin (by simp [State.innerFraming]) (by simp [State.innerFraming]), hctr]
  cases sz <;> rfl

section
variable {c : State} {sz : OpSize} {old : State} {ps : List Word32} {ss : Word16} {esp off : Word32} {v : SegState}

section
variable (hload : c.segLoad .ss ss = some v)
include hload

theorem enterInner_loaded : enterInner sz old ps ss esp off c =
    (onNewStack ss (pushAll sz (c.innerFrame sz v esp old ps)) >>= fun _ => change (fun s => s.jump off)) (c.innerFraming sz v esp) := by
  have hctr : ((c.withSeg .ss v).withSp esp).freeCtr = c.freeCtr := State.withSp_freeCtr ..
  unfold enterInner State.innerFrame
  rw [bind_ok (switchStack_ok hload), bind_ok (selImage_run _ _ _), bind_ok (selImage_run _ _ _), hctr]
  rfl

theorem enterInner_ok (hpush : (c.innerFraming sz v esp).canPushAll sz (c.innerFrame sz v esp old ps) = true) :
    enterInner sz old ps ss esp off c = .ok () (((c.innerFraming sz v esp).pushedAll sz (c.innerFrame sz v esp old ps)).jump off) :=
  (enterInner_loaded hload).trans (bind_ok (onNewStack_ok (pushAll_ok _ hpush)))

/-- A new stack too small for the first push (R165). -/
theorem enterInner_overflow (hout : v.desc.inLimit ((c.innerFraming sz v esp).pushAt sz) sz.bytes = false) :
    enterInner sz old ps ss esp off c = .error (.exc (.stackFault (selError ss))) (c.innerFraming sz v esp) := by
  have hfull : pushAll sz (c.innerFrame sz v esp old ps) (c.innerFraming sz v esp) = .error (.exc (.stackFault 0)) (c.innerFraming sz v esp) := by
    refine pushAll_outside ?_ ?_ ?_
    · rw [State.innerFraming_ss]
      exact segLoad_ss_checked hload
    · rw [State.innerFraming_ss]
      exact segLoad_ss_allows hload
    · rw [State.innerFraming_ss]
      exact hout
  exact (enterInner_loaded hload).trans (bind_error (onNewStack_stackFault hfull))

end

/-- An absent stack segment that would fit at the new level (R164, R165). -/
theorem enterInner_absent {x : SegDesc} (hn : isNull ss = false) (hd : c.descOf ss = some (.seg false x))
    (hfit : ¬Unfit .ss c.cpl ss (.seg false x)) : enterInner sz old ps ss esp off c = .error (.exc (.stackFault (selError ss))) c :=
  bind_error (bind_error (bind_error (checkSelector_absent hn hd hfit)))

end

/-- Settles O42: the tests, the parameters and the new stack's place come first; then the stack is loaded, or is absent, and the frame pushed, or does not fit. -/
theorem interlevelCall : Obligations.InterlevelCall := by
  intro s i sz count gdpl sel gsel ss off esp d readable ps hready hss hform hsel hg hc hr hn hd hkind hlevel hoff hps hstack c
  have hbody : ∃ z o, exec i s = runInstr (farTransfer true z sel o) s := by
    rcases hform with ⟨o, rfl⟩ | ⟨z, m, rfl, hread, rfl⟩
    · exact ⟨o.size, immValue o, rfl⟩
    · exact ⟨_, _, exec_callMem hread⟩
  obtain ⟨z, o, hexec⟩ := hbody
  have hrun : farTransfer true z sel o s.begin = enterInner sz s.begin ps ss esp off c :=
    (farTransfer_inner hsel hg hc hr hn hd hkind hlevel).trans (callInner_start hss hoff hps hstack)
  refine ⟨?_, fun x e hnss hdss hx hrpl hdpl => ?_⟩
  · intro v hload k k' l
    refine ⟨fun hpush => ⟨hexec.trans (runInstr_ok hready (hrun.trans (enterInner_ok hload hpush))), fun a ha => ?_⟩, fun hout => ?_⟩
    · have hmem : k'.mem = s.mem := State.innerFraming_mem ..
      rw [State.settle_mem, State.jump_mem, read_pushedAll_other sz l k' ha, hmem]
    · refine (hexec.trans (runInstr_exc hready (hrun.trans (enterInner_overflow hload hout)))).trans ?_
      rw [cutOff_innerFraming]
  · have hcpl : c.cpl = d.dpl := rpl_withRpl gsel d.dpl
    have hfit : ¬Unfit .ss c.cpl ss (.seg false x) := by
      rw [unfit_ss, hcpl]
      simp [hx, hrpl, hdpl]
    exact hexec.trans (runInstr_exc hready (hrun.trans (enterInner_absent hnss hdss hfit)))

end Sys2Proof.Machine
end

section
/-! PROOFS. Scope: RETF and IRET: what is popped, the same level, an outer level. -/

namespace Sys2Proof.Machine

section
variable {s : State} {sz : OpSize} {sel : Word16} {d : SegDesc}

/-- The tests of the CS that a return pops (R109, R119). -/
theorem returnCode_ok {off : Word32} (h : s.returnSeg sel off = some d) : returnCode sel s = .ok d s ∧ off.toNat ≤ d.limit.toNat := by
  unfold State.returnSeg at h
  split at h
  next => cases h
  next htest =>
    rw [Bool.or_eq_true, not_or, decide_eq_true_eq, BitVec.not_lt] at htest
    obtain ⟨hn, hlevel⟩ := htest
    split at h
    next => cases h
    next x hx =>
      split at h
      next sd hcode =>
        split at h
        next hlimit =>
          cases h
          refine ⟨?_, of_decide_eq_true hlimit⟩
          unfold returnCode
          rw [Bool.eq_false_of_not_eq_true hn, Bool.not_false, bind_ok (require_true _ _), bind_ok (look_run _ _), decide_eq_true hlevel,
            bind_ok (require_true _ _), bind_ok (readDesc_ok hx), hcode]
          rfl
        next => cases h
      next => cases h

theorem returnLevel_same {top release : Word32} (hss : s.segs.ss.checked = true) (hlevel : rpl sel = s.cpl) :
    returnLevel (rpl sel == s.cpl) sz top release sel d s = .ok () ((s.withSp top).setCs { sel := sel, desc := d, checked := true }) := by
  rw [hlevel, beq_self_eq_true]
  exact bind_ok (setSp_ok hss top)

/-- A return to an outer level pops its stack at the inner one, and loads SS once CS is loaded (R109). -/
theorem returnLevel_outer {top release esp : Word32} {v : SegState} (hlevel : rpl sel ≠ s.cpl) (hesp : s.canPop top sz.bytes = true)
    (hss : s.canPop (top + BitVec.ofNat 32 sz.bytes) sz.bytes = true)
    (hload : (s.setCs { sel := sel, desc := d, checked := true }).segLoad .ss
      ((s.onStack (top + BitVec.ofNat 32 sz.bytes) sz.bytes).setWidth 16) = some v) (hsum : s.onStack top sz.bytes + release = esp) :
    returnLevel (rpl sel == s.cpl) sz top release sel d s =
      .ok () (((s.setCs { sel := sel, desc := d, checked := true }).withSeg .ss v).withSp esp).nullOuter := by
  rw [beq_false_of_ne hlevel, ← hsum]
  show returnOuter sz top release sel d s = _
  unfold returnOuter
  rw [bind_ok (stackRead_ok hesp), bind_ok (stackRead_ok hss), bind_ok (change_run _ _), bind_ok (loadSegReg_ok hload),
    bind_ok (setSp_ok (segLoad_ss_checked hload) _), change_run]

/-- The state after a far return from `s` whose stack and CS are those of `t`: EIP, and by IRET the flags that the level may change (R109). -/
def State.returned (s t : State) (iret : Bool) (sz : OpSize) (eip flags : Word32) : State :=
  State.jump (if iret then { t with eflags := maskMerge (iretMask sz s.cpl s.iopl) s.eflags flags } else t) eip

/-- A far return pops EIP, CS and by IRET the flags, tests them, and goes on at its level (R109). -/
theorem returnFar_ok {t : State} {iret : Bool} {release eip flags top : Word32} (hcanEip : s.canPop s.sp sz.bytes = true)
    (hcanCs : s.canPop (s.sp + BitVec.ofNat 32 sz.bytes) sz.bytes = true) (heip : s.onStack s.sp sz.bytes = eip)
    (hsel : (s.onStack (s.sp + BitVec.ofNat 32 sz.bytes) sz.bytes).setWidth 16 = sel)
    (hflags : popFlags iret (s.sp + BitVec.ofNat 32 sz.bytes + BitVec.ofNat 32 sz.bytes) sz s = .ok flags s)
    (htop : (if iret then s.sp + BitVec.ofNat 32 sz.bytes + BitVec.ofNat 32 sz.bytes + BitVec.ofNat 32 sz.bytes
      else s.sp + BitVec.ofNat 32 sz.bytes + BitVec.ofNat 32 sz.bytes) + release = top)
    (hvm : (iret && sz == .s32 && s.cpl == 0 && flags.getLsbD flagVM) = false) (hcode : s.returnSeg sel eip = some d)
    (hlevel : returnLevel (rpl sel == s.cpl) sz top release sel d s = .ok () t) (hkept : t.eflags = s.eflags) :
    returnFar sz release iret s = .ok () (s.returned t iret sz eip flags) := by
  obtain ⟨hreturn, hlimit⟩ := returnCode_ok hcode
  subst heip hsel htop
  unfold returnFar State.returned
  dsimp only
  rw [bind_ok (getSp_ok (ss_checked_of_canPop hcanEip)), bind_ok (stackRead_ok hcanEip), bind_ok (stackRead_ok hcanCs), bind_ok hflags,
    bind_ok (look_run _ _), bind_ok (look_run _ _), hvm, Bool.not_false, bind_ok (covered_true _ _), bind_ok hreturn, decide_eq_true hlimit,
    bind_ok (require_true _ _), bind_ok hlevel, ← hkept]
  cases iret <;> rfl

end

/-! ## RETF -/

/-- Settles O43: EIP and CS are popped and pass their tests, and the level of CS says which of the two returns it is. -/
theorem retfReturns : Obligations.RetfReturns := by
  intro s i sz release d hready hform b n eip sel top heip hcs hcode cs
  have hexec : exec i s = runInstr (returnFar sz release false) s := by
    rcases hform with ⟨rfl, rfl⟩ | ⟨n, rfl, rfl⟩
    all_goals rfl
  have hrun : ∀ {t}, returnLevel (rpl sel == b.cpl) sz top release sel d b = .ok () t → t.eflags = b.eflags →
      returnFar sz release false b = .ok () (b.returned t false sz eip 0) := returnFar_ok heip hcs rfl rfl rfl rfl rfl hcode
  refine ⟨fun hlevel => ?_, fun hlevel hesp hss v hload => ?_⟩
  · exact completes_of_run hready hexec (hrun (returnLevel_same (ss_checked_of_canPop heip) hlevel) (by simp)) (by simp [b])
  · exact completes_of_run hready hexec (hrun (returnLevel_outer hlevel hesp hss hload rfl) (by simp)) (by simp [b])

/-! ## IRET -/

/-- Outside a nested task an IRET returns from the entry on the stack, which is no abort's, and ends an NMI that was entered there (R193, R195). -/
theorem returnHandler_stack {s : State} {sz : OpSize} (hss : s.segs.ss.checked = true) (hnt : s.flag flagNT = false)
    (habort : s.abortFrames.contains s.irets = false) : returnHandler sz s = returnFar sz 0 true (s.endNmi s.irets) := by
  have hframe : s.irets = .stack (s.segs.ss.desc.base + s.sp) := by
    rw [State.irets, hnt, if_neg (by decide)]
  have hreturn : returnFrame false s = .ok s.irets s := by
    rw [hframe]
    show (getSp >>= fun sp => segView .ss >>= fun stack => pure (HandlerFrame.stack (stack.base + sp))) s = _
    rw [bind_ok (getSp_ok hss), bind_ok (segView_ok (seg := .ss) hss)]
    rfl
  unfold returnHandler
  rw [bind_ok (look_run _ _), hnt, bind_ok hreturn, bind_ok (look_run _ _), habort, Bool.not_false, bind_ok (covered_true _ _),
    bind_ok (change_run _ _)]
  rfl

/-- Settles O44: the frame's entry is noted, then EIP, CS and the flags are popped and the return is one of the two of RETF. -/
theorem iretReturns : Obligations.IretReturns := by
  intro s sz d hready hnt habort b n eip sel flags top restored heip hcs hflags hvm hcode cs
  have hss : b.segs.ss.checked = true := ss_checked_of_canPop heip
  have hhandler : returnHandler sz s.begin = returnFar sz 0 true b := returnHandler_stack hss hnt habort
  have hv86 : (true && sz == .s32 && b.cpl == 0 && flags.getLsbD flagVM) = false := by
    by_cases h : sz = .s32 ∧ s.cpl = 0
    · rw [hvm h.1 h.2, Bool.and_false]
    · rw [Bool.true_and, show (sz == .s32 && b.cpl == 0) = false by simpa [b] using h, Bool.false_and]
  have hrun : ∀ {t}, returnLevel (rpl sel == b.cpl) sz top 0 sel d b = .ok () t → t.eflags = b.eflags →
      returnHandler sz s.begin = .ok () (b.returned t true sz eip flags) := fun h hkept =>
    hhandler.trans (returnFar_ok heip hcs rfl rfl (stackRead_ok hflags) (BitVec.add_zero _) hv86 hcode h hkept)
  refine ⟨fun hlevel => ?_, fun hlevel hesp hss v hload => ?_⟩
  · exact completes_of_run hready rfl (hrun (returnLevel_same hss hlevel) (by simp)) (by simp [b])
  · exact completes_of_run hready rfl (hrun (returnLevel_outer hlevel hesp hss hload (BitVec.add_zero _)) (by simp)) (by simp [b])

end Sys2Proof.Machine
end

section
/-! PROOFS. Scope: PUSH, POP, ENTER and LEAVE, MOV to a register. -/

namespace Sys2Proof.Machine

/-! ## PUSH and POP -/

/-- Settles O55: each form is one push of its operand, read before the stack pointer moves. -/
theorem pushCompletes : Obligations.PushCompletes := by
  intro s i sz v hready hform hpush
  have hexec : exec i s = runInstr (push sz v >>= fun _ => change State.advance) s := by
    rcases hform with ⟨r, rfl, rfl⟩ | ⟨rm, rfl, hread, rfl⟩ | ⟨x, rfl, rfl⟩ | ⟨w, rfl, rfl, rfl⟩ | ⟨rfl, rfl⟩
    · rfl
    · exact runInstr_congr (bind_ok (readRM_ok hread))
    all_goals rfl
  exact ⟨hexec.trans (runInstr_ok hready (bind_ok (push_ok hpush v))), fun a ha => read_pushed_other s.begin sz v ha⟩

/-- Settles O56: the pop moves the stack pointer before the destination is addressed and written. -/
theorem popCompletes : Obligations.PopCompletes := by
  intro s sz hready b v t hpop
  have hpop : pop sz b = .ok v t := pop_ok hpop
  have hmem : t.mem = s.mem := State.withSp_mem ..
  refine ⟨fun r => completes_of_run hready rfl (bind_ok hpop) (by simp [hmem]), fun rm hwrite => ⟨?_, fun a ha => ?_⟩⟩
  · refine runInstr_ok hready ?_
    exact (bind_ok hpop).trans (bind_ok (writeRM_ok hwrite))
  · exact (read_rmStored_other t sz v rm ha).trans (congrArg (Memory.read · a) hmem)

/-! ## ENTER and LEAVE -/

theorem ss_checked_of_canPush {s : State} {sz : OpSize} (h : s.canPush sz = true) : s.segs.ss.checked = true := by
  rw [State.canPush, Bool.and_eq_true] at h
  exact h.1

@[simp] theorem State.pushed_segs (s : State) (sz : OpSize) (v : Word32) : (s.pushed sz v).segs = s.segs := by simp [State.pushed]

@[simp] theorem State.pushed_switching (s : State) (sz : OpSize) (v : Word32) : (s.pushed sz v).switching = s.switching := by
  simp [State.pushed, State.stored]

/-- The copies of outer frame pointers leave the segment registers alone, and enter no task. -/
theorem State.copied_frame (sz : OpSize) (k : Nat) : ∀ (s : State) (bp : Word32),
    (s.copied sz k bp).segs = s.segs ∧ (s.copied sz k bp).switching = s.switching := by
  induction k with
  | zero => exact fun _ _ => ⟨rfl, rfl⟩
  | succ k ih =>
    intro s bp
    obtain ⟨hsegs, hswitching⟩ := ih (s.pushed sz (s.onStack (bp - BitVec.ofNat 32 sz.bytes) sz.bytes)) (bp - BitVec.ofNat 32 sz.bytes)
    exact ⟨hsegs.trans (State.pushed_segs ..), hswitching.trans (State.pushed_switching ..)⟩

@[simp] theorem State.nested_segs (s : State) (sz : OpSize) (level : Nat) (bp frame : Word32) : (s.nested sz level bp frame).segs = s.segs := by
  cases level with
  | zero => rfl
  | succ k => exact (State.pushed_segs ..).trans (State.copied_frame sz k s bp).1

@[simp] theorem State.nested_switching (s : State) (sz : OpSize) (level : Nat) (bp frame : Word32) :
    (s.nested sz level bp frame).switching = s.switching := by
  cases level with
  | zero => rfl
  | succ k => exact (State.pushed_switching ..).trans (State.copied_frame sz k s bp).2

theorem copyFrames_ok (sz : OpSize) (k : Nat) : ∀ {s : State} {bp : Word32}, s.canCopy sz k bp = true →
    copyFrames sz k bp s = .ok () (s.copied sz k bp) := by
  induction k with
  | zero => exact fun _ => rfl
  | succ k ih =>
    intro s bp h
    simp only [State.canCopy, Bool.and_eq_true] at h
    obtain ⟨⟨hread, hpush⟩, hrest⟩ := h
    unfold copyFrames
    rw [bind_ok (stackRead_ok hread), bind_ok (push_ok hpush _)]
    exact ih hrest

theorem nestFrames_ok {s : State} {sz : OpSize} {level : Nat} {bp : Word32} (h : s.canNest sz level bp = true) (frame : Word32) :
    nestFrames sz level bp frame s = .ok () (s.nested sz level bp frame) := by
  cases level with
  | zero => rfl
  | succ k =>
    simp only [State.canNest, Bool.and_eq_true] at h
    obtain ⟨hcopy, hpush⟩ := h
    exact (bind_ok (copyFrames_ok sz k hcopy)).trans (push_ok hpush frame)

/-- Bytes outside those that the copies push are as before. -/
theorem read_copied_other (sz : OpSize) (k : Nat) : ∀ (s : State) (bp : Word32) {a : Nat}, a ∉ s.copyTargets sz k bp →
    Memory.read (s.copied sz k bp).mem a = Memory.read s.mem a := by
  induction k with
  | zero => exact fun _ _ _ _ => rfl
  | succ k ih =>
    intro s bp a ha
    rw [State.copyTargets, List.mem_append, not_or] at ha
    obtain ⟨hpush, hrest⟩ := ha
    exact (ih _ _ hrest).trans (read_pushed_other s sz _ hpush)

theorem read_nested_other (s : State) (sz : OpSize) (level : Nat) (bp frame : Word32) {a : Nat} (ha : a ∉ s.nestTargets sz level bp) :
    Memory.read (s.nested sz level bp frame).mem a = Memory.read s.mem a := by
  cases level with
  | zero => rfl
  | succ k =>
    rw [State.nestTargets, List.mem_append, not_or] at ha
    obtain ⟨hcopy, hpush⟩ := ha
    exact (read_pushed_other _ sz frame hpush).trans (read_copied_other sz k s bp hcopy)

/-- Storing parts of a journal again leaves every register alone but the notes of what was stored, and counts the draws. -/
theorem State.redo_eq (l : List (List Host.Cell)) : ∀ s : State, s.redo l = { s with
    mem := (s.redo l).mem, codeStores := (s.redo l).codeStores, ptStores := (s.redo l).ptStores
    entryDoubts := (s.redo l).entryDoubts, freeCtr := (s.redo l).freeCtr } := by
  induction l with
  | nil => exact fun _ => rfl
  | cons c r ih =>
    intro s
    rw [State.redo, ih]
    split
    · rw [State.storeCells_eq]
      rfl
    · rfl

/-- An attempt that entered no task leaves the registers as they were, whatever it stored (R131). -/
theorem cutOff_registers (s : State) {t : State} (hswitch : t.switching = .idle) :
    (cutOff s t).gpr = s.gpr ∧ (cutOff s t).segs = s.segs ∧ (cutOff s t).eip = s.eip ∧ (cutOff s t).eflags = s.eflags := by
  unfold cutOff rollback
  rw [hswitch, if_neg (by decide), State.redo_eq]
  exact ⟨rfl, rfl, rfl, rfl⟩

/-- Settles O57: the pushes and copies go through, then the final stack pointer is tested; where it lies outside SS the attempt is cut off, and only
what it stored may remain. -/
theorem enterCompletes : Obligations.EnterCompletes := by
  intro s sz size level hready b k bp t u top hpush hnest
  have hsegs : u.segs = b.segs := (State.nested_segs ..).trans (State.pushed_segs ..)
  have hswitching : u.switching = .idle := (State.nested_switching ..).trans (State.pushed_switching ..)
  have hss : b.segs.ss.checked = true := ss_checked_of_canPush hpush
  have hsst : t.segs.ss.checked = true := (congrArg (·.ss.checked) (State.pushed_segs ..)).trans hss
  have hssu : u.segs.ss.checked = true := (congrArg (·.ss.checked) hsegs).trans hss
  have hview : segView .ss u = .ok b.segs.ss.desc u := by
    rw [segView_ok (seg := .ss) hssu, hsegs]
    rfl
  have hframes : nestFrames sz (level.toNat % 32) (b.reg (stackSize b.segs.ss.desc.big) .ebp) t.sp t = .ok () u := nestFrames_ok hnest t.sp
  obtain ⟨body, hexec, hbody⟩ : ∃ body, exec (.enter sz size level) s = runInstr body s ∧
      body b = (require (b.segs.ss.desc.inLimit top 1) (.stackFault 0) >>= fun _ =>
        change (fun s => ((s.setReg b.stackOp .ebp t.sp).setReg b.stackOp .esp top).advance)) u := by
    refine ⟨_, rfl, ?_⟩
    rw [bind_ok (stackBig_ok hss), bind_ok (look_run _ _), bind_ok (look_run _ _), bind_ok (push_ok hpush _), bind_ok (getSp_ok hsst),
      bind_ok hframes, bind_ok (getSp_ok hssu)]
    exact bind_ok hview
  refine ⟨fun hin => ⟨?_, fun a ha => ?_⟩, fun hout => ⟨?_, cutOff_registers b hswitching⟩⟩
  · rw [hin] at hbody
    exact hexec.trans (runInstr_ok hready hbody)
  · rw [List.mem_append, not_or] at ha
    obtain ⟨hframe, hcopies⟩ := ha
    rw [State.settle_mem, State.advance_mem, State.setReg_mem, State.setReg_mem]
    exact (read_nested_other t sz k bp t.sp hcopies).trans (read_pushed_other b sz _ hframe)
  · rw [hout] at hbody
    exact hexec.trans (runInstr_exc hready hbody)

/-- Settles O58: the frame pointer is read before either register changes. -/
theorem leaveCompletes : Obligations.LeaveCompletes := by
  intro s sz hready b bp hpop
  have hss : b.segs.ss.checked = true := ss_checked_of_canPop hpop
  refine completes_of_run hready rfl ?_ (by simp [b])
  rw [bind_ok (stackBig_ok hss), bind_ok (look_run _ _)]
  exact bind_ok (stackRead_ok hpop)

/-! ## MOV to a register -/

/-- A memory operand through a null selector is not read (R55). -/
theorem readRM_null {s : State} {sz : OpSize} {m : MemOp} (hnull : (nullMatters (opSeg m) && isNull (s.segs.get (opSeg m)).sel) = true) :
    readRM sz (.mem m) s = .error (.exc (.generalProtection 0)) s :=
  (bind_ok (look_run _ _)).trans (bind_error (segLin_null hnull _ _ _))

/-- Settles O59: the operand is read before the register is written; where its offset lies outside the limit, a null selector, which is never that of
SS, raises the same exception as the limit. -/
theorem movRegisterCompletes : Obligations.MovRegisterCompletes := by
  intro s sz r rm hready
  refine ⟨fun hread => completes_of_run hready rfl (bind_ok (readRM_ok hread)) (by simp), fun m hrm hc ha ho => ?_⟩
  subst hrm
  refine faults_of_raise hready rfl (bind_error ?_)
  cases hnull : nullMatters (opSeg m) && isNull (s.segs.get (opSeg m)).sel with
  | true =>
    have hss : opSeg m ≠ .ss := ((nullMatters_iff _).mp (Bool.and_eq_true_iff.mp hnull).1).2
    rw [if_neg hss]
    exact readRM_null hnull
  | false => exact readRM_outside hc hnull ha ho

end Sys2Proof.Machine
end

section
/-! PROOFS. Scope: the modes that the model leaves out. -/

namespace Sys2Proof.Machine

/-- A mode that the model leaves out stops every meaning before it begins, an instruction's own effect and a trap alike (R200, R201). -/
theorem exec_refused {s : State} {r : Refusal} (h : s.modeRefusal = some r) (i : Instr) : exec i s = .refused r := by
  rcases exec_shape i s with ⟨body, hexec, -⟩ | ⟨ev, hexec, -⟩
  · rw [hexec, runInstr, h]
  · rw [hexec, runTrap, h]

theorem modeRefusal_real {s : State} (hpe : s.pe = false) : s.modeRefusal = some .realMode := by
  rw [State.modeRefusal, hpe]
  rfl

theorem modeRefusal_v86 {s : State} (hpe : s.pe = true) (hvm : s.flag flagVM = true) : s.modeRefusal = some .v86Mode := by
  rw [State.modeRefusal, hpe, hvm]
  rfl

/-- Settles O12: after shutdown the mode is the first test of a step, and it is the first of every meaning. -/
theorem realModeRefused : Obligations.RealModeRefused := by
  refine ⟨fun s hrun hpe => ?_, fun i s hpe => exec_refused (modeRefusal_real hpe) i⟩
  rw [step, hrun, hpe]
  rfl

/-- Settles O13: V86 mode is the second test of every meaning. -/
theorem v86Refused : Obligations.V86Refused := fun i _ hpe hvm => exec_refused (modeRefusal_v86 hpe hvm) i

end Sys2Proof.Machine
end

section
/-! PROOFS. Scope: the table of exceptions; what comes of a second one while a handler is invoked. -/

namespace Sys2Proof.Machine

/-! ## The table -/

/-- A debug exception is a fault by its conditions, and else a trap (R138). -/
theorem debug_excClass (c : DebugConds) :
    ((Exc.debug c).excClass = .fault ↔ c.instrBp ≠ 0 ∨ c.generalDetect = true) ∧ (Exc.debug c).excClass ≠ .abort := by
  have hfault : c.hasFault = true ↔ c.instrBp ≠ 0 ∨ c.generalDetect = true := by
    rw [DebugConds.hasFault, Bool.or_eq_true, bne_iff_ne]
  rw [← hfault, Exc.excClass]
  cases c.hasFault <;> decide

/-- Settles O14: one row for each exception; the class of a debug exception hangs on its conditions. -/
theorem exceptionTable : Obligations.ExceptionTable := by
  intro e
  cases e with
  | debug c => exact ⟨rfl, debug_excClass c⟩
  | _ => rfl

/-! ## Reporting a second exception -/

/-- Table 9-4 (R186). -/
theorem isDouble_iff (first second : DfClass) : isDouble first second = true ↔
    (first = .contributory ∧ second = .contributory) ∨ (first = .pageFault ∧ (second = .contributory ∨ second = .pageFault)) := by
  cases first <;> cases second <;> decide

theorem software_iff {ev : Event} : ev.software = true ↔ (∃ v, ev = .soft v) ∨ ev = .exc .breakpoint ∨ ev = .exc .overflow := by
  refine ⟨fun h => ?_, ?_⟩
  · rcases software_cases h with hbreakpoint | hsoft | hoverflow
    · exact .inr (.inl hbreakpoint)
    · exact .inl hsoft
    · exact .inr (.inr hoverflow)
  · rintro (⟨v, rfl⟩ | rfl | rfl)
    all_goals rfl

section
variable {old src t : State} {ev : Event} {e : Exc}

/-- An exception while the double-fault handler is invoked (R187). -/
theorem report_shutDown (h : invoke (.exc .doubleFault) (src.attempt (.exc .doubleFault)) = .error (.exc e) t) (n : Nat) :
    report (n + 1) old src (.exc .doubleFault) = .next ((cutOff (old.recordEvent (.exc .doubleFault)) t).record e).shutDown := by
  unfold State.attempt at h
  rw [report, h]
  exact if_pos rfl

variable (h : invoke ev (src.attempt ev) = .error (.exc e) t) (hev : ev ≠ .exc .doubleFault)
include h hev

/-- Two exceptions that come to a double fault (R186). -/
theorem report_double (hdouble : isDouble ev.dfClass e.dfClass = true) (n : Nat) :
    report (n + 1) old src ev =
      report n ((cutOff (old.recordEvent ev) t).record e) ((cutOff (old.recordEvent ev) t).record e) (.exc .doubleFault) := by
  unfold State.attempt at h
  rw [report, h]
  exact (if_neg hev).trans (if_pos hdouble)

/-- Two exceptions that are handled serially (R184, R186). -/
theorem report_serial (hserial : isDouble ev.dfClass e.dfClass = false) (n : Nat) :
    report (n + 1) old src ev = report n ((cutOff (old.recordEvent ev) t).record e).drawn ((cutOff (old.recordEvent ev) t).record e).drawn
      (.exc (secondExc ev ((cutOff (old.recordEvent ev) t).record e) e)) := by
  unfold State.attempt at h
  rw [report, h]
  exact (if_neg hev).trans (if_neg (by rw [hserial]; decide))

end

theorem secondExc_software {ev : Event} (h : ev.software = true) (s : State) (e : Exc) : secondExc ev s e = e := if_pos h

theorem secondExc_outside {ev : Event} (h : ev.software = false) (s : State) (e : Exc) :
    secondExc ev s e = e.withExt (Config.freeBit s.freeCtr) := if_neg (by rw [h]; decide)

/-- EXT is set in a code that is not 0, and open in one that is (R180, R181). -/
theorem extCode_eq (nullBit : Bool) (ec : Word16) : extCode nullBit ec = if ec ≠ 0 then ec ||| 1 else if nullBit = true then 1 else 0 :=
  (ite_not ..).symm

/-- Settles O15: the classes of the two exceptions choose between the double fault and the second one, whose EXT the first event decides. -/
theorem secondExceptionOutcome : Obligations.SecondExceptionOutcome := by
  refine ⟨fun n old src t ev e hev hinvoke => ?_, rfl, rfl, rfl, fun _ => rfl⟩
  intro u double asked withExt
  have hdouble : isDouble ev.dfClass e.dfClass = true ↔ double := isDouble_iff _ _
  have hasked : ev.software = true ↔ asked := software_iff
  have hserial : ¬double → report (n + 1) old src ev = report n u.drawn u.drawn (.exc (secondExc ev u e)) := fun hd =>
    report_serial hinvoke hev (Bool.eq_false_of_not_eq_true (hdouble.not.mpr hd)) n
  refine ⟨fun hd => report_double hinvoke hev (hdouble.mpr hd) n, fun hd ha => ?_, fun hd ha => ?_⟩
  · rw [hserial hd, secondExc_software (hasked.mpr ha)]
  · have hext : extCode (Config.freeBit u.freeCtr) = withExt := funext (extCode_eq _)
    rw [hserial hd, secondExc_outside (Bool.eq_false_of_not_eq_true (hasked.not.mpr ha)), ← hext]
    cases e <;> rfl

/-- Settles O16: the report ends in shutdown, and shutdown is the first test of a step. -/
theorem doubleFaultShutsDown : Obligations.DoubleFaultShutsDown := by
  refine ⟨fun n old src t e hinvoke => ⟨_, report_shutDown hinvoke n, rfl⟩, fun s hdown => ?_⟩
  rw [step, if_pos hdown]

end Sys2Proof.Machine
end

section
/-! PROOFS. Scope: the debug traps that follow a step, and the one that comes before it. -/

namespace Sys2Proof.Machine

/-- With no other condition about, a step that began with TF set is due the single-step trap alone (R134, R138). -/
theorem trapsDue_singleStep {s t : State} (htrap : t.taskTrap = false) (hheld : t.heldTraps = {}) (hdebug : s.debugIn = {})
    (htf : s.flag flagTF = true) : t.heldTraps.join (trapsDue s t) = { singleStep := true } := by
  rw [hheld, trapsDue, hdebug, htf, htrap]
  rfl

theorem State.with_heldTraps_same {s : State} {c : DebugConds} (h : s.heldTraps = c) : { s with heldTraps := c } = s := by
  subst h
  rfl

/-- A delivered fault is followed by no trap, but for a task's debug trap bit (R134). -/
theorem afterEvent_faulted {s t : State} (hkind : t.stepKind = .faulted) (htrap : t.taskTrap = false) : afterEvent s t = .next t := by
  rw [afterEvent, if_pos hkind, htrap]
  exact ite_self _

/-- Traps that are due after an instruction that completed are reported from the state it left (R132), and fall back to that before it (R184). -/
theorem afterEvent_due {s t : State} {c : DebugConds} (hrun : t.shutdown = false) (hkind : t.stepKind = .plain) (hshadow : t.ssShadow = false)
    (hdue : t.heldTraps.join (trapsDue s t) = c) (hc : c.hasTrap = true) :
    afterEvent s t = reportTraps { s with heldTraps := {}, ssShadow := false } { t with heldTraps := {} } c := by
  rw [afterEvent, hrun, if_neg (by decide), hkind, if_neg (by decide)]
  dsimp only
  rw [hdue, hc, hshadow]
  rfl

/-- Settles O19: by the branches of what follows a step; a task's debug trap that is still to be reported comes before any event. -/
theorem trapsFollowCompletion : Obligations.TrapsFollowCompletion := by
  refine ⟨fun s t hkind htrap => afterEvent_faulted hkind htrap, fun s t hrun hkind hshadow htrap hheld hdebug htf => ?_,
    fun s hrun hpe htrap => ?_⟩
  · rw [afterEvent_due hrun hkind hshadow (trapsDue_singleStep htrap hheld hdebug htf) rfl, State.with_heldTraps_same hheld]
    exact ⟨fun hpe => if_pos hpe, fun hpe => if_neg (by rw [hpe]; decide)⟩
  · rw [step, stepBody, reportTraps, hrun, hpe, htrap]
    rfl

end Sys2Proof.Machine
end

section
/-! PROOFS. Scope: the tests of INT 3, INT n and INTO on their IDT entry. -/

namespace Sys2Proof.Machine

/-- Eight times the vector plus 2: the vector as index, the I-bit set (R182). -/
theorem idtError_eq (v : Byte) : idtError v = BitVec.ofNat 16 (8 * v.toNat + 2) := by
  have hor : v.toNat <<< 3 ||| 2 = v.toNat <<< 3 + 2 := (Nat.shiftLeft_add_eq_or_of_lt (by decide) _).symm
  have hv : v.toNat < 256 := v.isLt
  have hshift : (v.setWidth 16 <<< 3).toNat = v.toNat <<< 3 := by
    rw [BitVec.toNat_shiftLeft, BitVec.toNat_setWidth, Nat.shiftLeft_eq, Nat.shiftLeft_eq]
    omega
  apply BitVec.eq_of_toNat_eq
  rw [idtError, BitVec.toNat_or, hshift, BitVec.toNat_ofNat, show (2 : Word16).toNat = 2 from rfl, hor, Nat.shiftLeft_eq]
  omega

/-! ## The IDT entry -/

section
variable {s : State} {ev : Event} {g : Desc} {present : Bool} {dpl : BitVec 2}

theorem readGate_outside (h : s.idtr.limit.toNat < 8 * ev.vector.toNat + 7) :
    readGate ev s = .error (.exc (.generalProtection (idtError ev.vector))) s := by
  unfold readGate
  rw [bind_ok (look_run _ _), decide_eq_false (by omega), bind_error (require_false _ _)]

variable (h : s.idtEntry ev.vector = some g) (hg : handlerGate g = some (present, dpl))
include h hg

/-- A gate that an IDT entry may hold is tested for its DPL, then for its present bit (log entry 24). -/
theorem readGate_tests : readGate ev s = (do
    require (!ev.software || decide (s.cpl ≤ dpl)) (.generalProtection (idtError ev.vector))
    require present (.notPresent (idtError ev.vector))
    pure g : M Desc) s := by
  obtain ⟨hlimit, hread⟩ := idtEntry_spec h
  unfold readGate
  rw [bind_ok (look_run _ _), decide_eq_true hlimit, bind_ok (require_true _ _), bind_ok hread, hg]
  exact bind_ok (look_run _ _)

theorem readGate_denied (hsoft : ev.software = true) (hd : dpl < s.cpl) :
    readGate ev s = .error (.exc (.generalProtection (idtError ev.vector))) s := by
  rw [readGate_tests h hg, hsoft, decide_eq_false (BitVec.not_le.mpr hd)]
  exact bind_error (require_false _ _)

theorem readGate_absent (hpresent : present = false) (hd : s.cpl ≤ dpl) :
    readGate ev s = .error (.exc (.notPresent (idtError ev.vector))) s := by
  rw [readGate_tests h hg, decide_eq_true hd, Bool.or_true, bind_ok (require_true _ _), hpresent]
  exact bind_error (require_false _ _)

end

/-! ## The second exception -/

section
variable {ev : Event} (h : ev.software = true)
include h

theorem recordEvent_software (s : State) : s.recordEvent ev = s := by
  rcases software_cases h with rfl | ⟨n, rfl⟩ | rfl
  all_goals rfl

theorem dfClass_software : ev.dfClass = .benign := by
  rcases software_cases h with rfl | ⟨n, rfl⟩ | rfl
  all_goals rfl

end

/-- The attempt at its handler begins with the instruction complete and nothing else changed (R132). -/
theorem attempt_advance_software {ev : Event} (h : ev.software = true) (s : State) :
    s.begin.advance.attempt ev = { s.begin with eip := s.nextEip, delivering := some ev.delivering } := by
  rw [State.attempt, recordEvent_software h]
  rfl

/-- What translates does not depend on EIP or on what is being delivered. -/
theorem translateAll_delivering (s : State) (eip : Word32) (d : Option Delivering) (write user : Bool) (n : Nat) : ∀ lin,
    translateAll { s with eip := eip, delivering := d } write user n lin = translateAll s write user n lin := by
  have htranslate : ∀ lin, translate { s with eip := eip, delivering := d } write user lin = translate s write user lin := fun _ => rfl
  induction n with
  | zero => exact fun _ => rfl
  | succ n ih =>
    intro lin
    rw [translateAll, translateAll, htranslate, ih]

theorem idtEntry_delivering (s : State) (eip : Word32) (d : Option Delivering) (v : Byte) :
    State.idtEntry { s with eip := eip, delivering := d } v = s.idtEntry v := by
  unfold State.idtEntry State.mapped State.valueAt
  simp only [translateAll_delivering]

/-- An event that the instruction asked for and that fails on its IDT entry leaves nothing behind: the second exception is reported at the instruction
(R184), its code as it is (R181). -/
theorem runTrap_gateFails {s : State} {ev : Event} {e : Exc} (hready : s.ready) (hsoft : ev.software = true)
    (hgate : readGate ev (s.begin.advance.attempt ev) = .error (.exc e) (s.begin.advance.attempt ev)) :
    runTrap ev s = report 4 (s.begin.record e).drawn (s.begin.record e).drawn (.exc e) := by
  have hinvoke : invoke ev (s.begin.advance.attempt ev) = .error (.exc e) (s.begin.advance.attempt ev) := by
    rw [invoke_start, faced_software hsoft, bind_error hgate]
  have hback : cutOff (s.begin.recordEvent ev) (s.begin.advance.attempt ev) = s.begin := by
    rw [recordEvent_software hsoft, attempt_advance_software hsoft]
    rfl
  have hev : ev ≠ .exc .doubleFault := by
    rintro rfl
    cases hsoft
  have hserial : isDouble ev.dfClass e.dfClass = false := by
    rw [dfClass_software hsoft]
    rfl
  rw [runTrap_ready ev hready]
  exact (report_serial hinvoke hev hserial 4).trans (by rw [hback, secondExc_software hsoft])

/-- Settles O30: the three tests of the IDT entry, in the attempt that the instruction makes. -/
theorem intGateTests : Obligations.IntGateTests := by
  intro s i ev hready hform u ec
  obtain ⟨hexec, hsoft⟩ := exec_trap hform
  have hec : idtError ev.vector = ec := idtError_eq _
  have hattempt := attempt_advance_software hsoft s
  have hidtr : (s.begin.advance.attempt ev).idtr = s.idtr := by rw [hattempt]; rfl
  have hcpl : (s.begin.advance.attempt ev).cpl = s.cpl := by rw [hattempt]; rfl
  have hentry : (s.begin.advance.attempt ev).idtEntry ev.vector = s.begin.idtEntry ev.vector := by
    rw [hattempt]
    exact idtEntry_delivering ..
  rw [← hec, hexec]
  refine ⟨fun hlimit => ?_, fun present dpl size trap sel off hi hd => ?_, fun dpl size trap sel off hi hd => ?_⟩
  · exact runTrap_gateFails hready hsoft (readGate_outside (by rwa [hidtr]))
  · exact runTrap_gateFails hready hsoft (readGate_denied (hentry.trans hi) rfl hsoft (by rwa [hcpl]))
  · exact runTrap_gateFails hready hsoft (readGate_absent (hentry.trans hi) rfl rfl (by rwa [hcpl]))

end Sys2Proof.Machine
end

section
/-! PROOFS. Scope: exception 7 at ESC and WAIT. -/

namespace Sys2Proof.Machine

/-- EM stops an ESC, and so do MP and TS together (R100, R102). -/
theorem escAvailable_raise {s : State} (h : s.em = true ∨ (s.mp = true ∧ s.ts = true)) :
    escAvailable s = .error (.exc .coprocNotAvailable) s := by
  unfold escAvailable
  rw [bind_ok (look_run _ _), id_eq]
  cases hem : s.em with
  | true => exact bind_error (require_false _ _)
  | false =>
    obtain ⟨hmp, hts⟩ := h.resolve_left (by rw [hem]; decide)
    rw [Bool.not_false, bind_ok (require_true _ _), hmp, hts]
    exact bind_error (require_false _ _)

/-- Settles O34: the test for exception 7 is the first of ESC and of WAIT. -/
theorem coprocessorNotAvailable : Obligations.CoprocessorNotAvailable := by
  refine ⟨fun s op reg rm hready havail => ?_, fun s hready hmp hts => ?_, rfl⟩
  · exact faults_of_raise hready (exec_esc op reg rm s) (bind_error (escAvailable_raise havail))
  · have hstop : require (!(s.mp && s.ts)) .coprocNotAvailable s.begin = .error (.exc .coprocNotAvailable) s.begin := by
      rw [hmp, hts]
      rfl
    exact faults_of_raise hready rfl ((bind_ok (look_run _ _)).trans (bind_error hstop))

end Sys2Proof.Machine
end

section
/-! PROOFS. Scope: what a page fault records. -/

namespace Sys2Proof.Machine

/-! ## CR2 -/

/-- An attempt at a handler that goes through leaves CR2 as it found it (R27). -/
theorem invoke_cr2 {s t : State} {ev : Event} (h : invoke ev s = .ok () t) : t.cr2 = s.cr2 := by
  have hk := (closed_of_system_anyEnd (fun y => y.cr2 = s.cr2) fun _ h => h).keeps_invoke ev (fun _ _ _ h => h) s rfl
  rwa [h] at hk

/-! ## The error code on the stack -/

theorem State.mem_pushed_wf (s : State) (sz : OpSize) (v : Word32) (h : Memory.wf s.mem = true) : Memory.wf (s.pushed sz v).mem = true := by
  rw [State.pushed, State.withSp_mem]
  exact State.mem_storeBytes_wf s _ v h

theorem State.mem_pushedAll_wf (sz : OpSize) (l : List Word32) : ∀ s : State, Memory.wf s.mem = true → Memory.wf (s.pushedAll sz l).mem = true := by
  induction l with
  | nil => exact fun _ h => h
  | cons v r ih => exact fun s h => ih _ (s.mem_pushed_wf sz v h)

theorem coding_mem_wf {s : State} (hwf : Memory.wf s.mem = true) (ev : Event) (h : Handler) (pc : Word16 × Word32) :
    Memory.wf (s.coding ev h pc).mem = true := by
  rw [coding_mem, State.framed]
  exact State.mem_pushedAll_wf _ _ _ (by rwa [framing_mem])

/-- The three facts of a page fault in its error code (R173). -/
theorem pageCode_bits (p w u : Bool) :
    (pageCode p w u).getLsbD 0 = p ∧ (pageCode p w u).getLsbD 1 = w ∧ (pageCode p w u).getLsbD 2 = u := by
  revert p w u
  decide

/-- They stand in the low byte of what is pushed, whatever its open bits hold. -/
theorem lowByte_maskMerge (v c : Word32) {k : Nat} (hk : k < 3) : ((maskMerge 7 v c).setWidth 8).getLsbD k = c.getLsbD k := by
  have hmask : (7 : Word32).getLsbD k = true := by
    interval_cases k <;> rfl
  rw [maskMerge, BitVec.getLsbD_setWidth, decide_eq_true (by omega), BitVec.getLsbD_or, BitVec.getLsbD_and, BitVec.getLsbD_and, BitVec.getLsbD_not,
    hmask]
  simp

/-- The low byte of a push lies at the first of its addresses (O23). -/
theorem read_pushed_low {s : State} {sz : OpSize} (hwf : Memory.wf s.mem = true) (hpush : s.canPush sz = true) (v : Word32) :
    ∃ a rest, s.pushTargets sz = a :: rest ∧ Memory.read (s.pushed sz v).mem a = v.setWidth 8 := by
  obtain ⟨hlen, hbytes⟩ := pushStoresLittleEndian s sz v hwf hpush
  have hpos : 0 < (s.pushTargets sz).length := by
    rw [hlen]
    cases sz <;> decide
  obtain ⟨a, rest, hl⟩ := List.exists_cons_of_length_pos hpos
  refine ⟨a, rest, hl, ?_⟩
  have hlow := hbytes 0 hpos
  simpa only [hl, List.getElem_cons_zero, Nat.mul_zero, BitVec.ushiftRight_zero] using hlow

/-- Settles O18: the report enters the handler (O17), and the last push stores the error code, low byte first (O23). -/
theorem pageFaultRecorded : Obligations.PageFaultRecorded := by
  intro s lin p w u h hvm hwf ev b pc hh hp t
  have hinvoke : invoke ev b = .ok () (b.entered ev h pc) := invoke_gate ((attempt_vm s ev).trans hvm) hh hp
  obtain ⟨-, hreport, -⟩ := (eventEntersHandler 4 s s ev hvm).1 h hh hp
  have hpush : (b.coding ev h pc).canPush h.size = true := by
    obtain ⟨-, hcode⟩ := Bool.and_eq_true_iff.mp hp
    obtain ⟨hfirst, -⟩ := Bool.and_eq_true_iff.mp hcode
    exact hfirst
  have hcoding : Memory.wf (b.coding ev h pc).mem = true := coding_mem_wf (s := b) ((congrArg Memory.wf (recordEvent_mem s ev)).trans hwf) ev h pc
  obtain ⟨a, rest, hl, hbyte⟩ := read_pushed_low hcoding hpush (maskMerge 7 (Config.freeWord (b.framed h pc).freeCtr) (pageCode p w u))
  have hbit : ∀ k < 3, (Memory.read t.mem a).getLsbD k = (pageCode p w u).getLsbD k := fun k hk =>
    (congrArg (·.getLsbD k) hbyte).trans (lowByte_maskMerge _ _ hk)
  obtain ⟨hprot, hwrite, huser⟩ := pageCode_bits p w u
  refine ⟨hreport (by simp [ev]), invoke_cr2 hinvoke, a, rest, hl, ?_, ?_, ?_⟩
  · rw [hbit 0 (by decide), hprot]
  · rw [hbit 1 (by decide), hwrite]
  · rw [hbit 2 (by decide), huser]

end Sys2Proof.Machine
end

section
/-! PROOFS. Scope: the hold on NMI. -/

namespace Sys2Proof.Machine

/-- The hold on NMI is as `f` says: no operation, and no report of an exception or of a trap instruction, changes it. -/
theorem nmiFrame_reports (f : Option HandlerFrame) : Reports (fun s => s.nmiFrame = f) (fun _ => True) where
  drawn := fun _ h => h
  exc := fun _ _ => trivial
  refuse := fun _ => trivial
  page := fun _ _ _ _ _ _ _ => trivial
  store := fun _ _ _ h => h
  note := fun _ _ h => h
  segs := fun _ _ h _ => h
  ldtr := fun _ _ h => h
  gpr := fun _ _ h => h
  setCs := fun _ _ h => h
  eip := fun _ _ h => h
  jump := fun _ _ h => h
  eflags := fun _ _ h => h
  ssShadow := fun _ _ h => h
  abortFrames := fun _ _ h => h
  located := fun _ h => h
  commit := fun _ _ _ _ h => h
  load := fun _ _ _ h => h
  cr3 := fun _ _ h => h
  record := fun s e _ h => (State.record_nmiFrame s e).trans h
  book := fun _ _ _ _ _ _ _ h => h
  count := fun _ _ h => h

theorem nmiFrame_allows {i : Instr} (hi : ∀ sz, i ≠ .iret sz) (f : Option HandlerFrame) : Allows (fun s => s.nmiFrame = f) i where
  movCr := fun c _ _ s v _ h => (State.setCtl_nmiFrame s c v).trans h
  iret := fun sz h => absurd h (hi sz)

/-- The entry that an IRET returns from (R193). -/
theorem returnFrame_run {s : State} (hss : s.segs.ss.checked = true) : returnFrame (s.flag flagNT) s = .ok s.irets s := by
  unfold returnFrame State.irets
  cases s.flag flagNT with
  | true => rfl
  | false =>
    rw [if_neg (by decide), bind_ok (getSp_ok hss), bind_ok (segView_ok (seg := .ss) hss)]
    rfl

theorem endNmi_other {s : State} {f : HandlerFrame} (h : s.nmiFrame ≠ some f) : s.endNmi f = s := by
  rw [State.endNmi, if_neg h]

/-- An IRET from another entry than the NMI handler's is a return and no more. -/
theorem returnHandler_other {s : State} (hss : s.segs.ss.checked = true) (hother : s.nmiFrame ≠ some s.irets) (sz : OpSize) :
    returnHandler sz s = (covered (!s.abortFrames.contains s.irets) .abortReturn >>= fun _ => returnKind (s.flag flagNT) sz) s := by
  unfold returnHandler
  rw [bind_ok (look_run _ _), bind_ok (returnFrame_run hss), bind_ok (look_run _ _)]
  cases s.abortFrames.contains s.irets with
  | true => rfl
  | false =>
    rw [Bool.not_false, bind_ok (covered_true _ _), bind_ok (covered_true _ _), bind_ok (change_run _ _), endNmi_other hother]

/-- Settles O7: of the updates that an instruction makes only the end of an IRET writes the hold, and from another entry it writes what stood there. -/
theorem nmiHeldUntilIret : Obligations.NmiHeldUntilIret := by
  refine ⟨fun i s t hi ht => (nmiFrame_reports s.nmiFrame).exec i (nmiFrame_allows hi _) s rfl t ht, fun sz s t hss hother ht => ?_⟩
  have C := nmiFrame_reports s.nmiFrame
  have hexec : exec (.iret sz) s = runInstr _ s := runInstr_congr (returnHandler_other (s := s.begin) hss hother sz)
  rw [hexec] at ht
  exact C.runInstr _ (Keeps.bind (C.keeps_covered' _ _) fun _ => C.keeps_returnKind _ _) s rfl t ht

end Sys2Proof.Machine
end

section
/-! PROOFS. Scope: the state right after reset meets the invariant, the base case of `stepKeepsInvariant`. -/

namespace Sys2Proof.Machine

/-- Settles O2: memory lists nothing, paging is off, CPL is 0 as are the low bits of CS, and nothing is in progress. -/
theorem resetMeetsInvariant : Obligations.ResetMeetsInvariant where
  mem := reset_mem_wf
  paging := fun hpg => absurd hpg (by decide)
  level := rfl
  journal := rfl
  switching := rfl
  delivering := rfl

end Sys2Proof.Machine
end
